-- ==== Sys2Proof/Word.lean ====
section
/-! DEFINITION. The word types of the Stecen Bexzor (R4, R48, R105) and the one list type that holds sparse data by key. -/

namespace Sys2Proof

/-- A byte of memory (R4: the byte at the lowest address holds bits 7..0). -/
abbrev Byte := BitVec 8

/-- A scalar register, an address or a control register: 64 bits (R105, R112). -/
abbrev Word := BitVec 64

/-- An instruction word (R48) or a vector lane (R149). -/
abbrev W32 := BitVec 32

/-- Sparse data by number: a list of keys, strictly rising, with their values. -/
abbrev Tab (α : Type) := List (Nat × α)

end Sys2Proof
end

