-- ==== Sys2Proof/Syntax.lean ====
section
/-! DEFINITION. The instruction set as data: one constructor for each row of spec/opcode_table.json.
Register numbers, masks and codes are the fields of the encoding chapter (R48 to R67); the rows of the
table without an encoding (the device's own steps and the outside world's acts) carry the names of what they act on. -/

namespace Sys2Proof

/-- Rounding modes (R53). -/
inductive Rnd where
  | rne | rtz | rup | rdn | rna
  deriving DecidableEq, Repr, Inhabited

/-- Integer condition codes (R52). -/
inductive Cond where
  | eq | ne | lt | ge | ltn | gen
  deriving DecidableEq, Repr, Inhabited

/-- Floating-point condition codes: the codes 0..3 of R52. -/
inductive FCond where
  | eq | ne | lt | ge
  deriving DecidableEq, Repr, Inhabited

/-- Scope codes 2..6 of R51, the ones `AMO` and `BAR` accept. -/
inductive Scope where
  | core | quad | die | pkg | pod
  deriving DecidableEq, Repr, Inhabited

/-- Access size and extension of `LD` (R58, codes 0..6). -/
inductive LdSize where
  | b | h | w | d | sb | sh | sw
  deriving DecidableEq, Repr, Inhabited

/-- Access size of `ST` (R58, codes 0..3). -/
inductive StSize where
  | b | h | w | d
  deriving DecidableEq, Repr, Inhabited

/-- Access size of `SPL` (R58, codes 2, 3 and 6). -/
inductive SplSize where
  | w | d | sw
  deriving DecidableEq, Repr, Inhabited

/-- Access size of `SPS` (R58, codes 2 and 3). -/
inductive SpsSize where
  | w | d
  deriving DecidableEq, Repr, Inhabited

/-- The tag that `VLD` and `VSPLAT` write (R57, codes 0..3). -/
inductive CoreTag where
  | raw | f32 | i32 | n32
  deriving DecidableEq, Repr, Inhabited

/-- The type bit of the core vector instructions (R57). -/
inductive VTy where
  | f32 | i32
  deriving DecidableEq, Repr, Inhabited

/-- `VLOG` variants (R57). -/
inductive VLogOp where
  | and | or | xor | andn
  deriving DecidableEq, Repr, Inhabited

/-- `VSHF` variants (R57). -/
inductive VShfOp where
  | shl | shr | sra
  deriving DecidableEq, Repr, Inhabited

/-- `AMO` operations (R57). -/
inductive AmoOp where
  | add | min | max | and | or | xor | swap | cas
  deriving DecidableEq, Repr, Inhabited

/-- `FCVT` kinds (R140). -/
inductive FKind where
  | f32 | i32 | n32 | i64
  deriving DecidableEq, Repr, Inhabited

/-- A class-8 operand (R61): an engine queue or a stage queue of the image's queue table. -/
inductive QueueOp where
  | engine (n : BitVec 2)
  | stage (i : BitVec 12)
  deriving DecidableEq, Repr, Inhabited

/-- An operand word of an `RCALL` (R61), one constructor for each class. -/
inductive Opnd where
  | s (r : BitVec 6)
  | v (r : BitVec 6)
  | p (r : BitVec 4)
  | q (r : BitVec 4)
  | c (r : BitVec 5)
  | imm (k : BitVec 28)
  | immw (k : BitVec 32)
  | sem (n : BitVec 5)
  | queue (k : QueueOp)
  | fmt (k : BitVec 28)
  deriving DecidableEq, Repr, Inhabited

/-- The parts of a core that keep a correction counter of their own (R405): its scratchpad, an accumulator bank, a register file, its shadow storage. -/
inductive CorePart where
  | scratch
  | bank (n : Nat)
  | regs (n : Nat)
  | shadow
  deriving DecidableEq, Repr, Inhabited

/-- The resources that keep a correction counter (R405): a part of a core, a quad's network or shadow storage, a stack, a link port. -/
inductive Resource where
  | core (path : Nat) (part : CorePart)
  | quad (path : Nat) (shadow : Bool)
  | stack (n : Nat)
  | port (n : Nat)
  deriving DecidableEq, Repr, Inhabited

/-- How an instruction ended, as a package of a pod launch tells another (R363, R366, R422); to a package that runs, `cancelled` is a discard. -/
inductive LinkOutcome where
  | done
  | faulted (r : BitVec 256)
  | cancelled
  deriving DecidableEq, Repr, Inhabited

/-- How a child instruction's end is told (R366, R422): at a node of this package, or over a link, to a node, of its child of a number. -/
inductive ChildEnd where
  | own (node : Nat)
  | link (node child : Nat) (o : LinkOutcome)
  deriving DecidableEq, Repr, Inhabited

/-- Where a tile instruction that starts comes from (R363, R422): a node's inbox, or a link of the pod, to a node. -/
inductive TileStart where
  | inbox (node : Nat)
  | link (node : Nat) (tcb : BitVec 1024)
  deriving DecidableEq, Repr, Inhabited

/-- What meets an uncorrectable error (R231, R405): an access of a launch, or the copy of a page move, by address space and virtual base. -/
inductive ErrorHit where
  | launch (l : Nat)
  | move (asid va : Nat)
  deriving DecidableEq, Repr, Inhabited

/-- The strands that a pod barrier counts together (R167): the package, the stage and the strand kind. -/
structure PodSeat where
  pkg : Nat
  stage : Nat
  kind : Nat
  deriving DecidableEq, Repr, Inhabited

/-- The node kinds of a resident graph (R420). -/
inductive GraphNode where
  | launch (entry : List Byte)
  | copy (dst src : Word) (len : Nat)
  | loop (count : Nat) (back : Nat)
  | cond (addr : Word) (target : Nat)
  | signal (bit : Nat)
  deriving DecidableEq, Repr, Inhabited

/-- What an access that arrives at this device's memory from outside does (R229, R87). -/
inductive FwdOp where
  | read (len : Nat)
  | write (data : List Byte)
  | atomic (op : AmoOp) (wide : Bool) (v e : Word)
  deriving DecidableEq, Repr, Inhabited

/-- Who reaches a page from outside (the accessor classes of R230 other than the device itself). -/
inductive FwdFrom where
  | host
  | peer (pkg : Nat)
  | cxl
  deriving DecidableEq, Repr, Inhabited

/-- The instruction set, one constructor for each row of spec/opcode_table.json, in the table's order.
`q` is the squash bit (R55). -/
inductive Instr where
  -- Itver: integer (R127 to R134)
  | add (q : Bool) (d a b : BitVec 6)
  | sub (q : Bool) (d a b : BitVec 6)
  | mul (q : Bool) (d a b : BitVec 6)
  | mulh (q : Bool) (d a b : BitVec 6)
  | div (q : Bool) (d a b : BitVec 6)
  | rem (q : Bool) (d a b : BitVec 6)
  | and (q : Bool) (d a b : BitVec 6)
  | or (q : Bool) (d a b : BitVec 6)
  | xor (q : Bool) (d a b : BitVec 6)
  | shl (q : Bool) (d a b : BitVec 6)
  | shr (q : Bool) (d a b : BitVec 6)
  | sra (q : Bool) (d a b : BitVec 6)
  | min (q : Bool) (d a b : BitVec 6)
  | max (q : Bool) (d a b : BitVec 6)
  | clz (q : Bool) (d a : BitVec 6)
  | popc (q : Bool) (d a : BitVec 6)
  | addImm (q : Bool) (d a : BitVec 6) (i : BitVec 13)
  | mulImm (q : Bool) (d a : BitVec 6) (i : BitVec 13)
  | andImm (q : Bool) (d a : BitVec 6) (i : BitVec 13)
  | orImm (q : Bool) (d a : BitVec 6) (i : BitVec 13)
  | xorImm (q : Bool) (d a : BitVec 6) (i : BitVec 13)
  | shlImm (q : Bool) (d a n : BitVec 6)
  | shrImm (q : Bool) (d a n : BitVec 6)
  | sraImm (q : Bool) (d a n : BitVec 6)
  | minImm (q : Bool) (d a : BitVec 6) (i : BitVec 12)
  | maxImm (q : Bool) (d a : BitVec 6) (i : BitVec 12)
  | lui (q : Bool) (d : BitVec 6) (i : BitVec 19)
  | bfx (q : Bool) (d a p w : BitVec 6) (x : Bool)
  | bfi (q : Bool) (d a p w : BitVec 6)
  | sel (q : Bool) (d a b : BitVec 6) (p : BitVec 4)
  | cmp (q : Bool) (d : BitVec 4) (a b : BitVec 6) (c : Cond)
  | cmpImm (q : Bool) (d : BitVec 4) (a : BitVec 6) (c : Cond) (i : BitVec 10)
  | plog (q : Bool) (d a b t : BitVec 4)
  -- Itver: scalar floating point and exact accumulators (R136 to R143)
  | fadd (q : Bool) (d a b : BitVec 6) (r : Rnd)
  | fmul (q : Bool) (d a b : BitVec 6) (r : Rnd)
  | fmin (q : Bool) (d a b : BitVec 6)
  | fmax (q : Bool) (d a b : BitVec 6)
  | fcmp (q : Bool) (d : BitVec 4) (a b : BitVec 6) (c : FCond)
  | ffma (q : Bool) (d a b : BitVec 6) (r : Rnd)
  | fcvt (q : Bool) (d a : BitVec 6) (r : Rnd) (k e : FKind)
  | xclr (q : Bool) (d : BitVec 2)
  | xmac (q : Bool) (d : BitVec 2) (a b : BitVec 6)
  | xadd (q : Bool) (d a : BitVec 2)
  | xrnd (q : Bool) (d : BitVec 6) (a : BitVec 2) (r : Rnd)
  -- Itver: memory (R144 to R150)
  | ld (q : Bool) (d a : BitVec 6) (o : BitVec 10) (z : LdSize)
  | st (q : Bool) (d a : BitVec 6) (o : BitVec 10) (z : StSize)
  | amo (q : Bool) (d a b : BitVec 6) (o : AmoOp) (c : Scope) (w : Bool)
  | spl (q : Bool) (d a : BitVec 6) (o : BitVec 10) (z : SplSize)
  | sps (q : Bool) (d a : BitVec 6) (o : BitVec 10) (z : SpsSize)
  | mark (q : Bool)
  | vld (q : Bool) (d a : BitVec 6) (o : BitVec 10) (t : CoreTag)
  | vst (q : Bool) (d a : BitVec 6) (o : BitVec 10)
  -- Itver: core vector (R149 to R155)
  | vadd (q : Bool) (d a b : BitVec 6) (t : VTy)
  | vmul (q : Bool) (d a b : BitVec 6) (t : VTy)
  | vlog (q : Bool) (d a b : BitVec 6) (v : VLogOp)
  | vshf (q : Bool) (d a b : BitVec 6) (v : VShfOp)
  | vfma (q : Bool) (d a b : BitVec 6)
  | vcmp (q : Bool) (d : BitVec 4) (a b : BitVec 6) (t : VTy) (c : Cond)
  | vsel (q : Bool) (d a b : BitVec 6) (p : BitVec 4)
  | vperm (q : Bool) (d a b : BitVec 6)
  | vsplat (q : Bool) (d a : BitVec 6) (t : CoreTag)
  | vext (q : Bool) (d a l : BitVec 6)
  | vany (q : Bool) (d a : BitVec 4)
  | vall (q : Bool) (d a : BitVec 4)
  -- Itver: control (R156 to R160)
  | prep (q : Bool) (b : BitVec 3) (o : BitVec 22)
  | xfer (q : Bool) (p : BitVec 4) (v : Bool) (b : BitVec 3)
  | loopImm (q : Bool) (n : BitVec 16) (e : BitVec 8)
  | loopReg (q : Bool) (a : BitVec 6) (e : BitVec 8)
  | loopb (q : Bool)
  | call (q : Bool) (b : BitVec 3)
  | ret (q : Bool)
  | enter (q : Bool) (f : BitVec 6)
  | trap (q : Bool) (c : BitVec 12)
  | rte (q : Bool)
  -- Itver: synchronisation (R161 to R167)
  | semsig (q : Bool) (d : BitVec 5) (a : BitVec 6) (m : BitVec 4)
  | semwait (q : Bool) (d : BitVec 5) (a : BitVec 6)
  | mtxacq (q : Bool) (d : BitVec 3)
  | mtxrel (q : Bool) (d : BitVec 3)
  | fork (q : Bool) (m : BitVec 4)
  | rdv (q : Bool) (m : BitVec 4)
  | waitc (q : Bool) (l s c t : BitVec 6)
  | join (q : Bool) (m : BitVec 4)
  | qfence (q : Bool) (m : BitVec 4)
  | bar (q : Bool) (c : Scope)
  -- Itver: system and routine instructions (R168 to R175)
  | csrr (q : Bool) (d : BitVec 6) (n : BitVec 12)
  | csrw (q : Bool) (d : BitVec 6) (n : BitVec 12)
  | halt (q : Bool)
  | evpop (q : Bool) (d : BitVec 6)
  | rpop (q : Bool) (d : BitVec 6)
  | vrfon (q : Bool) (n : BitVec 4)
  | tnext (q : Bool) (d a : BitVec 6) (p : BitVec 4)
  | nop (q : Bool)
  | rchk (q : Bool)
  | rret (q : Bool)
  | rcall (q : Bool) (num : BitVec 14) (async : Bool) (ctr : BitVec 2) (ops : List Opnd)
  -- SRL: vector elementwise and conversion (R258)
  | vcvt (q : Bool) (d a : BitVec 6) (f : BitVec 28)
  | vqnt (q : Bool) (d a : BitVec 6) (f : BitVec 28)
  | vdqnt (q : Bool) (d a : BitVec 6) (f : BitVec 28)
  | vfadd (q : Bool) (d a b : BitVec 6) (f : BitVec 28)
  | vfsub (q : Bool) (d a b : BitVec 6) (f : BitVec 28)
  | vfmul (q : Bool) (d a b : BitVec 6) (f : BitVec 28)
  | vffma (q : Bool) (d a b : BitVec 6) (f : BitVec 28)
  | vfmin (q : Bool) (d a b : BitVec 6) (f : BitVec 28)
  | vfmax (q : Bool) (d a b : BitVec 6) (f : BitVec 28)
  | vfabs (q : Bool) (d a : BitVec 6) (f : BitVec 28)
  | vfneg (q : Bool) (d a : BitVec 6) (f : BitVec 28)
  | vclamp (q : Bool) (d a b c : BitVec 6) (f : BitVec 28)
  | vsadd (q : Bool) (d a b : BitVec 6) (f : BitVec 28)
  | vssub (q : Bool) (d a b : BitVec 6) (f : BitVec 28)
  | vsmul (q : Bool) (d a b : BitVec 6) (f : BitVec 28)
  | vidot (q : Bool) (d a b : BitVec 6) (f : BitVec 28)
  | vscale (q : Bool) (d a : BitVec 6) (b : BitVec 6) (f : BitVec 28)
  | vtag (q : Bool) (d a : BitVec 6) (f : BitVec 28)
  | vpack (q : Bool) (d a : BitVec 6) (f : BitVec 28)
  | vunpk (q : Bool) (d a : BitVec 6) (f : BitVec 28)
  | vzip (q : Bool) (d a b : BitVec 6) (f : BitVec 28)
  | vuzp (q : Bool) (d a b : BitVec 6) (f : BitVec 28)
  | vshuf (q : Bool) (d a i : BitVec 6) (f : BitVec 28)
  | vcompr (q : Bool) (d c a : BitVec 6) (p : BitVec 4)
  | vexpnd (q : Bool) (d a : BitVec 6) (p : BitVec 4)
  | vscan (q : Bool) (d a : BitVec 6) (f : BitVec 28)
  | viota (q : Bool) (d a b : BitVec 6)
  -- SRL: vector reductions, special functions, ranking (R278)
  | vrsum (q : Bool) (d a : BitVec 6) (p : BitVec 4) (f : BitVec 28)
  | vrmax (q : Bool) (d x a : BitVec 6) (p : BitVec 4) (f : BitVec 28)
  | vrmin (q : Bool) (d x a : BitVec 6) (p : BitVec 4) (f : BitVec 28)
  | vrdot (q : Bool) (d a b : BitVec 6) (p : BitVec 4) (f : BitVec 28)
  | vexp (q : Bool) (d a : BitVec 6) (f : BitVec 28)
  | vexp2 (q : Bool) (d a : BitVec 6) (f : BitVec 28)
  | vlog2 (q : Bool) (d a : BitVec 6) (f : BitVec 28)
  | vrcp (q : Bool) (d a : BitVec 6) (f : BitVec 28)
  | vrsqrt (q : Bool) (d a : BitVec 6) (f : BitVec 28)
  | vsqrt (q : Bool) (d a : BitVec 6) (f : BitVec 28)
  | vtanh (q : Bool) (d a : BitVec 6) (f : BitVec 28)
  | vsigm (q : Bool) (d a : BitVec 6) (f : BitVec 28)
  | vgelu (q : Bool) (d a : BitVec 6) (f : BitVec 28)
  | vsilu (q : Bool) (d a : BitVec 6) (f : BitVec 28)
  | vsoftmx (q : Bool) (d a n s : BitVec 6) (f : BitVec 28)
  | vexpsum (q : Bool) (d a n : BitVec 6) (f : BitVec 28)
  | vnormst (q : Bool) (d e a n : BitVec 6) (f : BitVec 28)
  | vnormap (q : Bool) (d a s t n e : BitVec 6) (f : BitVec 28)
  | vtopk (q : Bool) (d x a k b : BitVec 6) (f : BitVec 28)
  | vtopka (q : Bool) (d x a k b : BitVec 6) (f : BitVec 28)
  | vsort (q : Bool) (d x a : BitVec 6) (f : BitVec 28)
  | vmerge (q : Bool) (d e a b : BitVec 6) (f : BitVec 28)
  | vmpsrch (q : Bool) (d a b l g : BitVec 6) (f : BitVec 28)
  | vrsums (q : Bool) (d a : BitVec 6) (p : BitVec 4) (f : BitVec 28)
  -- SRL: matrix (R303)
  | mdesc (q : Bool) (d : BitVec 4) (w0 w1 w2 w3 : BitVec 6)
  | mnest (q : Bool) (lvl : BitVec 28) (cnt ab c : BitVec 6)
  | mgo (q : Bool) (qa qb : BitVec 4) (c : BitVec 5) (org : BitVec 6) (job : BitVec 28) (sem : BitVec 5)
  | acalloc (q : Bool) (c : BitVec 5) (g : BitVec 6) (f : BitVec 28)
  | acfree (q : Bool) (c : BitVec 5)
  | acown (q : Bool) (c : BitVec 5) (grp : BitVec 28) (band : BitVec 6)
  | mzero (q : Bool) (c : BitVec 5) (reg : BitVec 6) (job : BitVec 28) (sem : BitVec 5)
  | mldacc (q : Bool) (c : BitVec 5) (qs : BitVec 4) (reg : BitVec 6) (job : BitVec 28) (sem : BitVec 5)
  | mdrain (q : Bool) (c : BitVec 5) (qd : BitVec 4) (reg : BitVec 6) (f : BitVec 28) (job : BitVec 28) (sem : BitVec 5)
  | mpeer (q : Bool) (c : BitVec 5) (dst reg : BitVec 6) (f : BitVec 28) (job : BitVec 28) (sem : BitVec 5)
  | mstat (q : Bool) (d : BitVec 6) (k : BitVec 28)
  | mcast (q : Bool) (mc : BitVec 28)
  | mscale (q : Bool) (mode : BitVec 28) (v : BitVec 6)
  | mbias (q : Bool) (mode : BitVec 28) (v : BitVec 6)
  | mqflush (q : Bool)
  -- SRL: sparsity (R341)
  | sphdr (q : Bool) (a lo hi : BitVec 6)
  | spchk (q : Bool) (d : BitVec 6) (qa : BitVec 4)
  | spprune (q : Bool) (qd qs : BitVec 4) (opt : BitVec 6)
  | spxpose (q : Bool) (qd qs : BitVec 4)
  | spgath (q : Bool) (opd : BitVec 28) (i n : BitVec 6)
  | spcost (q : Bool) (d nm dim : BitVec 6) (f : BitVec 28)
  | spattach (q : Bool) (qd : BitVec 4) (hdr : BitVec 6)
  -- SRL: copy (R194)
  | cpy (q : Bool) (dst src shape : BitVec 6) (job : BitVec 28) (sem : BitVec 5)
  | cpyg (q : Bool) (dst src idx cnt shape : BitVec 6) (job : BitVec 28) (sem : BitVec 5)
  | cpys (q : Bool) (dst src idx cnt shape : BitVec 6) (job : BitVec 28) (sem : BitVec 5)
  | cpysa (q : Bool) (dst src idx cnt shape : BitVec 6) (job : BitVec 28) (sem : BitVec 5)
  | cpyf (q : Bool) (dst pat shape : BitVec 6) (job : BitVec 28) (sem : BitVec 5)
  | cpyc (q : Bool) (dst src shape side : BitVec 6) (f : BitVec 28) (job : BitVec 28) (sem : BitVec 5)
  | cpyw (q : Bool) (dst src len : BitVec 6) (f : BitVec 28) (job : BitVec 28) (sem : BitVec 5)
  | cpyres (q : Bool) (tag job : BitVec 28) (sem : BitVec 5)
  | cpyabt (q : Bool) (mode arg : BitVec 28)
  | qpush (q : Bool) (k : QueueOp) (src : BitVec 6) (job : BitVec 28) (sem : BitVec 5)
  | qpop (q : Bool) (dst : BitVec 6) (k : QueueOp) (job : BitVec 28) (sem : BitVec 5)
  | qflush (q : Bool) (k : QueueOp) (job : BitVec 28) (sem : BitVec 5)
  | rgmap (q : Bool) (e : BitVec 28) (sp va len : BitVec 6)
  | rgflush (q : Bool) (e job : BitVec 28) (sem : BitVec 5)
  | rgdrop (q : Bool) (e job : BitVec 28) (sem : BitVec 5)
  | evarm (q : Bool) (opts : BitVec 28)
  | cpy2d (q : Bool) (dst src geom strides : BitVec 6) (job : BitVec 28) (sem : BitVec 5)
  -- SRL: selection (R378)
  | slcfg (q : Bool) (a n : BitVec 6)
  | slq (q : Bool) (a : BitVec 6) (layer : BitVec 28)
  | slsum (q : Bool) (first count : BitVec 6) (job : BitVec 28) (sem : BitVec 5)
  | slscore (q : Bool) (first count out : BitVec 6) (job : BitVec 28) (sem : BitVec 5)
  | sltopk (q : Bool) (dst k : BitVec 6) (job : BitVec 28) (sem : BitVec 5)
  | slforce (q : Bool) (a n : BitVec 6)
  | slfetch (q : Bool) (dk dv opt : BitVec 6) (job : BitVec 28) (sem : BitVec 5)
  | slres (q : Bool) (mode : BitVec 28)
  -- SRL: tile set (R353)
  | tmmul (q : Bool) (d t : BitVec 6)
  | tspmul (q : Bool) (d t : BitVec 6)
  | tewise (q : Bool) (d t : BitVec 6)
  | tred (q : Bool) (d t : BitVec 6)
  | tcopy (q : Bool) (d t : BitVec 6)
  | tattn (q : Bool) (d t : BitVec 6)
  | tstage (q : Bool) (t : BitVec 6) (ch : BitVec 28)
  | tdisp (q : Bool) (t : BitVec 6) (ch : BitVec 28)
  | twait (q : Bool) (d : BitVec 6)
  | tfault (q : Bool) (d a : BitVec 6)
  -- Firmware instructions (R419)
  | ringf (d a b : BitVec 5)
  | fbfx (d a b : BitVec 5)
  | sigw (d a : BitVec 5)
  | disp (d a : BitVec 5)
  -- Steps of the device. A context is named by its key (Machine/State.lean), a core by its packed path.
  | pendingResultLands (w : Nat)
  | asyncLoadPerformed (w : Nat)
  | storePerformed (w : Nat)
  | registerWindowWriteLands (core : Nat)
  | semaphoreWordStore (core off : Nat) (v : Word)
  | mutexWordCas (agent core off : Nat) (e v : Word)
  | mutexWordRelease (agent core off : Nat)
  | semsigIncrementPerformed (w : Nat)
  | clusterWakeComplete (w k : Nat)
  | queueFrameOpen (core res fifo : Nat)
  | queueFrameTrap (w : Nat)
  | mgoEntryRun (core res : Nat)
  | mzeroEntryRun (core res : Nat)
  | mldaccEntryRun (core res : Nat)
  | mdrainEntryRun (core res : Nat)
  | mpeerEntryRun (core res : Nat)
  | tileStatusVisible (core : Nat)
  | cpyJobRun (core res fifo : Nat)
  | cpygJobRun (core res fifo : Nat)
  | cpysJobRun (core res fifo : Nat)
  | cpysaJobRun (core res fifo : Nat)
  | cpyfJobRun (core res fifo : Nat)
  | cpycJobRun (core res fifo : Nat)
  | cpywJobRun (core res fifo : Nat)
  | cpyresJobRun (core res fifo : Nat)
  | qpushJobRun (core res fifo : Nat)
  | qpopJobRun (core res fifo : Nat)
  | qflushJobRun (core res fifo : Nat)
  | rgflushJobRun (core res fifo : Nat)
  | rgdropJobRun (core res fifo : Nat)
  | fetchJobRun (core res : Nat)
  | slqEntryRun (core res : Nat)
  | slsumEntryRun (core res : Nat)
  | slscoreEntryRun (core res : Nat)
  | sltopkEntryRun (core res : Nat)
  | slforceEntryRun (core res : Nat)
  | slfetchEntryRun (core res : Nat)
  | slresEntryRun (core res : Nat)
  | launchStart (l : Nat)
  | launchComplete (l : Nat)
  | sheepdogWeightUpdate
  | preemption (l : Nat)
  | contextSwapOut (l : Nat)
  | launchResume (l : Nat)
  | launchFatalFault (w cls : Nat) (addr : Word)
  | softErrorCorrection (r : Resource) (ms : Nat)
  | uncorrectableError (r : Resource) (hits : List ErrorHit) (addr : Word)
  | pageWalkComplete (res asid : Nat) (va : Word)
  | firstTouchFill (core res chunk : Nat)
  | invalidationGo (fn : Nat)
  | invalidationComplete (fn : Nat)
  | migrationEpoch
  | migrationRequest (asid : Nat) (va : Word) (cls : BitVec 2) (byHost : Bool)
  | migrationSwitch (asid : Nat) (va : Word)
  | pageCounterQuery
  | tileInstructionStart (x : TileStart)
  | quadInboxWrite (quad : Nat) (privileged : Bool) (tcb : Word)
  | childCompletion (x : ChildEnd)
  | tileDiscardStop (node : Nat)
  | doorbellWrite (off size : Nat) (v : Word)
  | graphTrigger (fn n : Nat) (v : Word)
  | graphRerun (n : Nat)
  | attestationRequest (fn : Nat)
  | quarantineClear (fn k : Nat) (v : Word)
  | substitutionEnWrite (fn n : Nat) (v : Word)
  | islandClockChange (island mhz : Nat) (gated : Bool)
  | linkPortFailure (port : Nat)
  | shadowContainerWrite (core : Nat) (privileged : Bool) (off : Nat) (v : Word)
  | stopreq (core : Nat)
  | resume (core : Nat)
  | arm (core : Nat)
  | tfifoPop (core : Nat)
  | traceSample (core : Nat)
  | traceBufferWrite (core : Nat)
  | registerWrite (fn off : Nat) (v : Word)
  | reservedEncoding (w : W32)
  | forwardedAccess (src : FwdFrom) (addr : Nat) (op : FwdOp)
  | barPodArrival (l : Nat) (seat : PodSeat)
  | boot (imageOk : Bool)
  | graphLoad (n : Nat) (owner : Nat) (nodes : List GraphNode)
  | graphNodeComplete (n : Nat)
  deriving DecidableEq, Repr

end Sys2Proof
end

