-- ==== Sys2Proof/Decode.lean ====
section
/-! DEFINITION. Decoding of instruction words (R48 to R65, R419), total and rejecting by name, and the encoder written from the
same tables. A word is read as its major opcode, its squash bit and 25 further bits laid out by the major's format (R49). -/

namespace Sys2Proof

/-- Why a word is no instruction (R62 check 1, R64). -/
inductive DecodeError where
  | major | func | field | range | code | opclass | short
  deriving DecidableEq, Repr

/-! ## The strips of R49 -/

/-- Bits 31..26. -/
def majorOf (w : W32) : BitVec 6 := w.extractLsb' 26 6
/-- Bit 25, the squash bit (R55). -/
def squashOf (w : W32) : Bool := w.getLsbD 25
/-- Bits 24..0. -/
def lowOf (w : W32) : BitVec 25 := w.extractLsb' 0 25
/-- A word from its major, squash bit and the rest. -/
def pack (maj : BitVec 6) (q : Bool) (x : BitVec 25) : W32 := maj ++ BitVec.ofBool q ++ x

/-- Bits 24..19. -/
def dOf (x : BitVec 25) : BitVec 6 := x.extractLsb' 19 6
/-- Bits 18..13. -/
def aOf (x : BitVec 25) : BitVec 6 := x.extractLsb' 13 6
/-- Bits 12..7. -/
def bOf (x : BitVec 25) : BitVec 6 := x.extractLsb' 7 6
/-- Bits 6..0. -/
def funcOf (x : BitVec 25) : BitVec 7 := x.extractLsb' 0 7
/-- Bits 12..0. -/
def immOf (x : BitVec 25) : BitVec 13 := x.extractLsb' 0 13
/-- Format A. -/
def fmtA (d a b : BitVec 6) (f : BitVec 7) : BitVec 25 := d ++ a ++ b ++ f
/-- Format I. -/
def fmtI (d a : BitVec 6) (i : BitVec 13) : BitVec 25 := d ++ a ++ i
/-- Format U. -/
def fmtU (d : BitVec 6) (i : BitVec 19) : BitVec 25 := d ++ i
/-- Format M. -/
def fmtM (d a : BitVec 6) (o : BitVec 10) (z : BitVec 3) : BitVec 25 := d ++ a ++ o ++ z

/-! ## Codes (R51 to R58) -/

def Rnd.code : Rnd → BitVec 3
  | .rne => 0 | .rtz => 1 | .rup => 2 | .rdn => 3 | .rna => 4
def Rnd.ofCode (c : BitVec 3) : Except DecodeError Rnd :=
  match c.toNat with | 0 => .ok .rne | 1 => .ok .rtz | 2 => .ok .rup | 3 => .ok .rdn | 4 => .ok .rna | _ => .error .code
def Cond.code : Cond → BitVec 3
  | .eq => 0 | .ne => 1 | .lt => 2 | .ge => 3 | .ltn => 4 | .gen => 5
def Cond.ofCode (c : BitVec 3) : Except DecodeError Cond :=
  match c.toNat with | 0 => .ok .eq | 1 => .ok .ne | 2 => .ok .lt | 3 => .ok .ge | 4 => .ok .ltn | 5 => .ok .gen | _ => .error .code
def FCond.code : FCond → BitVec 2
  | .eq => 0 | .ne => 1 | .lt => 2 | .ge => 3
def FCond.ofCode (c : BitVec 2) : FCond :=
  match c.toNat with | 0 => .eq | 1 => .ne | 2 => .lt | _ => .ge
def Scope.code : Scope → BitVec 3
  | .core => 2 | .quad => 3 | .die => 4 | .pkg => 5 | .pod => 6
def Scope.ofCode (c : BitVec 3) : Except DecodeError Scope :=
  match c.toNat with | 2 => .ok .core | 3 => .ok .quad | 4 => .ok .die | 5 => .ok .pkg | 6 => .ok .pod | _ => .error .code
def LdSize.code : LdSize → BitVec 3
  | .b => 0 | .h => 1 | .w => 2 | .d => 3 | .sb => 4 | .sh => 5 | .sw => 6
def LdSize.ofCode (c : BitVec 3) : Except DecodeError LdSize :=
  match c.toNat with
  | 0 => .ok .b | 1 => .ok .h | 2 => .ok .w | 3 => .ok .d | 4 => .ok .sb | 5 => .ok .sh | 6 => .ok .sw | _ => .error .code
def StSize.code : StSize → BitVec 3
  | .b => 0 | .h => 1 | .w => 2 | .d => 3
def StSize.ofCode (c : BitVec 3) : Except DecodeError StSize :=
  match c.toNat with | 0 => .ok .b | 1 => .ok .h | 2 => .ok .w | 3 => .ok .d | _ => .error .code
def SplSize.code : SplSize → BitVec 3
  | .w => 2 | .d => 3 | .sw => 6
def SplSize.ofCode (c : BitVec 3) : Except DecodeError SplSize :=
  match c.toNat with | 2 => .ok .w | 3 => .ok .d | 6 => .ok .sw | _ => .error .code
def SpsSize.code : SpsSize → BitVec 3
  | .w => 2 | .d => 3
def SpsSize.ofCode (c : BitVec 3) : Except DecodeError SpsSize :=
  match c.toNat with | 2 => .ok .w | 3 => .ok .d | _ => .error .code
def CoreTag.code : CoreTag → BitVec 2
  | .raw => 0 | .f32 => 1 | .i32 => 2 | .n32 => 3
def CoreTag.ofCode (c : BitVec 2) : CoreTag :=
  match c.toNat with | 0 => .raw | 1 => .f32 | 2 => .i32 | _ => .n32
def VTy.code : VTy → Bool
  | .f32 => false | .i32 => true
def VTy.ofBit (b : Bool) : VTy := if b then .i32 else .f32
def VLogOp.code : VLogOp → BitVec 2
  | .and => 0 | .or => 1 | .xor => 2 | .andn => 3
def VLogOp.ofCode (c : BitVec 2) : VLogOp :=
  match c.toNat with | 0 => .and | 1 => .or | 2 => .xor | _ => .andn
def VShfOp.code : VShfOp → BitVec 2
  | .shl => 0 | .shr => 1 | .sra => 2
def AmoOp.code : AmoOp → BitVec 3
  | .add => 0 | .min => 1 | .max => 2 | .and => 3 | .or => 4 | .xor => 5 | .swap => 6 | .cas => 7
def AmoOp.ofCode (c : BitVec 3) : AmoOp :=
  match c.toNat with
  | 0 => .add | 1 => .min | 2 => .max | 3 => .and | 4 => .or | 5 => .xor | 6 => .swap | _ => .cas
def FKind.code : FKind → BitVec 2
  | .f32 => 0 | .i32 => 1 | .n32 => 2 | .i64 => 3
def FKind.ofCode (c : BitVec 2) : FKind :=
  match c.toNat with | 0 => .f32 | 1 => .i32 | 2 => .n32 | _ => .i64

/-- A 6-bit field that names a register of a smaller file (R50). -/
def small (n : Nat) (r : BitVec 6) : Except DecodeError (BitVec n) :=
  if r.toNat < 2 ^ n then .ok (r.setWidth n) else .error .range

/-- `i` when the field that must be zero is zero (R64). -/
def zeroed (ok : Bool) (i : Instr) : Except DecodeError Instr :=
  if ok then .ok i else .error .field

/-- `i` when the count, amount or mask is in range (R64). -/
def ranged (ok : Bool) (i : Instr) : Except DecodeError Instr :=
  if ok then .ok i else .error .range

/-! ## Single words (R56, R57, R59) -/

/-- Major 0x01 (R127). -/
def decInt (q : Bool) (x : BitVec 25) : Except DecodeError Instr :=
  let d := dOf x
  let a := aOf x
  let b := bOf x
  match (funcOf x).toNat with
  | 0x00 => .ok (.add q d a b) | 0x01 => .ok (.sub q d a b) | 0x02 => .ok (.mul q d a b) | 0x03 => .ok (.mulh q d a b)
  | 0x04 => .ok (.div q d a b) | 0x05 => .ok (.rem q d a b) | 0x06 => .ok (.and q d a b) | 0x07 => .ok (.or q d a b)
  | 0x08 => .ok (.xor q d a b) | 0x09 => .ok (.shl q d a b) | 0x0A => .ok (.shr q d a b) | 0x0B => .ok (.sra q d a b)
  | 0x0C => .ok (.min q d a b) | 0x0D => .ok (.max q d a b)
  | 0x0E => zeroed (b == 0) (.clz q d a) | 0x0F => zeroed (b == 0) (.popc q d a)
  | _ => .error .func

/-- Major 0x07 (R129): kind in 12..11, 10..6 zero, amount in 5..0. -/
def decShiftImm (q : Bool) (x : BitVec 25) : Except DecodeError Instr :=
  let d := dOf x
  let a := aOf x
  let n : BitVec 6 := x.extractLsb' 0 6
  let z := x.extractLsb' 6 5 == 0
  match (x.extractLsb' 11 2).toNat with
  | 0 => zeroed z (.shlImm q d a n) | 1 => zeroed z (.shrImm q d a n) | 2 => zeroed z (.sraImm q d a n)
  | _ => .error .code

/-- Major 0x10 (R136 to R138): operation in 3..0, rounding in 6..4. -/
def decFp (q : Bool) (x : BitVec 25) : Except DecodeError Instr := do
  let d := dOf x
  let a := aOf x
  let b := bOf x
  let op : BitVec 4 := x.extractLsb' 0 4
  let rm : BitVec 3 := x.extractLsb' 4 3
  if op == 0 then .ok (.fadd q d a b (← Rnd.ofCode rm))
  else if op == 1 then .ok (.fmul q d a b (← Rnd.ofCode rm))
  else if op == 2 then zeroed (rm == 0) (.fmin q d a b)
  else if op == 3 then zeroed (rm == 0) (.fmax q d a b)
  else if op.extractLsb' 2 2 == 2 then zeroed (rm == 0) (.fcmp q (← small 4 d) a b (FCond.ofCode (op.extractLsb' 0 2)))
  else .error .func

/-- Major 0x13 (R142). -/
def decExact (q : Bool) (x : BitVec 25) : Except DecodeError Instr := do
  let d := dOf x
  let a := aOf x
  let b := bOf x
  let rm : BitVec 3 := x.extractLsb' 4 3
  match (x.extractLsb' 0 4).toNat with
  | 0 => zeroed (a == 0 && b == 0 && rm == 0) (.xclr q (← small 2 d))
  | 1 => zeroed (rm == 0) (.xmac q (← small 2 d) a b)
  | 2 => zeroed (b == 0 && rm == 0) (.xadd q (← small 2 d) (← small 2 a))
  | 3 => zeroed (b == 0) (.xrnd q d (← small 2 a) (← Rnd.ofCode rm))
  | _ => .error .func

/-- Major 0x22 (R151): type in 6, instruction in 5..4, variant in 3..0. -/
def decVec (q : Bool) (x : BitVec 25) : Except DecodeError Instr :=
  let d := dOf x
  let a := aOf x
  let b := bOf x
  let t := x.getLsbD 6
  let v : BitVec 4 := x.extractLsb' 0 4
  match (x.extractLsb' 4 2).toNat with
  | 0 => if v == 0 then .ok (.vadd q d a b (VTy.ofBit t)) else .error .code
  | 1 => if v == 0 then .ok (.vmul q d a b (VTy.ofBit t)) else .error .code
  | 2 => if t && v.extractLsb' 2 2 == 0 then .ok (.vlog q d a b (VLogOp.ofCode (v.extractLsb' 0 2))) else .error .code
  | _ =>
    if t then
      match v.toNat with
      | 0 => .ok (.vshf q d a b .shl) | 1 => .ok (.vshf q d a b .shr) | 2 => .ok (.vshf q d a b .sra)
      | _ => .error .code
    else .error .code

/-- Major 0x32 (R123): the form in bit 24, the end offset in 7..0. -/
def decLoop (q : Bool) (x : BitVec 25) : Except DecodeError Instr :=
  let e : BitVec 8 := x.extractLsb' 0 8
  if x.getLsbD 24 then
    if x.extractLsb' 8 10 == 0 then ranged (e != 0) (.loopReg q (x.extractLsb' 18 6) e) else .error .field
  else ranged (e != 0) (.loopImm q (x.extractLsb' 8 16) e)

/-- Major 0x34 (R159). -/
def decWindow (q : Bool) (x : BitVec 25) : Except DecodeError Instr :=
  let da := x.extractLsb' 13 12 == 0
  let b := bOf x
  match (funcOf x).toNat with
  | 0 => zeroed (da && x.extractLsb' 10 3 == 0) (.call q (x.extractLsb' 7 3))
  | 1 => zeroed (da && b == 0) (.ret q)
  | 2 => if da then ranged (decide (b.toNat ≤ 12)) (.enter q b) else .error .field
  | _ => .error .func

/-- Major 0x36 (R161, R162). -/
def decSem (q : Bool) (x : BitVec 25) : Except DecodeError Instr := do
  let a := aOf x
  match (funcOf x).toNat with
  | 0 => zeroed (x.extractLsb' 11 2 == 0) (.semsig q (← small 5 (dOf x)) a (x.extractLsb' 7 4))
  | 1 => if bOf x == 0 then ranged (a != 0) (.semwait q (← small 5 (dOf x)) a) else .error .field
  | _ => .error .func

/-- Majors 0x38 and 0x3A: bits 24..11 zero, a mask in 10..7 (R164, R165, R166). -/
def decMask (x : BitVec 25) : Except DecodeError (Nat × BitVec 4) :=
  if x.extractLsb' 11 14 == 0 then .ok ((funcOf x).toNat, x.extractLsb' 7 4) else .error .field

/-- Major 0x3C (R168 to R172). -/
def decSys (q : Bool) (x : BitVec 25) : Except DecodeError Instr := do
  let d := dOf x
  let n : BitVec 12 := x.extractLsb' 7 12
  match (funcOf x).toNat with
  | 0 => .ok (.csrr q d n)
  | 1 => .ok (.csrw q d n)
  | 2 => zeroed (d == 0 && n == 0) (.halt q)
  | 3 => if n == 0 then ranged (d != 0 && d != 63) (.evpop q d) else .error .field
  | 4 => zeroed (n == 0) (.rpop q d)
  | 5 =>
    if d == 0 && x.extractLsb' 11 8 == 0 then
      let k : BitVec 4 := x.extractLsb' 7 4
      ranged (decide (k.toNat ≤ 8)) (.vrfon q k)
    else .error .field
  | 6 => zeroed (x.extractLsb' 11 2 == 0) (.tnext q d (aOf x) (x.extractLsb' 7 4))
  | _ => .error .func

/-- A word other than an `RCALL` (R56 to R59, R64). -/
def decodeWord (w : W32) : Except DecodeError Instr := do
  let q := squashOf w
  let x := lowOf w
  let d := dOf x
  let a := aOf x
  let b := bOf x
  let f := funcOf x
  let i := immOf x
  match (majorOf w).toNat with
  | 0x01 => decInt q x
  | 0x02 => .ok (.addImm q d a i)
  | 0x03 => .ok (.mulImm q d a i)
  | 0x04 => .ok (.andImm q d a i)
  | 0x05 => .ok (.orImm q d a i)
  | 0x06 => .ok (.xorImm q d a i)
  | 0x07 => decShiftImm q x
  | 0x08 =>
    let k : BitVec 12 := x.extractLsb' 0 12
    .ok (if x.getLsbD 12 then .maxImm q d a k else .minImm q d a k)
  | 0x09 => .ok (.lui q d (x.extractLsb' 0 19))
  | 0x0A =>
    let w' : BitVec 6 := x.extractLsb' 1 6
    ranged (decide (b.toNat + w'.toNat + 1 ≤ 64)) (.bfx q d a b w' (x.getLsbD 0))
  | 0x0B =>
    let w' : BitVec 6 := x.extractLsb' 1 6
    if x.getLsbD 0 then .error .field
    else ranged (decide (b.toNat + w'.toNat + 1 ≤ 64)) (.bfi q d a b w')
  | 0x0C => zeroed (x.extractLsb' 4 3 == 0) (.sel q d a b (x.extractLsb' 0 4))
  | 0x0D => do
    let c ← Cond.ofCode (x.extractLsb' 0 3)
    zeroed (x.extractLsb' 3 4 == 0) (.cmp q (← small 4 d) a b c)
  | 0x0E => do
    let c ← Cond.ofCode (x.extractLsb' 10 3)
    .ok (.cmpImm q (← small 4 d) a c (x.extractLsb' 0 10))
  | 0x0F => do
    zeroed (x.extractLsb' 4 3 == 0) (.plog q (← small 4 d) (← small 4 a) (← small 4 b) (x.extractLsb' 0 4))
  | 0x10 => decFp q x
  | 0x11 => do zeroed (x.extractLsb' 0 4 == 0) (.ffma q d a b (← Rnd.ofCode (x.extractLsb' 4 3)))
  | 0x12 => do
    let r ← Rnd.ofCode (x.extractLsb' 4 3)
    let k := FKind.ofCode (x.extractLsb' 2 2)
    let e := FKind.ofCode (x.extractLsb' 0 2)
    if b == 0 then
      if k == e then .error .code
      else zeroed (k == .f32 || e == .f32 || r == .rne) (.fcvt q d a r k e)
    else .error .field
  | 0x13 => decExact q x
  | 0x18 => do .ok (.ld q d a (x.extractLsb' 3 10) (← LdSize.ofCode (x.extractLsb' 0 3)))
  | 0x19 => do .ok (.st q d a (x.extractLsb' 3 10) (← StSize.ofCode (x.extractLsb' 0 3)))
  | 0x1A => do .ok (.amo q d a b (AmoOp.ofCode (x.extractLsb' 4 3)) (← Scope.ofCode (x.extractLsb' 1 3)) (x.getLsbD 0))
  | 0x1B => do .ok (.spl q d a (x.extractLsb' 3 10) (← SplSize.ofCode (x.extractLsb' 0 3)))
  | 0x1C => do .ok (.sps q d a (x.extractLsb' 3 10) (← SpsSize.ofCode (x.extractLsb' 0 3)))
  | 0x1D => zeroed (x == 0) (.mark q)
  | 0x20 => if x.getLsbD 2 then .error .code else .ok (.vld q d a (x.extractLsb' 3 10) (CoreTag.ofCode (x.extractLsb' 0 2)))
  | 0x21 => zeroed (x.extractLsb' 0 3 == 0) (.vst q d a (x.extractLsb' 3 10))
  | 0x22 => decVec q x
  | 0x23 => zeroed (f == 0) (.vfma q d a b)
  | 0x24 => do
    let c ← Cond.ofCode (x.extractLsb' 0 3)
    let t := VTy.ofBit (x.getLsbD 6)
    if t == .f32 && (c == .ltn || c == .gen) then .error .code
    else zeroed (x.extractLsb' 3 3 == 0) (.vcmp q (← small 4 d) a b t c)
  | 0x25 => zeroed (x.extractLsb' 4 3 == 0) (.vsel q d a b (x.extractLsb' 0 4))
  | 0x26 => zeroed (f == 0) (.vperm q d a b)
  | 0x27 => zeroed (b == 0 && x.extractLsb' 2 5 == 0) (.vsplat q d a (CoreTag.ofCode (x.extractLsb' 0 2)))
  | 0x28 => zeroed (f == 0) (.vext q d a b)
  | 0x29 => do
    if b == 0 then
      match f.toNat with
      | 0 => .ok (.vany q (← small 4 d) (← small 4 a))
      | 1 => .ok (.vall q (← small 4 d) (← small 4 a))
      | _ => .error .func
    else .error .field
  | 0x30 => .ok (.prep q (x.extractLsb' 22 3) (x.extractLsb' 0 22))
  | 0x31 => zeroed (x.extractLsb' 3 17 == 0) (.xfer q (x.extractLsb' 21 4) (x.getLsbD 20) (x.extractLsb' 0 3))
  | 0x32 => decLoop q x
  | 0x33 => zeroed (x == 0) (.loopb q)
  | 0x34 => decWindow q x
  | 0x35 =>
    if d == 0 then
      match f.toNat with
      | 0 => .ok (.trap q (x.extractLsb' 7 12))
      | 1 => zeroed (x.extractLsb' 7 12 == 0) (.rte q)
      | _ => .error .func
    else .error .field
  | 0x36 => decSem q x
  | 0x37 => do
    if a == 0 && b == 0 then
      match f.toNat with
      | 0 => .ok (.mtxacq q (← small 3 d))
      | 1 => .ok (.mtxrel q (← small 3 d))
      | _ => .error .func
    else .error .field
  | 0x38 => do
    let (g, m) ← decMask x
    match g with
    | 0 => ranged (m != 0 && !m.getLsbD 0) (.fork q m)
    | 1 => ranged (m != 0) (.rdv q m)
    | _ => .error .func
  | 0x39 => zeroed (!x.getLsbD 0) (.waitc q d a b (x.extractLsb' 1 6))
  | 0x3A => do
    let (g, m) ← decMask x
    match g with
    | 0 => ranged (m != 0) (.join q m)
    | 1 => ranged (m != 0) (.qfence q m)
    | _ => .error .func
  | 0x3B => do
    if x.extractLsb' 7 18 == 0 then
      if x.extractLsb' 3 4 == 0 then .ok (.bar q (← Scope.ofCode (x.extractLsb' 0 3))) else .error .func
    else .error .field
  | 0x3C => decSys q x
  | 0x3D => zeroed (x == 0) (.nop q)
  | 0x3E =>
    if x.extractLsb' 7 18 == 0 then
      match f.toNat with
      | 0 => .ok (.rchk q)
      | 1 => .ok (.rret q)
      | _ => .error .func
    else .error .field
  | _ => .error .major

/-! ## Routine calls (R60 to R63) -/

/-- An operand word other than a class-6 one (R61). -/
def decodeOpnd (w : W32) : Except DecodeError Opnd :=
  let v : BitVec 28 := w.extractLsb' 0 28
  match (w.extractLsb' 28 4).toNat with
  | 0 => if v.toNat < 64 then .ok (.s (v.setWidth 6)) else .error .field
  | 1 => if v.toNat < 64 then .ok (.v (v.setWidth 6)) else .error .field
  | 2 => if v.toNat < 16 then .ok (.p (v.setWidth 4)) else .error .field
  | 3 => if v.toNat < 16 then .ok (.q (v.setWidth 4)) else .error .field
  | 4 => if v.toNat < 32 then .ok (.c (v.setWidth 5)) else .error .field
  | 5 => .ok (.imm v)
  | 7 => if v.toNat < 32 then .ok (.sem (v.setWidth 5)) else .error .field
  | 8 =>
    match (v.extractLsb' 24 4).toNat with
    | 0 => if v.toNat < 4 then .ok (.queue (.engine (v.setWidth 2))) else .error .field
    | 1 => if v.extractLsb' 12 12 == 0 then .ok (.queue (.stage (v.setWidth 12))) else .error .field
    | _ => .error .code
  | 9 => .ok (.fmt v)
  | _ => .error .opclass

/-- The operands of an `RCALL`: a class-6 word takes the word after it (R61). -/
def decodeOpnds : List W32 → Except DecodeError (List Opnd)
  | [] => .ok []
  | w :: ws =>
    if w.extractLsb' 28 4 == 6 then
      if w.extractLsb' 0 28 == 0 then
        match ws with
        | [] => .error .opclass
        | k :: rest => do .ok (.immw k :: (← decodeOpnds rest))
      else .error .field
    else do .ok ((← decodeOpnd w) :: (← decodeOpnds ws))

/-- The class number of an operand (R61). -/
def Opnd.cls : Opnd → Nat
  | .s _ => 0 | .v _ => 1 | .p _ => 2 | .q _ => 3 | .c _ => 4 | .imm _ => 5 | .immw _ => 6 | .sem _ => 7 | .queue _ => 8 | .fmt _ => 9

/-- The signature of an SRL routine: its operand classes, whether it is queued, and its counter (R258, R278, R303, R341, R194, R378, R353). -/
def srlSig (num : Nat) : Option (List Nat × Bool × BitVec 2) :=
  match num with
  | 0x000 => some ([1, 1, 9], false, 0)
  | 0x001 => some ([1, 1, 9], false, 0)
  | 0x002 => some ([1, 1, 9], false, 0)
  | 0x003 => some ([1, 1, 1, 9], false, 0)
  | 0x004 => some ([1, 1, 1, 9], false, 0)
  | 0x005 => some ([1, 1, 1, 9], false, 0)
  | 0x006 => some ([1, 1, 1, 9], false, 0)
  | 0x007 => some ([1, 1, 1, 9], false, 0)
  | 0x008 => some ([1, 1, 1, 9], false, 0)
  | 0x009 => some ([1, 1, 9], false, 0)
  | 0x00A => some ([1, 1, 9], false, 0)
  | 0x00B => some ([1, 1, 1, 1, 9], false, 0)
  | 0x00C => some ([1, 1, 1, 9], false, 0)
  | 0x00D => some ([1, 1, 1, 9], false, 0)
  | 0x00E => some ([1, 1, 1, 9], false, 0)
  | 0x00F => some ([1, 1, 1, 9], false, 0)
  | 0x010 => some ([1, 1, 0, 9], false, 0)
  | 0x011 => some ([1, 1, 9], false, 0)
  | 0x012 => some ([1, 1, 9], false, 0)
  | 0x013 => some ([1, 1, 5], false, 0)
  | 0x014 => some ([1, 1, 1, 5], false, 0)
  | 0x015 => some ([1, 1, 1, 5], false, 0)
  | 0x016 => some ([1, 1, 1, 5], false, 0)
  | 0x017 => some ([1, 0, 1, 2], false, 0)
  | 0x018 => some ([1, 1, 2], false, 0)
  | 0x019 => some ([1, 1, 9], false, 0)
  | 0x01A => some ([1, 0, 0], false, 0)
  | 0x020 => some ([0, 1, 2, 9], false, 0)
  | 0x021 => some ([0, 0, 1, 2, 9], false, 0)
  | 0x022 => some ([0, 0, 1, 2, 9], false, 0)
  | 0x023 => some ([0, 1, 1, 2, 9], false, 0)
  | 0x024 => some ([1, 1, 9], false, 0)
  | 0x025 => some ([1, 1, 9], false, 0)
  | 0x026 => some ([1, 1, 9], false, 0)
  | 0x027 => some ([1, 1, 9], false, 0)
  | 0x028 => some ([1, 1, 9], false, 0)
  | 0x029 => some ([1, 1, 9], false, 0)
  | 0x02A => some ([1, 1, 9], false, 0)
  | 0x02B => some ([1, 1, 9], false, 0)
  | 0x02C => some ([1, 1, 9], false, 0)
  | 0x02D => some ([1, 1, 9], false, 0)
  | 0x02E => some ([1, 1, 0, 0, 9], false, 0)
  | 0x02F => some ([0, 1, 0, 9], false, 0)
  | 0x030 => some ([0, 0, 1, 0, 9], false, 0)
  | 0x031 => some ([1, 1, 0, 0, 0, 0, 9], false, 0)
  | 0x032 => some ([1, 1, 1, 0, 0, 9], false, 0)
  | 0x033 => some ([1, 1, 1, 0, 0, 9], false, 0)
  | 0x034 => some ([1, 1, 1, 9], false, 0)
  | 0x035 => some ([1, 1, 1, 1, 9], false, 0)
  | 0x036 => some ([0, 1, 1, 0, 0, 9], false, 0)
  | 0x03F => some ([0, 1, 2, 9], false, 0)
  | 0x040 => some ([3, 0, 0, 0, 0], false, 0)
  | 0x041 => some ([5, 0, 0, 0], false, 0)
  | 0x042 => some ([3, 3, 4, 0, 5, 7], true, 3)
  | 0x043 => some ([4, 0, 9], false, 0)
  | 0x044 => some ([4], false, 0)
  | 0x045 => some ([4, 5, 0], false, 0)
  | 0x046 => some ([4, 0, 5, 7], true, 3)
  | 0x047 => some ([4, 3, 0, 5, 7], true, 3)
  | 0x048 => some ([4, 3, 0, 9, 5, 7], true, 3)
  | 0x049 => some ([4, 0, 0, 9, 5, 7], true, 3)
  | 0x04A => some ([0, 5], false, 0)
  | 0x04B => some ([5], false, 0)
  | 0x04C => some ([5, 0], false, 0)
  | 0x04D => some ([5, 0], false, 0)
  | 0x04E => some ([], false, 0)
  | 0x060 => some ([0, 0, 0], false, 0)
  | 0x061 => some ([0, 3], false, 0)
  | 0x062 => some ([3, 3, 0], false, 0)
  | 0x063 => some ([3, 3], false, 0)
  | 0x064 => some ([5, 1, 0], false, 0)
  | 0x065 => some ([0, 0, 0, 9], false, 0)
  | 0x066 => some ([3, 0], false, 0)
  | 0x070 => some ([0, 0, 0, 5, 7], true, 2)
  | 0x071 => some ([0, 0, 0, 0, 0, 5, 7], true, 2)
  | 0x072 => some ([0, 0, 0, 0, 0, 5, 7], true, 2)
  | 0x073 => some ([0, 0, 0, 0, 0, 5, 7], true, 2)
  | 0x074 => some ([0, 0, 0, 5, 7], true, 2)
  | 0x075 => some ([0, 0, 0, 0, 9, 5, 7], true, 2)
  | 0x076 => some ([0, 0, 0, 9, 5, 7], true, 2)
  | 0x077 => some ([5, 5, 7], true, 2)
  | 0x078 => some ([5, 5], false, 0)
  | 0x079 => some ([8, 0, 5, 7], true, 2)
  | 0x07A => some ([0, 8, 5, 7], true, 2)
  | 0x07B => some ([8, 5, 7], true, 2)
  | 0x07C => some ([5, 0, 0, 0], false, 0)
  | 0x07D => some ([5, 5, 7], true, 2)
  | 0x07E => some ([5, 5, 7], true, 2)
  | 0x07F => some ([5], false, 0)
  | 0x08F => some ([0, 0, 0, 0, 5, 7], true, 2)
  | 0x090 => some ([0, 0], false, 0)
  | 0x091 => some ([1, 5], true, 2)
  | 0x092 => some ([0, 0, 5, 7], true, 2)
  | 0x093 => some ([0, 0, 0, 5, 7], true, 2)
  | 0x094 => some ([0, 0, 5, 7], true, 2)
  | 0x095 => some ([1, 0], true, 2)
  | 0x096 => some ([0, 0, 0, 5, 7], true, 2)
  | 0x097 => some ([5], true, 2)
  | 0x0A0 => some ([0, 0], false, 0)
  | 0x0A1 => some ([0, 0], false, 0)
  | 0x0A2 => some ([0, 0], false, 0)
  | 0x0A3 => some ([0, 0], false, 0)
  | 0x0A4 => some ([0, 0], false, 0)
  | 0x0A5 => some ([0, 0], false, 0)
  | 0x0A6 => some ([0, 5], false, 0)
  | 0x0A7 => some ([0, 5], false, 0)
  | 0x0A8 => some ([0], false, 0)
  | 0x0A9 => some ([0, 0], false, 0)
  | _ => none

/-- The SRL constructor that a routine number with operands of its signature's classes names. -/
def srlCall (q : Bool) (num : Nat) (ops : List Opnd) : Option Instr :=
  match num with
  | 0x000 => match ops with | [.v d, .v a, .fmt f] => some (.vcvt q d a f) | _ => none
  | 0x001 => match ops with | [.v d, .v a, .fmt f] => some (.vqnt q d a f) | _ => none
  | 0x002 => match ops with | [.v d, .v a, .fmt f] => some (.vdqnt q d a f) | _ => none
  | 0x003 => match ops with | [.v d, .v a, .v b, .fmt f] => some (.vfadd q d a b f) | _ => none
  | 0x004 => match ops with | [.v d, .v a, .v b, .fmt f] => some (.vfsub q d a b f) | _ => none
  | 0x005 => match ops with | [.v d, .v a, .v b, .fmt f] => some (.vfmul q d a b f) | _ => none
  | 0x006 => match ops with | [.v d, .v a, .v b, .fmt f] => some (.vffma q d a b f) | _ => none
  | 0x007 => match ops with | [.v d, .v a, .v b, .fmt f] => some (.vfmin q d a b f) | _ => none
  | 0x008 => match ops with | [.v d, .v a, .v b, .fmt f] => some (.vfmax q d a b f) | _ => none
  | 0x009 => match ops with | [.v d, .v a, .fmt f] => some (.vfabs q d a f) | _ => none
  | 0x00A => match ops with | [.v d, .v a, .fmt f] => some (.vfneg q d a f) | _ => none
  | 0x00B => match ops with | [.v d, .v a, .v b, .v c, .fmt f] => some (.vclamp q d a b c f) | _ => none
  | 0x00C => match ops with | [.v d, .v a, .v b, .fmt f] => some (.vsadd q d a b f) | _ => none
  | 0x00D => match ops with | [.v d, .v a, .v b, .fmt f] => some (.vssub q d a b f) | _ => none
  | 0x00E => match ops with | [.v d, .v a, .v b, .fmt f] => some (.vsmul q d a b f) | _ => none
  | 0x00F => match ops with | [.v d, .v a, .v b, .fmt f] => some (.vidot q d a b f) | _ => none
  | 0x010 => match ops with | [.v d, .v a, .s b, .fmt f] => some (.vscale q d a b f) | _ => none
  | 0x011 => match ops with | [.v d, .v a, .fmt f] => some (.vtag q d a f) | _ => none
  | 0x012 => match ops with | [.v d, .v a, .fmt f] => some (.vpack q d a f) | _ => none
  | 0x013 => match ops with | [.v d, .v a, .imm f] => some (.vunpk q d a f) | _ => none
  | 0x014 => match ops with | [.v d, .v a, .v b, .imm f] => some (.vzip q d a b f) | _ => none
  | 0x015 => match ops with | [.v d, .v a, .v b, .imm f] => some (.vuzp q d a b f) | _ => none
  | 0x016 => match ops with | [.v d, .v a, .v i, .imm f] => some (.vshuf q d a i f) | _ => none
  | 0x017 => match ops with | [.v d, .s c, .v a, .p p] => some (.vcompr q d c a p) | _ => none
  | 0x018 => match ops with | [.v d, .v a, .p p] => some (.vexpnd q d a p) | _ => none
  | 0x019 => match ops with | [.v d, .v a, .fmt f] => some (.vscan q d a f) | _ => none
  | 0x01A => match ops with | [.v d, .s a, .s b] => some (.viota q d a b) | _ => none
  | 0x020 => match ops with | [.s d, .v a, .p p, .fmt f] => some (.vrsum q d a p f) | _ => none
  | 0x021 => match ops with | [.s d, .s x, .v a, .p p, .fmt f] => some (.vrmax q d x a p f) | _ => none
  | 0x022 => match ops with | [.s d, .s x, .v a, .p p, .fmt f] => some (.vrmin q d x a p f) | _ => none
  | 0x023 => match ops with | [.s d, .v a, .v b, .p p, .fmt f] => some (.vrdot q d a b p f) | _ => none
  | 0x024 => match ops with | [.v d, .v a, .fmt f] => some (.vexp q d a f) | _ => none
  | 0x025 => match ops with | [.v d, .v a, .fmt f] => some (.vexp2 q d a f) | _ => none
  | 0x026 => match ops with | [.v d, .v a, .fmt f] => some (.vlog2 q d a f) | _ => none
  | 0x027 => match ops with | [.v d, .v a, .fmt f] => some (.vrcp q d a f) | _ => none
  | 0x028 => match ops with | [.v d, .v a, .fmt f] => some (.vrsqrt q d a f) | _ => none
  | 0x029 => match ops with | [.v d, .v a, .fmt f] => some (.vsqrt q d a f) | _ => none
  | 0x02A => match ops with | [.v d, .v a, .fmt f] => some (.vtanh q d a f) | _ => none
  | 0x02B => match ops with | [.v d, .v a, .fmt f] => some (.vsigm q d a f) | _ => none
  | 0x02C => match ops with | [.v d, .v a, .fmt f] => some (.vgelu q d a f) | _ => none
  | 0x02D => match ops with | [.v d, .v a, .fmt f] => some (.vsilu q d a f) | _ => none
  | 0x02E => match ops with | [.v d, .v a, .s n, .s s, .fmt f] => some (.vsoftmx q d a n s f) | _ => none
  | 0x02F => match ops with | [.s d, .v a, .s n, .fmt f] => some (.vexpsum q d a n f) | _ => none
  | 0x030 => match ops with | [.s d, .s e, .v a, .s n, .fmt f] => some (.vnormst q d e a n f) | _ => none
  | 0x031 => match ops with | [.v d, .v a, .s s, .s t, .s n, .s e, .fmt f] => some (.vnormap q d a s t n e f) | _ => none
  | 0x032 => match ops with | [.v d, .v x, .v a, .s k, .s b, .fmt f] => some (.vtopk q d x a k b f) | _ => none
  | 0x033 => match ops with | [.v d, .v x, .v a, .s k, .s b, .fmt f] => some (.vtopka q d x a k b f) | _ => none
  | 0x034 => match ops with | [.v d, .v x, .v a, .fmt f] => some (.vsort q d x a f) | _ => none
  | 0x035 => match ops with | [.v d, .v e, .v a, .v b, .fmt f] => some (.vmerge q d e a b f) | _ => none
  | 0x036 => match ops with | [.s d, .v a, .v b, .s l, .s g, .fmt f] => some (.vmpsrch q d a b l g f) | _ => none
  | 0x03F => match ops with | [.s d, .v a, .p p, .fmt f] => some (.vrsums q d a p f) | _ => none
  | 0x040 => match ops with | [.q d, .s w0, .s w1, .s w2, .s w3] => some (.mdesc q d w0 w1 w2 w3) | _ => none
  | 0x041 => match ops with | [.imm lvl, .s cnt, .s ab, .s c] => some (.mnest q lvl cnt ab c) | _ => none
  | 0x042 => match ops with | [.q qa, .q qb, .c c, .s org, .imm job, .sem sem] => some (.mgo q qa qb c org job sem) | _ => none
  | 0x043 => match ops with | [.c c, .s g, .fmt f] => some (.acalloc q c g f) | _ => none
  | 0x044 => match ops with | [.c c] => some (.acfree q c) | _ => none
  | 0x045 => match ops with | [.c c, .imm grp, .s band] => some (.acown q c grp band) | _ => none
  | 0x046 => match ops with | [.c c, .s reg, .imm job, .sem sem] => some (.mzero q c reg job sem) | _ => none
  | 0x047 => match ops with | [.c c, .q qs, .s reg, .imm job, .sem sem] => some (.mldacc q c qs reg job sem) | _ => none
  | 0x048 => match ops with | [.c c, .q qd, .s reg, .fmt f, .imm job, .sem sem] => some (.mdrain q c qd reg f job sem) | _ => none
  | 0x049 => match ops with | [.c c, .s dst, .s reg, .fmt f, .imm job, .sem sem] => some (.mpeer q c dst reg f job sem) | _ => none
  | 0x04A => match ops with | [.s d, .imm k] => some (.mstat q d k) | _ => none
  | 0x04B => match ops with | [.imm mc] => some (.mcast q mc) | _ => none
  | 0x04C => match ops with | [.imm mode, .s v] => some (.mscale q mode v) | _ => none
  | 0x04D => match ops with | [.imm mode, .s v] => some (.mbias q mode v) | _ => none
  | 0x04E => match ops with | [] => some (.mqflush q) | _ => none
  | 0x060 => match ops with | [.s a, .s lo, .s hi] => some (.sphdr q a lo hi) | _ => none
  | 0x061 => match ops with | [.s d, .q qa] => some (.spchk q d qa) | _ => none
  | 0x062 => match ops with | [.q qd, .q qs, .s opt] => some (.spprune q qd qs opt) | _ => none
  | 0x063 => match ops with | [.q qd, .q qs] => some (.spxpose q qd qs) | _ => none
  | 0x064 => match ops with | [.imm opd, .v i, .s n] => some (.spgath q opd i n) | _ => none
  | 0x065 => match ops with | [.s d, .s nm, .s dim, .fmt f] => some (.spcost q d nm dim f) | _ => none
  | 0x066 => match ops with | [.q qd, .s hdr] => some (.spattach q qd hdr) | _ => none
  | 0x070 => match ops with | [.s dst, .s src, .s shape, .imm job, .sem sem] => some (.cpy q dst src shape job sem) | _ => none
  | 0x071 => match ops with | [.s dst, .s src, .s idx, .s cnt, .s shape, .imm job, .sem sem] => some (.cpyg q dst src idx cnt shape job sem) | _ => none
  | 0x072 => match ops with | [.s dst, .s src, .s idx, .s cnt, .s shape, .imm job, .sem sem] => some (.cpys q dst src idx cnt shape job sem) | _ => none
  | 0x073 => match ops with | [.s dst, .s src, .s idx, .s cnt, .s shape, .imm job, .sem sem] => some (.cpysa q dst src idx cnt shape job sem) | _ => none
  | 0x074 => match ops with | [.s dst, .s pat, .s shape, .imm job, .sem sem] => some (.cpyf q dst pat shape job sem) | _ => none
  | 0x075 => match ops with | [.s dst, .s src, .s shape, .s side, .fmt f, .imm job, .sem sem] => some (.cpyc q dst src shape side f job sem) | _ => none
  | 0x076 => match ops with | [.s dst, .s src, .s len, .fmt f, .imm job, .sem sem] => some (.cpyw q dst src len f job sem) | _ => none
  | 0x077 => match ops with | [.imm tag, .imm job, .sem sem] => some (.cpyres q tag job sem) | _ => none
  | 0x078 => match ops with | [.imm mode, .imm arg] => some (.cpyabt q mode arg) | _ => none
  | 0x079 => match ops with | [.queue k, .s src, .imm job, .sem sem] => some (.qpush q k src job sem) | _ => none
  | 0x07A => match ops with | [.s dst, .queue k, .imm job, .sem sem] => some (.qpop q dst k job sem) | _ => none
  | 0x07B => match ops with | [.queue k, .imm job, .sem sem] => some (.qflush q k job sem) | _ => none
  | 0x07C => match ops with | [.imm e, .s sp, .s va, .s len] => some (.rgmap q e sp va len) | _ => none
  | 0x07D => match ops with | [.imm e, .imm job, .sem sem] => some (.rgflush q e job sem) | _ => none
  | 0x07E => match ops with | [.imm e, .imm job, .sem sem] => some (.rgdrop q e job sem) | _ => none
  | 0x07F => match ops with | [.imm opts] => some (.evarm q opts) | _ => none
  | 0x08F => match ops with | [.s dst, .s src, .s geom, .s strides, .imm job, .sem sem] => some (.cpy2d q dst src geom strides job sem) | _ => none
  | 0x090 => match ops with | [.s a, .s n] => some (.slcfg q a n) | _ => none
  | 0x091 => match ops with | [.v a, .imm layer] => some (.slq q a layer) | _ => none
  | 0x092 => match ops with | [.s first, .s count, .imm job, .sem sem] => some (.slsum q first count job sem) | _ => none
  | 0x093 => match ops with | [.s first, .s count, .s out, .imm job, .sem sem] => some (.slscore q first count out job sem) | _ => none
  | 0x094 => match ops with | [.s dst, .s k, .imm job, .sem sem] => some (.sltopk q dst k job sem) | _ => none
  | 0x095 => match ops with | [.v a, .s n] => some (.slforce q a n) | _ => none
  | 0x096 => match ops with | [.s dk, .s dv, .s opt, .imm job, .sem sem] => some (.slfetch q dk dv opt job sem) | _ => none
  | 0x097 => match ops with | [.imm mode] => some (.slres q mode) | _ => none
  | 0x0A0 => match ops with | [.s d, .s t] => some (.tmmul q d t) | _ => none
  | 0x0A1 => match ops with | [.s d, .s t] => some (.tspmul q d t) | _ => none
  | 0x0A2 => match ops with | [.s d, .s t] => some (.tewise q d t) | _ => none
  | 0x0A3 => match ops with | [.s d, .s t] => some (.tred q d t) | _ => none
  | 0x0A4 => match ops with | [.s d, .s t] => some (.tcopy q d t) | _ => none
  | 0x0A5 => match ops with | [.s d, .s t] => some (.tattn q d t) | _ => none
  | 0x0A6 => match ops with | [.s t, .imm ch] => some (.tstage q t ch) | _ => none
  | 0x0A7 => match ops with | [.s t, .imm ch] => some (.tdisp q t ch) | _ => none
  | 0x0A8 => match ops with | [.s d] => some (.twait q d) | _ => none
  | 0x0A9 => match ops with | [.s d, .s a] => some (.tfault q d a) | _ => none
  | _ => none

/-- An `RCALL` whose number, operands, ASYNC and CTR are those of an SRL routine is that routine's instruction, and
any other well-formed one the general `RCALL`, whose checks 2 and 3 of R62 its meaning makes. -/
def mkCall (q : Bool) (num : BitVec 14) (async : Bool) (ctr : BitVec 2) (ops : List Opnd) : Instr :=
  match srlSig num.toNat with
  | some (_, as, ct) =>
    if as == async && ct == ctr then (srlCall q num.toNat ops).getD (.rcall q num async ctr ops)
    else .rcall q num async ctr ops
  | none => .rcall q num async ctr ops

/-- Routine number of an `RCALL` first word (R60). -/
def numOf (w : W32) : BitVec 14 := w.extractLsb' 11 14
/-- Operand-word count of an `RCALL` first word (R60). -/
def nopwOf (w : W32) : Nat := (w.extractLsb' 8 3).toNat

/-- An `RCALL` from its first word and its operand words (R60 to R62, check 1). -/
def decodeCall (w : W32) (ws : List W32) : Except DecodeError Instr := do
  if w.extractLsb' 0 5 == 0 then
    if ws.length = nopwOf w then
      let ops ← decodeOpnds ws
      .ok (mkCall (squashOf w) (numOf w) (w.getLsbD 7) (w.extractLsb' 5 2) ops)
    else .error .short
  else .error .field

/-- Whether a word opens an `RCALL`. -/
def isCall (w : W32) : Bool := majorOf w == 0x3F

/-- Whether a word opens an `RCALL` whose reserved field is set, which its operand words cannot mend (R60, R64). -/
def badCall (w : W32) : Bool := isCall w && w.extractLsb' 0 5 ≠ 0

/-- How many words the instruction that opens with this word has (R48). -/
def wordCount (w : W32) : Nat := if isCall w then 1 + nopwOf w else 1

/-- An instruction from its words. -/
def decodeWords : List W32 → Except DecodeError Instr
  | [] => .error .short
  | w :: ws => if isCall w then decodeCall w (ws.take (nopwOf w)) else decodeWord w

/-- A word from four bytes, the lowest address first (R4, R48). -/
def wordOfBytes (b0 b1 b2 b3 : Byte) : W32 := b3 ++ b2 ++ b1 ++ b0

/-- Bytes to words; a ragged tail is dropped. -/
def wordsOfBytes : List Byte → List W32
  | b0 :: b1 :: b2 :: b3 :: rest => wordOfBytes b0 b1 b2 b3 :: wordsOfBytes rest
  | _ => []

/-- A word's bytes, the lowest address first. -/
def bytesOfWord (w : W32) : List Byte :=
  [w.extractLsb' 0 8, w.extractLsb' 8 8, w.extractLsb' 16 8, w.extractLsb' 24 8]

/-- Decoding of instruction bytes. -/
def decodeBytes (bs : List Byte) : Except DecodeError Instr := decodeWords (wordsOfBytes bs)

/-- The firmware instructions of R419: custom-0, R-type. -/
def decodeFirmware (w : W32) : Option Instr :=
  let rd : BitVec 5 := w.extractLsb' 7 5
  let rs1 : BitVec 5 := w.extractLsb' 15 5
  let rs2 : BitVec 5 := w.extractLsb' 20 5
  if w.extractLsb' 0 7 == 0x0B && w.extractLsb' 25 7 == 0 then
    match (w.extractLsb' 12 3).toNat with
    | 0 => some (.ringf rd rs1 rs2)
    | 1 => some (.fbfx rd rs1 rs2)
    | 2 => if rs2 == 0 then some (.sigw rd rs1) else none
    | 3 => if rs2 == 0 then some (.disp rd rs1) else none
    | _ => none
  else none

/-- The eight words of an instruction whose bits are `w`, every bit at and above `nbits` zero. -/
def tableWords (nbits w : Nat) : List W32 :=
  (List.range 8).map fun k => BitVec.ofNat 32 ((w % 2 ^ nbits) / 2 ^ (32 * k))

/-- The instruction that the decoder reads from the bits `w`: a strand's, or else the firmware core's. -/
def decodeTableWord (nbits w : Nat) : Option Instr :=
  match decodeBytes ((tableWords nbits w).flatMap bytesOfWord) with
  | .ok i => some i
  | .error _ => decodeFirmware (BitVec.ofNat 32 (w % 2 ^ nbits))

/-! ## The encoder -/

/-- An operand's words (R61). -/
def encodeOpnd : Opnd → List W32
  | .s r => [r.setWidth 32]
  | .v r => [0x1#4 ++ r.setWidth 28]
  | .p r => [0x2#4 ++ r.setWidth 28]
  | .q r => [0x3#4 ++ r.setWidth 28]
  | .c r => [0x4#4 ++ r.setWidth 28]
  | .imm k => [0x5#4 ++ k]
  | .immw k => [0x6000_0000, k]
  | .sem n => [0x7#4 ++ n.setWidth 28]
  | .queue (.engine n) => [0x8#4 ++ n.setWidth 28]
  | .queue (.stage i) => [0x8#4 ++ 0x1#4 ++ i.setWidth 24]
  | .fmt k => [0x9#4 ++ k]

/-- An `RCALL`'s words (R60, R61). -/
def packCall (q : Bool) (num : BitVec 14) (async : Bool) (ctr : BitVec 2) (ops : List Opnd) : List W32 :=
  let ws := ops.flatMap encodeOpnd
  (0x3F#6 ++ BitVec.ofBool q ++ num ++ BitVec.ofNat 3 ws.length ++ BitVec.ofBool async ++ ctr ++ 0#5) :: ws

/-- A register-form word of major 0x01. -/
def encInt (q : Bool) (d a b : BitVec 6) (f : BitVec 7) : List W32 := [pack 0x01 q (fmtA d a b f)]

/-- The words of an instruction that has an encoding; the rows without one have none. -/
def encode : Instr → List W32
  | .add q d a b => encInt q d a b 0x00
  | .sub q d a b => encInt q d a b 0x01
  | .mul q d a b => encInt q d a b 0x02
  | .mulh q d a b => encInt q d a b 0x03
  | .div q d a b => encInt q d a b 0x04
  | .rem q d a b => encInt q d a b 0x05
  | .and q d a b => encInt q d a b 0x06
  | .or q d a b => encInt q d a b 0x07
  | .xor q d a b => encInt q d a b 0x08
  | .shl q d a b => encInt q d a b 0x09
  | .shr q d a b => encInt q d a b 0x0A
  | .sra q d a b => encInt q d a b 0x0B
  | .min q d a b => encInt q d a b 0x0C
  | .max q d a b => encInt q d a b 0x0D
  | .clz q d a => encInt q d a 0 0x0E
  | .popc q d a => encInt q d a 0 0x0F
  | .addImm q d a i => [pack 0x02 q (fmtI d a i)]
  | .mulImm q d a i => [pack 0x03 q (fmtI d a i)]
  | .andImm q d a i => [pack 0x04 q (fmtI d a i)]
  | .orImm q d a i => [pack 0x05 q (fmtI d a i)]
  | .xorImm q d a i => [pack 0x06 q (fmtI d a i)]
  | .shlImm q d a n => [pack 0x07 q (fmtI d a (0#2 ++ 0#5 ++ n))]
  | .shrImm q d a n => [pack 0x07 q (fmtI d a (1#2 ++ 0#5 ++ n))]
  | .sraImm q d a n => [pack 0x07 q (fmtI d a (2#2 ++ 0#5 ++ n))]
  | .minImm q d a i => [pack 0x08 q (fmtI d a (0#1 ++ i))]
  | .maxImm q d a i => [pack 0x08 q (fmtI d a (1#1 ++ i))]
  | .lui q d i => [pack 0x09 q (fmtU d i)]
  | .bfx q d a p w x => [pack 0x0A q (fmtA d a p (w ++ BitVec.ofBool x))]
  | .bfi q d a p w => [pack 0x0B q (fmtA d a p (w ++ 0#1))]
  | .sel q d a b p => [pack 0x0C q (fmtA d a b (0#3 ++ p))]
  | .cmp q d a b c => [pack 0x0D q (fmtA (d.setWidth 6) a b (0#4 ++ c.code))]
  | .cmpImm q d a c i => [pack 0x0E q (fmtI (d.setWidth 6) a (c.code ++ i))]
  | .plog q d a b t => [pack 0x0F q (fmtA (d.setWidth 6) (a.setWidth 6) (b.setWidth 6) (0#3 ++ t))]
  | .fadd q d a b r => [pack 0x10 q (fmtA d a b (r.code ++ 0#4))]
  | .fmul q d a b r => [pack 0x10 q (fmtA d a b (r.code ++ 1#4))]
  | .fmin q d a b => [pack 0x10 q (fmtA d a b (0#3 ++ 2#4))]
  | .fmax q d a b => [pack 0x10 q (fmtA d a b (0#3 ++ 3#4))]
  | .fcmp q d a b c => [pack 0x10 q (fmtA (d.setWidth 6) a b (0#3 ++ 2#2 ++ c.code))]
  | .ffma q d a b r => [pack 0x11 q (fmtA d a b (r.code ++ 0#4))]
  | .fcvt q d a r k e => [pack 0x12 q (fmtA d a 0 (r.code ++ k.code ++ e.code))]
  | .xclr q d => [pack 0x13 q (fmtA (d.setWidth 6) 0 0 0)]
  | .xmac q d a b => [pack 0x13 q (fmtA (d.setWidth 6) a b 1)]
  | .xadd q d a => [pack 0x13 q (fmtA (d.setWidth 6) (a.setWidth 6) 0 2)]
  | .xrnd q d a r => [pack 0x13 q (fmtA d (a.setWidth 6) 0 (r.code ++ 3#4))]
  | .ld q d a o z => [pack 0x18 q (fmtM d a o z.code)]
  | .st q d a o z => [pack 0x19 q (fmtM d a o z.code)]
  | .amo q d a b o c w => [pack 0x1A q (fmtA d a b (o.code ++ c.code ++ BitVec.ofBool w))]
  | .spl q d a o z => [pack 0x1B q (fmtM d a o z.code)]
  | .sps q d a o z => [pack 0x1C q (fmtM d a o z.code)]
  | .mark q => [pack 0x1D q 0]
  | .vld q d a o t => [pack 0x20 q (fmtM d a o (0#1 ++ t.code))]
  | .vst q d a o => [pack 0x21 q (fmtM d a o 0)]
  | .vadd q d a b t => [pack 0x22 q (fmtA d a b (BitVec.ofBool t.code ++ 0#2 ++ 0#4))]
  | .vmul q d a b t => [pack 0x22 q (fmtA d a b (BitVec.ofBool t.code ++ 1#2 ++ 0#4))]
  | .vlog q d a b v => [pack 0x22 q (fmtA d a b (1#1 ++ 2#2 ++ 0#2 ++ v.code))]
  | .vshf q d a b v => [pack 0x22 q (fmtA d a b (1#1 ++ 3#2 ++ 0#2 ++ v.code))]
  | .vfma q d a b => [pack 0x23 q (fmtA d a b 0)]
  | .vcmp q d a b t c => [pack 0x24 q (fmtA (d.setWidth 6) a b (BitVec.ofBool t.code ++ 0#3 ++ c.code))]
  | .vsel q d a b p => [pack 0x25 q (fmtA d a b (0#3 ++ p))]
  | .vperm q d a b => [pack 0x26 q (fmtA d a b 0)]
  | .vsplat q d a t => [pack 0x27 q (fmtA d a 0 (0#5 ++ t.code))]
  | .vext q d a l => [pack 0x28 q (fmtA d a l 0)]
  | .vany q d a => [pack 0x29 q (fmtA (d.setWidth 6) (a.setWidth 6) 0 0)]
  | .vall q d a => [pack 0x29 q (fmtA (d.setWidth 6) (a.setWidth 6) 0 1)]
  | .prep q b o => [pack 0x30 q (b ++ o)]
  | .xfer q p v b => [pack 0x31 q (p ++ BitVec.ofBool v ++ 0#17 ++ b)]
  | .loopImm q n e => [pack 0x32 q (0#1 ++ n ++ e)]
  | .loopReg q a e => [pack 0x32 q (1#1 ++ a ++ 0#10 ++ e)]
  | .loopb q => [pack 0x33 q 0]
  | .call q b => [pack 0x34 q (0#15 ++ b ++ 0#7)]
  | .ret q => [pack 0x34 q (fmtA 0 0 0 1)]
  | .enter q f => [pack 0x34 q (fmtA 0 0 f 2)]
  | .trap q c => [pack 0x35 q (0#6 ++ c ++ 0#7)]
  | .rte q => [pack 0x35 q (fmtA 0 0 0 1)]
  | .semsig q d a m => [pack 0x36 q (fmtA (d.setWidth 6) a (m.setWidth 6) 0)]
  | .semwait q d a => [pack 0x36 q (fmtA (d.setWidth 6) a 0 1)]
  | .mtxacq q d => [pack 0x37 q (fmtA (d.setWidth 6) 0 0 0)]
  | .mtxrel q d => [pack 0x37 q (fmtA (d.setWidth 6) 0 0 1)]
  | .fork q m => [pack 0x38 q (fmtA 0 0 (m.setWidth 6) 0)]
  | .rdv q m => [pack 0x38 q (fmtA 0 0 (m.setWidth 6) 1)]
  | .waitc q l s c t => [pack 0x39 q (fmtA l s c (t ++ 0#1))]
  | .join q m => [pack 0x3A q (fmtA 0 0 (m.setWidth 6) 0)]
  | .qfence q m => [pack 0x3A q (fmtA 0 0 (m.setWidth 6) 1)]
  | .bar q c => [pack 0x3B q (fmtA 0 0 0 (c.code.setWidth 7))]
  | .csrr q d n => [pack 0x3C q (d ++ n ++ 0#7)]
  | .csrw q d n => [pack 0x3C q (d ++ n ++ 1#7)]
  | .halt q => [pack 0x3C q (fmtA 0 0 0 2)]
  | .evpop q d => [pack 0x3C q (fmtA d 0 0 3)]
  | .rpop q d => [pack 0x3C q (fmtA d 0 0 4)]
  | .vrfon q n => [pack 0x3C q (fmtA 0 0 (n.setWidth 6) 5)]
  | .tnext q d a p => [pack 0x3C q (fmtA d a (p.setWidth 6) 6)]
  | .nop q => [pack 0x3D q 0]
  | .rchk q => [pack 0x3E q 0]
  | .rret q => [pack 0x3E q 1]
  | .rcall q num async ctr ops => packCall q num async ctr ops
  | .vcvt q d a f => packCall q 0x000 false 0 [.v d, .v a, .fmt f]
  | .vqnt q d a f => packCall q 0x001 false 0 [.v d, .v a, .fmt f]
  | .vdqnt q d a f => packCall q 0x002 false 0 [.v d, .v a, .fmt f]
  | .vfadd q d a b f => packCall q 0x003 false 0 [.v d, .v a, .v b, .fmt f]
  | .vfsub q d a b f => packCall q 0x004 false 0 [.v d, .v a, .v b, .fmt f]
  | .vfmul q d a b f => packCall q 0x005 false 0 [.v d, .v a, .v b, .fmt f]
  | .vffma q d a b f => packCall q 0x006 false 0 [.v d, .v a, .v b, .fmt f]
  | .vfmin q d a b f => packCall q 0x007 false 0 [.v d, .v a, .v b, .fmt f]
  | .vfmax q d a b f => packCall q 0x008 false 0 [.v d, .v a, .v b, .fmt f]
  | .vfabs q d a f => packCall q 0x009 false 0 [.v d, .v a, .fmt f]
  | .vfneg q d a f => packCall q 0x00A false 0 [.v d, .v a, .fmt f]
  | .vclamp q d a b c f => packCall q 0x00B false 0 [.v d, .v a, .v b, .v c, .fmt f]
  | .vsadd q d a b f => packCall q 0x00C false 0 [.v d, .v a, .v b, .fmt f]
  | .vssub q d a b f => packCall q 0x00D false 0 [.v d, .v a, .v b, .fmt f]
  | .vsmul q d a b f => packCall q 0x00E false 0 [.v d, .v a, .v b, .fmt f]
  | .vidot q d a b f => packCall q 0x00F false 0 [.v d, .v a, .v b, .fmt f]
  | .vscale q d a b f => packCall q 0x010 false 0 [.v d, .v a, .s b, .fmt f]
  | .vtag q d a f => packCall q 0x011 false 0 [.v d, .v a, .fmt f]
  | .vpack q d a f => packCall q 0x012 false 0 [.v d, .v a, .fmt f]
  | .vunpk q d a f => packCall q 0x013 false 0 [.v d, .v a, .imm f]
  | .vzip q d a b f => packCall q 0x014 false 0 [.v d, .v a, .v b, .imm f]
  | .vuzp q d a b f => packCall q 0x015 false 0 [.v d, .v a, .v b, .imm f]
  | .vshuf q d a i f => packCall q 0x016 false 0 [.v d, .v a, .v i, .imm f]
  | .vcompr q d c a p => packCall q 0x017 false 0 [.v d, .s c, .v a, .p p]
  | .vexpnd q d a p => packCall q 0x018 false 0 [.v d, .v a, .p p]
  | .vscan q d a f => packCall q 0x019 false 0 [.v d, .v a, .fmt f]
  | .viota q d a b => packCall q 0x01A false 0 [.v d, .s a, .s b]
  | .vrsum q d a p f => packCall q 0x020 false 0 [.s d, .v a, .p p, .fmt f]
  | .vrmax q d x a p f => packCall q 0x021 false 0 [.s d, .s x, .v a, .p p, .fmt f]
  | .vrmin q d x a p f => packCall q 0x022 false 0 [.s d, .s x, .v a, .p p, .fmt f]
  | .vrdot q d a b p f => packCall q 0x023 false 0 [.s d, .v a, .v b, .p p, .fmt f]
  | .vexp q d a f => packCall q 0x024 false 0 [.v d, .v a, .fmt f]
  | .vexp2 q d a f => packCall q 0x025 false 0 [.v d, .v a, .fmt f]
  | .vlog2 q d a f => packCall q 0x026 false 0 [.v d, .v a, .fmt f]
  | .vrcp q d a f => packCall q 0x027 false 0 [.v d, .v a, .fmt f]
  | .vrsqrt q d a f => packCall q 0x028 false 0 [.v d, .v a, .fmt f]
  | .vsqrt q d a f => packCall q 0x029 false 0 [.v d, .v a, .fmt f]
  | .vtanh q d a f => packCall q 0x02A false 0 [.v d, .v a, .fmt f]
  | .vsigm q d a f => packCall q 0x02B false 0 [.v d, .v a, .fmt f]
  | .vgelu q d a f => packCall q 0x02C false 0 [.v d, .v a, .fmt f]
  | .vsilu q d a f => packCall q 0x02D false 0 [.v d, .v a, .fmt f]
  | .vsoftmx q d a n s f => packCall q 0x02E false 0 [.v d, .v a, .s n, .s s, .fmt f]
  | .vexpsum q d a n f => packCall q 0x02F false 0 [.s d, .v a, .s n, .fmt f]
  | .vnormst q d e a n f => packCall q 0x030 false 0 [.s d, .s e, .v a, .s n, .fmt f]
  | .vnormap q d a s t n e f => packCall q 0x031 false 0 [.v d, .v a, .s s, .s t, .s n, .s e, .fmt f]
  | .vtopk q d x a k b f => packCall q 0x032 false 0 [.v d, .v x, .v a, .s k, .s b, .fmt f]
  | .vtopka q d x a k b f => packCall q 0x033 false 0 [.v d, .v x, .v a, .s k, .s b, .fmt f]
  | .vsort q d x a f => packCall q 0x034 false 0 [.v d, .v x, .v a, .fmt f]
  | .vmerge q d e a b f => packCall q 0x035 false 0 [.v d, .v e, .v a, .v b, .fmt f]
  | .vmpsrch q d a b l g f => packCall q 0x036 false 0 [.s d, .v a, .v b, .s l, .s g, .fmt f]
  | .vrsums q d a p f => packCall q 0x03F false 0 [.s d, .v a, .p p, .fmt f]
  | .mdesc q d w0 w1 w2 w3 => packCall q 0x040 false 0 [.q d, .s w0, .s w1, .s w2, .s w3]
  | .mnest q lvl cnt ab c => packCall q 0x041 false 0 [.imm lvl, .s cnt, .s ab, .s c]
  | .mgo q qa qb c org job sem => packCall q 0x042 true 3 [.q qa, .q qb, .c c, .s org, .imm job, .sem sem]
  | .acalloc q c g f => packCall q 0x043 false 0 [.c c, .s g, .fmt f]
  | .acfree q c => packCall q 0x044 false 0 [.c c]
  | .acown q c grp band => packCall q 0x045 false 0 [.c c, .imm grp, .s band]
  | .mzero q c reg job sem => packCall q 0x046 true 3 [.c c, .s reg, .imm job, .sem sem]
  | .mldacc q c qs reg job sem => packCall q 0x047 true 3 [.c c, .q qs, .s reg, .imm job, .sem sem]
  | .mdrain q c qd reg f job sem => packCall q 0x048 true 3 [.c c, .q qd, .s reg, .fmt f, .imm job, .sem sem]
  | .mpeer q c dst reg f job sem => packCall q 0x049 true 3 [.c c, .s dst, .s reg, .fmt f, .imm job, .sem sem]
  | .mstat q d k => packCall q 0x04A false 0 [.s d, .imm k]
  | .mcast q mc => packCall q 0x04B false 0 [.imm mc]
  | .mscale q mode v => packCall q 0x04C false 0 [.imm mode, .s v]
  | .mbias q mode v => packCall q 0x04D false 0 [.imm mode, .s v]
  | .mqflush q => packCall q 0x04E false 0 []
  | .sphdr q a lo hi => packCall q 0x060 false 0 [.s a, .s lo, .s hi]
  | .spchk q d qa => packCall q 0x061 false 0 [.s d, .q qa]
  | .spprune q qd qs opt => packCall q 0x062 false 0 [.q qd, .q qs, .s opt]
  | .spxpose q qd qs => packCall q 0x063 false 0 [.q qd, .q qs]
  | .spgath q opd i n => packCall q 0x064 false 0 [.imm opd, .v i, .s n]
  | .spcost q d nm dim f => packCall q 0x065 false 0 [.s d, .s nm, .s dim, .fmt f]
  | .spattach q qd hdr => packCall q 0x066 false 0 [.q qd, .s hdr]
  | .cpy q dst src shape job sem => packCall q 0x070 true 2 [.s dst, .s src, .s shape, .imm job, .sem sem]
  | .cpyg q dst src idx cnt shape job sem => packCall q 0x071 true 2 [.s dst, .s src, .s idx, .s cnt, .s shape, .imm job, .sem sem]
  | .cpys q dst src idx cnt shape job sem => packCall q 0x072 true 2 [.s dst, .s src, .s idx, .s cnt, .s shape, .imm job, .sem sem]
  | .cpysa q dst src idx cnt shape job sem => packCall q 0x073 true 2 [.s dst, .s src, .s idx, .s cnt, .s shape, .imm job, .sem sem]
  | .cpyf q dst pat shape job sem => packCall q 0x074 true 2 [.s dst, .s pat, .s shape, .imm job, .sem sem]
  | .cpyc q dst src shape side f job sem => packCall q 0x075 true 2 [.s dst, .s src, .s shape, .s side, .fmt f, .imm job, .sem sem]
  | .cpyw q dst src len f job sem => packCall q 0x076 true 2 [.s dst, .s src, .s len, .fmt f, .imm job, .sem sem]
  | .cpyres q tag job sem => packCall q 0x077 true 2 [.imm tag, .imm job, .sem sem]
  | .cpyabt q mode arg => packCall q 0x078 false 0 [.imm mode, .imm arg]
  | .qpush q k src job sem => packCall q 0x079 true 2 [.queue k, .s src, .imm job, .sem sem]
  | .qpop q dst k job sem => packCall q 0x07A true 2 [.s dst, .queue k, .imm job, .sem sem]
  | .qflush q k job sem => packCall q 0x07B true 2 [.queue k, .imm job, .sem sem]
  | .rgmap q e sp va len => packCall q 0x07C false 0 [.imm e, .s sp, .s va, .s len]
  | .rgflush q e job sem => packCall q 0x07D true 2 [.imm e, .imm job, .sem sem]
  | .rgdrop q e job sem => packCall q 0x07E true 2 [.imm e, .imm job, .sem sem]
  | .evarm q opts => packCall q 0x07F false 0 [.imm opts]
  | .cpy2d q dst src geom strides job sem => packCall q 0x08F true 2 [.s dst, .s src, .s geom, .s strides, .imm job, .sem sem]
  | .slcfg q a n => packCall q 0x090 false 0 [.s a, .s n]
  | .slq q a layer => packCall q 0x091 true 2 [.v a, .imm layer]
  | .slsum q first count job sem => packCall q 0x092 true 2 [.s first, .s count, .imm job, .sem sem]
  | .slscore q first count out job sem => packCall q 0x093 true 2 [.s first, .s count, .s out, .imm job, .sem sem]
  | .sltopk q dst k job sem => packCall q 0x094 true 2 [.s dst, .s k, .imm job, .sem sem]
  | .slforce q a n => packCall q 0x095 true 2 [.v a, .s n]
  | .slfetch q dk dv opt job sem => packCall q 0x096 true 2 [.s dk, .s dv, .s opt, .imm job, .sem sem]
  | .slres q mode => packCall q 0x097 true 2 [.imm mode]
  | .tmmul q d t => packCall q 0x0A0 false 0 [.s d, .s t]
  | .tspmul q d t => packCall q 0x0A1 false 0 [.s d, .s t]
  | .tewise q d t => packCall q 0x0A2 false 0 [.s d, .s t]
  | .tred q d t => packCall q 0x0A3 false 0 [.s d, .s t]
  | .tcopy q d t => packCall q 0x0A4 false 0 [.s d, .s t]
  | .tattn q d t => packCall q 0x0A5 false 0 [.s d, .s t]
  | .tstage q t ch => packCall q 0x0A6 false 0 [.s t, .imm ch]
  | .tdisp q t ch => packCall q 0x0A7 false 0 [.s t, .imm ch]
  | .twait q d => packCall q 0x0A8 false 0 [.s d]
  | .tfault q d a => packCall q 0x0A9 false 0 [.s d, .s a]
  | .ringf d a b => [0#7 ++ b ++ a ++ 0#3 ++ d ++ 0x0B#7]
  | .fbfx d a b => [0#7 ++ b ++ a ++ 1#3 ++ d ++ 0x0B#7]
  | .sigw d a => [0#7 ++ 0#5 ++ a ++ 2#3 ++ d ++ 0x0B#7]
  | .disp d a => [0#7 ++ 0#5 ++ a ++ 3#3 ++ d ++ 0x0B#7]
  | .pendingResultLands _ => []
  | .asyncLoadPerformed _ => []
  | .storePerformed _ => []
  | .registerWindowWriteLands _ => []
  | .semaphoreWordStore _ _ _ => []
  | .mutexWordCas _ _ _ _ _ => []
  | .mutexWordRelease _ _ _ => []
  | .semsigIncrementPerformed _ => []
  | .clusterWakeComplete _ _ => []
  | .queueFrameOpen _ _ _ => []
  | .queueFrameTrap _ => []
  | .mgoEntryRun _ _ => []
  | .mzeroEntryRun _ _ => []
  | .mldaccEntryRun _ _ => []
  | .mdrainEntryRun _ _ => []
  | .mpeerEntryRun _ _ => []
  | .tileStatusVisible _ => []
  | .cpyJobRun _ _ _ => []
  | .cpygJobRun _ _ _ => []
  | .cpysJobRun _ _ _ => []
  | .cpysaJobRun _ _ _ => []
  | .cpyfJobRun _ _ _ => []
  | .cpycJobRun _ _ _ => []
  | .cpywJobRun _ _ _ => []
  | .cpyresJobRun _ _ _ => []
  | .qpushJobRun _ _ _ => []
  | .qpopJobRun _ _ _ => []
  | .qflushJobRun _ _ _ => []
  | .rgflushJobRun _ _ _ => []
  | .rgdropJobRun _ _ _ => []
  | .fetchJobRun _ _ => []
  | .slqEntryRun _ _ => []
  | .slsumEntryRun _ _ => []
  | .slscoreEntryRun _ _ => []
  | .sltopkEntryRun _ _ => []
  | .slforceEntryRun _ _ => []
  | .slfetchEntryRun _ _ => []
  | .slresEntryRun _ _ => []
  | .launchStart _ => []
  | .launchComplete _ => []
  | .sheepdogWeightUpdate => []
  | .preemption _ => []
  | .contextSwapOut _ => []
  | .launchResume _ => []
  | .launchFatalFault _ _ _ => []
  | .softErrorCorrection _ _ => []
  | .uncorrectableError _ _ _ => []
  | .pageWalkComplete _ _ _ => []
  | .firstTouchFill _ _ _ => []
  | .invalidationGo _ => []
  | .invalidationComplete _ => []
  | .migrationEpoch => []
  | .migrationRequest _ _ _ _ => []
  | .migrationSwitch _ _ => []
  | .pageCounterQuery => []
  | .tileInstructionStart _ => []
  | .quadInboxWrite _ _ _ => []
  | .childCompletion _ => []
  | .tileDiscardStop _ => []
  | .doorbellWrite _ _ _ => []
  | .graphTrigger _ _ _ => []
  | .graphRerun _ => []
  | .attestationRequest _ => []
  | .quarantineClear _ _ _ => []
  | .substitutionEnWrite _ _ _ => []
  | .islandClockChange _ _ _ => []
  | .linkPortFailure _ => []
  | .shadowContainerWrite _ _ _ _ => []
  | .stopreq _ => []
  | .resume _ => []
  | .arm _ => []
  | .tfifoPop _ => []
  | .traceSample _ => []
  | .traceBufferWrite _ => []
  | .registerWrite _ _ _ => []
  | .reservedEncoding _ => []
  | .forwardedAccess _ _ _ => []
  | .barPodArrival _ _ => []
  | .boot _ => []
  | .graphLoad _ _ _ => []
  | .graphNodeComplete _ => []

end Sys2Proof
end

