-- ==== Sys2Proof/Config.lean ====
section
/-! DEFINITION. The free values: constants without a body for what the manual leaves open or gives to an implementation.
Nothing in Lean can evaluate one, so a claim holds whatever they are. Each is named in the assumption log. -/

namespace Sys2Proof.Config

/-- A fresh open choice or value for each use of the state's counter (log entry 5). -/
opaque freeValue : Nat → Word

/-- Where the loader places section k of the image at a device address for launch l (R437; log entry 20). -/
opaque sectionPlace : Word → Nat → Nat → Word

/-- The stack and frame a firmware copy engine moves a page to (R231 gives no allocation rule; log entry 24). -/
opaque newFrame : Nat → Word → BitVec 2 → Word

/-- The ECDSA signature words r and s over a report (R424; log entry 27). -/
opaque signature : List Byte → Bool → BitVec 384

/-- The digests of the native units that the firmware admitted beside those of R185 and R191 (log entry 28). -/
opaque nativeDigest : Nat → BitVec 384

/-- The firmware version word of the attestation report (R424; log entry 27). -/
opaque firmwareVersion : BitVec 32

/-- Whether such a unit is present in entry n (R185; log entry 28). -/
opaque nativePresent : Nat → Bool

/-- The native unit number of entry n (R185; log entry 28). -/
opaque nativeUnit : Nat → BitVec 12

/-- This package's number in its pod (R10; log entry 29). -/
opaque packageNumber : BitVec 6

/-- A watchpoint's hit record: the manual gives its parts, number, agent and new value, and no layout (R429; log entry 30). -/
opaque hitRecord : Nat → BitVec 14 → Word → BitVec 128

/-- The text digest of an SRL routine as published (R184, R449; log entry 28). -/
opaque srlDigest : BitVec 14 → BitVec 384

/-- The bus window in which host memory is reached from the device: a host address is given by its physical number (R415; log entry 21). -/
opaque hostBus : Word → Nat

/-- The die whose memory holds the byte of a memory number (the manual gives no map of addresses to stacks; log entry 31). -/
opaque dieOf : Nat → Nat

/-- Where the staging pool of a launch on a die puts the n-th copy that a `TSTAGE` makes (R362; log entry 31). -/
opaque stagingPool : Nat → Nat → Nat → Word

/-- Whether a read at a bus address ends in an error (R419 `RINGF`; log entry 32). -/
opaque busError : Word → Bool

/-- The interrupt lines of a firmware core, as `mip` shows them in a cycle (R419 names no source; log entry 89). -/
opaque firmwareLines : Nat → Word

/-- The section and the byte offset in it that a symbol of an image names: the manual gives the symbols section no layout (R443; log entry 33). -/
opaque symbolPlace : List Byte → Nat → Nat × Nat

/-- The header fields of an SRL routine that follow from its published text: FRM, VSCR, HINT, BLEN, NCP, CLEN (R63, R176; log entry 28). -/
opaque srlHeaderRest : BitVec 14 → BitVec 256

/-- The LPDDR-6 stack that holds the byte of a memory number (R405, R406; log entry 31). -/
opaque stackOf : Nat → Nat

/-- The link port over which a peer package is reached (R422 names no routes; log entry 34). -/
opaque peerPort : Nat → Nat

/-- Whether a pod launch with given packages uses a Bexzor link port (R422 names no routes; log entry 34). -/
opaque portUsed : Nat → Word → Bool

end Sys2Proof.Config
end

