-- ==== Sys2Proof/Machine/State.lean ====
section
/-! DEFINITION. The state of the package as plain data: strand contexts and their register sets, residents, cores, the level
controllers, launches, the firmware core, the host's control region, memory, and the model's own bookkeeping (the agenda of
steps to come and the counter of free values). Every field is listed in INVENTORY.md with its rule and reset value. -/

namespace Sys2Proof.Machine

/-- Bytes by address in canonical form: addresses strictly rising, no zero byte listed (an unlisted byte reads as zero, log entry 2). -/
abbrev Memory := List Host.Cell

/-- A vector register (R105). -/
structure VReg where
  data : BitVec 2048
  side : BitVec 256
  tag : BitVec 5
  deriving DecidableEq, Repr, Inhabited

/-- An exact accumulator: a 640-bit integer times 2^-320 and three flags (R141). -/
structure XAcc where
  v : BitVec 640
  nan : Bool
  pinf : Bool
  ninf : Bool
  deriving DecidableEq, Repr, Inhabited

/-- What a pending result does when it lands (R125). Scalar keys: 1..15 global, 16 + position windowed. -/
inductive Effect where
  | sreg (key : Nat) (v : Word)
  | vreg (phys : Nat) (r : VReg)
  | preg (phys : Nat) (m : Word)
  | breg (n : Nat) (t : Word)
  | xacc (n : Nat) (a : XAcc)
  | sticky (bits : Word)
  | csr (num : Nat) (v : Word)
  deriving DecidableEq, Repr, Inhabited

/-- A pending result: the slots left before it lands, the slot it was issued in, its squash bit (R114, R122, R125). -/
structure Pend where
  left : Nat
  slot : Nat
  sq : Bool
  eff : Effect
  deriving DecidableEq, Repr, Inhabited

/-- A loop-stack entry (R123): start, address of the closing `LOOPB`, count. -/
structure LoopEnt where
  start : Word
  stop : Word
  count : Nat
  deriving DecidableEq, Repr, Inhabited

/-- A link-stack entry (R107). -/
structure LinkEnt where
  ret : Word
  fs : Nat
  deriving DecidableEq, Repr, Inhabited

/-- The registers that one instruction stream runs in: a context's own, or a routine frame's (R105, R178). `xclr` marks the accumulators cleared
since the handler was entered (R119, R143). -/
structure Regs where
  s : Tab Word
  wb : Nat
  fs : Nat
  base : Nat
  v : Tab VReg
  p : Tab Word
  b : Tab Word
  x : Tab XAcc
  xi : Tab XAcc
  rrbV : BitVec 5
  rrbP : BitVec 3
  loops : List LoopEnt
  links : List LinkEnt
  pend : List Pend
  pc : Word
  xfer : Option (Word × Nat)
  shade : Nat
  slot : Nat
  xclr : BitVec 4
  deriving DecidableEq, Repr, Inhabited

/-- An operand as a call binds it into its frame (R178): a scalar of the caller by its storage key, with 0 for one that takes no result; a vector
register or predicate by its place, or by its value where its place ends with the frame that made the call; a descriptor, slot, semaphore or queue by
its name in the caller; any other operand, whose value stands in the frame's scalars. -/
inductive Bound where
  | s (key : Nat)
  | v (slot : Nat)
  | p (slot : Nat)
  | vval (r : VReg)
  | pval (m : Word)
  | q (n : BitVec 4)
  | c (n : BitVec 5)
  | sem (n : BitVec 5)
  | queue (k : QueueOp)
  | val
  deriving DecidableEq, Repr, Inhabited

/-- A tile bound to an accumulator slot (R310): its banks, shape, format and drain groups by row (R313). -/
structure CSlot where
  bank : Nat
  nb : Nat
  rows : Nat
  cols : Nat
  fmt : Nat
  rnd : Rnd
  inf : Bool
  bands : Tab Nat
  deriving DecidableEq, Repr, Inhabited

/-- What a frame's body has overwritten of its caller since the last commit point (R180, R181): the old values of the vector registers and predicates
by place, of the descriptors and of the accumulator slots by name. -/
structure Undo where
  v : Tab VReg := []
  p : Tab Word := []
  q : Tab (BitVec 256) := []
  c : Tab (Option CSlot) := []
  deriving DecidableEq, Repr, Inhabited

/-- A routine frame that runs: its caller's registers, the call, the operands bound at it, one for each operand word, and the restart state with
what the body has overwritten since (R177 to R181). `dead` is a frame of a squashed call, `nat` one whose definition runs as a whole. -/
structure Frame where
  caller : Regs
  num : Nat
  kind : Nat
  lat : Nat
  site : Word
  sq : Bool
  dead : Bool
  nat : Bool
  ops : List Bound
  dirs : List Nat
  vscr : Nat
  nopw : Nat
  restart : Regs
  commit : Nat
  step : Nat
  undo : Undo := {}
  deriving DecidableEq, Repr, Inhabited

/-- The waits of R41 and R428, in the KIND order of the wait record. -/
inductive WaitKind where
  | semwait | mtxacq | join | bar | rdv | waitc | rpop | evpop | mark | full | blocking | counter | fill | rchk
  deriving DecidableEq, Repr, Inhabited

/-- A wait in progress: its kind, the FLAG byte of R428 with what the wait is for above it (the limits of a `WAITC`, the FIFO of a full one), the cycle
it began, and the agent whose act last bore on it (R427: RPATH, RRES and RAGENT of R428). -/
structure Wait where
  kind : WaitKind
  flag : Nat
  since : Nat
  rel : BitVec 14 := 0
  deriving DecidableEq, Repr, Inhabited

/-- An instruction stream: the registers in use and the frames they belong to, innermost first; the wait it stands at, whether what it waits
for has been granted to it, the FIFOs in which its `JOIN` markers still wait (R79), and the register of a dropped landing that traps at its next
slot (R111). -/
structure Thread where
  regs : Regs
  stack : List Frame
  wait : Option Wait := none
  granted : Bool := false
  marks : Option (BitVec 4) := none
  landTrap : Option Nat := none
  deriving DecidableEq, Repr, Inhabited

/-- Where a byte lives: memory by its physical number (owner, package and address in one number), or an on-chip window (R19, R220). -/
inductive Place where
  | phys (a : Nat)
  | win (core w off : Nat)
  deriving DecidableEq, Repr, Inhabited

/-- Where an asynchronous result goes (R117). -/
inductive Dest where
  | none
  | sreg (key size : Nat) (sx : Bool)
  | vreg (phys : Nat) (tag : BitVec 5)
  deriving DecidableEq, Repr, Inhabited

/-- What a queued memory operation does when it is performed (R73). `got` is what an AMO has read, while its unit has yet to write (R82). -/
inductive MemKind where
  | load (d : Dest)
  | store (bytes : List Byte)
  | amo (op : AmoOp) (size : Nat) (v e : Word) (c : Scope) (got : Option (List Byte)) (d : Dest)
  deriving DecidableEq, Repr, Inhabited

/-- An entry of a context's load and store queues, kept in program order (R73): `kill` is the slot after which a squashed result is not written (R122);
`thr` and `depth` are the stream and the number of frames open in it at the issue, and `held` says that a trap handler holds these frames. -/
structure MemOp where
  id : Nat
  kind : MemKind
  places : List Place
  va : Word
  sq : Bool
  kill : Option Nat
  thr : Nat
  depth : Nat
  held : Bool := false
  deriving DecidableEq, Repr, Inhabited

/-- A `SEMSIG` increment held until its release conditions hold (R80, R161). -/
structure HeldSig where
  sem : Nat
  amount : Nat
  afterMem : Nat
  heads : List (Nat × Nat)
  deriving DecidableEq, Repr, Inhabited

/-- A trap of an engine entry or queue frame, waiting for its context (R402), with the address that its fault record would carry (R338). -/
structure EngTrap where
  fifo : Nat
  cls : Nat
  detail : Nat
  arg : Nat
  core : Nat
  site : Word
  upc : BitVec 32
  addr : Word
  deriving DecidableEq, Repr, Inhabited

/-- Whether a strand issues (R28, R31, R164). -/
inductive Run where
  | empty | fresh | running | halted
  deriving DecidableEq, Repr, Inhabited

/-- A score and block pair of the candidate unit (R376, R386): the FP32 code and the block. -/
structure Cand where
  score : W32
  block : Nat
  deriving DecidableEq, Repr, Inhabited

/-- Selection state of a `sel` context (R376). -/
structure SelState where
  layers : List (BitVec 512)
  cur : Option Nat
  query : BitVec 2048
  forced : List Nat
  cands : List Cand
  nan : Bool
  clip : Bool
  full : Bool
  last : List Nat
  deriving DecidableEq, Repr, Inhabited

/-- A strand context, apart from its register sets (R105, R112, R120, R400). `starve` is 0 when the context was not eligible in its sequencer's last cycle, and else one more than the cycles
for which it has been eligible without a grant (R41). `gate` is what a strand started by `FORK` waits for (R164): the accesses of `ctl` before a
number, and the cycle of the `FORK`. -/
structure Ctx where
  run : Run
  start : Word
  status : Word
  cause : Word
  epc : Word
  eupc : Word
  tvec : Word
  handler : Bool
  hLoops : Nat
  hLinks : Nat
  hWb : Nat
  hFs : Nat
  held : List Pend
  heldXfer : Option (Word × Nat)
  heldThread : Option Thread
  heldHalt : Bool
  awake : BitVec 8
  waking : List (Nat × Nat)
  memq : List MemOp
  memId : Nat
  nLoads : Nat
  nStores : Nat
  nCopies : Nat
  nTiles : Nat
  bantam : Memory
  cursor : Nat
  slots : Nat
  credit : Int
  starve : Nat
  waitSeq : Nat
  rdv : Option (BitVec 4)
  barN : Tab Nat
  barIn : Option Nat
  gate : Option (Nat × Nat)
  sigs : List HeldSig
  evarm : BitVec 2
  traps : List EngTrap
  frameTrap : Option Nat
  heldWaking : List (Nat × Nat)
  qd : Tab (BitVec 256)
  sel : SelState
  deriving DecidableEq, Repr, Inhabited

/-- One level of the staging nest (R314). -/
structure NestLvl where
  count : Nat
  sa : Int × Int
  sb : Int × Int
  sc : Int × Int
  deriving DecidableEq, Repr, Inhabited

/-- A drain scale or drain bias setting (R319). -/
structure DrainSet where
  mode : Nat
  v : Word
  deriving DecidableEq, Repr, Inhabited

/-- An engine job: the routine, its captured operands and settings (R195, R304, R380), and how far it is: `cursor` and `bytes` of work done,
whether it has started, the commit points it has passed (R216, R391), and the status with which it is finished but held at its head (R14); of an `MGO` the
multicast setting (R323), the charge read as it became the head (R349) and the header read at its start (R339). -/
structure Job where
  num : Nat
  strand : Nat
  site : Word
  word : BitVec 28
  sem : Nat
  ctr : Nat
  args : List Word
  descs : List (BitVec 256)
  slot : Nat
  tile : Option CSlot
  fmt : BitVec 28
  nest : Tab NestLvl
  dscale : DrainSet
  dbias : DrainSet
  gathA : Option (List Nat)
  gathB : Option (List Nat)
  vec : BitVec 2048
  lanes : List Nat
  evarm : BitVec 2
  cursor : Nat
  bytes : Nat
  started : Bool
  fin : Option Nat
  itver : Bool
  ops : List Bound
  wbase : Nat
  commits : Nat := 0
  mcast : BitVec 12 := 0
  charge : Option Nat := none
  hdr : Option Nat := none
  deriving DecidableEq, Repr, Inhabited

/-- An entry of an engine FIFO (R13, R78, R79); a marker belongs to a stream. -/
inductive Ent where
  | job (j : Job)
  | fence (id : Nat)
  | marker (t : Nat)
  deriving DecidableEq, Repr, Inhabited

/-- A region-map entry (R213, R226, R227): chunks and lines by number. -/
structure Region where
  sp : Nat
  va : Word
  len : Nat
  filled : List Nat
  dirty : List Nat
  deriving DecidableEq, Repr, Inhabited

/-- A resident of a core, shared by its four strands (R16, R18, R40). `fills` are the chunks whose fill is asked for, `badFills` those whose fill met a
fault, with its class and address, until the access that asked takes it (R226). -/
structure Res where
  loaded : Bool
  launch : Nat
  stage : Nat
  replica : Nat
  replicas : Nat
  weight : Nat
  alloc : Word
  spillb : Nat
  bank0 : Nat
  banks : Nat
  semMap : Tab Nat
  mtxMap : Tab Nat
  asid : Nat
  table : Option Word
  fifos : Tab (List Ent)
  retired : Tab Nat
  fenceId : Nat
  evq : List (BitVec 128)
  rpq : List Word
  susp : List Job
  regions : Tab Region
  fills : List Nat
  badFills : List (Nat × Nat × Word)
  vt : Nat
  nest : Tab NestLvl
  dscale : DrainSet
  dbias : DrainSet
  mcast : BitVec 12
  gathA : Option (List Nat)
  gathB : Option (List Nat)
  slots : Tab CSlot
  deriving DecidableEq, Repr, Inhabited

/-- A semaphore (R162): its count and the streams waiting, oldest first, each with its amount. -/
structure Sem where
  count : BitVec 16
  queue : List (Nat × Nat)
  deriving DecidableEq, Repr, Inhabited

/-- A mutex (R163, R23): its holder (`agent` numbers at and above 65,536 are remote agents) and the local streams waiting. -/
structure Mtx where
  holder : Option Nat
  queue : List Nat
  deriving DecidableEq, Repr, Inhabited

/-- A tile status entry (R321). -/
structure TileStat where
  bits : BitVec 13
  dseq : BitVec 16
  gseq : BitVec 16
  base : BitVec 5
  nb : BitVec 6
  deriving DecidableEq, Repr, Inhabited

/-- What a retired matrix entry makes visible 12 cycles later (R322): status, then its signal and its reply. -/
structure TileUpd where
  due : Nat
  bank : Nat
  bits : BitVec 13
  drained : Bool
  stepped : Bool
  res : Nat
  signal : Option Nat
  reply : Option Word
  deriving DecidableEq, Repr, Inhabited

/-- A translation: page base, size, frame, owner, package and permissions (R221). -/
structure Xlat where
  asid : Nat
  va : Nat
  size : Nat
  frame : Nat
  owner : BitVec 2
  peer : Nat
  rd : Bool
  wr : Bool
  ex : Bool
  mig : Bool
  deriving DecidableEq, Repr, Inhabited

/-- A write held at a core's port until the owner's next slot boundary (R85), with the code and the core of the agent that made it. -/
structure WinWrite where
  w : Nat
  off : Nat
  bytes : List Byte
  agent : BitVec 14
  core : Option Nat
  deriving DecidableEq, Repr, Inhabited

/-- A value watchpoint (R429). -/
structure Watch where
  addr : Word
  mask : Word
  val : Word
  mode : Nat
  record : Bool
  stop : Bool
  deriving DecidableEq, Repr, Inhabited

/-- A core, shared by its residents (R11, R18, R20, R222, R426). `tfifo` holds records of 16-byte units, a wait record marked; `issued` says whether
one of its sequencers has issued in this cycle (R432); `casts` are the operand fetches of its multicast nests in the last 64 cycles: cycle, setting, the core
that holds the bytes, their offsets and lengths (R323). -/
structure Core where
  scratch : Memory
  acc : Memory
  sems : Tab Sem
  mtxs : Tab Mtx
  tstat : Tab TileStat
  tupd : List TileUpd
  tlb : List Xlat
  pred : List (Nat × Nat × Xlat)
  winq : List WinWrite
  rrIn : Nat
  rrOut : Nat
  rrSel : Nat
  rrSeq : Tab Nat
  stopped : Bool
  logEn : Bool
  sampEn : Bool
  sampLog2 : Nat
  armed : Bool
  tbase : Word
  tsize : Word
  twptr : Nat
  trunc : Bool
  full : Bool
  dropped : BitVec 32
  watch : Tab Watch
  counters : Tab Word
  tfifo : List (Bool × List (BitVec 128))
  tfifoHalf : Bool
  shadowBytes : Memory
  shadowLen : Nat
  issued : Bool
  casts : List (Nat × BitVec 12 × Nat × List (Nat × Nat)) := []
  deriving DecidableEq, Repr, Inhabited

/-- A core context in shadow storage (R407). -/
structure Saved where
  launch : Nat
  core : Core
  residents : Tab Res
  ctxs : Tab Ctx
  threads : Tab Thread
  deriving DecidableEq, Repr, Inhabited

/-- A fault record (R364). -/
abbrev FaultRec := BitVec 256

/-- How a dispatched child stands (R363, R366). -/
inductive ChildState where
  | running | done | faulted (r : FaultRec) | cancelled
  deriving DecidableEq, Repr, Inhabited

/-- A share of a tile instruction (R356): ranges of C's rows and columns and of the contracted dimension, upper ends excluded; the row of C at which the
rows of A begin, where staging packed A for the share (R362); and whether C overlaps an operand of the whole instruction (R355). -/
structure Share where
  r0 : Nat
  r1 : Nat
  c0 : Nat
  c1 : Nat
  k0 : Nat
  k1 : Nat
  a0 : Nat := 0
  crossed : Bool := false
  deriving DecidableEq, Repr, Inhabited

/-- An inbox entry: a tile command block by its address (R363, R368) or one that a native decomposer built, with its share (R351, R362), and the
agent that waits for it as its child of a number. -/
structure InboxEnt where
  addr : Option Word
  tcb : BitVec 1024
  share : Option Share
  parent : Option Nat
  child : Nat
  deriving DecidableEq, Repr, Inhabited

/-- A level controller or the tile side of a core as a launch uses it: its inbox and the instruction it executes (R351, R363, R368). -/
structure Node where
  inbox : List InboxEnt
  busy : Bool
  tcb : BitVec 1024
  share : Share
  parent : Option Nat
  child : Nat
  phase : Nat
  seq : BitVec 32
  children : Tab ChildState
  dispatched : List Nat
  cancelling : Bool
  discard : Bool
  outcome : Option ChildState
  kept : FaultRec
  flt : Bool
  completed : Word
  deriving DecidableEq, Repr, Inhabited

/-- A routine-table entry of a launch's image (R176, R438) with the addresses the loader placed it at, and its binding (R186). -/
structure Routine where
  num : Nat
  kind : Nat
  ord : Bool
  depr : Bool
  smask : BitVec 4
  ctr : Nat
  lat : Nat
  nopw : Nat
  frm : Nat
  vscr : Nat
  sigs : List (BitVec 8)
  blen : Nat
  ncp : Nat
  clen : Nat
  body : Word
  consts : Word
  native : Bool
  srl : Option Nat
  digest : Option (BitVec 384)
  deriving DecidableEq, Repr, Inhabited

/-- A stage queue (R29, R212, R441): whether it lives in device memory, where its slots lie, and the slots occupied, oldest first. -/
structure StageQ where
  depth : Nat
  esz : Nat
  prod : Nat
  cons : Nat
  dev : Bool
  home : Option Nat
  base : Nat
  occ : List (Nat × Nat)
  nextSlot : Nat
  pushed : Nat
  busy : List Nat := []
  deriving DecidableEq, Repr, Inhabited

/-- A synchronisation token of a launch (R440). -/
structure Token where
  view : Nat
  mutex : Bool
  stage : Nat
  count : Nat
  deriving DecidableEq, Repr, Inhabited

/-- A stage of a pipeline (R439): allocation word, replicas, template, stream starts and handlers. -/
structure Stage where
  alloc : Word
  repl : Nat
  sched : Option Nat
  starts : List Word
  handlers : List Word
  deriving DecidableEq, Repr, Inhabited

/-- A schedule-table template (R442). -/
structure Template where
  block : Bool
  args : List Nat
  deriving DecidableEq, Repr, Inhabited

/-- A resident placed on a core (R33). -/
structure Placed where
  core : Nat
  res : Nat
  stage : Nat
  replica : Nat
  deriving DecidableEq, Repr, Inhabited

/-- Where a launch stands (R32, R44, R45, R403, R430). -/
inductive LaunchState where
  | waiting | placed | running | halting | saved | stopped | done
  deriving DecidableEq, Repr, Inhabited

/-- A launch (R26, R27, R415) with what its image gave: `start` is the cycle of its start, `haltAt` that of its last halt, `dbg` whether a
debug stop asked for that halt (R430), `wrote` the places that its agents' accesses wrote (R403). -/
structure Launch where
  st : LaunchState
  fn : Nat
  ring : Nat
  tag : BitVec 16
  cls : Nat
  single : Bool
  counter : Bool
  nquads : Nat
  root : Nat
  asid : Nat
  args : List Word
  podmask : Word
  cpl : Word
  quads : List Nat
  usable : List Nat
  placed : List Placed
  stages : List Stage
  tokens : List Token
  queues : List StageQ
  templates : List Template
  routines : List Routine
  lvl : Word
  start : Nat
  haltAt : Nat
  dbg : Bool
  podArr : Tab Nat
  graph : Option Nat
  record : Option FaultRec
  wrote : List Place := []
  deriving DecidableEq, Repr, Inhabited

/-- A command ring (R414). -/
structure Ring where
  base : Word
  size : Word
  head : Nat
  tail : BitVec 16
  deriving DecidableEq, Repr, Inhabited

/-- The control region of one function and its graph rights (R412 to R414). `going` is what the invalidation under way took at GO: address space,
first address and length (R414). -/
structure Func where
  rings : Tab Ring
  iasid : BitVec 16
  iva : Word
  ilen : Word
  idone : Bool
  irefused : Bool
  going : BitVec 16 × Word × Word
  nonce : BitVec 384
  adone : Bool
  abusy : Bool
  report : List Byte
  deriving DecidableEq, Repr, Inhabited

/-- A resident graph (R420, R421). `again` marks a run owed by a trigger, begun with the end of the run before and not yet at its first node. -/
structure Graph where
  owner : Nat
  nodes : List GraphNode
  running : Bool
  pending : Bool
  pos : Nat
  counts : Tab Nat
  again : Bool := false
  deriving DecidableEq, Repr, Inhabited

/-- A firmware core, an RV64 with machine, supervisor and user modes (R419, log entry 4): registers, program counter, mode, the control and status
registers of the two upper modes, and memory. `mip` holds the pending bits that software sets; `mcycle` is what the counter runs ahead of the device's own
count. `fetched` gives the ring from which the entry at a memory address came, as 16 times the function plus the ring. -/
structure Firmware where
  x : Tab Word
  pc : Word
  mode : BitVec 2
  mstatus : Word
  medeleg : Word
  mideleg : Word
  mie : Word
  mip : Word
  mtvec : Word
  mscratch : Word
  mepc : Word
  mcause : Word
  mtval : Word
  stvec : Word
  sscratch : Word
  sepc : Word
  scause : Word
  stval : Word
  mcounteren : BitVec 32
  scounteren : BitVec 32
  mcycle : Word
  minstret : Word
  mem : Memory
  waiting : Bool
  fetched : Tab Nat
  deriving DecidableEq, Repr, Inhabited

/-- The four access counters of a page (R230), its bytes, the epoch after the one in which it last moved (R232), and the address space and virtual
base through which the device knows it. -/
structure PageCtr where
  dev : BitVec 12
  host : BitVec 12
  peer : BitVec 12
  cxl : BitVec 12
  moved : Nat
  size : Nat
  home : Option (Nat × Nat)
  deriving DecidableEq, Repr, Inhabited

/-- A page move in progress (R231): address space, virtual base, target owner, frame there. -/
structure Move where
  asid : Nat
  va : Nat
  cls : BitVec 2
  frame : Word
  deriving DecidableEq, Repr, Inhabited

/-- A message that this package has sent over a Bexzor link for a pod launch (R422): a command block for a member, a discard, or how an instruction
ended, to the root as the member tells it or to a member as the root does. -/
inductive LinkMsg where
  | tcb (launch pkg : Nat) (b : BitVec 1024)
  | discard (launch pkg : Nat)
  | outcome (launch pkg : Nat) (o : LinkOutcome)
  deriving DecidableEq, Repr, Inhabited

/-- The notify latch (R418). -/
structure Notify where
  bitmap : Word
  count : BitVec 32
  deriving DecidableEq, Repr, Inhabited

/-- A step of the device or an act of the outside world that the agenda holds: the rows of the table without an encoding. -/
inductive Ev where
  | pendingResultLands (w : Nat)
  | asyncLoadPerformed (w : Nat)
  | storePerformed (w : Nat)
  | registerWindowWriteLands (core : Nat)
  | semaphoreWordStore (core off : Nat) (v : Word)
  | mutexWordCas (agent core off : Nat) (e v : Word)
  | mutexWordRelease (agent core off : Nat)
  | semsigIncrementPerformed (w : Nat)
  | clusterWakeComplete (w k : Nat)
  | queueFrameOpen (core res fifo : Nat)
  | queueFrameTrap (w : Nat)
  | mgoEntryRun (core res : Nat)
  | mzeroEntryRun (core res : Nat)
  | mldaccEntryRun (core res : Nat)
  | mdrainEntryRun (core res : Nat)
  | mpeerEntryRun (core res : Nat)
  | tileStatusVisible (core : Nat)
  | cpyJobRun (core res fifo : Nat)
  | cpygJobRun (core res fifo : Nat)
  | cpysJobRun (core res fifo : Nat)
  | cpysaJobRun (core res fifo : Nat)
  | cpyfJobRun (core res fifo : Nat)
  | cpycJobRun (core res fifo : Nat)
  | cpywJobRun (core res fifo : Nat)
  | cpyresJobRun (core res fifo : Nat)
  | qpushJobRun (core res fifo : Nat)
  | qpopJobRun (core res fifo : Nat)
  | qflushJobRun (core res fifo : Nat)
  | rgflushJobRun (core res fifo : Nat)
  | rgdropJobRun (core res fifo : Nat)
  | fetchJobRun (core res : Nat)
  | slqEntryRun (core res : Nat)
  | slsumEntryRun (core res : Nat)
  | slscoreEntryRun (core res : Nat)
  | sltopkEntryRun (core res : Nat)
  | slforceEntryRun (core res : Nat)
  | slfetchEntryRun (core res : Nat)
  | slresEntryRun (core res : Nat)
  | launchStart (l : Nat)
  | launchComplete (l : Nat)
  | sheepdogWeightUpdate
  | preemption (l : Nat)
  | contextSwapOut (l : Nat)
  | launchResume (l : Nat)
  | launchFatalFault (w cls : Nat) (addr : Word)
  | softErrorCorrection (r : Resource) (ms : Nat)
  | uncorrectableError (r : Resource) (hits : List ErrorHit) (addr : Word)
  | pageWalkComplete (res asid : Nat) (va : Word)
  | firstTouchFill (core res chunk : Nat)
  | invalidationGo (fn : Nat)
  | invalidationComplete (fn : Nat)
  | migrationEpoch
  | migrationRequest (asid : Nat) (va : Word) (cls : BitVec 2) (byHost : Bool)
  | migrationSwitch (asid : Nat) (va : Word)
  | pageCounterQuery
  | tileInstructionStart (node : Nat)
  | quadInboxWrite (quad : Nat) (privileged : Bool) (tcb : Word)
  | childCompletion (node : Nat)
  | tileDiscardStop (node : Nat)
  | doorbellWrite (off size : Nat) (v : Word)
  | graphTrigger (fn n : Nat) (v : Word)
  | graphRerun (n : Nat)
  | attestationRequest (fn : Nat)
  | quarantineClear (fn k : Nat) (v : Word)
  | substitutionEnWrite (fn n : Nat) (v : Word)
  | islandClockChange (island mhz : Nat) (gated : Bool)
  | linkPortFailure (port : Nat)
  | shadowContainerWrite (core : Nat) (privileged : Bool) (off : Nat) (v : Word)
  | stopreq (core : Nat)
  | resume (core : Nat)
  | arm (core : Nat)
  | tfifoPop (core : Nat)
  | traceSample (core : Nat)
  | traceBufferWrite (core : Nat)
  | registerWrite (fn off : Nat) (v : Word)
  | forwardedAccess (src : FwdFrom) (addr : Nat) (op : FwdOp)
  | barPodArrival (l : Nat) (seat : PodSeat)
  | boot (imageOk : Bool)
  | graphLoad (n : Nat) (owner : Nat) (nodes : List GraphNode)
  | graphNodeComplete (n : Nat)
  deriving DecidableEq, Repr

/-- One step to come: a stream issues, the firmware core executes an instruction, or a step of the device or of the outside world is performed. -/
inductive Act where
  | issue (t : Nat)
  | firmware
  | event (e : Ev)
  deriving DecidableEq, Repr

/-- The package. `cur` is the stream whose instruction is being executed, `agenda` the acts still to come in this cycle, `later` those put off to
the next, `turn` the sequencer whose grant comes next in this cycle (4 times the node plus the strand). `fresh` counts the free values used. -/
structure State where
  mem : Memory
  threads : Tab Thread
  ctxs : Tab Ctx
  residents : Tab Res
  cores : Tab Core
  nodes : Tab Node
  shadow : Tab Saved
  launches : Tab Launch
  nextLaunch : Nat
  quarantine : List Nat
  quadQuar : List Nat
  stackQuar : List Nat
  portQuar : List Nat
  corrections : List (Resource × Nat)
  roots : Tab Word
  funcs : Tab Func
  epoch : Word
  tmove : Word
  tmargin : Word
  hyst : Word
  epochNo : Nat
  pages : Tab PageCtr
  moves : List Move
  pasid : BitVec 16
  pva : Word
  pdone : Bool
  pnopage : Bool
  pcnt : Word
  subDis : List Nat
  notify : Notify
  fw : Firmware
  graphs : Tab Graph
  islands : Tab (Nat × Bool)
  ports : Tab Nat
  msix : List Nat
  links : List LinkMsg
  booted : Bool
  cycle : Nat
  cur : Nat
  turn : Nat
  agenda : List Act
  later : List Act
  fresh : Nat
  deriving DecidableEq, Repr

/-- A stop of the machine itself. -/
inductive Fault where
  /-- Raised by nothing in the exec arms: step answers it for a firmware fetch past the last address, from a program counter that is no multiple of 4, which no run reaches (log entry 4). Safe: the machine stops. -/
  | firmwareFetch
  deriving DecidableEq, Repr

/-- An instruction without a meaning. -/
inductive Refusal where
  /-- An arm of exec that is not modelled. Safe: the machine stops. -/
  | notModelled (mnemonic : String)
  deriving DecidableEq, Repr

/-- The registers of a context that has run nothing (R31, R105). -/
def Regs.reset : Regs :=
  ⟨[], 0, 0, 0, [], [], [], [], [], 0, 0, [], [], [], 0, none, 0, 0, 0⟩

/-- A stream that has run nothing. -/
def Thread.reset : Thread := ⟨Regs.reset, [], none, false, none, none⟩

/-- Selection state with nothing in it (R376). -/
def SelState.reset : SelState := ⟨[], none, 0, [], [], false, false, false, []⟩

/-- A context at reset: every register zero, both `EVARM` defaults set (R112, R204). -/
def Ctx.reset : Ctx where
  run := .empty
  start := 0
  status := 0
  cause := 0
  epc := 0
  eupc := 0
  tvec := 0
  handler := false
  hLoops := 0
  hLinks := 0
  hWb := 0
  hFs := 0
  held := []
  heldXfer := none
  heldThread := none
  heldHalt := false
  awake := 0
  waking := []
  memq := []
  memId := 0
  nLoads := 0
  nStores := 0
  nCopies := 0
  nTiles := 0
  bantam := []
  cursor := 0
  slots := 0
  credit := 0
  starve := 0
  waitSeq := 0
  rdv := none
  barN := []
  barIn := none
  gate := none
  sigs := []
  evarm := 3
  traps := []
  frameTrap := none
  heldWaking := []
  qd := []
  sel := SelState.reset

/-- The drain scale at launch: 1.0 in mode 0 (R319). -/
def DrainSet.one : DrainSet := ⟨0, 0x3F800000⟩

/-- The drain bias at launch: +0 in mode 0 (R319). -/
def DrainSet.zero : DrainSet := ⟨0, 0⟩

/-- A resident that is not loaded (R16), with the starting weight of R40. -/
def Res.reset : Res where
  loaded := false
  launch := 0
  stage := 0
  replica := 0
  replicas := 0
  weight := 8
  alloc := 0
  spillb := 0
  bank0 := 0
  banks := 0
  semMap := []
  mtxMap := []
  asid := 0
  table := none
  fifos := []
  retired := []
  fenceId := 0
  evq := []
  rpq := []
  susp := []
  regions := []
  fills := []
  badFills := []
  vt := 0
  nest := []
  dscale := DrainSet.one
  dbias := DrainSet.zero
  mcast := 0
  gathA := none
  gathB := none
  slots := []

/-- A core at reset. -/
def Core.reset : Core where
  scratch := []
  acc := []
  sems := []
  mtxs := []
  tstat := []
  tupd := []
  tlb := []
  pred := []
  winq := []
  rrIn := 0
  rrOut := 0
  rrSel := 0
  rrSeq := []
  stopped := false
  logEn := false
  sampEn := false
  sampLog2 := 10
  armed := false
  tbase := 0
  tsize := 0
  twptr := 0
  trunc := false
  full := false
  dropped := 0
  watch := []
  counters := []
  tfifo := []
  tfifoHalf := false
  shadowBytes := []
  shadowLen := 0
  issued := false
  casts := []

/-- A controller at reset. -/
def Node.reset : Node where
  inbox := []
  busy := false
  tcb := 0
  share := { r0 := 0, r1 := 0, c0 := 0, c1 := 0, k0 := 0, k1 := 0 }
  parent := none
  child := 0
  phase := 0
  seq := 0
  children := []
  dispatched := []
  cancelling := false
  discard := false
  outcome := none
  kept := 0
  flt := false
  completed := 0

/-- A function's control region at reset. -/
def Func.reset : Func := ⟨[], 0, 0, 0, true, false, (0, 0, 0), 0, false, false, []⟩

/-- A page whose counters read zero (R230). -/
def PageCtr.reset : PageCtr := ⟨0, 0, 0, 0, 0, 65536, none⟩

/-- The firmware core at reset: machine mode, everything else zero (log entry 3). -/
def Firmware.reset : Firmware :=
  { x := [], pc := 0, mode := 3, mstatus := 0, medeleg := 0, mideleg := 0, mie := 0, mip := 0, mtvec := 0, mscratch := 0, mepc := 0, mcause := 0,
    mtval := 0, stvec := 0, sscratch := 0, sepc := 0, scause := 0, stval := 0, mcounteren := 0, scounteren := 0, mcycle := 0, minstret := 0,
    mem := [], waiting := false, fetched := [] }

/-- The machine right after reset: no launch, no context loaded, memory with nothing listed, the migration
policy registers at the reset values of R414, nothing on the agenda. -/
def State.reset : State where
  mem := []
  threads := []
  ctxs := []
  residents := []
  cores := []
  nodes := []
  shadow := []
  launches := []
  nextLaunch := 1
  quarantine := []
  quadQuar := []
  stackQuar := []
  portQuar := []
  corrections := []
  roots := []
  funcs := []
  epoch := 1000
  tmove := 512
  tmargin := 256
  hyst := 2
  epochNo := 0
  pages := []
  moves := []
  pasid := 0
  pva := 0
  pdone := false
  pnopage := false
  pcnt := 0
  subDis := []
  notify := ⟨0, 0⟩
  fw := Firmware.reset
  graphs := []
  islands := []
  ports := []
  msix := []
  links := []
  booted := false
  cycle := 0
  cur := 0
  turn := 0
  agenda := []
  later := []
  fresh := 0

end Sys2Proof.Machine
end

