-- ==== Sys2Proof/Machine/Data.lean ====
section
/-! DEFINITION. Tables by key, byte memory in its canonical form, byte order, and the keys of contexts, residents and controllers. -/

namespace Sys2Proof.Machine

/-! ## Tables -/

/-- The value at a key; `d` where none is listed. -/
def tget {α : Type} (d : α) : Tab α → Nat → α
  | [], _ => d
  | (k', v) :: t, k => if k = k' then v else tget d t k

/-- The value at a key, if one is listed. -/
def tget? {α : Type} : Tab α → Nat → Option α
  | [], _ => none
  | (k', v) :: t, k => if k = k' then some v else tget? t k

/-- A table with the value at one key replaced; keys stay in rising order. -/
def tset {α : Type} : Tab α → Nat → α → Tab α
  | [], k, v => [(k, v)]
  | (k', v') :: t, k, v =>
    if k < k' then (k, v) :: (k', v') :: t
    else if k = k' then (k, v) :: t
    else (k', v') :: tset t k v

/-- A table without a key. -/
def terase {α : Type} (t : Tab α) (k : Nat) : Tab α := t.filter fun c => c.1 != k

/-- A table with the values whose key satisfies `p` changed by `f`. -/
def tmapIf {α : Type} (p : Nat → Bool) (f : Nat → α → α) (t : Tab α) : Tab α :=
  t.map fun c => if p c.1 then (c.1, f c.1 c.2) else c

/-! ## Byte memory -/

/-- What an unlisted address reads as (log entry 2). -/
def unlisted : Byte := 0

/-- One byte. -/
def rdByte (m : Memory) (a : Nat) : Byte := tget unlisted m a

/-- Memory with one byte replaced: a byte equal to what an unlisted address reads as is not listed. -/
def wrByte (m : Memory) (a : Nat) (b : Byte) : Memory :=
  if b = unlisted then terase m a else tset m a b

/-- Addresses above `lo` strictly rising, no unlisted value listed. -/
def memWfFrom : Option Nat → Memory → Bool
  | _, [] => true
  | lo, (a, b) :: m =>
    (match lo with | none => true | some l => decide (l < a)) && b != unlisted && memWfFrom (some a) m

/-- The canonical form of a memory. -/
def Memory.wf (m : Memory) : Bool := memWfFrom none m

/-- `n` bytes from an address upwards. -/
def rdBytes (m : Memory) (a : Nat) (n : Nat) : List Byte := (List.range n).map fun i => rdByte m (a + i)

/-- Bytes written from an address upwards. -/
def wrBytes (m : Memory) (a : Nat) : List Byte → Memory
  | [] => m
  | b :: bs => wrBytes (wrByte m a b) (a + 1) bs

/-- Little-endian value of bytes (R4). -/
def leNat : List Byte → Nat
  | [] => 0
  | b :: bs => b.toNat + 256 * leNat bs

/-- The low `n` bytes of a number, the lowest first (R4). -/
def leBytes : Nat → Nat → List Byte
  | 0, _ => []
  | n + 1, v => BitVec.ofNat 8 v :: leBytes n (v / 256)

/-- An 8-byte word of memory. -/
def rdWord (m : Memory) (a : Nat) : Word := BitVec.ofNat 64 (leNat (rdBytes m a 8))

/-- A little-endian unsigned value of `n` bytes. -/
def rdNat (m : Memory) (a n : Nat) : Nat := leNat (rdBytes m a n)

/-! ## Fields and signs -/

/-- Bits `lo + w - 1 .. lo` of a number. -/
def fld (x lo w : Nat) : Nat := x / 2 ^ lo % 2 ^ w

/-- One bit of a number. -/
def bitOf (x i : Nat) : Bool := x / 2 ^ i % 2 = 1

/-- The low `w` bits of a number, read as two's complement. -/
def sextNat (x w : Nat) : Int :=
  let y := x % 2 ^ w
  if 2 ^ w ≤ 2 * y then (y : Int) - 2 ^ w else y

/-- An integer modulo 2^64. -/
def wordOfInt (i : Int) : Word := BitVec.ofInt 64 i

/-- Ceiling division. -/
def cdiv (a b : Nat) : Nat := (a + b - 1) / b

/-- A multiple of `g` at or above `a`. -/
def roundUp (a g : Nat) : Nat := cdiv a g * g

/-- A list with one element replaced. -/
def lset {α : Type} : List α → Nat → α → List α
  | [], _, _ => []
  | _ :: xs, 0, v => v :: xs
  | x :: xs, i + 1, v => x :: lset xs i v

/-! ## Keys

A context is numbered node × 16 + resident × 4 + strand, a resident node × 4 + resident, and a stream context × 5 + q, where
q is 0 for the strand itself and 1 + f for the queue frame of FIFO f (R177). A node below 512 is a core by its packed path (R10). The
controllers of launch l are the nodes 1024 l + k, k being 512 for the package, 513 + d for a die, 517 + q for a quad and 645 for the pod
(R351), so that a swapped-out launch keeps its own (R368); a node of l below 512 is the tile side of a core. The level program (R370) is the
context of resident 1 of the package controller; every other controller's context is of resident 0. -/

/-- The context of a stream. -/
def ctxOf (t : Nat) : Nat := t / 5
/-- The queue-frame number of a stream: 0 the strand, 1 + f FIFO f. -/
def qfOf (t : Nat) : Nat := t % 5
/-- A context's own stream. -/
def mainOf (w : Nat) : Nat := 5 * w
/-- A context's core or controller. -/
def nodeOf (w : Nat) : Nat := w / 16
/-- A context's resident number. -/
def resNoOf (w : Nat) : Nat := w / 4 % 4
/-- A context's strand code (R11). -/
def strandOf (w : Nat) : Nat := w % 4
/-- A context's resident. -/
def resKeyOf (w : Nat) : Nat := w / 4
/-- A context of a resident. -/
def ctxKey (r strand : Nat) : Nat := 4 * r + strand
/-- The package controller of a launch. -/
def pkgNode (l : Nat) : Nat := 1024 * l + 512
/-- A die controller. -/
def dieNode (l d : Nat) : Nat := 1024 * l + 513 + d
/-- A quad controller; with l 0, the registers that window 15 keeps of it. -/
def quadNode (l q : Nat) : Nat := 1024 * l + 517 + q
/-- The pod-level side of the package controller. -/
def podNode (l : Nat) : Nat := 1024 * l + 645
/-- The tile side of a core. -/
def coreNode (l k : Nat) : Nat := 1024 * l + k
/-- The agent of a node apart from its launch, and the launch. -/
def agentOf (n : Nat) : Nat := n % 1024
def seatLaunch (n : Nat) : Nat := n / 1024
/-- The context that executes a node's tile instructions: the tile resident's `ctl`, or the controller's own. -/
def seatCtx (n : Nat) : Nat := if agentOf n < 512 then 16 * agentOf n else 16 * n
/-- Whether a node is a core. -/
def isCore (n : Nat) : Bool := n < 512
/-- Whether a context is a controller's that executes tile instructions: a level controller, the level program apart. -/
def isController (w : Nat) : Bool := 512 ≤ nodeOf w && resNoOf w = 0
/-- Whether a context is the level program's (R370). -/
def isLevelProgram (w : Nat) : Bool := 512 ≤ nodeOf w && resNoOf w = 1
/-- Whether a context is a tile resident's (R17). -/
def isTileRes (w : Nat) : Bool := nodeOf w < 512 && resNoOf w = 0

/-- The memory number of an address in the physical space of an owner, of a peer package where the owner is one (R220). -/
def physKey (owner peer addr : Nat) : Nat := (owner * 64 + peer) * 2 ^ 56 + addr
/-- The owner of a memory number. -/
def physOwner (a : Nat) : Nat := a / 2 ^ 62
/-- The place of a byte of this device's LPDDR-6. -/
def lpddr (addr : Nat) : Nat := physKey 0 0 addr

/-! ## Records of the state by key -/

def State.ctx (s : State) (w : Nat) : Ctx := tget Ctx.reset s.ctxs w
def State.setCtx (s : State) (w : Nat) (c : Ctx) : State := { s with ctxs := tset s.ctxs w c }
def State.thr (s : State) (t : Nat) : Thread := tget Thread.reset s.threads t
def State.setThr (s : State) (t : Nat) (x : Thread) : State := { s with threads := tset s.threads t x }
def State.res (s : State) (r : Nat) : Res := tget Res.reset s.residents r
def State.setRes (s : State) (r : Nat) (x : Res) : State := { s with residents := tset s.residents r x }
def State.core (s : State) (k : Nat) : Core := tget Core.reset s.cores k
def State.setCore (s : State) (k : Nat) (c : Core) : State := { s with cores := tset s.cores k c }
def State.node (s : State) (k : Nat) : Node := tget Node.reset s.nodes k
def State.setNode (s : State) (k : Nat) (n : Node) : State := { s with nodes := tset s.nodes k n }
def State.launch? (s : State) (l : Nat) : Option Launch := tget? s.launches l
def State.setLaunch (s : State) (l : Nat) (x : Launch) : State := { s with launches := tset s.launches l x }
def State.func (s : State) (f : Nat) : Func := tget Func.reset s.funcs f
def State.setFunc (s : State) (f : Nat) (x : Func) : State := { s with funcs := tset s.funcs f x }

/-- The current context. -/
def State.w (s : State) : Nat := ctxOf s.cur
/-- The current context's record. -/
def State.cctx (s : State) : Ctx := s.ctx s.w
def State.setCctx (s : State) (c : Ctx) : State := s.setCtx s.w c
/-- The current resident. -/
def State.cres (s : State) : Res := s.res (resKeyOf s.w)
def State.setCres (s : State) (r : Res) : State := s.setRes (resKeyOf s.w) r
/-- The current stream. -/
def State.cthr (s : State) : Thread := s.thr s.cur
def State.setCthr (s : State) (t : Thread) : State := s.setThr s.cur t
/-- The registers in use. -/
def State.regs (s : State) : Regs := s.cthr.regs
def State.setRegs (s : State) (r : Regs) : State := s.setCthr { s.cthr with regs := r }

end Sys2Proof.Machine
end

