-- ==== Sys2Proof/Machine/Xlate.lean ====
section
/-! DEFINITION. Address translation (R218 to R225): the page-table walk, the translation cache of a core, the contiguity predictor and
the access counters of pages. -/

namespace Sys2Proof.Machine

/-- Fault classes of a launch-fatal fault (R399). -/
def clsUnmapped : Nat := 0x10
def clsProt : Nat := 0x11
def clsUncorr : Nat := 0x12
def clsTileFlt : Nat := 0x13
def clsNoHandler : Nat := 0x14

/-- What an access needs of its page (R221). -/
inductive Acc where
  | rd | wr | amo | ex
  deriving DecidableEq, Repr

/-- The index of an address at a level of the table (R219). -/
def ptIndex (lv va : Nat) : Nat :=
  match lv with
  | 0 => fld va 48 9 | 1 => fld va 39 9 | 2 => fld va 30 9 | 3 => fld va 21 9 | _ => fld va 16 5

/-- The page size of a leaf at a level (R219). -/
def ptSize (lv : Nat) : Nat := if lv = 2 then 2 ^ 30 else if lv = 3 then 2 ^ 21 else 2 ^ 16

/-- The walk of R221 from the table `t` at level `lv`, at most `fuel` further levels; none is an unmapped address. -/
def walkFrom (mem : Memory) (asid va : Nat) : Nat → Nat → Nat → Option Xlat
  | 0, _, _ => none
  | fuel + 1, lv, t =>
    let e := rdNat mem (lpddr (t + 8 * ptIndex lv va)) 8
    let owner := fld e 6 2
    let peer := fld e 56 6
    let frame := fld e 8 48 * 256
    if !bitOf e 0 || fld e 62 2 ≠ 0 || (peer ≠ 0 && owner ≠ 3) then none
    else if !bitOf e 1 then
      if lv = 4 || fld e 2 6 ≠ 0 || peer ≠ 0 then none
      else if lv < 3 && frame % 4096 ≠ 0 then none
      else walkFrom mem asid va fuel (lv + 1) frame
    else if lv < 2 || frame % ptSize lv ≠ 0 then none
    else
      some { asid, va := va / ptSize lv * ptSize lv, size := ptSize lv, frame, owner := BitVec.ofNat 2 owner, peer,
             rd := bitOf e 2, wr := bitOf e 3, ex := bitOf e 4, mig := bitOf e 5 }

/-- The memory number of the leaf entry that maps an address, with its level. -/
def leafFrom (mem : Memory) (va : Nat) : Nat → Nat → Nat → Option (Nat × Nat)
  | 0, _, _ => none
  | fuel + 1, lv, t =>
    let a := lpddr (t + 8 * ptIndex lv va)
    let e := rdNat mem a 8
    if !bitOf e 0 then none
    else if !bitOf e 1 then (if lv = 4 then none else leafFrom mem va fuel (lv + 1) (fld e 8 48 * 256))
    else some (a, lv)

/-- The root of an address space, when its entry is valid (R414). -/
def rootOf (s : State) (asid : Nat) : Option Nat :=
  let r := (tget 0 s.roots asid).toNat
  if bitOf r 0 then some (fld r 12 44 * 4096) else none

/-- The walk for an address of an address space (R221). An address with a bit at or above 56 set has no translation (R218). -/
def walk (s : State) (asid va : Nat) : Option Xlat :=
  if 2 ^ 56 ≤ va then none
  else match rootOf s asid with
    | none => none
    | some t => walkFrom s.mem asid va 5 0 t

/-- Whether a translation grants an access (R221). -/
def Xlat.grants (x : Xlat) : Acc → Bool
  | .rd => x.rd
  | .wr => x.wr
  | .amo => x.rd && x.wr
  | .ex => x.ex

/-- The memory number of an address through a translation. -/
def Xlat.place (x : Xlat) (va : Nat) : Nat := physKey x.owner.toNat x.peer (x.frame + (va - x.va))

/-- Whether a translation covers an address. -/
def Xlat.covers (x : Xlat) (asid va : Nat) : Bool := x.asid = asid && x.va ≤ va && va < x.va + x.size

/-- The translation cache's capacity (R222). -/
def tlbSize : Nat := 256
/-- The predictor's capacity for each resident (R224). -/
def predSize : Nat := 16

/-- A counter of R432 of a core raised. -/
def countUp (c : Core) (n : Nat) : Core := { c with counters := tset c.counters n (tget 0 c.counters n + 1) }

/-- The predictor entries of a resident's run, the most recent first (R224): a completed translation moves to the front. -/
def predNote (c : Core) (r va : Nat) (x : Xlat) : Core :=
  let mine := (c.pred.filter fun e => e.1 = r && !(e.2.2.asid = x.asid && e.2.1 = va / 2 ^ 21)).take (predSize - 1)
  let others := c.pred.filter fun e => e.1 ≠ r
  { c with pred := (r, va / 2 ^ 21, x) :: mine ++ others }

/-- The predicted address of a missed access (R224). -/
def predict (c : Core) (r asid va : Nat) : Option Nat :=
  match c.pred.find? fun e => e.1 = r && e.2.2.asid = asid && e.2.1 = va / 2 ^ 21 with
  | none => none
  | some (_, _, x) =>
    let a := x.frame + va - x.va
    if x.owner = 0 && !x.mig && x.va ≤ va + x.frame && a / 2 ^ 21 = x.frame / 2 ^ 21 then some a else none

/-- A translation inserted into a core's cache. -/
def tlbInsert (c : Core) (x : Xlat) : Core :=
  { c with tlb := (x :: c.tlb).take tlbSize }

/-- What a walk's return does to a core (R222, R224, R225): the cache and the predictor take it, and the prediction is counted. -/
def walkNote (c : Core) (r asid va : Nat) (acc : Acc) (x : Option Xlat) : Core :=
  let c := match predict c r asid va with
    | none => c
    | some a =>
      match x with
      | some y => if y.owner = 0 && y.frame + (va - y.va) = a && y.grants acc then countUp c 2 else countUp c 3
      | none => countUp c 3
  match x with
  | none => c
  | some y => predNote (tlbInsert c y) r va y

/-- The translation of an address for an agent: through the cache of its core, or by a walk. -/
def translate (s : State) (core : Option Nat) (r asid va : Nat) (acc : Acc) : Option Xlat × State :=
  match core with
  | none => (walk s asid va, s)
  | some k =>
    let c := s.core k
    match c.tlb.find? fun x => x.covers asid va with
    | some x => (some x, s.setCore k (countUp c 0))
    | none =>
      let x := walk s asid va
      (x, s.setCore k (walkNote (countUp c 1) r asid va acc x))

/-- The leaf entries of a table at a level, from the virtual address that its first entry maps: address, size and entry (R219, R220). -/
def leavesFrom (mem : Memory) : Nat → Nat → Nat → Nat → List (Nat × Nat × Nat)
  | 0, _, _, _ => []
  | fuel + 1, lv, t, va =>
    let n := if lv = 4 then 32 else if lv = 0 then 256 else 512
    let step := match lv with | 0 => 2 ^ 48 | 1 => 2 ^ 39 | _ => ptSize lv
    (List.range n).flatMap fun i =>
      let e := rdNat mem (lpddr (t + 8 * i)) 8
      if !bitOf e 0 then []
      else if bitOf e 1 then [(va + i * step, ptSize lv, e)]
      else if lv = 4 then [] else leavesFrom mem fuel (lv + 1) (fld e 8 48 * 256) (va + i * step)

/-- Every page that the tables of some address space map, by a translation of its own (R219). -/
def allPages (s : State) : List Xlat :=
  s.roots.flatMap fun r => match rootOf s r.1 with
    | none => []
    | some t => (leavesFrom s.mem 5 0 t 0).filterMap fun l => walk s r.1 l.1

/-- The page that holds the byte of a memory number. -/
def pageOf (s : State) (a : Nat) : Option Xlat :=
  (allPages s).find? fun x => physKey x.owner.toNat x.peer x.frame ≤ a && a < physKey x.owner.toNat x.peer x.frame + x.size

/-- Whether a Bexzor link port carries no traffic: it has failed or is under quarantine (R406, R422). -/
def linkOut (s : State) (port : Nat) : Bool := s.portQuar.contains port || tget 0 s.ports port ≠ 0

/-- Whether a port that a pod launch of some packages uses carries no traffic (R406, R422). -/
def podCut (s : State) (mask : Word) : Bool :=
  mask ≠ 0 && (s.portQuar ++ (s.ports.filter fun p => p.2 ≠ 0).map (·.1)).any fun p => Config.portUsed p mask

/-- Whether the port towards a peer package carries no traffic. -/
def peerOut (s : State) (peer : Nat) : Bool := linkOut s (Config.peerPort peer)

/-- A counter raised, at most to 4,095 (R230). -/
def satAdd (x : BitVec 12) (n : Nat) : BitVec 12 := BitVec.ofNat 12 (min 4095 (x.toNat + n))

/-- The record of a page: the records of its parts added up where it was known by parts only. -/
def pageRec (s : State) (key size : Nat) (home : Option (Nat × Nat)) : PageCtr :=
  let own : Option PageCtr := (tget? s.pages key).filter fun p => p.size = size
  match own with
  | some p => { p with home := match home with | some h => some h | none => p.home }
  | none =>
    (s.pages.filter fun e => key ≤ e.1 && e.1 < key + size).foldl (fun p e =>
      { p with dev := satAdd p.dev e.2.dev.toNat, host := satAdd p.host e.2.host.toNat, peer := satAdd p.peer e.2.peer.toNat,
               cxl := satAdd p.cxl e.2.cxl.toNat, moved := max p.moved e.2.moved }) { PageCtr.reset with size, home }

/-- More accesses to the page at a memory number (R230), 64-byte line by line; `cls` 0 device, 1 host, 2 peer, 3 CXL. -/
def pageCount (s : State) (key size : Nat) (home : Option (Nat × Nat)) (lines cls : Nat) : State :=
  let p := pageRec s key size home
  let p := match cls with
    | 0 => { p with dev := satAdd p.dev lines }
    | 1 => { p with host := satAdd p.host lines }
    | 2 => { p with peer := satAdd p.peer lines }
    | _ => { p with cxl := satAdd p.cxl lines }
  { s with pages := tset (s.pages.filter fun e => !(key < e.1 && e.1 < key + size)) key p }

end Sys2Proof.Machine
end

