-- ==== Sys2Proof/Machine/Trace.lean ====
section
/-! DEFINITION. The on-die trace FIFO of a core, the wait log and value watchpoints (R427 to R434). -/

namespace Sys2Proof.Machine

/-- The trace FIFO's capacity in 16-byte units (R433). -/
def traceUnits : Nat := 64

/-- The units a core's trace FIFO holds. -/
def traceLen (c : Core) : Nat := (c.tfifo.map fun r => r.2.length).foldl (· + ·) 0

/-- A record dropped and counted (R426 TSTAT, R432 counter 7 for wait records). -/
def traceDrop (c : Core) (isWait : Bool) : Core :=
  let c := { c with dropped := BitVec.ofNat 32 (min (2 ^ 32 - 1) (c.dropped.toNat + 1)) }
  if isWait then countUp c 7 else c

/-- A record put into the trace FIFO, whole or not at all (R433); after a truncation it is dropped (R434). -/
def tracePush (c : Core) (isWait : Bool) (rec : List (BitVec 128)) : Core :=
  if c.trunc || traceUnits < traceLen c + rec.length then traceDrop c isWait
  else { c with tfifo := c.tfifo ++ [(isWait, rec)] }

/-- The KIND byte of a wait (R428); 0 for a stall that is not logged. -/
def WaitKind.code : WaitKind → Nat
  | .semwait => 1 | .mtxacq => 2 | .join => 3 | .bar => 4 | .rdv => 5 | .waitc => 6 | .rpop => 7 | .evpop => 8 | .mark => 9
  | .full => 10 | .blocking => 11 | .counter => 0 | .fill => 0 | .rchk => 0

/-- The agent number of R428: RPATH, RRES and RAGENT. -/
def agentNo (core res ag : Nat) : BitVec 14 := BitVec.ofNat 14 (core % 512 + 512 * (res % 4) + 2048 * (ag % 8))

/-- The agent number of a strand. -/
def strandAgent (w : Nat) : BitVec 14 := agentNo (nodeOf w) (resNoOf w) (strandOf w)

/-- The agent number of an engine of a resident: 4 matrix, 5 copy, 6 selection. -/
def engineAgent (r fifo : Nat) : BitVec 14 :=
  agentNo (r / 4) (r % 4) (if fifo = 0 then 4 else if fifo = 3 then 6 else 5)

/-- Memory, or an agent outside the package (R428). -/
def memoryAgent : BitVec 14 := agentNo 0 0 7

/-- The wait record of R428. -/
def waitRecord (w : Nat) (x : Wait) (cycles pclo seq : Nat) (rel : BitVec 14) : BitVec 128 :=
  BitVec.ofNat 128
    (x.kind.code + 2 ^ 8 * (x.flag % 256) + 2 ^ 16 * strandOf w + 2 ^ 18 * resNoOf w
      + 2 ^ 32 * min cycles (2 ^ 32 - 1) + 2 ^ 64 * (pclo % 2 ^ 32) + 2 ^ 96 * rel.toNat + 2 ^ 112 * (seq % 2 ^ 16))

/-- A wait of a stream begins, unless it waits already. -/
def beginWait (s : State) (t : Nat) (kind : WaitKind) (flag : Nat) : State :=
  let x := s.thr t
  match x.wait with
  | some _ => s
  | none => s.setThr t { x with wait := some { kind, flag, since := s.cycle } }

/-- The wait of a stream ends, with its record when the log is on (R427). -/
def endWait (s : State) (t : Nat) : State :=
  let h := s.thr t
  match h.wait with
  | none => s
  | some x =>
    let w := ctxOf t
    let c := s.ctx w
    let k := s.core (nodeOf w)
    let cycles := s.cycle - x.since
    let s := s.setThr t { h with wait := none, granted := false, marks := none }
    if x.kind.code ≠ 0 && k.logEn && 0 < cycles && isCore (nodeOf w) then
      let r := waitRecord w x cycles h.regs.pc.toNat c.waitSeq x.rel
      (s.setCtx w { c with waitSeq := (c.waitSeq + 1) % 2 ^ 16 }).setCore (nodeOf w) (tracePush k true [r])
    else s

/-- Whether a counter is at most a limit; a limit of 63 never waits (R120). -/
def within (n : Nat) (l : BitVec 6) : Bool := l = 63 || n ≤ l.toNat

/-- A `WAITC`'s limits on loads, stores, copies and tile operations as one number, and whether a context meets those that a number holds (R120). -/
def limitsOf (l st c t : BitVec 6) : Nat := (t ++ c ++ st ++ l).toNat
def Ctx.meets (x : Ctx) (n : Nat) : Bool :=
  let part (i : Nat) : BitVec 6 := BitVec.ofNat 6 (n / 64 ^ i)
  within x.nLoads (part 0) && within x.nStores (part 1) && within x.nCopies (part 2) && within x.nTiles (part 3)

/-- Depth of a FIFO in entries (R11). -/
def fifoDepth (f : Nat) : Nat := if f = 0 then 8 else if f = 3 then 16 else 32

/-- A resident's FIFO. -/
def Res.fifo (x : Res) (f : Nat) : List Ent := tget [] x.fifos f
def Res.setFifo (x : Res) (f : Nat) (q : List Ent) : Res := { x with fifos := tset x.fifos f q }

/-- The jobs of a FIFO: fences and markers occupy no entry (R78, R79). -/
def jobsOf (q : List Ent) : List Job := q.filterMap fun e => match e with | .job j => some j | _ => none

/-- Whether a FIFO is full (R14). -/
def Res.full (x : Res) (f : Nat) : Bool := fifoDepth f ≤ (jobsOf (x.fifo f)).length

/-- Whether what a stream's wait is for has come, as far as its context and resident tell. -/
def waitOver (s : State) (t : Nat) (x : Wait) : Bool :=
  let c := s.ctx (ctxOf t)
  let r := s.res (resKeyOf (ctxOf t))
  (s.thr t).granted || (match x.kind with
    | .waitc => c.meets (x.flag / 256)
    | .full => !r.full (x.flag / 256)
    | .rpop => !r.rpq.isEmpty
    | .evpop => !r.evq.isEmpty
    | .join => (s.thr t).marks == some 0
    | .mark => c.memq.isEmpty
    | _ => false)

/-- A stream's wait with the agent whose act last bore on it (R427). -/
def noteWait (s : State) (t : Nat) (ag : BitVec 14) : State :=
  let x := s.thr t
  match x.wait with
  | some v => if x.granted then s else s.setThr t { x with wait := some { v with rel := ag } }
  | none => s

/-- An act of an agent, from `s` to `s'`, noted on the waits of a context that it bore on: those not over before it (R427). -/
def noteReleaser (s s' : State) (w : Nat) (ag : BitVec 14) : State :=
  [0, 1, 2, 3, 4].foldl (fun z f =>
    let t := mainOf w + f
    match (s.thr t).wait with
    | some x => if waitOver s t x then z else noteWait z t ag
    | none => z) s'

/-- The same for every context of a resident. -/
def noteReleasers (s s' : State) (r : Nat) (ag : BitVec 14) : State :=
  [0, 1, 2, 3].foldl (fun z k => noteReleaser s z (ctxKey r k) ag) s'

/-- Whether a watchpoint fires on a store that changes its 8 bytes from `old` to `new` (R429). -/
def Watch.fires (x : Watch) (old new : Word) : Bool :=
  match x.mode with
  | 1 => (new ^^^ x.val) &&& x.mask == 0
  | 2 => (new ^^^ old) &&& x.mask != 0
  | _ => false

end Sys2Proof.Machine
end

