-- ==== Sys2Proof/Machine/LaunchEnd.lean ====
section
/-! DEFINITION. How a launch ends: what the front end frees (R32, R403), the fault record (R364, R404) and the completion record (R417). -/

namespace Sys2Proof.Machine

/-- Completion statuses beyond those of R30 (R417). -/
def stFaulted : Nat := 0x10
def stCtxRefused : Nat := 0x11

/-- A fault record (R364). -/
def mkRecord (level path : Nat) (seq : BitVec 32) (num cause upc : Nat) (addr : Word) (count : Nat) : FaultRec :=
  BitVec.ofNat 256
    (level % 8 + 2 ^ 8 * (path % 2 ^ 11) + 2 ^ 19 * Config.packageNumber.toNat + 2 ^ 32 * seq.toNat + 2 ^ 64 * (num % 2 ^ 14)
      + 2 ^ 80 * (cause % 2 ^ 16) + 2 ^ 96 * (upc % 2 ^ 32) + 2 ^ 128 * addr.toNat + 2 ^ 192 * min count 65535)

/-- The scope code of a node's level (R51, R364). -/
def levelOf (n : Nat) : Nat :=
  let k := agentOf n
  if k < 512 then 2 else if k = 512 then 5 else if k < 517 then 4 else if k < 645 then 3 else 6

/-- The packed child path of a node, fields below its level zero (R10). -/
def childPath (n : Nat) : Nat :=
  let k := agentOf n
  if k < 512 then 4 * k else if k = 512 then 0 else if k < 517 then (k - 513) * 512 else if k < 645 then (k - 517) * 16 else 0

/-- The packed core path's quad, of 128 (R10). -/
def quadOf (core : Nat) : Nat := core / 4
/-- The packed core path's die. -/
def dieOf (core : Nat) : Nat := core / 128

/-- The place of a byte that the host names by an address of a launch's space: through the page table, or on the host's bus. -/
def hostPlace (s : State) (asid : Nat) (va : Word) : Nat :=
  match walk s asid va.toNat with
  | some x => x.place va.toNat
  | none => Config.hostBus va

/-- Bytes written at host-named addresses. -/
def hostWrite (s : State) (asid : Nat) (va : Word) : List Byte → State
  | [] => s
  | b :: bs => hostWrite { s with mem := wrByte s.mem (hostPlace s asid va) b } asid (va + 1) bs

/-- Bytes read from host-named addresses. -/
def hostRead (s : State) (asid : Nat) (va : Word) (n : Nat) : List Byte :=
  (List.range n).map fun i => rdByte s.mem (hostPlace s asid (va + BitVec.ofNat 64 i))

/-- The 64-byte completion record of R417 as a number. -/
def completionRecord (tag : BitVec 16) (status reason cycles : Nat) (fault : FaultRec) : Nat :=
  tag.toNat + 2 ^ 16 * (status % 256) + 2 ^ 24 * (reason % 256) + 2 ^ 64 * (cycles % 2 ^ 64) + 2 ^ 256 * fault.toNat

/-- Writes the completion record at CPL and raises the ring's vector (R417); a graph's launch has no ring. -/
def postCompletion (s : State) (l : Launch) (status reason : Nat) (fault : FaultRec) : State :=
  let cycles := if l.st = .waiting then 0 else s.cycle - l.start
  let s := hostWrite s l.asid l.cpl (leBytes 64 (completionRecord l.tag status reason cycles fault))
  if l.graph.isSome then s else { s with msix := s.msix ++ [l.fn * 16 + l.ring] }

/-- A context freed: it issues nothing and holds no queue. -/
def freeCtx (c : Ctx) : Ctx :=
  { c with run := .empty, memq := [], sigs := [], traps := [], held := [], heldXfer := none, heldThread := none,
           heldHalt := false, handler := false, rdv := none, barN := [], barIn := none, gate := none,
           nLoads := 0, nStores := 0, nCopies := 0, nTiles := 0, frameTrap := none,
           waking := [], heldWaking := [] }

/-- The tokens of a resident freed on its core, semaphores without waiters and mutexes without holder (R32), and its tiles with the status
updates still on their way. -/
def freeTokens (c : Core) (k : Nat) (r : Res) : Core :=
  let c := { c with tupd := c.tupd.filter (fun u => u.res ≠ k), tstat := c.tstat.filter fun e => !(r.slots.any fun t => t.2.bank = e.1) }
  let c := r.semMap.foldl (fun c p => { c with sems := tset c.sems p.2 ⟨0, []⟩ }) c
  r.mtxMap.foldl (fun c p => { c with mtxs := tset c.mtxs p.2 ⟨none, []⟩ }) c

/-- A resident freed with its tokens and contexts (R32). -/
def freeResident (s : State) (r : Nat) : State :=
  let x := s.res r
  let s := s.setCore (r / 4) (freeTokens (s.core (r / 4)) r x)
  let s := s.setRes r Res.reset
  { s with ctxs := tmapIf (fun w => w / 4 = r) (fun _ c => freeCtx c) s.ctxs,
           threads := tmapIf (fun t => t / 5 / 4 = r) (fun t x => if t % 5 = 0 then { regs := x.regs, stack := [] } else Thread.reset) s.threads }

/-- Whether a launch holds its partition's quads: placed and neither swapped out for another launch nor ended. -/
def Launch.live (l : Launch) : Bool := l.st = .placed || l.st = .running || l.st = .halting || l.st = .stopped

/-- The cores of a set of quads. -/
def coresOfQuads (qs : List Nat) : List Nat := qs.flatMap fun q => [4 * q, 4 * q + 1, 4 * q + 2, 4 * q + 3]

/-- Every resource of a launch freed (R32, R403): residents, semaphores, mutexes, controllers, and its saved context if it has one. -/
def freeLaunch (s : State) (id : Nat) (l : Launch) : State :=
  let s := if l.st = .saved then s else l.placed.foldl (fun s p => freeResident s (4 * p.core + p.res)) s
  let tiles := (coresOfQuads l.quads).filter fun k => (s.res (4 * k)).loaded && (s.res (4 * k)).launch = id
  let s := if l.st = .saved then s else tiles.foldl (fun s k => freeResident s (4 * k)) s
  let own (n : Nat) : Bool := decide (512 ≤ n) && seatLaunch n = id
  { s with nodes := s.nodes.filter fun n => seatLaunch n.1 ≠ id || n.1 < 1024,
           ctxs := s.ctxs.filter (fun e => !own (nodeOf e.1)),
           threads := s.threads.filter (fun e => !own (nodeOf (ctxOf e.1))),
           residents := s.residents.filter (fun e => !own (e.1 / 4)),
           cores := if l.live then
               tmapIf (fun k => l.quads.contains (quadOf k)) (fun _ c => { c with winq := [] }) s.cores else s.cores,
           shadow := s.shadow.filter fun c => c.2.launch ≠ id }

/-- One byte written at a place of memory, scratchpad or accumulator memory. -/
def putByte (s : State) (p : Place) (b : Byte) : State :=
  match p with
  | .phys a => { s with mem := wrByte s.mem a b }
  | .win k w off =>
    let c := s.core k
    if w = 0 then s.setCore k { c with scratch := wrByte c.scratch off b } else s.setCore k { c with acc := wrByte c.acc off b }

/-- Bytes written at places, in order. -/
def putBytes (s : State) (pbs : List (Place × Byte)) : State := pbs.foldl (fun s x => putByte s x.1 x.2) s

/-- Whether a place is memory's, not a core's. -/
def Place.isPhys : Place → Bool
  | .phys _ => true
  | _ => false

/-- What a launch wrote is unspecified after its launch-fatal fault (R403): free bytes, drawn at the counter. A launch that is swapped out left the cores to others. -/
def loseWritten (s : State) (l : Launch) : State :=
  let ps := if l.st = .saved then l.wrote.filter Place.isPhys else l.wrote
  putBytes { s with fresh := s.fresh + ps.length } (ps.zipIdx.map fun x => (x.1, (Config.freeValue (s.fresh + x.2)).setWidth 8))

/-- Ends a launch: frees it and posts its completion record; a graph that started it goes on (R420). -/
def endLaunch (s : State) (id status reason : Nat) (fault : FaultRec) : State :=
  match s.launch? id with
  | none => s
  | some l =>
    if l.st = .done then s
    else
      let s := if status = stFaulted then loseWritten s l else s
      let s := freeLaunch s id l
      let s := postCompletion s l status reason fault
      let s := s.setLaunch id { l with st := .done, quads := [], placed := [], wrote := [], record := if status = stFaulted then some fault else none }
      match l.graph with
      | none => s
      | some g => { s with agenda := s.agenda ++ [.event (.graphNodeComplete g)] }

/-- The launch whose work a context does: its resident's, or its controller's. -/
def launchOf (s : State) (w : Nat) : Nat :=
  if isCore (nodeOf w) then (s.res (resKeyOf w)).launch else seatLaunch (nodeOf w)

/-- The COUNT of a record, and a record with another (R364). -/
def recCount (r : FaultRec) : Nat := fld r.toNat 192 16
def setCount (r : FaultRec) (n : Nat) : FaultRec :=
  BitVec.ofNat 256 (r.toNat % 2 ^ 192 + 2 ^ 192 * min 65535 n + 2 ^ 208 * fld r.toNat 208 48)

/-- Whether a record's place is not behind another's, by package and path (R366, R404). -/
def lowerRec (a b : FaultRec) : Bool := fld a.toNat 8 17 ≤ fld b.toNat 8 17

/-- A fault record beside one that is kept already: the lower place stays, and its COUNT takes in the other's faults (R404). -/
def joinRecords (kept r : FaultRec) : FaultRec := setCount (if lowerRec kept r then kept else r) (recCount kept + recCount r + 1)

/-- A launch's record with one more fault. -/
def addFault (l : Launch) (r : FaultRec) : FaultRec := match l.record with | none => r | some k => joinRecords k r

/-- The SEQ that a fault record carries (R404): of a tile launch the one of the command block in hand at the faulting agent. -/
def faultSeq (s : State) (l : Launch) (id node : Nat) : BitVec 32 :=
  if l.single then (s.node (if isCore node then coreNode id node else node)).seq else 0

/-- Whether a launch has met a launch-fatal fault and is about to end. -/
def Launch.struck (l : Launch) : Bool := l.record.isSome && l.st ≠ .done

/-- A launch ended faulted with one more record. -/
def endStruck (s : State) (id : Nat) (r : FaultRec) : State :=
  match s.launch? id with
  | none => s
  | some l => endLaunch s id stFaulted 0 (addFault l r)

/-- A launch-fatal fault of an agent of a launch (R403, R404): its record names the agent. The stop reaches every agent at the end of the cycle, and
the launch then ends faulted by LAUNCH_COMPLETE; one of which no agent runs ends at once (log entry 100). -/
def fatalLaunch (s : State) (id node num cause upc : Nat) (addr : Word) : State :=
  match s.launch? id with
  | none => s
  | some l =>
    let r := addFault l (mkRecord (levelOf node) (childPath node) (faultSeq s l id node) num cause upc addr 0)
    if l.st = .running || l.st = .halting then s.setLaunch id { l with record := some r } else endLaunch s id stFaulted 0 r

end Sys2Proof.Machine
end

