-- ==== Sys2Proof/Machine/Ops.lean ====
section
/-! DEFINITION. The operations that every strand instruction shares: reading operands by name, the landing of results (R114, R125),
the end of an issue slot (R121), stalls, taking a trap and returning from one (R400 to R402, R119), launch-fatal faults of a strand. -/

namespace Sys2Proof.Machine

/-! ## Names (R105 to R107, R178) -/

/-- The storage key of a scalar name: s1..s15 are global, s16 and above positions of the window (R107). -/
def Regs.skey (r : Regs) (n : Nat) : Nat := if n < 16 then n else r.wb + n

/-- A scalar register as it stands; s0 reads zero (R105). -/
def Regs.sread (r : Regs) (n : BitVec 6) : Word := if n = 0 then 0 else tget 0 r.s (r.skey n.toNat)

/-- The physical vector register of a name (R106). -/
def vphys (rrb : BitVec 5) (n : Nat) : Nat := if n < 32 then n else 32 + (n - 32 + rrb.toNat) % 32

/-- The physical predicate of a name (R106). -/
def pphys (rrb : BitVec 3) (n : Nat) : Nat := if n < 8 then n else 8 + (n - 8 + rrb.toNat) % 8

/-- All ones. -/
def ones : Word := BitVec.allOnes 64

/-- An operand of a routine call. -/
def Frame.op (f : Frame) (k : Nat) : Option Bound := f.ops[k]?

/-! Vector registers and predicates are named by place: register n in use at frame depth d is place 64 d + n, predicate n place 16 d + n, and depth 0
is the context itself, whose registers every stream of the context shares (R178). -/

/-- Where a vector name lives: through rotation in a context's own registers, in a frame at the place its operand was bound to, or at a private
register (R106, R178). -/
def vslotIn (stack : List Frame) (r : Regs) (n : Nat) : Option Nat :=
  match stack with
  | [] => some (vphys r.rrbV n)
  | f :: _ =>
    if n < 8 then
      match f.op n with
      | some (.v k) => some k
      | some (.vval _) => some (64 * stack.length + n)
      | _ => none
    else if n < 8 + f.vscr then some (64 * stack.length + n) else none

/-- Where a predicate name lives; none names no register of the stream (R178). A name p(1 + k) whose operand k is no predicate is such a name (log
entry 90). -/
def pslotIn (stack : List Frame) (r : Regs) (n : Nat) : Option Nat :=
  match stack with
  | [] => some (pphys r.rrbP n)
  | f :: _ =>
    if n = 0 then some 0
    else if n < 8 then
      match f.op (n - 1) with
      | some (.p k) => some k
      | some (.pval _) => some (16 * stack.length + n)
      | _ => none
    else some (16 * stack.length + pphys r.rrbP n)

/-- The context's physical register at a place; none for a frame's private register, which no cluster gates. -/
def gateOf (k : Nat) : Option Nat := if k < 64 then some k else none

/-- The registers of the context itself, below every frame. -/
def Thread.base (x : Thread) : Regs :=
  match x.stack.getLast? with
  | none => x.regs
  | some f => f.caller

/-- The context's own registers replaced, below every frame. -/
def Thread.setBase (x : Thread) (r : Regs) : Thread :=
  match x.stack.getLast? with
  | none => { x with regs := r }
  | some f => { x with stack := x.stack.dropLast ++ [{ f with caller := r }] }

/-- The registers in use when `depth` frames were open. -/
def Thread.atDepth (x : Thread) (depth : Nat) : Regs :=
  match (x.stack.take (x.stack.length - depth)).getLast? with
  | none => x.regs
  | some f => f.caller

/-- The registers in use when `depth` frames were open, replaced. -/
def Thread.setDepth (x : Thread) (depth : Nat) (r : Regs) : Thread :=
  let inner := x.stack.take (x.stack.length - depth)
  match inner.getLast? with
  | none => { x with regs := r }
  | some f => { x with stack := inner.dropLast ++ { f with caller := r } :: x.stack.drop inner.length }

/-- The registers at a depth as a stream sees them: the context's own at depth 0. -/
def State.regsAt (s : State) (t depth : Nat) : Regs :=
  if depth = 0 then (s.thr (mainOf (ctxOf t))).base else (s.thr t).atDepth depth

/-- The registers at a depth replaced. -/
def State.setRegsAt (s : State) (t depth : Nat) (r : Regs) : State :=
  if depth = 0 then s.setThr (mainOf (ctxOf t)) ((s.thr (mainOf (ctxOf t))).setBase r)
  else s.setThr t ((s.thr t).setDepth depth r)

/-- The vector register at a place. -/
def State.vAt (s : State) (t k : Nat) : VReg := tget ⟨0, 0, 0⟩ (s.regsAt t (k / 64)).v (k % 64)

/-- The predicate at a place. -/
def State.pAt (s : State) (t k : Nat) : Word := tget 0 (s.regsAt t (k / 16)).p (k % 16)

/-- The vector register at a place replaced. -/
def State.putV (s : State) (t k : Nat) (v : VReg) : State :=
  let r := s.regsAt t (k / 64)
  s.setRegsAt t (k / 64) { r with v := tset r.v (k % 64) v }

/-- The predicate at a place replaced. -/
def State.putP (s : State) (t k : Nat) (m : Word) : State :=
  let r := s.regsAt t (k / 16)
  s.setRegsAt t (k / 16) { r with p := tset r.p (k % 16) m }

/-- A value kept under a key that has none. -/
def tnote {α : Type} (m : Tab α) (k : Nat) (x : α) : Tab α := if (tget? m k).isSome then m else tset m k x

/-- Every frame of a stream that stands above a depth changed, each with its own depth known by its place. -/
def framesAbove (depth : Nat) (g : Frame → Frame) : List Frame → List Frame
  | [] => []
  | f :: fs => if depth < fs.length + 1 then g f :: framesAbove depth g fs else f :: fs

/-- The frames open above the owner of a place told that its vector register is about to change (R180). -/
def noteV (s : State) (t k : Nat) : State :=
  let x := s.thr t
  let old := s.vAt t k
  if x.stack.isEmpty then s else s.setThr t { x with stack := framesAbove (k / 64) (fun f => { f with undo := { f.undo with v := tnote f.undo.v k old } }) x.stack }

/-- The frames open above the owner of a place told that its predicate is about to change (R180). -/
def noteP (s : State) (t k : Nat) : State :=
  let x := s.thr t
  let old := s.pAt t k
  if x.stack.isEmpty then s else s.setThr t { x with stack := framesAbove (k / 16) (fun f => { f with undo := { f.undo with p := tnote f.undo.p k old } }) x.stack }

/-! ## Vector registers and clusters (R110, R111) -/

/-- The format tag RAW. -/
def tagRaw : BitVec 5 := 0

/-- A register of a gated or waking cluster as reads see it. -/
def VReg.cold : VReg := ⟨0, 0, tagRaw⟩

/-- Whether a context's physical register lies in an awake cluster. -/
def Ctx.isAwake (c : Ctx) (phys : Nat) : Bool := c.awake.getLsbD (phys / 8)

/-- Whether a slot is readable and writable: private registers always, the others when their cluster is awake. -/
def slotAwake (c : Ctx) (slot : Nat) : Bool :=
  match gateOf slot with
  | none => true
  | some p => c.isAwake p

/-- Whether a slot's cluster is awake once `lat` more slots have passed. -/
def slotAwakeIn (c : Ctx) (slot lat : Nat) : Bool :=
  match gateOf slot with
  | none => true
  | some p => c.isAwake p || c.waking.any fun k => k.1 = p / 8 && k.2 ≤ lat

/-! ## Status (R113) -/

def bCOLD : Word := 1
def bNANSAT : Word := 2
def bNANSEEN : Word := 4
def bNV : Word := 8
def bDZ : Word := 16
def bOF : Word := 32
def bUF : Word := 64
def bNX : Word := 128
def bIDZ : Word := 256

/-- The bits of `STATUS` that are not reserved. -/
def statusRS : Word := 0x1FF
def statusRW : Word := 0x7F0000

/-- Sticky bits set. -/
def orStatus (s : State) (w : Nat) (bits : Word) : State :=
  if bits = 0 then s else s.setCtx w { s.ctx w with status := (s.ctx w).status ||| bits }

/-- The lowest-numbered condition of `bits` that is enabled (R399 ARITH): the enable of bit b is bit b + 13 (R113). -/
def enabledBit (status bits : Word) : Option Nat :=
  [3, 4, 5, 6, 7, 8].find? fun b => bits.getLsbD b && status.getLsbD (b + 13)

/-! ## Landing (R109, R111, R114, R125) -/

/-- The scratchpad offset of a spill position (R107). -/
def spillOff (s : State) (w : Nat) (pos : Nat) : Nat := (s.res (resKeyOf w)).spillb + 8 * pos

/-- `STATUS` written by `CSRW` (R113): the RW fields take the value, a 1 clears an RS field. -/
def writeStatus (old v : Word) : Word := (old &&& statusRS &&& ~~~v) ||| (v &&& statusRW)

/-- A control register written by `CSRW` (R112, R168). `EUPC` holds a `UPC`, which has 32 bits (R180), and keeps no more (log entry 91). -/
def writeCsr (t : Nat) (s : State) (num : Nat) (v : Word) : State :=
  let w := ctxOf t
  let c := s.ctx w
  let x := s.thr t
  match num with
  | 0x000 => s.setCtx w { c with status := writeStatus c.status v }
  | 0x002 => s.setCtx w { c with epc := v }
  | 0x003 => s.setCtx w { c with eupc := v &&& 0xFFFFFFFF }
  | 0x005 => s.setThr t { x with regs := { x.regs with rrbV := v.setWidth 5 } }
  | 0x006 => s.setThr t { x with regs := { x.regs with rrbP := v.setWidth 3 } }
  | _ => s

/-- An effect lands in a stream. Of two landings dropped in one slot, the trap of R111 names the later (log entry 92). -/
def landEff (t : Nat) (s : State) (e : Effect) : State :=
  let w := ctxOf t
  let x := s.thr t
  let r := x.regs
  match e with
  | .sreg key v =>
    if key < 16 then s.setThr t { x with regs := { r with s := tset r.s key v } }
    else if r.wb + 16 ≤ key && key < r.wb + 64 then s.setThr t { x with regs := { r with s := tset r.s key v } }
    else
      let k := s.core (nodeOf w)
      s.setCore (nodeOf w) { k with scratch := wrBytes k.scratch (spillOff s w (r.base + (key - 16))) (leBytes 8 v.toNat) }
  | .vreg slot v =>
    let c := s.ctx w
    if slotAwake c slot then (noteV s t slot).putV t slot v
    else
      let s := s.setCtx w { c with status := c.status ||| bCOLD }
      if c.status.getLsbD 22 then s.setThr t { x with landTrap := gateOf slot } else s
  | .preg slot m => (noteP s t slot).putP t slot m
  | .breg n a => s.setThr t { x with regs := { r with b := tset r.b n a } }
  | .xacc n a => s.setThr t { x with regs := { r with x := tset r.x n a } }
  | .sticky bits => orStatus s w bits
  | .csr n v => writeCsr t s n v

/-- Every register of a cluster cleared (R110). -/
def clearCluster (r : Regs) (k : Nat) : Regs := { r with v := r.v.filter fun e => e.1 / 8 ≠ k }

/-- A cluster whose wake is complete (R110): awake, its registers zero. -/
def wakeCluster (s : State) (w k : Nat) : State :=
  let c := s.ctx w
  let x := s.thr (mainOf w)
  let s := s.setCtx w { c with awake := c.awake ||| BitVec.ofNat 8 (2 ^ k), waking := c.waking.filter fun p => p.1 ≠ k }
  s.setThr (mainOf w) (x.setBase (clearCluster x.base k))

/-- One slot passes for the wake counts of a context. -/
def tickWaking (s : State) (w : Nat) : State :=
  let c := s.ctx w
  let ks := c.waking.map fun p => (p.1, p.2 - 1)
  let s := if ks.isEmpty then s else s.setCtx w { c with waking := ks }
  (ks.filter fun p => p.2 = 0).foldl (fun s p => wakeCluster s w p.1) s

/-- The results of a stream whose slots have passed land, in issue order (R114, R115). -/
def landDue (s : State) (t : Nat) : State :=
  let x := s.thr t
  let s' := s.setThr t { x with regs := { x.regs with pend := x.regs.pend.filter fun p => p.left ≠ 0 } }
  (x.regs.pend.filter fun p => p.left = 0).foldl (fun s p => landEff t s p.eff) s'

/-- One slot counted off every pending result of a stream (R114). -/
def countDown (s : State) (t : Nat) : State :=
  let x := s.thr t
  s.setThr t { x with regs := { x.regs with pend := x.regs.pend.map fun p => { p with left := p.left - 1 }, slot := x.regs.slot + 1 } }

/-- One slot passes in a stream: a cluster whose count has run out is awake from this slot on (R110), pending results move one slot nearer, and those
that are due land (R114, R115). The wake counts run in the context's own slots (log entry 93). -/
def tick (s : State) (t : Nat) : State :=
  landDue (countDown (if (s.thr t).stack.isEmpty && qfOf t = 0 then tickWaking s (ctxOf t) else s) t) t

/-- Every pending result of a stream lands as if its slots had passed, in the order of their landing slots (R169); in a context's own stream a cluster
that wakes within those slots is awake for the results that land from then on (R110). -/
def landAll (s : State) (t : Nat) : State :=
  let x := s.thr t
  let ps := x.regs.pend
  let most := ps.foldl (fun m p => max m p.left) 0
  let own := x.stack.isEmpty && qfOf t = 0
  let s := s.setThr t { x with regs := { x.regs with pend := [] } }
  (List.range (most + 1)).foldl (fun s k =>
    let s := if own && 0 < k then tickWaking s (ctxOf t) else s
    (ps.filter fun p => p.left = k).foldl (fun s p => landEff t s p.eff) s) s

/-! ## The end of a slot (R114, R121) -/

/-- A slot that the current context takes, in a frame of its own too (R1, R112 SLOTS, R177). -/
def takeSlot (s : State) : State := s.setCctx { s.cctx with slots := s.cctx.slots + 1 }

/-- A slot counted, and in a frame its step (R112 SLOTS, R180). -/
def countSlot (s : State) : State :=
  let s := takeSlot s
  let x := s.cthr
  match x.stack.getLast? with
  | none => s
  | some f => s.setCthr { x with stack := x.stack.dropLast ++ [{ f with step := f.step + 1 }] }

/-- The program counter after this slot, when the instruction itself goes to `next`: a transfer that is due takes it (R121). -/
def Regs.goto (r : Regs) (next : Word) : Regs :=
  match r.xfer with
  | none => { r with pc := next, shade := r.shade - 1 }
  | some (tgt, n) => if n ≤ 1 then { r with pc := tgt, xfer := none } else { r with pc := next, xfer := some (tgt, n - 1) }

/-- The issue slot ends. -/
def endSlot (s : State) (next : Word) : State :=
  let s := endWait s s.cur
  let s := countSlot (s.setRegs (s.regs.goto next))
  tick s s.cur

/-- Results put in flight. -/
def pushPend (r : Regs) (q : Bool) (lat : Nat) (effs : List Effect) : Regs :=
  { r with pend := r.pend ++ effs.map fun e => ⟨lat, r.slot, q, e⟩ }

/-- Whether the instruction that issues now is squashed: its squash bit is set and it stands in a delay slot of a taken `XFER` (R122). -/
def squashed (s : State) (q : Bool) : Bool := q && s.regs.xfer.isSome

/-- Whether the instruction stands in a delay slot, of a taken `XFER` or of one not taken (R121, R157). -/
def inDelay (s : State) : Bool := s.regs.xfer.isSome || s.regs.shade ≠ 0

/-! ## Traps (R398 to R402) -/

/-- A strand trap: class, detail, argument, trap code and core (R398, R399), the number of the routine that an
`RCALL` calls (R404), and the address that a fault record of it carries (R338, R399). -/
structure Trap where
  cls : Nat
  detail : Nat := 0
  arg : Nat := 0
  code : Nat := 0
  core : Nat := 0
  num : Nat := 0x3FFF
  addr : Word := 0
  deriving DecidableEq, Repr

def trapILL : Trap := { cls := 1 }
def trapTAG (operand tag : Nat) : Trap := { cls := 2, detail := operand, arg := tag }
def trapSPMETA (cause off core : Nat) (addr : Word) : Trap := { cls := 3, detail := cause, arg := off, core := core, addr := addr }
def trapCOLD (phys : Nat) : Trap := { cls := 4, arg := phys }
def trapACCW (bank : Nat) : Trap := { cls := 5, arg := bank }
def trapRNOTDEF (num : Nat) : Trap := { cls := 6, arg := num }
def trapARITH (bit : Nat) : Trap := { cls := 7, detail := bit }
def trapSOFT (code : Nat) : Trap := { cls := 8, code := code }
def trapSYNC (arg : Nat) : Trap := { cls := 9, arg := arg }

/-- The cause register's value (R398). -/
def causeWord (t : Trap) (rtn qfr : Bool) (fifo : Nat) : Word :=
  BitVec.ofNat 64 (t.cls % 256 + 2 ^ 8 * (t.detail % 256) + 2 ^ 16 * (t.code % 4096) + (if rtn then 2 ^ 28 else 0)
    + (if qfr then 2 ^ 29 + 2 ^ 30 * (fifo % 4) else 0) + 2 ^ 32 * (t.arg % 2 ^ 19) + 2 ^ 51 * (t.core % 4))

/-- The `UPC` of the step a stream issues (R180): zero outside a frame. -/
def upcOf (x : Thread) : BitVec 32 :=
  match x.stack.getLast? with
  | none => 0
  | some f => BitVec.ofNat 32 (2 ^ 16 * (f.commit % 2 ^ 16) + min (f.step + 1) 65535)

/-- What a frame's body has overwritten of its caller put back (R181): registers by place, descriptors and accumulator slots by name. -/
def undoFrame (s : State) (t : Nat) (u : Undo) : State :=
  let w := ctxOf t
  let s := u.v.foldl (fun s e => s.putV t e.1 e.2) s
  let s := u.p.foldl (fun s e => s.putP t e.1 e.2) s
  let s := s.setCtx w { s.ctx w with qd := u.q.foldl (fun m e => tset m e.1 e.2) (s.ctx w).qd }
  let x := s.res (resKeyOf w)
  s.setRes (resKeyOf w) { x with slots := u.c.foldl (fun m e => match e.2 with | some c => tset m e.1 c | none => terase m e.1) x.slots }

/-- A stream with its frames rolled back to the outermost frame's restart state (R181): the caller sees its registers as they stood at that commit
point. -/
def rollBack (s : State) (t : Nat) : State :=
  match (s.thr t).stack.getLast? with
  | none => s
  | some f =>
    let s := undoFrame s t f.undo
    let own := match (s.thr t).stack.getLast? with | some g => g.caller | none => f.caller
    s.setThr t { s.thr t with regs := f.restart, stack := [{ f with caller := own, step := 0, undo := {} }] }

/-- The node whose tile instruction a context executes. -/
def tileSeat (s : State) (w : Nat) : Nat := if isCore (nodeOf w) then coreNode (s.res (resKeyOf w)).launch (nodeOf w) else nodeOf w

/-- A tile instruction completes on the node that executes it (R363, R365): its record stays for the parent, which learns of it in the next cycle by the
step CHILD_COMPLETION; a quad's completion shows in window 15 (R368), and the tile resident is unloaded (R17). -/
def completeTile (s : State) (n : Nat) (o : ChildState) : State :=
  let x := s.node n
  let flt := match o with | .faulted _ => true | _ => false
  let kept := match o with | .faulted r => r | _ => x.kept
  let done (x : Node) : Node := { x with busy := false, phase := 0, flt, kept, completed := x.completed + 1 }
  let s := s.setNode n { done x with outcome := some o }
  let q := agentOf n
  let s := if 517 ≤ q && q < 645 then s.setNode q { done (s.node q) with seq := x.seq } else s
  let w := seatCtx n
  let s := if q < 512 then freeResident s (w / 4)
    else (s.setThr (mainOf w) { regs := (s.thr (mainOf w)).regs, stack := [] }).setCtx w { s.ctx w with run := .halted }
  { s with later := s.later ++ [.event (.childCompletion n)] }

/-- A fault of the agent that executes a tile instruction (R365): the instruction completes faulted, with its record. -/
def tileFault (s : State) (w num : Nat) (cause : Nat) (upc : BitVec 32) (addr : Word) : State :=
  let n := tileSeat s w
  completeTile s n (.faulted (mkRecord (levelOf n) (childPath n) (s.node n).seq num cause upc.toNat addr 0))

/-- Whether a context executes a tile instruction for its parent (R365). -/
def runsTile (s : State) (w : Nat) : Bool := (isController w || isTileRes w) && (s.node (tileSeat s w)).busy

/-- A launch-fatal fault of a context (R403, R404), or a tile instruction's fault (R365). -/
def fatalAt (s : State) (w num cause : Nat) (upc : BitVec 32) (addr : Word) : State :=
  if runsTile s w then tileFault s w num cause upc addr
  else fatalLaunch s (launchOf s w) (nodeOf w) num cause upc.toNat addr

/-- The routine number that a fault of the current stream reports (R404): the outermost frame's, or `num`. -/
def faultNum (x : Thread) (num : Nat) : Nat :=
  match x.stack.getLast? with
  | none => num
  | some f => f.num

/-- Handler entry (R400): the pending results, a transfer in progress and the resume point are held, the cause and the two addresses
are saved, and the context goes to its handler. `held` is the stream to come back to, and `regs` the registers the handler runs in. -/
def enterHandler (s : State) (w : Nat) (cause epc : Word) (eupc : BitVec 32) (pend : List Pend) (held : Option Thread) (regs : Regs) : State :=
  let c := s.ctx w
  let s := s.setCtx w
    { c with cause := cause, epc := epc, eupc := eupc.setWidth 64, handler := true, held := pend, heldXfer := regs.xfer,
             heldThread := held, heldWaking := c.waking, waking := [], hLoops := regs.loops.length, hLinks := regs.links.length,
             hWb := regs.wb, hFs := regs.fs,
             memq := c.memq.map fun m => if m.thr = mainOf w && 0 < m.depth then { m with held := true } else m }
  s.setThr (mainOf w) { regs := { regs with pend := [], xfer := none, shade := 0, pc := c.tvec, xclr := 0 }, stack := [] }

/-- The loads that frames of a stream left outstanding deliver nothing once the frames are rolled back (R180, R181). -/
def dropFrameLoads (s : State) (t : Nat) : State :=
  let w := ctxOf t
  let c := s.ctx w
  s.setCtx w { c with memq := c.memq.map fun m =>
    if m.thr = t && 0 < m.depth && !m.held then
      { m with kind := match m.kind with | .load _ => .load .none | .amo o n v e sc g _ => .amo o n v e sc g .none | k => k }
    else m }

/-- The outermost frame of a stream, when a squashed call opened it: its faults are dropped (R122). -/
def deadFrame (x : Thread) : Option Frame := x.stack.getLast?.filter (·.dead)

/-- Bytes of the `RCALL` that opened a frame. -/
def Frame.len (f : Frame) : Nat := 4 * (1 + f.ops.length)

/-- A squashed call's frame given up at its fault: the caller goes on after the `RCALL` with no register written. -/
def giveUp (s : State) (f : Frame) : State :=
  let s := undoFrame (dropFrameLoads s s.cur) s.cur f.undo
  endSlot (s.setCthr { s.cthr with regs := s.cthr.base, stack := [] }) (f.site + BitVec.ofNat 64 f.len)

/-- A launch-fatal fault of the instruction that the current stream issues; `num` is the called routine's number when it is an
`RCALL`, and 0x3FFF otherwise. `EPC` and `EUPC` tell the step (R193). -/
def fatalStrand (s : State) (num cls : Nat) (addr : Word) : State :=
  match deadFrame s.cthr with
  | some f => giveUp s f
  | none =>
    let upc := upcOf s.cthr
    let site := match s.cthr.stack.getLast? with | none => s.regs.pc | some f => f.site
    fatalAt ((takeSlot s).setCctx { (takeSlot s).cctx with epc := site, eupc := upc.setWidth 64 }) s.w (faultNum s.cthr num) cls upc addr

/-- A strand trap of the instruction that the current stream issues, with `EPC` at `site` outside a frame (R400). A controller or tile
resident completes its tile instruction faulted (R365); a queue frame leaves the trap for its context (R402); a context in handler mode or
without a handler, or the level program (R370), ends its launch (R400). -/
def takeTrapAt (s : State) (tr : Trap) (site : Word) : State :=
  let w := s.w
  let s := endWait s s.cur
  let x := s.cthr
  let s := if x.stack.isEmpty then s else dropFrameLoads s s.cur
  let upc := upcOf x
  let num := faultNum x tr.num
  match deadFrame x with
  | some f => giveUp s f
  | none =>
  let s := takeSlot (if tr.cls = 4 then orStatus s w bCOLD else s)
  let c := s.ctx w
  if runsTile s w then tileFault s w num (tr.cls + 256 * tr.detail) upc tr.addr
  else if qfOf s.cur ≠ 0 then
    let site := match x.stack.getLast? with | none => site | some f => f.site
    let s := rollBack s s.cur
    let c := s.ctx w
    s.setCtx w { c with traps := c.traps ++ [⟨qfOf s.cur - 1, tr.cls, tr.detail, tr.arg, tr.core, site, upc, tr.addr⟩] }
  else if c.handler || c.tvec = 0 || isLevelProgram w then fatalAt s w num (clsNoHandler + 256 * tr.cls) upc tr.addr
  else
    match x.stack.getLast? with
    | none =>
      let regs := x.regs
      let s := s.setCtx w { c with waking := c.waking.map fun p => (p.1, p.2 - 1) }
      enterHandler s w (causeWord tr false false 0) site 0 (regs.pend.map fun p => { p with left := p.left - 1 }) none
        { regs with slot := regs.slot + 1 }
    | some f =>
      let s := rollBack s s.cur
      let held := s.cthr
      enterHandler s w (causeWord tr true false 0) f.site upc held.base.pend (some held) held.base

/-- A strand trap with `EPC` at the instruction itself. -/
def takeTrap (s : State) (tr : Trap) : State := takeTrapAt s tr s.regs.pc

/-- Held results put back in flight after `RTE` (R119): those whose slots have passed land at once, after anything the handler wrote. -/
def reinject (s : State) (t : Nat) (ps : List Pend) : State :=
  let x := s.thr t
  landDue (s.setThr t { x with regs := { x.regs with pend := x.regs.pend ++ ps } }) t

/-- A held accumulator result as it lands after `RTE`: it loses none of the updates that the handler issued to its accumulator, which follow it in
issue order (R119, R143; log entry 94). `last` is the newest held value of the accumulator. -/
def rebaseX (r : Regs) (last : XAcc) (n : Nat) (a : XAcc) : XAcc :=
  let now := tget ⟨0, false, false, false⟩ r.xi n
  if r.xclr.getLsbD n then now
  else if now = last then a
  else
    let p := a.pinf || now.pinf
    let m := a.ninf || now.ninf
    ⟨a.v + (now.v - last.v), a.nan || now.nan || (p && m), p, m⟩

/-- The held results of a context as they go back in flight into registers. -/
def rebaseHeld (r : Regs) (ps : List Pend) : List Pend :=
  let last (n : Nat) : XAcc := ps.foldl (fun a p => match p.eff with | .xacc m b => if m = n then b else a | _ => a) ⟨0, false, false, false⟩
  ps.map fun p => match p.eff with | .xacc n a => { p with eff := .xacc n (rebaseX r (last n) n a) } | _ => p

/-- `RTE`'s way back (R401, R402): handler mode ends; the context resumes at `EPC`, in its reopened frame, or where an engine's trap
stopped it; held results and a held transfer follow. The low two bits of `EPC` are ignored (R48; log entry 7). The frame held with the trap reopens at
its commit point, the one that `EUPC` gave, whatever other value the handler has put there (log entry 95). -/
def leaveHandler (s : State) (w : Nat) : State :=
  let c := s.ctx w
  let t := mainOf w
  let x := s.thr t
  let own := { x.regs with xfer := c.heldXfer, pc := c.epc &&& ~~~3 }
  let held := rebaseHeld own c.held
  let s := s.setCtx w
    { c with handler := false, held := [], heldXfer := none, heldThread := none, heldHalt := false, frameTrap := none,
             waking := c.waking ++ c.heldWaking.filter (fun p => p.2 ≠ 0), heldWaking := [], run := if c.heldHalt then .halted else c.run,
             memq := c.memq.map fun m => { m with held := false } }
  let reinject (s : State) (t : Nat) (ps : List Pend) : State :=
    (c.heldWaking.filter fun p => p.2 = 0).foldl (fun s p => wakeCluster s w p.1) (reinject s t ps)
  match c.heldThread with
  | none => reinject (s.setThr t { regs := own, stack := [] }) t held
  | some h =>
    if c.frameTrap.isNone && c.eupc = 0 then reinject (s.setThr t { regs := own, stack := [] }) t held
    else if h.stack.isEmpty then reinject (s.setThr t { regs := { own with pc := h.regs.pc }, stack := [] }) t held
    else
      let base := { own with pc := h.base.pc }
      let s := reinject (s.setThr t { regs := base, stack := [] }) t held
      s.setThr t (h.setBase (s.thr t).regs)

/-! ## What an issue comes to -/

/-- The outcome of an instruction's own checks and computation. -/
inductive Out where
  /-- It issues: its results land `lat` slots later. -/
  | ok (lat : Nat) (effs : List Effect)
  /-- It raises a strand trap. -/
  | trap (t : Trap)
  /-- It meets a launch-fatal fault at an address. -/
  | fatal (cls : Nat) (addr : Word)
  /-- It stalls (R41). -/
  | stall (k : WaitKind) (flag : Nat)
  deriving DecidableEq, Repr

/-- An instruction of `len` bytes settled: squashed results are not put in flight, and a squashed instruction's fault is dropped (R122). -/
def settleLen (s : State) (q : Bool) (len : Nat) (o : Out) : State :=
  let next := s.regs.pc + BitVec.ofNat 64 len
  match o with
  | .ok lat effs => endSlot (if squashed s q then s else s.setRegs (pushPend s.regs q lat effs)) next
  | .trap t => if squashed s q then endSlot s next else takeTrap s t
  | .fatal cls a => if squashed s q then endSlot s next else fatalStrand s 0x3FFF cls a
  | .stall k f => beginWait s s.cur k f

/-- A one-word instruction settled. -/
def settle (s : State) (q : Bool) (o : Out) : State := settleLen s q 4 o

/-- The outcome of a strand instruction: always a next state. -/
abbrev Done := Host.Outcome State Fault Refusal

/-- A scalar result; s0 discards it (R105). -/
def toS (r : Regs) (d : BitVec 6) (v : Word) : List Effect := if d = 0 then [] else [.sreg (r.skey d.toNat) v]

/-- Sticky bits as an effect. -/
def toSticky (bits : Word) : List Effect := if bits = 0 then [] else [.sticky bits]

/-- A predicate result; p0 discards it (R105). -/
def toP (slot : Nat) (m : Word) : List Effect := if slot = 0 then [] else [.preg slot m]

/-- All-ones or zero (R105). -/
def boolMask (b : Bool) : Word := if b then ones else 0

end Sys2Proof.Machine
end

