-- ==== Sys2Proof/Machine/Flags.lean ====
section
/-! DEFINITION. Status bits of results (R113, R128, R135): an enabled condition traps ARITH and writes nothing; otherwise the bits land
with the result. Integer conditions (R52). -/

namespace Sys2Proof.Machine

/-- A result with the conditions it raises (R113, R135). -/
def raising (s : State) (lat : Nat) (bits : Word) (effs : List Effect) : Out :=
  match enabledBit s.cctx.status bits with
  | some b => .trap (trapARITH b)
  | none => .ok lat (effs ++ toSticky bits)

/-- An integer condition over two values (R52, R133). -/
def condHolds {n : Nat} (c : Cond) (a b : BitVec n) : Bool :=
  match c with
  | .eq => a == b
  | .ne => a != b
  | .lt => a.slt b
  | .ge => !a.slt b
  | .ltn => a.ult b
  | .gen => !a.ult b

/-- Signed division and remainder with their two borderline inputs (R128). -/
def divWord (a b : Word) : Word := if b = 0 then ones else a.sdiv b
def remWord (a b : Word) : Word := if b = 0 then a else a.srem b

/-- The condition bit that a divisor raises (R128). -/
def divBits (b : Word) : Word := if b = 0 then bIDZ else 0

/-- The upper half of the signed 128-bit product (R127). -/
def mulhWord (a b : Word) : Word := ((a.signExtend 128 * b.signExtend 128).extractLsb' 64 64)

/-- Leading zero bits, 64 for zero (R127). -/
def clzWord (a : Word) : Word := BitVec.ofNat 64 ((List.range 64).foldl (fun n i => if a.getLsbD i then 63 - i else n) 64)

/-- One bits (R127). -/
def popcWord (a : Word) : Word := BitVec.ofNat 64 ((List.range 64).foldl (fun n i => if a.getLsbD i then n + 1 else n) 0)

/-- Signed minimum and maximum (R127). -/
def minWord (a b : Word) : Word := if a.slt b then a else b
def maxWord (a b : Word) : Word := if a.slt b then b else a

end Sys2Proof.Machine
end

