-- ==== Sys2Proof/Machine/Operands.lean ====
section
/-! DEFINITION. The operand forms of strand instructions: scalar, predicate and vector names as the current stream resolves them
(R105, R106, R178), immediates (R129), effective addresses (R144). -/

namespace Sys2Proof.Machine

/-- A scalar source. -/
def State.s (s : State) (n : BitVec 6) : Word := s.regs.sread n

/-- The slot of a predicate name; a name outside a frame's predicates traps ILL (R178). -/
def pslot (s : State) (n : BitVec 4) : Except Trap Nat :=
  match pslotIn s.cthr.stack s.regs n.toNat with
  | some k => .ok k
  | none => .error trapILL

/-- A predicate at a slot; slot 0 reads all-ones (R105). -/
def pAt (s : State) (k : Nat) : Word := if k = 0 then ones else s.pAt s.cur k

/-- A predicate source. -/
def psrc (s : State) (n : BitVec 4) : Except Trap Word := do .ok (pAt s (← pslot s n))

/-- The slot of a vector name (R106, R178). -/
def vslot (s : State) (n : BitVec 6) : Except Trap Nat :=
  match vslotIn s.cthr.stack s.regs n.toNat with
  | some k => .ok k
  | none => .error trapILL

/-- A vector register at a slot as an instruction reads it: a gated or waking cluster reads zero with tag RAW (R111). -/
def vAt (s : State) (k : Nat) : VReg :=
  if slotAwake s.cctx k then s.vAt s.cur k else VReg.cold

/-- A vector source. -/
def vsrc (s : State) (n : BitVec 6) : Except Trap VReg := do .ok (vAt s (← vslot s n))

/-- Whether a read of this vector name sets `COLD` (R111). -/
def coldName (s : State) (n : BitVec 6) : Bool :=
  match vslot s n with
  | .ok k => !slotAwake s.cctx k
  | .error _ => false

/-- The sticky bit that the reads of some vector names raise: `COLD` when one lies in a gated or waking cluster (R111, R149). -/
def coldBits (s : State) (ns : List (BitVec 6)) : Word := if ns.any (coldName s) then bCOLD else 0

/-- An outcome with the `COLD` of its reads: with the result, or at once when it traps (R113, R149). -/
def settleCold (s : State) (q : Bool) (cold : Word) (o : Out) : State :=
  match o with
  | .ok lat effs => settle s q (.ok lat (effs ++ toSticky cold))
  | .trap t => settle (if squashed s q then s else orStatus s s.w cold) q (.trap t)
  | o => settle s q o

/-- A vector destination's result after `lat` slots: with `COLDE` set, one that would be dropped traps COLD (R111). -/
def vdst (s : State) (lat : Nat) (d : BitVec 6) (v : VReg) : Except Trap (List Effect) := do
  let k ← vslot s d
  if s.cctx.status.getLsbD 22 && !slotAwakeIn s.cctx k lat then
    .error (trapCOLD ((gateOf k).getD 0))
  else .ok [.vreg k v]

/-- An outcome from a computation that may trap. -/
def orTrap (x : Except Trap Out) : Out :=
  match x with
  | .ok o => o
  | .error t => .trap t

/-- A sign-extended immediate (R129). -/
def sx {n : Nat} (i : BitVec n) : Word := i.signExtend 64

/-- The effective address of format M (R144, R150). -/
def effAddr (s : State) (a : BitVec 6) (o : BitVec 10) (size : Nat) : Word := s.s a + o.signExtend 64 * BitVec.ofNat 64 size

/-- The rounded allocation fields of the current resident (R37, R38). -/
def allocVREG (alloc : Word) : Nat := (alloc.extractLsb' 0 7).toNat
def allocSWD (alloc : Word) : Nat := (alloc.extractLsb' 8 11).toNat
def allocSPB (alloc : Word) : Nat := (alloc.extractLsb' 20 20).toNat
def allocACB (alloc : Word) : Nat := (alloc.extractLsb' 40 6).toNat
def allocBAN (alloc : Word) : Nat := (alloc.extractLsb' 48 13).toNat

/-- Whether the current resident has no vector registers (R39). -/
def noVectors (s : State) : Bool := allocVREG s.cres.alloc == 0

end Sys2Proof.Machine
end

