-- ==== Sys2Proof/Machine/Container.lean ====
section
/-! DEFINITION. The saved-context container (R407 to R411): what window 9 shows of a saved core, and how a supplied container is checked and
taken. Parts of a body whose layout the manual leaves open are free functions of the state that they hold (log entry 26). -/

namespace Sys2Proof.Config

/-- A byte of a part of a record whose layout R410 does not give, as it holds the state of a core's saved context (log entry 26). -/
opaque openByte : Machine.Saved → Nat → Nat → Nat → Byte

/-- The bytes of such a part where R410 calls its length variable (log entry 26). -/
opaque openLen : Machine.Saved → Nat → Nat → Nat

/-- The state that such a part of a supplied container holds (log entry 26). -/
opaque openState : Nat → List Byte → Machine.Saved

end Sys2Proof.Config

namespace Sys2Proof.Machine

/-- The device's feature vector (R436). -/
def devFeat : Nat := 0x1FF
/-- The device revision (R409). -/
def devRev : Nat := 0x0100
/-- The SRL version (R409). -/
def srlVer : Nat := 0x0100

/-- A record of a container (R409): identity, whether it is a must, instance, body bytes. -/
structure CRec where
  fid : Nat
  must : Bool
  inst : Nat
  body : List Byte

/-- `n` bytes of a part of open layout, by the part's number (R410). -/
def openBody (x : Saved) (core part n : Nat) : List Byte := (List.range n).map fun i => Config.openByte x core part i

/-- A part of open layout and length. -/
def varBody (x : Saved) (core part : Nat) : List Byte := openBody x core part (Config.openLen x core part)

/-- The number of a part of open layout: a record's by its identity and instance; `tail` is the part behind the registers of stated layout. -/
def partNo (fid inst : Nat) (tail : Bool := false) : Nat := 16 * fid + inst + (if tail then 4096 else 0)

/-- A saved context by instance. -/
def Saved.thr (x : Saved) (core inst : Nat) : Regs := (tget Thread.reset x.threads (mainOf (16 * core + inst))).base
def Saved.ctx (x : Saved) (core inst : Nat) : Ctx := tget Ctx.reset x.ctxs (16 * core + inst)

/-- A scalar register of a register set by name. -/
def Regs.sname (r : Regs) (n : Nat) : Word := if n = 0 then 0 else tget 0 r.s (r.skey n)

/-- The bytes of a register's data, side-file and tag (R410 0x02). -/
def vregBytes (v : VReg) : List Byte := leBytes 256 v.data.toNat ++ leBytes 32 v.side.toNat ++ leBytes 1 v.tag.toNat

/-- The record bodies of one context (R410): registers in the order of their names, each in whole bytes. -/
def ctxBody (x : Saved) (core fid inst : Nat) : List Byte :=
  let r := x.thr core inst
  let tail := openBody x core (partNo fid inst true)
  match fid with
  | 0x01 => (List.range 64).flatMap (fun n => leBytes 8 (r.sname n).toNat) ++ tail 8
  | 0x02 => (List.range 64).flatMap fun n => vregBytes (tget VReg.cold r.v n)
  | 0x03 => (List.range 16).flatMap (fun n => leBytes 8 (if n = 0 then ones else tget 0 r.p n).toNat)
      ++ (List.range 8).flatMap (fun n => leBytes 8 (tget 0 r.b n).toNat) ++ tail 8
  | 0x05 => (List.range 4).flatMap fun n => leBytes 80 (tget ⟨0, false, false, false⟩ r.xi n).v.toNat ++ ((tail 32).drop (8 * n)).take 8
  | 0x06 => openBody x core (partNo fid inst) 160
  | _ => varBody x core (partNo fid inst)

/-- The identities of the records that every context has (R410). -/
def ctxFields : List Nat := [0x01, 0x02, 0x03, 0x04, 0x05, 0x06, 0x07, 0x08, 0x09, 0x0A, 0x0B]

/-- The body of a record that this part writes. -/
def fieldBody (x : Saved) (core fid inst : Nat) : List Byte :=
  match fid with
  | 0x0C => openBody x core (partNo fid 0 true) 320 ++ varBody x core (partNo fid 0)
  | 0x0D => varBody x core (partNo fid 0)
  | 0x0E => rdBytes x.core.scratch 0 524288
  | 0x0F => rdBytes x.core.acc 0 131072
  | 0x10 => (List.range 16).flatMap fun i => rdBytes (x.ctx core i).bantam 0 4096
  | _ => ctxBody x core fid inst

/-- The records of a saved core by identity and instance, in ascending order (R410). -/
def fieldList : List (Nat × Nat) :=
  (ctxFields.flatMap fun fid => (List.range 16).map fun i => (fid, i)) ++ [(0x0C, 0), (0x0D, 0), (0x0E, 0), (0x0F, 0), (0x10, 0)]

/-- The records of a saved core (R410). -/
def savedRecords (x : Saved) (core : Nat) : List CRec := fieldList.map fun f => ⟨f.1, f.1 ≠ 0x0D, f.2, fieldBody x core f.1 f.2⟩

/-- A record's bytes (R409). -/
def CRec.bytes (r : CRec) : List Byte :=
  leBytes 8 (r.fid + (if r.must then 2 ^ 15 else 0) + 2 ^ 16 + 2 ^ 24 * r.inst + 2 ^ 32 * r.body.length)
    ++ r.body ++ List.replicate (roundUp r.body.length 8 - r.body.length) 0

/-- The container's bytes (R409). -/
def containerBytes (x : Saved) (core : Nat) : List Byte :=
  let recs := savedRecords x core
  let body := recs.flatMap CRec.bytes
  leBytes 64
    (0x43584253 + 2 ^ 32 + 2 ^ 48 * devRev + 2 ^ 64 * devFeat + 2 ^ 128 * srlVer + 2 ^ 144 * recs.length
      + 2 ^ 160 * (64 + body.length) + 2 ^ 192 * (crc32 body).toNat + 2 ^ 224 * core)
    ++ body

/-- What window 9 of a core shows: the container that host software supplied, up to its LEN, or the saved context; zero otherwise (R408). -/
def shadowRead (s : State) (core off n : Nat) : List Byte :=
  let k := s.core core
  if 0 < k.shadowLen then (List.range n).map fun i => if off + i < rdNat k.shadowBytes 20 4 then rdByte k.shadowBytes (off + i) else 0
  else match tget? s.shadow core with
    | none => List.replicate n 0
    | some x =>
      let bs := containerBytes x core
      (List.range n).map fun i => bs.getD (off + i) 0

/-- A privileged write into shadow storage (R408): the first one takes the bytes that stood there. -/
def shadowWrite (s : State) (core off : Nat) (bs : List Byte) : State :=
  let k := s.core core
  let k := if 0 < k.shadowLen then k else
    match tget? s.shadow core with
    | none => k
    | some x =>
      let old := containerBytes x core
      { k with shadowBytes := wrBytes [] 0 old, shadowLen := old.length }
  s.setCore core { k with shadowBytes := wrBytes k.shadowBytes off bs, shadowLen := max k.shadowLen (off + bs.length) }

/-! ## The check at swap-in (R411) -/

/-- The longest body this part knows of a field; none where the field is unknown, and no bound where it varies. -/
def fieldMax (fid : Nat) : Option (Option Nat) :=
  match fid with
  | 0x01 => some (some 520) | 0x02 => some (some 18496) | 0x03 => some (some 200) | 0x05 => some (some 352) | 0x06 => some (some 160)
  | 0x0E => some (some 524288) | 0x0F => some (some 131072) | 0x10 => some (some 65536)
  | 0x04 | 0x07 | 0x08 | 0x09 | 0x0A | 0x0B | 0x0C | 0x0D => some none
  | _ => none

/-- Records of a container from an offset, at most `n`, each with identity, must, version, instance, offset of the body and its length. -/
def parseRecs (m : Memory) : Nat → Nat → List (Nat × Bool × Nat × Nat × Nat × Nat)
  | 0, _ => []
  | n + 1, off =>
    let h := rdNat m off 8
    let len := fld h 32 32
    (fld h 0 15, bitOf h 15, fld h 16 8, fld h 24 8, off + 8, len) :: parseRecs m n (off + 8 + roundUp len 8)

/-- The number in R411's list of the first condition that refuses a supplied container; none when it is taken. -/
def containerRefusal (k : Core) : Option Nat :=
  let m := k.shadowBytes
  let h := rdNat m 0 64
  let len := fld h 160 32
  let recs := parseRecs m (fld h 144 16) 64
  if fld h 0 32 ≠ 0x43584253 || fld h 192 32 ≠ (crc32 (rdBytes m 64 (len - 64))).toNat then some 1
  else if fld h 32 16 ≠ 1 then some 2
  else if fld h 64 64 &&& devFeat ≠ fld h 64 64 then some 3
  else if fld h 128 16 ≠ srlVer then some 4
  else if recs.any fun r => (fieldMax r.1).isNone && r.2.1 then some 5
  else if recs.any fun r => (fieldMax r.1).isSome && 1 < r.2.2.1 then some 6
  else if recs.any fun r => match fieldMax r.1 with | some (some n) => n < r.2.2.2.2.2 | _ => false then some 7
  else none

/-- A byte of a record's body; zero beyond its length (R411 widened). -/
def bodyByte (m : Memory) (off len i : Nat) : Byte := if i < len then rdByte m (off + i) else 0
def bodyNat (m : Memory) (off len i n : Nat) : Nat := leNat ((List.range n).map fun j => bodyByte m off len (i + j))

/-- A context's part of a record taken over from another state; parts from 0x80 on are those of open layout behind a record's registers. -/
def mergeCtx (part : Nat) (y c : Ctx) : Ctx :=
  match part with
  | 0x06 => { c with status := y.status, cause := y.cause, epc := y.epc, eupc := y.eupc, tvec := y.tvec, handler := y.handler, hLoops := y.hLoops,
                     hLinks := y.hLinks, hWb := y.hWb, hFs := y.hFs, awake := y.awake, cursor := y.cursor, slots := y.slots }
  | 0x04 => { c with heldThread := y.heldThread }
  | 0x07 => { c with run := y.run, start := y.start, held := y.held, heldXfer := y.heldXfer, heldHalt := y.heldHalt, waking := y.waking,
                     heldWaking := y.heldWaking }
  | 0x08 => { c with memq := y.memq, memId := y.memId, nLoads := y.nLoads, nStores := y.nStores, nCopies := y.nCopies, nTiles := y.nTiles, sigs := y.sigs,
                     traps := y.traps, frameTrap := y.frameTrap, gate := y.gate, rdv := y.rdv, barN := y.barN, barIn := y.barIn }
  | 0x09 => { c with evarm := y.evarm }
  | 0x0A => { c with qd := y.qd }
  | 0x0B => { c with sel := y.sel }
  | 0x0D => { c with credit := y.credit, starve := y.starve }
  | 0x10 => { c with bantam := y.bantam }
  | _ => c

/-- A stream's part of a record taken over. -/
def mergeThr (part : Nat) (y x : Thread) : Thread :=
  let a := y.base
  let b := x.base
  match part with
  | 0x01 => x.setBase { b with s := a.s }
  | 0x81 => x.setBase { b with wb := a.wb, fs := a.fs }
  | 0x02 => x.setBase { b with v := a.v }
  | 0x03 => x.setBase { b with p := a.p, b := a.b }
  | 0x83 => x.setBase { b with rrbV := a.rrbV, rrbP := a.rrbP }
  | 0x04 => { x with regs := y.regs, stack := y.stack }.setBase { b with loops := a.loops, links := a.links }
  | 0x05 => x.setBase { b with x := a.x, xi := a.xi, xclr := a.xclr }
  | 0x07 => { x with wait := y.wait, granted := y.granted, landTrap := y.landTrap }.setBase
      { b with pend := a.pend, pc := a.pc, xfer := a.xfer, shade := a.shade, slot := a.slot }
  | 0x08 => { x with marks := y.marks }
  | _ => x

/-- The FIFOs whose contents the record of a strand holds. -/
def strandFifos (k : Nat) : List Nat := match k with | 1 => [0] | 2 => [1, 2] | 3 => [3] | _ => []

/-- A resident's part of a record taken over; `k` is the strand of the record's instance. -/
def mergeRes (part k : Nat) (y x : Res) : Res :=
  match part with
  | 0x08 =>
    let x := (strandFifos k).foldl (fun x f => { x with fifos := tset x.fifos f (tget [] y.fifos f), retired := tset x.retired f (tget 0 y.retired f) }) x
    if k = 0 then { x with fenceId := y.fenceId, evq := y.evq, rpq := y.rpq } else x
  | 0x09 => if k = 0 then { x with susp := y.susp } else x
  | 0x0A =>
    if k = 1 then { x with nest := y.nest, dscale := y.dscale, dbias := y.dbias, mcast := y.mcast, gathA := y.gathA, gathB := y.gathB,
                           slots := y.slots, vt := y.vt }
    else x
  | 0x0D => { x with regions := y.regions, fills := y.fills, badFills := y.badFills, weight := y.weight }
  | _ => x

/-- The core's own part of a record taken over. -/
def mergeCore (part : Nat) (y x : Core) : Core :=
  match part with
  | 0x0A => { x with tstat := y.tstat, tupd := y.tupd }
  | 0x0C => { x with sems := y.sems, mtxs := y.mtxs }
  | 0x0E => { x with scratch := y.scratch }
  | 0x0F => { x with acc := y.acc }
  | _ => x

/-- A table's value at a key changed by that of another table, where either lists one. -/
def mergeAt {α : Type} (d : α) (f : α → α → α) (y x : Tab α) (k : Nat) : Tab α :=
  if (tget? x k).isSome || (tget? y k).isSome then tset x k (f (tget d y k) (tget d x k)) else x

/-- A part of a record taken over from the saved state `y` into `x`; a core-wide record's from every context. -/
def mergePart (core part inst : Nat) (y x : Saved) : Saved :=
  let x := if part = 0x0A && inst ≠ 1 then x else { x with core := mergeCore part y.core x.core }
  (if part = 0x0D || part = 0x10 then List.range 16 else [inst]).foldl (fun x i =>
    let w := 16 * core + i
    { x with
      ctxs := mergeAt Ctx.reset (mergeCtx part) y.ctxs x.ctxs w
      residents := mergeAt Res.reset (mergeRes part (i % 4)) y.residents x.residents (4 * core + i / 4)
      threads := (if part = 0x04 then [0, 1, 2, 3, 4] else [0]).foldl (fun ts f => mergeAt Thread.reset (mergeThr part) y.threads ts (mainOf w + f)) x.threads }) x

/-- A core in which nothing has run, from which an absent record's fields take their reset values. -/
def Saved.blank : Saved := ⟨0, Core.reset, [], [], []⟩

/-- The parts of a record. -/
def partsOf (fid : Nat) : List Nat := if fid = 0x01 || fid = 0x03 then [fid, 0x80 + fid] else [fid]

/-- An exact accumulator of a supplied body, `n` bytes each with the flags in the last eight: sign-extended (R410). -/
def bodyAcc (m : Memory) (off len n i : Nat) : BitVec 640 :=
  BitVec.ofInt 640 (BitVec.ofNat (8 * (n - 8)) (bodyNat m off len (n * i) (n - 8))).toInt

/-- The state that a supplied body of one context or of the core holds: its registers by name where the layout is stated, and a free state elsewhere
(R410). -/
def bodyState (core : Nat) (m : Memory) (fid inst off len : Nat) : Saved :=
  let body := (List.range len).map (bodyByte m off len)
  let word (i : Nat) : Word := BitVec.ofNat 64 (bodyNat m off len i 8)
  let w := 16 * core + inst
  let one (g : Regs) : Saved := { Saved.blank with threads := [(mainOf w, { Thread.reset with regs := g })] }
  match fid with
  | 0x01 => one { Regs.reset with s := (List.range 63).foldl (fun q i => tset q (i + 1) (word (8 * (i + 1)))) [] }
  | 0x02 =>
    let n := len / 64
    one { Regs.reset with v := (List.range 64).foldl (fun q i =>
      tset q i ⟨BitVec.ofNat 2048 (bodyNat m off len (n * i) 256), BitVec.ofNat 256 (bodyNat m off len (n * i + 256) (n - 257)),
        BitVec.ofNat 5 (bodyNat m off len (n * i + n - 1) 1)⟩) [] }
  | 0x03 => one { Regs.reset with
      p := (List.range 15).foldl (fun q i => tset q (i + 1) (word (8 * (i + 1)))) [],
      b := (List.range 8).foldl (fun q i => tset q i (word (128 + 8 * i))) [] }
  | 0x05 =>
    let n := len / 4
    let flags := (Config.openState (partNo fid inst true) ((List.range 4).flatMap fun i => (body.drop (n * i + n - 8)).take 8)).thr core inst
    let accs := (List.range 4).foldl (fun q i => tset q i { tget ⟨0, false, false, false⟩ flags.xi i with v := bodyAcc m off len n i }) []
    one { Regs.reset with x := accs, xi := accs }
  | 0x0E => { Saved.blank with core := { Core.reset with scratch := wrBytes [] 0 (body.take 524288) } }
  | 0x0F => { Saved.blank with core := { Core.reset with acc := wrBytes [] 0 (body.take 131072) } }
  | 0x10 => { Saved.blank with ctxs := (List.range 16).foldl (fun q i =>
      tset q (16 * core + i) { Ctx.reset with bantam := wrBytes [] 0 ((List.range 4096).map fun j => bodyByte m off len (4096 * i + j)) }) [] }
  | _ => Config.openState (partNo fid inst) body

/-- The scalars by name of a supplied body put at the storage keys of the window. -/
def keyScalars (x : Saved) (core inst : Nat) (y : Saved) : Saved :=
  let g := x.thr core inst
  let s := (y.thr core inst).s.foldl (fun q e => tset q (g.skey e.1) e.2) g.s
  { y with threads := tset y.threads (mainOf (16 * core + inst)) { Thread.reset with regs := { Regs.reset with s } } }

/-- A record of a supplied container taken by its rule (R410, R411): an absent one leaves reset values, one that shows what the part saved changes
nothing, and any other brings what it holds. -/
def takeField (core : Nat) (m : Memory) (recs : List (Nat × Bool × Nat × Nat × Nat × Nat)) (x : Saved) (f : Nat × Nat) : Saved :=
  let (fid, inst) := f
  match recs.find? fun r => r.1 = fid && r.2.2.2.1 = inst with
  | none => (partsOf fid).foldl (fun x p => mergePart core p inst Saved.blank x) x
  | some (_, _, _, _, off, len) =>
    if (List.range len).map (bodyByte m off len) = fieldBody x core fid inst then x
    else
      let tail := (List.range 8).map fun i => bodyByte m off len ((if fid = 0x01 then 512 else 192) + i)
      let x' := if (fid = 0x01 || fid = 0x03) && tail ≠ openBody x core (partNo fid inst true) 8 then
          mergePart core (0x80 + fid) inst (Config.openState (partNo fid inst true) tail) x else x
      let y := bodyState core m fid inst off len
      mergePart core fid inst (if fid = 0x01 then keyScalars x' core inst y else y) x'

/-- A supplied container taken into the saved context of its core. -/
def takeContainer (k : Core) (core : Nat) (x : Saved) : Saved :=
  let m := k.shadowBytes
  fieldList.foldl (takeField core m (parseRecs m (rdNat m 18 2) 64)) x

end Sys2Proof.Machine
end

