-- ==== Sys2Proof/Machine/Tokens.lean ====
section
/-! DEFINITION. Semaphores, mutexes and stage-wide waits as shared state (R18, R23, R162, R163): signals, grants, and the tile status
word (R321). -/

namespace Sys2Proof.Machine

/-- The head waiters that a count serves, oldest first: a later waiter never passes the head (R162). -/
def serveSem (count : Nat) : List (Nat × Nat) → Nat × List Nat × List (Nat × Nat)
  | [] => (count, [], [])
  | (t, n) :: rest =>
    if n ≤ count then
      let (c, ts, q) := serveSem (count - n) rest
      (c, t :: ts, q)
    else (count, [], (t, n) :: rest)

/-- A waiting stream let past its wait by an agent (R427). -/
def grant (s : State) (t : Nat) (ag : BitVec 14) : State :=
  s.setThr t { s.thr t with granted := true, wait := (s.thr t).wait.map fun v => { v with rel := ag } }

/-- A signal of a physical semaphore (R161, R162, R23): the count saturates at 65,535; an amount of 0 changes nothing. -/
def signalSem (s : State) (core n amount : Nat) (ag : BitVec 14) : State :=
  let k := s.core core
  let x := tget ⟨0, []⟩ k.sems n
  if amount = 0 then s
  else
    let (c, ts, q) := serveSem (min 65535 (x.count.toNat + amount)) x.queue
    let s := s.setCore core { k with sems := tset k.sems n ⟨BitVec.ofNat 16 c, q⟩ }
    ts.foldl (fun s t => grant s t ag) s

/-- A mutex freed: the oldest local waiter takes it (R163, R23). -/
def freeMutex (s : State) (core n : Nat) (ag : BitVec 14) : State :=
  let k := s.core core
  let x := tget ⟨none, []⟩ k.mtxs n
  match x.queue with
  | [] => s.setCore core { k with mtxs := tset k.mtxs n ⟨none, []⟩ }
  | t :: rest => grant (s.setCore core { k with mtxs := tset k.mtxs n ⟨some (ctxOf t), rest⟩ }) t ag

/-- The smallest agent number that is no local context (R23): 65,536 + context for a strand, then engines, controllers, firmware and outside. -/
def remoteBase : Nat := 65536
/-- The agent number of an engine FIFO. -/
def engineMutexAgent (r fifo : Nat) : Nat := remoteBase + 8192 + 4 * r + fifo
/-- The agent number of the firmware complex. -/
def firmwareAgent : Nat := remoteBase + 20000

/-- A compare-and-swap of a mutex word (R23): only from 0 to 1, only while it is free and no local waiter is queued. Answers the word's
value before it. -/
def casMutex (s : State) (core n agent : Nat) (e v : Nat) : Nat × State :=
  let k := s.core core
  let x := tget ⟨none, []⟩ k.mtxs n
  let old := if x.holder.isSome then 1 else 0
  if old = 0 && e = 0 && v = 1 && x.queue.isEmpty then
    (0, s.setCore core { k with mtxs := tset k.mtxs n ⟨some agent, []⟩ })
  else (old, s)

/-- A store to a mutex word (R23): 0 from the remote agent that holds it frees it; everything else is ignored. -/
def storeMutex (s : State) (core n agent : Nat) (v : Nat) (ag : BitVec 14) : State :=
  let x := tget ⟨none, []⟩ (s.core core).mtxs n
  if v = 0 && x.holder = some agent && remoteBase ≤ agent then freeMutex s core n ag else s

/-- A mutex word's value. -/
def mutexWord (s : State) (core n : Nat) : Nat := if (tget ⟨none, []⟩ (s.core core).mtxs n).holder.isSome then 1 else 0

/-- A semaphore's count. -/
def semCount (s : State) (core n : Nat) : Nat := (tget ⟨0, []⟩ (s.core core).sems n).count.toNat

/-- What a window-5 offset names (R20): a physical semaphore or mutex, none for a view name that is not mapped. -/
inductive TokenRef where
  | sem (n : Nat)
  | mtx (n : Nat)
  | unmapped
  | bad
  deriving DecidableEq, Repr

/-- The token at a window-5 offset of a core (R20, R21, R23). -/
def tokenAt (s : State) (core off : Nat) : TokenRef :=
  let res := fld off 25 2
  let o := fld off 0 10
  if fld off 10 15 ≠ 0 || o % 8 ≠ 0 then .bad
  else if o < 0x100 then (if res = 0 then .sem (o / 8) else .bad)
  else if o < 0x140 then (if res = 0 then .mtx ((o - 0x100) / 8) else .bad)
  else if o < 0x200 then .bad
  else
    let r := s.res (4 * core + res)
    let of? (x : Option Nat) (f : Nat → TokenRef) : TokenRef := match x with | some n => f n | none => .unmapped
    if o < 0x300 then of? (if r.loaded then tget? r.semMap ((o - 0x200) / 8) else none) .sem
    else if o < 0x340 then of? (if r.loaded then tget? r.mtxMap ((o - 0x300) / 8) else none) .mtx
    else .bad

/-- A tile status word (R321). -/
def TileStat.word (x : TileStat) : Word :=
  x.bits.setWidth 64 ||| (x.dseq.setWidth 64 <<< 16) ||| (x.gseq.setWidth 64 <<< 32) ||| (x.base.setWidth 64 <<< 48)
    ||| (x.nb.setWidth 64 <<< 53)

/-- The status entry of a bank; zero when no tile starts there. -/
def tileWord (s : State) (core bank : Nat) : Word :=
  match tget? (s.core core).tstat bank with
  | some x => x.word
  | none => 0

end Sys2Proof.Machine
end

