-- ==== Sys2Proof/Machine/Windows.lean ====
section
/-! DEFINITION. The windows of the on-chip physical map (R19 to R23, R85, R368, R408, R426): which accesses are allowed, what a read
gives and what a write does. -/

namespace Sys2Proof.Machine

/-- What kind of access reaches a window (R20, R21, R147, R150, R199, R211). -/
inductive WinUse where
  | load | store | amoCas | amo | vec | copy
  deriving DecidableEq, Repr

/-- Whether a window-8 offset has a register (R426). -/
def dbgAssigned (off : Nat) : Bool :=
  let o := fld off 0 11
  let perCtx := o < 0x38
  if fld off 11 12 ≠ 0 then false
  else if perCtx then true
  else fld off 23 4 = 0 &&
    ((0x400 ≤ o && o < 0x428) || (0x440 ≤ o && o < 0x540) || (0x600 ≤ o && o < 0x640) || o = 0x700)

/-- Whether a window-15 offset has a register (R368). -/
def quadAssigned (off : Nat) : Bool := off = 0 || off = 8 || (0x20 ≤ off && off < 0x40) || off = 0x40

/-- The fault class that an access of `n` bytes at a window's offset takes, if any (R20, R21, R368). Windows 0 and 1 are judged byte by byte. -/
def winFault (s : State) (core w off n : Nat) (use : WinUse) (priv : Bool) : Option Nat :=
  let write := use = .store || use = .copy
  let scalar := use = .load || use = .store
  let aligned := off % n = 0
  let bad := some clsUnmapped
  match w with
  | 0 => if off < 2 ^ 19 then none else bad
  | 1 => if off < 2 ^ 17 then none else bad
  | 2 => if scalar && (n = 4 || n = 8) && aligned && off < 2 ^ 16 then none else bad
  | 3 => if scalar && (n = 4 || n = 8) && aligned && fld off 15 8 = 0 then none else bad
  | 4 => if scalar && (n = 4 || n = 8) && aligned && fld off 9 14 = 0 then none else bad
  | 5 =>
    match tokenAt s core (off / 8 * 8) with
    | .bad => bad
    | .mtx _ => if (scalar && n = 8 && aligned) || (use = .amoCas && (n = 8 || n = 4) && off % 8 = 0) then none else bad
    | .unmapped =>
      if (scalar && n = 8 && aligned) || (use = .amoCas && 0x300 ≤ fld off 0 10 && (n = 8 || n = 4) && off % 8 = 0) then none else bad
    | .sem _ => if scalar && n = 8 && aligned then none else bad
  | 6 => if scalar && n = 8 && aligned && off < 2 ^ 8 then none else bad
  | 7 => if scalar && n = 8 && aligned && fld off 5 20 = 0 && fld off 0 5 ≤ 0x10 then none else bad
  | 8 => if scalar && n = 8 && aligned && dbgAssigned off then (if write && !priv then some clsProt else none) else bad
  | 9 => if !scalar then bad else if !priv then some clsProt else if scalar && n = 8 then none else bad
  | 15 =>
    if core % 4 ≠ 0 || !(scalar && n = 8 && aligned && quadAssigned off) then bad
    else if write && !priv then some clsProt else none
  | _ => bad

/-- The context that a register or Bantam window's offset names (R20). -/
def winCtx (core w off : Nat) : Nat :=
  if w = 2 then 16 * core + fld off 12 4 else 16 * core + 4 * fld off 25 2 + fld off 23 2

/-- Whether a resident holds something (R16, R17). -/
def resLoaded (s : State) (w : Nat) : Bool := (s.res (resKeyOf w)).loaded

/-- The bytes of a vector register slot of window 3 (R20). -/
def vregByte (v : VReg) (i : Nat) : Byte :=
  if i < 256 then v.data.extractLsb' (8 * i) 8
  else if i < 288 then v.side.extractLsb' (8 * (i - 256)) 8
  else if i = 288 then v.tag.setWidth 8
  else 0

/-- A bit vector with one byte replaced. -/
def setByteBV {n : Nat} (x : BitVec n) (i : Nat) (b : Byte) : BitVec n :=
  (x &&& ~~~((0xFF#8).setWidth n <<< (8 * i))) ||| (b.setWidth n <<< (8 * i))

/-- A vector register slot with one byte of window 3 written; reserved bytes ignore it (R20, R237). -/
def setVregByte (v : VReg) (i : Nat) (b : Byte) : VReg :=
  if i < 256 then { v with data := setByteBV v.data i b }
  else if i < 288 then { v with side := setByteBV v.side (i - 256) b }
  else if i = 288 then { v with tag := b.setWidth 5 }
  else v

/-- Several bytes of a slot. -/
def setVregBytes (v : VReg) (i : Nat) : List Byte → VReg
  | [] => v
  | b :: bs => setVregBytes (setVregByte v i b) (i + 1) bs

/-- The inbox's capacity (R363). -/
def inboxSize : Nat := 2

/-- The launch whose partition holds a quad. -/
def quadHolder (s : State) (q : Nat) : Option Nat :=
  (s.launches.find? fun l => l.2.quads.contains q && l.2.live).map (·.1)

/-- The quad controller as its holder uses it; without one, the registers that window 15 keeps. -/
def quadSeat (s : State) (q : Nat) : Node :=
  match quadHolder s q with
  | some l => s.node (quadNode l q)
  | none => s.node (quadNode 0 q)

/-- `QCSTAT` (R368). -/
def qcStat (s : State) (q : Nat) : Word :=
  let n := quadSeat s q
  let last := s.node (quadNode 0 q)
  (if n.busy then 1 else 0) ||| (if last.flt then 2 else 0) ||| (BitVec.ofNat 64 n.inbox.length <<< 2)
    ||| ((if n.busy then n.seq else last.seq).setWidth 64 <<< 32)

/-- `DSTAT` (R426). -/
def dStat (s : State) (w : Nat) : Word :=
  let c := s.ctx w
  let k := s.core (nodeOf w)
  (if c.run = .halted then 1 else 0) ||| (if k.stopped then 2 else 0) ||| (if c.handler then 4 else 0)
    ||| (match (s.thr (mainOf w)).wait with | some x => 8 ||| (BitVec.ofNat 64 x.kind.code <<< 8) | none => 0)

/-- `TSTAT` (R426). -/
def tStat (k : Core) : Word := (if k.trunc then 1 else 0) ||| (if k.full then 2 else 0) ||| (k.dropped.setWidth 64 <<< 32)

/-- A window-8 register's value (R426); `TFIFO` apart. -/
def dbgRead (s : State) (core off : Nat) : Word :=
  let o := fld off 0 11
  let w := 16 * core + 4 * fld off 25 2 + fld off 23 2
  let k := s.core core
  if o = 0 then (s.thr (mainOf w)).regs.pc
  else if o = 8 then (upcOf (s.thr (mainOf w))).setWidth 64
  else if o = 0x10 then dStat s w
  else if o < 0x38 then BitVec.ofNat 64 (tget 0 (s.res (resKeyOf w)).retired ((o - 0x18) / 8) % 2 ^ 32)
  else if o = 0x400 then
    (if k.logEn then 4 else 0) ||| (if k.sampEn then 8 else 0) ||| (BitVec.ofNat 64 k.sampLog2 <<< 4) ||| (if k.armed then 0x200 else 0)
  else if o = 0x408 then k.tbase
  else if o = 0x410 then k.tsize
  else if o = 0x418 then BitVec.ofNat 64 k.twptr
  else if o = 0x420 then tStat k
  else if o < 0x540 then
    let x := tget ⟨0, 0, 0, 0, false, false⟩ k.watch ((o - 0x440) / 32)
    match (o - 0x440) % 32 / 8 with
    | 0 => x.addr | 1 => x.mask | 2 => x.val
    | _ => BitVec.ofNat 64 x.mode ||| (if x.record then 4 else 0) ||| (if x.stop then 8 else 0)
  else tget 0 k.counters ((o - 0x600) / 8)

/-- A read of `TFIFO` (R426): the low half of the oldest unit, then its high half, which pops it; zero when the FIFO is empty. -/
def tfifoRead (k : Core) : Word × Core :=
  match k.tfifo with
  | [] => (0, k)
  | (_, []) :: rest => (0, { k with tfifo := rest })
  | (wait, u :: us) :: rest =>
    if k.tfifoHalf then (u.extractLsb' 64 64, { k with tfifoHalf := false, tfifo := if us.isEmpty then rest else (wait, us) :: rest })
    else (u.setWidth 64, { k with tfifoHalf := true })

/-- A write of a window-8 register (R426): the acts of `DBGCTL` follow as steps of their own. -/
def dbgWrite (s : State) (core off : Nat) (v : Word) : State :=
  let o := fld off 0 11
  let k := s.core core
  if o = 0x400 then
    let log2 := fld v.toNat 4 5
    if log2 < 10 || 24 < log2 then s
    else
      let arm := v.getLsbD 9
      let s := s.setCore core { k with logEn := v.getLsbD 2, sampEn := v.getLsbD 3, sampLog2 := log2, armed := k.armed && arm }
      { s with agenda := s.agenda ++ (if arm && !k.armed then [.event (.arm core)] else [])
          ++ (if v.getLsbD 0 then [.event (.stopreq core)] else []) ++ (if v.getLsbD 1 then [.event (.resume core)] else []) }
  else if o = 0x408 then (if k.armed then s else s.setCore core { k with tbase := v })
  else if o = 0x410 then (if k.armed then s else s.setCore core { k with tsize := v })
  else if 0x440 ≤ o && o < 0x540 then
    let n := (o - 0x440) / 32
    let x := tget ⟨0, 0, 0, 0, false, false⟩ k.watch n
    let x := match (o - 0x440) % 32 / 8 with
      | 0 => { x with addr := v } | 1 => { x with mask := v } | 2 => { x with val := v }
      | _ => { x with mode := fld v.toNat 0 2, record := v.getLsbD 2, stop := v.getLsbD 3 }
    s.setCore core { k with watch := tset k.watch n x }
  else s

/-- A TCB address put into the inbox of the quad controller of the launch that holds the quad (R363, R368); while it is full the write is held
and tried again. -/
def quadInbox (s : State) (quad : Nat) (priv : Bool) (tcb : Word) : State :=
  match quadHolder s quad with
  | none => s
  | some l =>
    let n := s.node (quadNode l quad)
    if n.inbox.length < inboxSize then s.setNode (quadNode l quad) { n with inbox := n.inbox ++ [⟨some tcb, 0, none, none, 0⟩] }
    else { s with later := s.later ++ [.event (.quadInboxWrite quad priv tcb)] }

/-- The oldest entry of a queue as a number, zero when it is empty. -/
def headNat {n : Nat} (q : List (BitVec n)) : Nat := match q with | [] => 0 | x :: _ => x.toNat

/-- A read of `n` bytes of a window (R20, R21, R23); the windows that R21 lets through. A resident that is not loaded reads zero. -/
def winRead (s : State) (core w off n : Nat) : List Byte × State :=
  let k := s.core core
  match w with
  | 0 => (rdBytes k.scratch off n, s)
  | 1 => (rdBytes k.acc off n, s)
  | 2 =>
    let c := winCtx core 2 off
    (if resLoaded s c then rdBytes (s.ctx c).bantam (off % 4096) n else List.replicate n 0, s)
  | 3 =>
    let c := winCtx core 3 off
    let reg := fld off 9 6
    (if resLoaded s c && (s.ctx c).isAwake reg then
      let v := tget VReg.cold (s.thr (mainOf c)).base.v reg
      (List.range n).map fun i => vregByte v (off % 512 + i)
    else List.replicate n 0, s)
  | 4 =>
    let c := winCtx core 4 off
    (if resLoaded s c then (leBytes 8 ((s.thr (mainOf c)).base.sname (fld off 3 6)).toNat).drop (off % 8) |>.take n
    else List.replicate n 0, s)
  | 5 =>
    (leBytes n (match tokenAt s core (off / 8 * 8) with | .sem x => semCount s core x | .mtx x => mutexWord s core x | _ => 0), s)
  | 6 => (leBytes n (tileWord s core (off / 8)).toNat, s)
  | 7 =>
    let r := s.res (4 * core + fld off 25 2)
    let o := fld off 0 5
    (leBytes n (if !r.loaded then 0 else if o = 0 then headNat r.evq % 2 ^ 64 else if o = 8 then headNat r.evq / 2 ^ 64 else headNat r.rpq), s)
  | 8 =>
    if fld off 0 11 = 0x700 then
      let (v, k') := tfifoRead k
      (leBytes n v.toNat, s.setCore core k')
    else (leBytes n (dbgRead s core off).toNat, s)
  | 9 => (shadowRead s core off n, s)
  | _ =>
    let q := s.node (quadNode 0 (quadOf core))
    (leBytes n (if off = 0 then (qcStat s (quadOf core)).toNat else if off = 8 then q.completed.toNat
      else if 0x20 ≤ off && off < 0x40 then (q.kept.extractLsb' (8 * (off - 0x20)) 64).toNat else 0), s)

/-- Bytes written into scalar registers by name, from a byte offset of window 4 on: 8 bytes to a register, and those of s0 ignored (R20, R21). -/
def patchRegs (g : Regs) (off : Nat) : List Byte → Regs
  | [] => g
  | b :: bs =>
    let n := off / 8
    let g := if n = 0 then g else { g with s := tset g.s (g.skey n) (setByteBV (tget 0 g.s (g.skey n)) (off % 8) b) }
    patchRegs g (off + 1) bs

/-- A write into a register-file window or Bantam lands (R21, R85, R111). -/
def winLand (s : State) (core w off : Nat) (bs : List Byte) : State :=
  let c := winCtx core w off
  if !resLoaded s c then s
  else
    let x := s.ctx c
    let t := s.thr (mainOf c)
    match w with
    | 2 => s.setCtx c { x with bantam := wrBytes x.bantam (off % 4096) bs }
    | 3 =>
      let reg := fld off 9 6
      if x.isAwake reg then
        let g := t.base
        s.setThr (mainOf c) (t.setBase { g with v := tset g.v reg (setVregBytes (tget VReg.cold g.v reg) (off % 512) bs) })
      else orStatus s c bCOLD
    | _ => s.setThr (mainOf c) (t.setBase (patchRegs t.base (off % 512) bs))

/-- Whether a core's partition is halted or swapped out, so that window writes wait at its port (R85). -/
def portHeld (s : State) (core : Nat) : Bool :=
  match s.launches.find? fun l => l.2.quads.contains (quadOf core) && l.2.live with
  | some l => l.2.st = .halting || l.2.st = .stopped
  | none => s.launches.any fun l => l.2.quads.contains (quadOf core) && l.2.st = .saved

/-- A write of a window by an agent (R20 to R23, R85, R368, R426). -/
def winWrite (s : State) (core w off : Nat) (bs : List Byte) (agent : Nat) (ag : BitVec 14) (priv : Bool) (own : Option Nat) : State :=
  let k := s.core core
  match w with
  | 0 => s.setCore core { k with scratch := wrBytes k.scratch off bs }
  | 1 => s.setCore core { k with acc := wrBytes k.acc off bs }
  | 2 | 3 | 4 =>
    if portHeld s core then s.setCore core { k with winq := k.winq ++ [⟨w, off, bs, ag, own⟩] } else winLand s core w off bs
  | 5 =>
    match tokenAt s core (off / 8 * 8) with
    | .sem n => signalSem s core n (leNat bs % 2 ^ 16) ag
    | .mtx n => storeMutex s core n agent (leNat bs) ag
    | _ => s
  | 8 => dbgWrite s core off (BitVec.ofNat 64 (leNat bs))
  | 9 => shadowWrite s core off bs
  | 15 => if off = 0x40 then quadInbox s (quadOf core) priv (BitVec.ofNat 64 (leNat bs)) else s
  | _ => s

end Sys2Proof.Machine
end

