-- ==== Sys2Proof/Machine/Mem.lean ====
section
/-! DEFINITION. Accesses to memory (R19 to R23, R73, R77, R81, R82, R144 to R147, R218 to R229): who accesses, where each byte lies, what a
load reads and what a store does when it is performed. -/

namespace Sys2Proof.Machine

/-- Who makes an access: its number among mutex agents, its number in the wait log, its core (none for controllers and the firmware
complex), its resident, its address space, its launch (0 for none) and whether it is privileged (R19, R21, R23, R403). -/
structure Ag where
  id : Nat
  code : BitVec 14
  core : Option Nat
  res : Nat
  asid : Nat
  launch : Nat
  priv : Bool
  deriving DecidableEq, Repr

/-- The address space of a launch. -/
def launchAsid (s : State) (l : Nat) : Nat := match s.launch? l with | some x => x.asid | none => 0

/-- A strand context as an agent. -/
def strandAg (s : State) (w : Nat) : Ag :=
  { id := remoteBase + w, code := strandAgent w, core := if isCore (nodeOf w) then some (nodeOf w) else none, res := resKeyOf w,
    asid := if isCore (nodeOf w) then (s.res (resKeyOf w)).asid else launchAsid s (launchOf s w), launch := launchOf s w,
    priv := isController w }

/-- An engine FIFO of a resident as an agent. -/
def engineAg (s : State) (r fifo : Nat) : Ag :=
  { id := engineMutexAgent r fifo, code := engineAgent r fifo, core := some (r / 4), res := r, asid := (s.res r).asid, launch := (s.res r).launch, priv := false }

/-- The firmware complex as an agent of an address space. -/
def firmwareAg (asid : Nat) : Ag :=
  { id := firmwareAgent, code := memoryAgent, core := none, res := 0, asid := asid, launch := 0, priv := true }

/-- Where an address leads before translation (R19, R218). -/
inductive Loc where
  | virt (va : Nat)
  | win (core w off : Nat)
  deriving DecidableEq, Repr

/-- The location an address names for an agent; none is an unmapped address. -/
def locOf (ag : Ag) (va : Nat) : Option Loc :=
  if va < 2 ^ 56 then some (.virt va)
  else if va < 2 ^ 56 + 2 ^ 40 then some (.win (fld va 31 9) (fld va 27 4) (fld va 0 27))
  else if 0x0101000000000000 ≤ va && va < 0x0101000000000000 + 2 ^ 31 then
    ag.core.map fun k => .win k (fld va 27 4) (fld va 0 27)
  else none

/-- The address of byte `i` of an access, modulo 2^64 (R144). -/
def addrAt (va : Word) (i : Nat) : Nat := (va + BitVec.ofNat 64 i).toNat

/-- Translation of the bytes of an access from byte `i` on, `n` of them: the places so far, newest first, and the last translation used. -/
def resolveFrom (ag : Ag) (va : Word) (acc : Acc) (use : WinUse) :
    Nat → Nat → State → List Place → Option Xlat → Except (Nat × Word) (List Place) × State
  | 0, _, s, ps, _ => (.ok ps.reverse, s)
  | n + 1, i, s, ps, last =>
    let a := addrAt va i
    let here := BitVec.ofNat 64 a
    match locOf ag a with
    | none => (.error (clsUnmapped, here), s)
    | some (.win k w off) =>
      match winFault s k w off 1 use ag.priv with
      | some c => if w ≤ 1 then (.error (c, here), s) else (.error (clsUnmapped, here), s)
      | none => if w ≤ 1 then resolveFrom ag va acc use n (i + 1) s (.win k w off :: ps) last else (.error (clsUnmapped, here), s)
    | some (.virt v) =>
      let (x, s) := match last with
        | some x => if x.covers ag.asid v then (some x, s) else translate s ag.core ag.res ag.asid v acc
        | none => translate s ag.core ag.res ag.asid v acc
      match x with
      | none => (.error (clsUnmapped, here), s)
      | some x =>
        if !x.grants acc then (.error (clsProt, here), s)
        else if x.owner = 3 && peerOut s x.peer then (.error (clsUncorr, here), s)
        else
          let newLine := i = 0 || v % 64 = 0
          let s := if newLine then
              let s := pageCount s (physKey x.owner.toNat x.peer x.frame) x.size (some (x.asid, x.va)) 1 0
              match ag.core with
              | some k => if x.owner = 0 then s else s.setCore k (countUp (s.core k) 4)
              | none => s
            else s
          resolveFrom ag va acc use n (i + 1) s (.phys (x.place v) :: ps) (some x)

/-- The places of the `n` bytes of an access at an address, or the class and address of its fault (R21, R144, R221). -/
def resolve (s : State) (ag : Ag) (va : Word) (n : Nat) (acc : Acc) (use : WinUse) : Except (Nat × Word) (List Place) × State :=
  match locOf ag va.toNat with
  | some (.win k w off) =>
    if w ≤ 1 then resolveFrom ag va acc use n 0 s [] none
    else
      match winFault s k w off n use ag.priv with
      | some c => (.error (c, va), s)
      | none => (.ok ((List.range n).map fun i => .win k w (off + i)), s)
  | _ => resolveFrom ag va acc use n 0 s [] none

/-! ## Region maps (R213, R226, R227) -/

/-- The base of a resident's scratchpad share (R38, R299). -/
def shareBase (x : Res) : Nat := x.spillb - allocSPB x.alloc

/-- The region-map entry of a resident that covers a scratchpad offset, with the chunk and its entry number. -/
def regionAt (x : Res) (off : Nat) : Option (Nat × Region) :=
  x.regions.find? fun e => e.2.sp + shareBase x ≤ off && off < e.2.sp + shareBase x + e.2.len

/-- The chunk of 4 KB that a scratchpad offset lies in. -/
def chunkOf (off : Nat) : Nat := off / 4096

/-- The first chunk that an access of a resident touches and must fill (R226). -/
def unfilled (s : State) (ag : Ag) (ps : List Place) : Option Nat :=
  let x := s.res ag.res
  if x.regions.isEmpty then none
  else
    ps.findSome? fun p =>
      match p with
      | .win k 0 off =>
        if ag.core = some k then
          match regionAt x off with
          | some (_, e) => if e.filled.contains (chunkOf off) then none else some (chunkOf off)
          | none => none
        else none
      | _ => none

/-- The dirty bits of the lines that a write of a resident touches (R227). -/
def markDirty (s : State) (ag : Ag) (ps : List Place) : State :=
  let x := s.res ag.res
  if x.regions.isEmpty then s
  else
    s.setRes ag.res (ps.foldl (fun x p =>
      match p with
      | .win k 0 off =>
        if ag.core = some k then
          match regionAt x off with
          | some (n, e) =>
            if e.dirty.contains (off / 64) then x else { x with regions := tset x.regions n { e with dirty := e.dirty ++ [off / 64] } }
          | none => x
        else x
      | _ => x) x)

/-! ## Reading and writing places -/

/-- One byte at a place of memory, scratchpad or accumulator memory. -/
def placeByte (s : State) (p : Place) : Byte :=
  match p with
  | .phys a => rdByte s.mem a
  | .win k w off => if w = 0 then rdByte (s.core k).scratch off else rdByte (s.core k).acc off

/-- The bytes at the places of one access; a window other than 0 and 1 is read as one access (R20). -/
def readPlaces (s : State) (ps : List Place) : List Byte × State :=
  match ps with
  | .win k w off :: _ => if 2 ≤ w then winRead s k w off ps.length else (ps.map (placeByte s), s)
  | _ => (ps.map (placeByte s), s)

/-- The device address of the graph trigger registers (R421). -/
def triggerBase : Nat := lpddr 0x100000000000

/-- Whether an access stands in the block of the graph trigger registers, which hold no value (R421). -/
def atTrigger : List Place → Option Nat
  | .phys a :: _ => if triggerBase ≤ a && a < triggerBase + 512 then some (a - triggerBase) else none
  | _ => none

/-- An 8-byte write to a graph trigger register: the step GRAPH_TRIGGER follows (R421). -/
def noteTrigger (s : State) (ag : Ag) (off : Nat) (bs : List Byte) : State :=
  if off % 8 = 0 && bs.length = 8 then
    { s with agenda := s.agenda ++ [.event (.graphTrigger (ag.asid / 256) (off / 8) (BitVec.ofNat 64 (leNat bs)))] }
  else s

/-- The places of the aligned 8 bytes at an address as an agent names them; none where the address leads nowhere (R429). -/
def watchedAt (s : State) (ag : Ag) (va : Nat) : List Place :=
  match locOf ag (va / 8 * 8) with
  | some (.virt v) => match walk s ag.asid v with | some x => (List.range 8).map fun i => .phys (x.place (v + i)) | none => []
  | some (.win k w off) => (List.range 8).map fun i => .win k w (off + i)
  | none => []

/-- The 8 bytes at watched places, read without effect. -/
def peekWord (s : State) (ps : List Place) : Word := BitVec.ofNat 64 (leNat (readPlaces s ps).1)

/-- What the watchpoints of an agent's own core see of its store to the places `ps`, which changed `old` into `s` (R429). A watchpoint is matched by the
bytes that its address names, whatever address the store named them by. -/
def watchStore (old s : State) (ag : Ag) (ps : List Place) : State :=
  match ag.core with
  | none => s
  | some k =>
    (old.core k).watch.foldl (fun s p =>
      let qs := if p.2.mode = 0 then [] else watchedAt old ag p.2.addr.toNat
      let new := peekWord s qs
      if qs.any ps.contains && p.2.fires (peekWord old qs) new then
        let s := if p.2.record then s.setCore k (tracePush (s.core k) false [Config.hitRecord p.1 ag.code new]) else s
        if p.2.stop then { s with agenda := s.agenda ++ [.event (.stopreq k)] } else s
      else s) s

/-- A write of a window by an agent (R20, R21), seen by its core's watchpoints unless it waits at the core's port. -/
def winStore (s : State) (ag : Ag) (k w off : Nat) (bs : List Byte) : State :=
  let s' := winWrite s k w off bs ag.id ag.code ag.priv ag.core
  if 2 ≤ w && w ≤ 4 && portHeld s k then s' else watchStore s s' ag ((List.range bs.length).map fun i => .win k w (off + i))

/-- The window writes that wait at a core's port land, in order (R85). -/
def landHeld (s : State) (core : Nat) : State :=
  let k := s.core core
  k.winq.foldl (fun s x =>
    watchStore s (winLand s core x.w x.off x.bytes) { firmwareAg 0 with code := x.agent, core := x.core }
      ((List.range x.bytes.length).map fun i => .win core x.w (x.off + i))) (s.setCore core { k with winq := [] })

/-- The places that an agent's launch wrote, kept with it (R403). -/
def noteWrote (s : State) (l : Nat) (ps : List Place) : State :=
  match s.launch? l with
  | some x => s.setLaunch l { x with wrote := ps ++ x.wrote }
  | none => s

/-- A write of bytes at the places of one access, performed (R77, R84): windows take their effects, dirty bits and watchpoints theirs. -/
def writePlaces (s : State) (ag : Ag) (ps : List Place) (bs : List Byte) : State :=
  let plain := watchStore s (markDirty (putBytes (noteWrote s ag.launch ps) (ps.zip bs)) ag ps) ag ps
  match ps with
  | .win k w off :: _ => if 2 ≤ w then winStore s ag k w off bs else plain
  | _ =>
    match atTrigger ps with
    | some off => noteTrigger s ag off bs
    | none => plain

/-! ## Engine accesses: resolved and performed at once -/

/-- A fill of one chunk of a resident's scratchpad from its virtual range (R226): the bytes of a load of the range, or its fault. -/
def fillChunk (s : State) (ag : Ag) (chunk : Nat) : Except (Nat × Word) Unit × State :=
  let x := s.res ag.res
  match ag.core, regionAt x (4096 * chunk) with
  | some k, some (n, e) =>
    let va := e.va + BitVec.ofNat 64 (4096 * chunk - (e.sp + shareBase x))
    match resolve s ag va 4096 .rd .load with
    | (.error f, s) => (.error f, s)
    | (.ok ps, s) =>
      let c := s.core k
      let s := s.setCore k { c with scratch := wrBytes c.scratch (4096 * chunk) (ps.map (placeByte s)) }
      let x := s.res ag.res
      (.ok (), s.setRes ag.res { x with regions := tset x.regions n { e with filled := e.filled ++ [chunk] }, fills := x.fills.filter (· ≠ chunk) })
  | _, _ => (.ok (), s)

/-- Every chunk that an engine's access touches filled, at most `fuel` of them (R226). -/
def fillAll (ag : Ag) (ps : List Place) : Nat → State → Except (Nat × Word) Unit × State
  | 0, s => (.ok (), s)
  | fuel + 1, s =>
    match unfilled s ag ps with
    | none => (.ok (), s)
    | some c =>
      match fillChunk s ag c with
      | (.error f, s) => (.error f, s)
      | (.ok (), s) => fillAll ag ps fuel s

/-- A read of `n` bytes by an agent, performed at once. -/
def agRead (s : State) (ag : Ag) (va : Word) (n : Nat) (use : WinUse) : Except (Nat × Word) (List Byte) × State :=
  match resolve s ag va n .rd use with
  | (.error f, s) => (.error f, s)
  | (.ok ps, s) =>
    match fillAll ag ps 129 s with
    | (.error f, s) => (.error f, s)
    | (.ok (), s) =>
      let (bs, s) := readPlaces s ps
      (.ok bs, s)

/-- A write of bytes by an agent, performed at once. -/
def agWrite (s : State) (ag : Ag) (va : Word) (bs : List Byte) (use : WinUse) : Except (Nat × Word) Unit × State :=
  match resolve s ag va bs.length .wr use with
  | (.error f, s) => (.error f, s)
  | (.ok ps, s) =>
    match fillAll ag ps 129 s with
    | (.error f, s) => (.error f, s)
    | (.ok (), s) => (.ok (), writePlaces s ag ps bs)

/-! ## The load and store queues (R73, R77) -/

/-- `AMO`'s new value (R147). -/
def amoNew (op : AmoOp) (n : Nat) (old v e : Word) : Word :=
  let sx (x : Word) : Int := sextNat x.toNat (8 * n)
  match op with
  | .add => old + v
  | .min => if sx old < sx v then old else v
  | .max => if sx old < sx v then v else old
  | .and => old &&& v
  | .or => old ||| v
  | .xor => old ^^^ v
  | .swap => v
  | .cas => if (old ^^^ e) <<< (64 - 8 * n) == 0 then v else old

/-- A loaded value extended (R145). -/
def extendTo (size : Nat) (sx : Bool) (bs : List Byte) : Word :=
  if sx then wordOfInt (sextNat (leNat bs) (8 * size)) else BitVec.ofNat 64 (leNat bs)

/-- An effect lands in a stream as it stood when `depth` frames were open: in the registers of the caller below (R118). -/
def landAtDepth (s : State) (t depth : Nat) (e : Effect) : State :=
  let x := s.thr t
  let inner := x.stack.take (x.stack.length - depth)
  match inner.getLast? with
  | none => landEff t s e
  | some f =>
    let s := landEff t (s.setThr t { x with regs := f.caller, stack := x.stack.drop inner.length }) e
    let y := s.thr t
    s.setThr t { x with regs := x.regs, stack := inner.dropLast ++ { f with caller := y.regs } :: y.stack }

/-- A step of a context taken with its held stream in place of its own, over the registers that the context itself has now (R117, R402). -/
def inHeld (s : State) (w : Nat) (g : State → State) : State :=
  let t := mainOf w
  match (s.ctx w).heldThread with
  | none => s
  | some h =>
    let x := s.thr t
    let s := g (s.setThr t (h.setBase x.base))
    let h' := s.thr t
    (s.setThr t (x.setBase h'.base)).setCtx w { s.ctx w with heldThread := some h' }

/-- A result lands at a depth of a stream, unless the squash of a taken transfer has overtaken it (R122). -/
def deliverAt (s : State) (m : MemOp) (e : Effect) : State :=
  let dead : Bool := match m.kill with | some k => k < ((s.thr m.thr).atDepth m.depth).slot | none => false
  if dead then s else landAtDepth s m.thr m.depth e

/-- An asynchronous result written to its destination (R117): one of a frame that a trap handler holds in that frame. -/
def deliver (s : State) (m : MemOp) (d : Dest) (bs : List Byte) : State :=
  let put (e : Effect) : State := if m.held then inHeld s (ctxOf m.thr) (deliverAt · m e) else deliverAt s m e
  match d with
  | .none => s
  | .sreg key size sx => put (.sreg key (extendTo size sx bs))
  | .vreg slot tag => put (.vreg slot ⟨BitVec.ofNat 2048 (leNat bs), 0, tag⟩)

/-- Whether two accesses share a byte (R70). -/
def overlaps (a b : List Place) : Bool := a.any fun p => b.contains p

def MemOp.isLoad (m : MemOp) : Bool := match m.kind with | .load _ => true | _ => false
def MemOp.isAmo (m : MemOp) : Bool := match m.kind with | .amo .. => true | _ => false

/-- The value a load takes at one place: the newest earlier store of the queue that writes it, else the place itself (R73, R90). -/
def forwarded (s : State) (earlier : List MemOp) (p : Place) : Byte :=
  earlier.foldl (fun b m =>
    match m.kind with
    | .store bs => (m.places.zip bs).foldl (fun b x => if x.1 = p then x.2 else b) b
    | _ => b) (placeByte s p)

/-- The bytes that a load reads behind its strand's earlier stores. -/
def loadBytes (s : State) (earlier : List MemOp) (ps : List Place) : List Byte × State :=
  match ps with
  | .win _ w _ :: _ => if 2 ≤ w then readPlaces s ps else (ps.map (forwarded s earlier), s)
  | _ => (ps.map (forwarded s earlier), s)

/-- A counter lowered. -/
def less (n : Nat) : Nat := n - 1

/-- The first load of a queue, with the entries before it; an AMO ahead of it holds it (R73). -/
def firstLoad : List MemOp → List MemOp → Option (List MemOp × MemOp × List MemOp)
  | _, [] => none
  | before, m :: rest =>
    if m.isLoad then some (before.reverse, m, rest)
    else if m.isAmo then none
    else firstLoad (m :: before) rest

/-- The first store or AMO of a queue; an AMO waits for the loads ahead of it (R73). -/
def firstStore : List MemOp → List MemOp → Option (List MemOp × MemOp × List MemOp)
  | _, [] => none
  | before, m :: rest =>
    if m.isLoad then firstStore (m :: before) rest
    else if m.isAmo && !before.isEmpty then none
    else some (before.reverse, m, rest)

/-- Whether a load may be performed behind these earlier entries: into a window with effects, only after stores that overlap it. -/
def loadReady (before : List MemOp) (m : MemOp) : Bool :=
  match m.places with
  | .win _ w _ :: _ => w < 2 || !(before.any fun b => overlaps b.places m.places)
  | _ => true

/-- The oldest load of a context performed (R77, R117): its value is fixed and written, and it leaves the load counter. -/
def performLoad (s : State) (w : Nat) : State :=
  let c := s.ctx w
  match firstLoad [] c.memq with
  | none => s
  | some (before, m, rest) =>
    if !loadReady before m then s
    else
      let (bs, s') := loadBytes s before m.places
      let c := s'.ctx w
      let s' := s'.setCtx w { c with memq := before ++ rest, nLoads := less c.nLoads }
      let s' := match m.kind with | .load d => deliver s' m d bs | _ => s'
      noteReleaser s s' w memoryAgent

/-- An AMO on a mutex word of window 5 (R23): the compare-and-swap, and the old value; watchpoints see its store. -/
def amoMutex (s : State) (ag : Ag) (k off n : Nat) (v e : Word) : Nat × State :=
  match tokenAt s k off with
  | .mtx x =>
    let (old, s') := casMutex s k x ag.id (e.toNat % 2 ^ (8 * n)) (v.toNat % 2 ^ (8 * n))
    (old, if old = e.toNat % 2 ^ (8 * n) then watchStore s s' ag ((List.range n).map fun i => .win k 5 (off + i)) else s')
  | _ => (0, s)

/-- Whether two cores or controllers lie in one unit of a scope (R10, R82). -/
def sameUnit (c : Scope) (a b : Nat) : Bool :=
  let cores := isCore a && isCore b
  match c with
  | .core => a = b
  | .quad => a = b || (cores && quadOf a = quadOf b)
  | .die => a = b || (cores && dieOf a = dieOf b)
  | _ => true

/-- The AMO at the head of a context's store queue, with its scope, its places and what it has read. -/
def headAmo (s : State) (w : Nat) : Option (Scope × List Place × Option (List Byte)) :=
  match firstStore [] (s.ctx w).memq with
  | some (_, m, _) => match m.kind with | .amo _ _ _ _ c g _ => some (c, m.places, g) | _ => none
  | none => none

/-- The contexts whose next store is an AMO to a location of these places, with its scope and whether it has read already. -/
def amoRivals (s : State) (w : Nat) (ps : List Place) : List (Nat × Scope × Bool) :=
  s.ctxs.filterMap fun e =>
    if e.1 = w then none
    else match headAmo s e.1 with
      | some (c, qs, g) => if overlaps ps qs then some (e.1, c, g.isSome) else none
      | none => none

/-- Whether two AMOs are atomic with each other: the scope of each holds both agents (R82). -/
def amoAtomic (w : Nat) (c : Scope) (r : Nat × Scope × Bool) : Bool :=
  sameUnit c (nodeOf w) (nodeOf r.1) && sameUnit r.2.1 (nodeOf w) (nodeOf r.1)

/-- The first store of a context taken out of its queue, and out of the store counter. -/
def leaveQueue (s : State) (w : Nat) (before rest : List MemOp) : State :=
  let c := s.ctx w
  s.setCtx w { c with memq := before ++ rest, nStores := less c.nStores }

/-- An AMO's write and result, from the bytes it has read (R147). -/
def amoWrite (s : State) (w : Nat) (m : MemOp) (op : AmoOp) (n : Nat) (v e : Word) (d : Dest) (bs : List Byte) : State :=
  let old := BitVec.ofNat 64 (leNat bs)
  let new := amoNew op n old v e
  let s := if op = .cas && (old ^^^ e) <<< (64 - 8 * n) != 0 then s else writePlaces s (strandAg s w) m.places (leBytes n new.toNat)
  deliver s m d bs

/-- An AMO that has read performs its write (R82). -/
def finishAmo (s : State) (w : Nat) : State :=
  match firstStore [] (s.ctx w).memq with
  | some (before, m, rest) =>
    match m.kind with
    | .amo op n v e _ (some bs) d => noteReleaser s (amoWrite (leaveQueue s w before rest) w m op n v e d bs) w memoryAgent
    | _ => s
  | none => s

/-- The oldest store or AMO of a context performed at package scope (R77): it leaves the store counter, and an AMO's old value lands. An AMO is one
act towards those it is atomic with; where another agent's AMO on the location is not one of them, its unit may read now and write at the step after
(R82), unless it must be performed `whole`. -/
def performStore (s : State) (w : Nat) (whole : Bool := false) : State :=
  let c := s.ctx w
  match firstStore [] c.memq with
  | none => s
  | some (before, m, rest) =>
    match m.kind with
    | .load _ => s
    | .store bs => noteReleaser s (writePlaces (leaveQueue s w before rest) (strandAg s w) m.places bs) w memoryAgent
    | .amo op n v e sc got d =>
      match m.places, got with
      | _, some _ => finishAmo s w
      | .win k 5 off :: _, none =>
        let (old, s') := amoMutex (leaveQueue s w before rest) (strandAg s w) k off n v e
        noteReleaser s (deliver s' m d (leBytes n old)) w memoryAgent
      | ps, none =>
        let rivals := amoRivals s w ps
        let s := (rivals.filter fun r => r.2.2 && amoAtomic w sc r).foldl (fun s r => finishAmo s r.1) s
        let bs := ps.map (placeByte s)
        if !whole && (rivals.any fun r => !amoAtomic w sc r) && (Config.freeValue s.fresh).getLsbD 0 then
          { s.setCtx w { s.ctx w with memq := before ++ { m with kind := .amo op n v e sc (some bs) d } :: rest } with fresh := s.fresh + 1 }
        else
          noteReleaser s (amoWrite (leaveQueue s w before rest) w m op n v e d bs) w memoryAgent

/-- The queue entries of a context performed from the front until at most `n` have been, so that the loads and AMOs that a local load must follow
are performed first (R73). -/
def drainQueue (w : Nat) : Nat → State → State
  | 0, s => s
  | n + 1, s =>
    match (s.ctx w).memq with
    | [] => s
    | m :: _ => drainQueue w n (if m.isLoad then performLoad s w else performStore s w true)

end Sys2Proof.Machine
end

