-- ==== Sys2Proof/Machine/MemInstr.lean ====
section
/-! DEFINITION. Itver memory instructions (R74, R144 to R150) and the steps that perform them (R73, R77, R85, R117, R221, R226). -/

namespace Sys2Proof.Machine

/-- The highest value of a wait counter (R120). -/
def counterMax : Nat := 63

/-- The state in which an access waits for a chunk's fill, the fill asked for (R226). -/
def askFill (s : State) (ag : Ag) (chunk : Nat) : State :=
  let x := s.res ag.res
  let s := if x.fills.contains chunk then s else s.setRes ag.res { x with fills := x.fills ++ [chunk] }
  beginWait s s.cur .fill 0

/-- The fault that the fill of a chunk met, taken by the access that waits for the chunk (R226). -/
def takeBadFill (s : State) (r chunk : Nat) : Option ((Nat × Word) × State) :=
  let x := s.res r
  (x.badFills.find? fun b => b.1 = chunk).map fun b => (b.2, s.setRes r { x with badFills := x.badFills.filter fun b => b.1 ≠ chunk })

/-- An access whose chunk is not filled: it waits for the fill, and a fault of the fill is its own, dropped when it is squashed (R122, R226). -/
def waitFill (s : State) (q : Bool) (ag : Ag) (chunk : Nat) : State :=
  match takeBadFill s ag.res chunk with
  | some ((c, a), s) => settle s q (.fatal c a)
  | none => askFill s ag chunk

/-- An entry put at the end of the current context's memory queue (R73). The accesses of a queue-ordered routine's body join the issuing strand's
own queues and counters (R75, R178; log entry 96). -/
def enqueue (s : State) (q : Bool) (kind : MemKind) (ps : List Place) (va : Word) : State :=
  let c := s.cctx
  let m : MemOp := { id := c.memId, kind, places := ps, va, sq := q, kill := none, thr := s.cur, depth := s.cthr.stack.length }
  let c := { c with memq := c.memq ++ [m], memId := c.memId + 1 }
  s.setCctx (match kind with | .load _ => { c with nLoads := c.nLoads + 1 } | _ => { c with nStores := c.nStores + 1 })

/-- Whether every byte lies in window 0 of the issuing core (R22). -/
def allLocal (ag : Ag) (ps : List Place) : Bool :=
  ps.all fun p => match p with | .win k w _ => w = 0 && ag.core = some k | _ => false

/-- The state after every load and AMO that stands before a local load, and what stands before them, has been performed: loads are performed in
the order they issue, and an AMO is one of them (R73). -/
def settleLoads (s : State) : State :=
  let q := s.cctx.memq
  match (List.range q.length).reverse.find? fun i => match q[i]? with | some m => m.isAmo || m.isLoad | none => false with
  | none => s
  | some i => drainQueue s.w (i + 1) s

/-- A load of `n` bytes (R145, R150): from window 0 of the issuing core its value is fixed at issue and lands `lat` slots later; any other
is queued and counted. -/
def loadOp (s0 : State) (q : Bool) (va : Word) (n lat : Nat) (use : WinUse) (fin : List Byte → List Effect) (d : Dest) : State :=
  let ag := strandAg s0 s0.w
  match resolve s0 ag va n .rd use with
  | (.error (c, a), s) => settle s q (.fatal c a)
  | (.ok ps, s) =>
    match unfilled s ag ps with
    | some k => waitFill s0 q ag k
    | none =>
      if allLocal ag ps then
        let s := settleLoads s
        settle s q (.ok lat (fin (ps.map (forwarded s s.cctx.memq))))
      else if counterMax ≤ s.cctx.nLoads then beginWait s0 s0.cur .counter 0
      else settle (enqueue s q (.load (if squashed s q then .none else d)) ps va) q (.ok 1 [])

/-- A store of bytes (R146, R150), queued and counted. -/
def storeOp (s0 : State) (q : Bool) (va : Word) (bs : List Byte) (use : WinUse) (effs : List Effect) : State :=
  let ag := strandAg s0 s0.w
  match resolve s0 ag va bs.length .wr use with
  | (.error (c, a), s) => settle s q (.fatal c a)
  | (.ok ps, s) =>
    match unfilled s ag ps with
    | some k => waitFill s0 q ag k
    | none =>
      if counterMax ≤ s.cctx.nStores then beginWait s0 s0.cur .counter 0
      else settle (enqueue s q (.store bs) ps va) q (.ok 1 effs)

/-- Bytes and extension of a load size (R58). -/
def LdSize.bytes : LdSize → Nat | .b => 1 | .h => 2 | .w => 4 | .d => 8 | .sb => 1 | .sh => 2 | .sw => 4
def LdSize.sx : LdSize → Bool | .sb => true | .sh => true | .sw => true | _ => false
def StSize.bytes : StSize → Nat | .b => 1 | .h => 2 | .w => 4 | .d => 8
def SplSize.bytes : SplSize → Nat | .w => 4 | .d => 8 | .sw => 4
def SpsSize.bytes : SpsSize → Nat | .w => 4 | .d => 8

/-- `LD` (R145). -/
def execLd (q : Bool) (d a : BitVec 6) (o : BitVec 10) (z : LdSize) (s : State) : Done :=
  let n := LdSize.bytes z
  .next (loadOp s q (effAddr s a o n) n 3 .load (fun bs => toS s.regs d (extendTo n (LdSize.sx z) bs))
    (if d = 0 then .none else .sreg (s.regs.skey d.toNat) n (LdSize.sx z)))

/-- `ST` (R146). -/
def execSt (q : Bool) (d a : BitVec 6) (o : BitVec 10) (z : StSize) (s : State) : Done :=
  let n := StSize.bytes z
  .next (storeOp s q (effAddr s a o n) (leBytes n (s.s d).toNat) .store [])

/-- `AMO` (R147): queued, counted on the store counter. -/
def execAmo (q : Bool) (d a b : BitVec 6) (o : AmoOp) (c : Scope) (w : Bool) (s : State) : Done :=
  let n := if w then 4 else 8
  let va := s.s a
  let ag := strandAg s s.w
  .next (
    if va.toNat % n ≠ 0 then settle s q (.fatal clsUnmapped va)
    else
      match resolve s ag va n .amo (if o = .cas then .amoCas else .amo) with
      | (.error (c, x), s') => settle s' q (.fatal c x)
      | (.ok ps, s') =>
        match unfilled s' ag ps with
        | some k => waitFill s q ag k
        | none =>
          if counterMax ≤ s'.cctx.nStores then beginWait s s.cur .counter 0
          else
            let dest := if d = 0 || squashed s q then Dest.none else .sreg (s.regs.skey d.toNat) n false
            settle (enqueue s' q (.amo o n (s.s b) (s.s d) c none dest) ps va) q (.ok 1 []))

/-- Whether a Bantam access is allowed (R148). -/
def bantamOk (s : State) (off : Word) (n : Nat) : Bool :=
  off.toNat + n ≤ allocBAN s.cres.alloc && off.toNat % n = 0

/-- `SPL` (R148). -/
def execSpl (q : Bool) (d a : BitVec 6) (o : BitVec 10) (z : SplSize) (s : State) : Done :=
  let n := SplSize.bytes z
  let off := effAddr s a o n
  .next (settle s q (
    if bantamOk s off n then .ok 1 (toS s.regs d (extendTo n (z = .sw) (rdBytes s.cctx.bantam off.toNat n))) else .trap trapILL))

/-- The places of window 2 that `n` bytes of a context's Bantam are (R20). -/
def bantamPlaces (w off n : Nat) : List Place := (List.range n).map fun i => .win (nodeOf w) 2 (4096 * (w % 16) + off + i)

/-- `SPS` (R148): it writes in its issue slot. -/
def execSps (q : Bool) (d a : BitVec 6) (o : BitVec 10) (z : SpsSize) (s : State) : Done :=
  let n := SpsSize.bytes z
  let off := effAddr s a o n
  .next (
    if bantamOk s off n then
      let s' := s.setCctx { s.cctx with bantam := wrBytes s.cctx.bantam off.toNat (leBytes n (s.s d).toNat) }
      settle (watchStore s s' (strandAg s s.w) (bantamPlaces s.w off.toNat n)) q (.ok 1 [])
    else settle s q (.trap trapILL))

/-- `MARK` (R74): it stalls until every earlier access of the strand is performed. -/
def execMark (q : Bool) (s : State) : Done :=
  .next (settle s q (if s.cctx.memq.isEmpty then .ok 1 [] else .stall .mark 0))

/-- The tag of a `VLD` or `VSPLAT` code (R57). -/
def coreTag : CoreTag → BitVec 5 | .raw => 0 | .f32 => 1 | .i32 => 2 | .n32 => 3

/-- `VLD` (R150). -/
def execVld (q : Bool) (d a : BitVec 6) (o : BitVec 10) (t : CoreTag) (s : State) : Done :=
  let va := effAddr s a o 256
  if noVectors s then .next (settle s q (.trap trapILL))
  else
    match vslot s d with
    | .error x => .next (settle s q (.trap x))
    | .ok k =>
      let reg (bs : List Byte) : VReg := ⟨BitVec.ofNat 2048 (leNat bs), 0, coreTag t⟩
      if !squashed s q && s.cctx.status.getLsbD 22 && !slotAwakeIn s.cctx k 4 then
        .next (settle s q (.trap (trapCOLD ((gateOf k).getD 0))))
      else .next (loadOp s q va 256 4 .vec (fun bs => [.vreg k (reg bs)]) (.vreg k (coreTag t)))

/-- `VST` (R150). -/
def execVst (q : Bool) (d a : BitVec 6) (o : BitVec 10) (s : State) : Done :=
  let va := effAddr s a o 256
  if noVectors s then .next (settle s q (.trap trapILL))
  else
    match vsrc s d with
    | .error x => .next (settle s q (.trap x))
    | .ok v => .next (storeOp s q va (leBytes 256 v.data.toNat) .vec (toSticky (coldBits s [d])))

/-! ## Steps -/

/-- PENDING_RESULT_LANDS (R114): the results of a context whose slots have passed land. -/
def execPendingResultLands (w : Nat) (s : State) : Done := .next (landDue s (mainOf w))

/-- ASYNC_LOAD_PERFORMED (R117, R77): the oldest load of a context. -/
def execAsyncLoadPerformed (w : Nat) (s : State) : Done := .next (performLoad s w)

/-- STORE_PERFORMED (R77): the oldest store or AMO of a context. -/
def execStorePerformed (w : Nat) (s : State) : Done := .next (performStore s w)

/-- REGISTER_WINDOW_WRITE_LANDS (R85): the writes that wait at a core's port land, in order, once its partition runs. -/
def execRegisterWindowWriteLands (core : Nat) (s : State) : Done :=
  .next (if portHeld s core then s else landHeld s core)

/-- SEMAPHORE_WORD_STORE (R23): a store to a semaphore word of window 5 by an outside agent. -/
def execSemaphoreWordStore (core off : Nat) (v : Word) (s : State) : Done :=
  .next (match tokenAt s core off with | .sem n => signalSem s core n (v.toNat % 2 ^ 16) memoryAgent | _ => s)

/-- MUTEX_WORD_CAS (R23): a compare-and-swap of a mutex word by a remote agent. -/
def execMutexWordCas (agent core off : Nat) (e v : Word) (s : State) : Done :=
  .next (match tokenAt s core off with | .mtx n => (casMutex s core n agent e.toNat v.toNat).2 | _ => s)

/-- MUTEX_WORD_RELEASE (R23): a store of 0 to a mutex word by a remote agent. -/
def execMutexWordRelease (agent core off : Nat) (s : State) : Done :=
  .next (match tokenAt s core off with | .mtx n => storeMutex s core n agent 0 memoryAgent | _ => s)

/-- CLUSTER_WAKE_COMPLETE (R110): a waking cluster whose count has run out is awake, its registers zero. -/
def execClusterWakeComplete (w k : Nat) (s : State) : Done :=
  .next (if (s.ctx w).waking.any fun p => p.1 = k && p.2 = 0 then wakeCluster s w k else s)

/-- PAGE_WALK_COMPLETE (R221, R222, R225): a walk for a resident of a core returns; its translation enters the cache and the predictor. -/
def execPageWalkComplete (res asid : Nat) (va : Word) (s : State) : Done :=
  let k := s.core (res / 4)
  .next (
    if k.tlb.any fun x => x.covers asid va.toNat then s
    else s.setCore (res / 4) (walkNote k res asid va.toNat .rd (walk s asid va.toNat)))

/-- FIRST_TOUCH_FILL (R226): a chunk that an access waits for is filled; a fault of the fill is told to the access. -/
def execFirstTouchFill (core res chunk : Nat) (s : State) : Done :=
  let r := 4 * core + res
  let x := s.res r
  if x.fills.contains chunk then
    match fillChunk s { strandAg s (ctxKey r 0) with res := r } chunk with
    | (.error (c, a), s) =>
      let x := s.res r
      .next (s.setRes r { x with fills := x.fills.filter (· ≠ chunk), badFills := x.badFills ++ [(chunk, c, a)] })
    | (.ok (), s) =>
      let x := s.res r
      .next (s.setRes r { x with fills := x.fills.filter (· ≠ chunk) })
  else .next s

end Sys2Proof.Machine
end

