-- ==== Sys2Proof/Machine/Control.lean ====
section
/-! DEFINITION. Branches, loops, calls and traps (R107, R121 to R124, R156 to R160, R401). -/

namespace Sys2Proof.Machine

/-- An instruction of R121's list: it traps ILL in a delay slot; squashed there it takes its slot as a `NOP` (R122). -/
def ctrlOp (s : State) (q : Bool) (o : State → State) : Done :=
  .next (if squashed s q then endSlot s (s.regs.pc + 4) else if inDelay s then takeTrap s trapILL else o s)

/-- Whether a `PREP` of fewer than 2 slots ago wrote a branch-target register (R121). -/
def prepNear (r : Regs) (b : BitVec 3) : Bool :=
  r.pend.any fun p => match p.eff with | .breg n _ => n = b.toNat | _ => false

/-- A branch-target register (R105). -/
def Regs.target (r : Regs) (b : BitVec 3) : Word := tget 0 r.b b.toNat

/-- `PREP` (R156). -/
def execPrep (q : Bool) (b : BitVec 3) (o : BitVec 22) (s : State) : Done :=
  .next (settle s q (.ok 2 [.breg b.toNat (s.regs.pc + 4 * o.signExtend 64)]))

/-- Whether a loop's range holds an address (R124). -/
def LoopEnt.holds (e : LoopEnt) (a : Word) : Bool := e.start.toNat ≤ a.toNat && a.toNat ≤ e.stop.toNat

/-- The loop stack, innermost first, as a transfer to an address leaves it (R124). -/
def popLoops (a : Word) : List LoopEnt → List LoopEnt
  | [] => []
  | e :: es => if e.holds a then e :: es else popLoops a es

/-- The squash of results still under way when an `XFER` is taken in this slot (R122). -/
def squashPending (s : State) : State :=
  let r := s.regs
  let s := s.setRegs { r with pend := r.pend.filter fun p => !(p.sq && 2 < p.left) }
  let c := s.cctx
  let depth := s.cthr.stack.length
  s.setCctx { c with memq := c.memq.map fun m =>
    if m.sq && m.kill.isNone && m.thr = s.cur && m.depth = depth then { m with kill := some (r.slot + 2) } else m }

/-- A taken `XFER` (R121, R122, R124): two delay slots follow. -/
def takeXfer (s : State) (tgt : Word) : State :=
  let s := squashPending s
  let r := s.regs
  endSlot (s.setRegs { r with loops := popLoops tgt r.loops, xfer := some (tgt, 3) }) (r.pc + 4)

/-- `XFER` (R121, R157): the rules on delay slots hold after one that is not taken too. -/
def execXfer (q : Bool) (p : BitVec 4) (v : Bool) (b : BitVec 3) (s : State) : Done :=
  ctrlOp s q fun s =>
    if prepNear s.regs b then takeTrap s trapILL
    else
      match psrc s p with
      | .error t => takeTrap s t
      | .ok m => if m.getLsbD 0 != v then takeXfer s (s.regs.target b) else endSlot (s.setRegs { s.regs with shade := 3 }) (s.regs.pc + 4)

/-- The address of a loop's closing `LOOPB` (R158). -/
def loopEnd (s : State) (e : BitVec 8) : Word := s.regs.pc + 4 * e.setWidth 64

/-- The word that stands at an instruction address of the current stream, looked at without effect; none where it cannot be fetched (R19, R221). -/
def peekCode (s : State) (a : Word) : Option W32 :=
  let ag := strandAg s s.w
  if 2 ^ 56 ≤ a.toNat then none
  else
    let held : Option Xlat := ag.core.bind fun k => (s.core k).tlb.find? fun x => x.covers ag.asid a.toNat
    match (match held with | some x => some x | none => walk s ag.asid a.toNat) with
    | some x => if x.grants .ex then some (BitVec.ofNat 32 (rdNat s.mem (x.place a.toNat) 4)) else none
    | none => none

/-- Whether a `LOOPB` stands at an instruction address (R59). -/
def atLoopb (s : State) (a : Word) : Bool :=
  match (peekCode s a).map decodeWord with
  | some (.ok (.loopb _)) => true
  | _ => false

/-- `LOOP`'s effect for a count (R59, R123): it traps where its end is no `LOOPB`. A fifth `LOOP` traps whatever its count (log entry 43). -/
def loopOp (s : State) (count : Nat) (e : BitVec 8) : State :=
  let r := s.regs
  if 4 ≤ r.loops.length || !atLoopb s (loopEnd s e) then takeTrap s trapILL
  else if count = 0 then endSlot s (loopEnd s e + 4)
  else endSlot (s.setRegs { r with loops := ⟨r.pc + 4, loopEnd s e, count⟩ :: r.loops }) (r.pc + 4)

/-- `LOOP` with an immediate count (R123, R158). -/
def execLoopImm (q : Bool) (n : BitVec 16) (e : BitVec 8) (s : State) : Done := ctrlOp s q fun s => loopOp s n.toNat e

/-- `LOOP` with a register count: its low 48 bits (R123, R158). -/
def execLoopReg (q : Bool) (a : BitVec 6) (e : BitVec 8) (s : State) : Done :=
  ctrlOp s q fun s => loopOp s ((s.s a).toNat % 2 ^ 48) e

/-- `LOOPB`'s effect (R123). -/
def loopbOp (s : State) : State :=
  let r := s.regs
  match r.loops with
  | [] => takeTrap s trapILL
  | e :: es =>
    if e.stop ≠ r.pc then takeTrap s trapILL
    else
      let r := { r with rrbV := r.rrbV - 1, rrbP := r.rrbP - 1 }
      if 1 < e.count then endSlot (s.setRegs { r with loops := { e with count := e.count - 1 } :: es }) e.start
      else endSlot (s.setRegs { r with loops := es }) (r.pc + 4)

/-- `LOOPB` (R123, R158). -/
def execLoopb (q : Bool) (s : State) : Done := ctrlOp s q loopbOp

/-- The first spill position that has no room in the spill region (R107, R178). -/
def spillLimit (s : State) : Nat := allocSWD s.cres.alloc - 48

/-- Whether a window above the current frame would leave the spill region (R39, R107). -/
def windowFull (s : State) : Bool := spillLimit s < s.regs.base + s.regs.wb + s.regs.fs

/-- Positions of the window written to their spill slots, from position `p` on (R107). -/
def spillRange (s : State) (p n : Nat) : State :=
  let k := s.core (nodeOf s.w)
  let r := s.regs
  s.setCore (nodeOf s.w)
    { k with scratch := (List.range n).foldl (fun m i =>
        wrBytes m (spillOff s s.w (r.base + p + i)) (leBytes 8 (tget 0 r.s (16 + p + i)).toNat)) k.scratch }

/-- Positions of the window read back from their spill slots (R107, R108). A fill takes no note of stores of the strand that still stand in its queue
(log entry 97). -/
def fillRange (s : State) (p n : Nat) : State :=
  let k := s.core (nodeOf s.w)
  let r := s.regs
  s.setRegs { r with s := (List.range n).foldl (fun m i =>
    tset m (16 + p + i) (rdWord k.scratch (spillOff s s.w (r.base + p + i)))) r.s }

/-- `CALL`'s effect (R107). -/
def callOp (s : State) (b : BitVec 3) : State :=
  let r := s.regs
  if prepNear r b || r.links.length = 16 || windowFull s then takeTrap s trapILL
  else
    let s := spillRange s r.wb r.fs
    endSlot (s.setRegs { r with links := ⟨r.pc + 4, r.fs⟩ :: r.links, wb := r.wb + r.fs }) (r.target b)

/-- `CALL` (R107, R159). -/
def execCall (q : Bool) (b : BitVec 3) (s : State) : Done := ctrlOp s q fun s => callOp s b

/-- `RET`'s effect (R107). -/
def retOp (s : State) : State :=
  let r := s.regs
  match r.links with
  | [] => takeTrap s trapILL
  | l :: ls =>
    let wb := r.wb - l.fs
    let s := s.setRegs { r with links := ls, wb := wb, fs := l.fs }
    endSlot (fillRange s wb l.fs) l.ret

/-- `RET` (R107, R159). -/
def execRet (q : Bool) (s : State) : Done := ctrlOp s q retOp

/-- `ENTER` (R107, R159). -/
def execEnter (q : Bool) (f : BitVec 6) (s : State) : Done :=
  .next (
    if squashed s q then endSlot s (s.regs.pc + 4)
    else if 12 < f.toNat then takeTrap s trapILL
    else endSlot (s.setRegs { s.regs with fs := 4 * f.toNat }) (s.regs.pc + 4))

/-- `TRAP` (R160): `EPC` is the word after it. -/
def execTrap (q : Bool) (c : BitVec 12) (s : State) : Done :=
  ctrlOp s q fun s => takeTrapAt s (trapSOFT c.toNat) (s.regs.pc + 4)

/-- Whether `RTE` finds the stacks and the window as handler entry left them (R401). -/
def rteLevel (s : State) : Bool :=
  let c := s.cctx
  let r := s.regs
  r.loops.length = c.hLoops && r.links.length = c.hLinks && r.wb = c.hWb && r.fs = c.hFs

/-- `RTE`'s effect (R160, R401). A frame's body is not the handler's own stream, and traps (log entry 44). -/
def rteOp (s : State) : State :=
  if !s.cctx.handler || !s.cthr.stack.isEmpty || qfOf s.cur ≠ 0 || !rteLevel s then takeTrap s trapILL
  else leaveHandler (endSlot s (s.regs.pc + 4)) s.w

/-- `RTE` (R160, R401). -/
def execRte (q : Bool) (s : State) : Done := ctrlOp s q rteOp

end Sys2Proof.Machine
end

