-- ==== Sys2Proof/Machine/Num.lean ====
section
/-! DEFINITION. Number formats and arithmetic (R235 to R254, R452): values exactly, as a sign, a natural number and a power of two,
and the one rounding rule that puts them into a format. -/

namespace Sys2Proof.Machine

/-- A value: a NaN (signalling or not, with its sign), an infinity, or (-1)^neg × m × 2^e. -/
inductive Num where
  | nan (sig neg : Bool)
  | inf (neg : Bool)
  | fin (neg : Bool) (m : Nat) (e : Int)
  deriving DecidableEq, Repr, Inhabited

/-- A quiet NaN. -/
def Num.qnan : Num := .nan false false
/-- A zero of a sign. -/
def Num.zero (neg : Bool) : Num := .fin neg 0 0
/-- An integer's value. -/
def Num.ofInt (i : Int) : Num := .fin (decide (i < 0)) i.natAbs 0

def Num.isNan : Num → Bool | .nan .. => true | _ => false
def Num.isSig : Num → Bool | .nan s _ => s | _ => false
def Num.isInf : Num → Bool | .inf _ => true | _ => false
def Num.isFin : Num → Bool | .fin .. => true | _ => false
def Num.isZero : Num → Bool | .fin _ m _ => m = 0 | _ => false
def Num.sign : Num → Bool | .nan _ n => n | .inf n => n | .fin n _ _ => n
def Num.neg : Num → Num | .nan s n => .nan s (!n) | .inf n => .inf (!n) | .fin n m e => .fin (!n) m e
def Num.abs : Num → Num | .nan s _ => .nan s false | .inf _ => .inf false | .fin _ m e => .fin false m e

/-- `NV` when a value read is a signalling NaN (R241). -/
def sigBits (xs : List Num) : Word := if xs.any Num.isSig then bNV else 0

/-! ## Formats -/

/-- Exponent bits, fraction bits and bias of a floating-point format by its code (R235, R241). -/
def fpShape (fmt : Nat) : Nat × Nat × Nat :=
  match fmt with
  | 0x1 => (8, 23, 127) | 0x4 => (8, 7, 127) | 0x5 => (5, 10, 15) | 0x6 => (4, 3, 7) | 0x7 => (5, 2, 15)
  | 0x8 => (3, 2, 3) | 0x9 => (2, 3, 1) | 0xA => (2, 1, 1) | _ => (15, 23, 16383)

/-- Whether a format is a floating-point one. -/
def isFp (fmt : Nat) : Bool := fmt = 0x1 || (4 ≤ fmt && fmt ≤ 0xA) || fmt = 0xF
/-- Whether a format is an integer one. -/
def isIntFmt (fmt : Nat) : Bool := fmt = 0x2 || fmt = 0x3 || (0xB ≤ fmt && fmt ≤ 0xD)
/-- Whether a floating-point format has infinities (R241). -/
def hasInf (fmt : Nat) : Bool := fmt = 0x1 || fmt = 0x4 || fmt = 0x5 || fmt = 0x7 || fmt = 0xF

/-- Bits of an element (R235). -/
def fmtWidth (fmt : Nat) : Nat :=
  match fmt with
  | 0x4 => 16 | 0x5 => 16 | 0x6 => 8 | 0x7 => 8 | 0x8 => 6 | 0x9 => 6 | 0xA => 4 | 0xB => 8 | 0xC => 8 | 0xD => 4 | 0xE => 8
  | 0xF => 64 | _ => 32

/-- The magnitude code of the largest finite value (R241). -/
def maxCode (fmt : Nat) : Nat :=
  let (eb, f, _) := fpShape fmt
  if hasInf fmt then (2 ^ eb - 1) * 2 ^ f - 1 else if fmt = 0x6 then 0x7E else 2 ^ (eb + f) - 1

/-- The sign bit's place. -/
def signAt (fmt : Nat) : Nat := let (eb, f, _) := fpShape fmt; eb + f

/-- The canonical NaN of a format that has one (R241). -/
def canonNan (fmt : Nat) : Nat :=
  let (eb, f, _) := fpShape fmt
  if fmt = 0x6 then 0x7F else (2 ^ eb - 1) * 2 ^ f + 2 ^ (f - 1)

/-- The infinity of a sign. -/
def infCode (fmt : Nat) (neg : Bool) : Nat :=
  let (eb, f, _) := fpShape fmt
  (2 ^ eb - 1) * 2 ^ f + (if neg then 2 ^ (eb + f) else 0)

/-- The value of a floating-point code (R241). Code 1000 of E2M1 is the block's spare and is read by its block (R243). -/
def readFp (fmt code : Nat) : Num :=
  let (eb, f, bias) := fpShape fmt
  let neg := bitOf code (eb + f)
  let ex := fld code f eb
  let fr := fld code 0 f
  if hasInf fmt && ex = 2 ^ eb - 1 then
    if fr = 0 then .inf neg else .nan (!bitOf fr (f - 1)) neg
  else if fmt = 0x6 && ex = 15 && fr = 7 then .nan false neg
  else if ex = 0 then .fin neg fr (1 - (bias : Int) - f)
  else .fin neg (2 ^ f + fr) ((ex : Int) - bias - f)

/-- The range of an integer format (R244). -/
def intRange (fmt : Nat) : Int × Int :=
  match fmt with
  | 0x2 => (-2147483648, 2147483647) | 0x3 => (0, 4294967295) | 0xB => (-128, 127) | 0xC => (0, 255) | _ => (-8, 7)

/-- The value of an integer code (R244). -/
def readInt (fmt code : Nat) : Int :=
  match fmt with
  | 0x2 => sextNat code 32 | 0x3 => fld code 0 32 | 0xB => sextNat code 8 | 0xC => fld code 0 8 | _ => sextNat code 4

/-- The value of an E8M0 code (R244). -/
def readE8M0 (code : Nat) : Num := if code = 0xFF then .qnan else .fin false 1 ((code : Int) - 127)

/-- The value of a code of any element format, blocks and spares apart. -/
def readElt (fmt code : Nat) : Num :=
  if isIntFmt fmt then .ofInt (readInt fmt code) else if fmt = 0xE then readE8M0 code else readFp fmt code

/-! ## Rounding (R246 to R250) -/

/-- A power of two as a natural number for a non-negative exponent. -/
def pow2 (e : Int) : Nat := 2 ^ e.toNat

/-- The remainder's place: exact, below, at or above half of the unit. -/
inductive Rem where
  | exact | below | half | above
  deriving DecidableEq, Repr

/-- |x| / 2^q as a natural number and a remainder, for |x| = m × 2^e. -/
def splitAt (m : Nat) (e q : Int) : Nat × Rem :=
  if q ≤ e then (m * pow2 (e - q), .exact)
  else
    let d := pow2 (q - e)
    let r := m % d
    (m / d, if r = 0 then .exact else if 2 * r < d then .below else if 2 * r = d then .half else .above)

/-- Whether the magnitude goes up by one unit (R247). -/
def goesUp (mode : Rnd) (neg : Bool) (k : Nat) (r : Rem) : Bool :=
  match r with
  | .exact => false
  | _ =>
    match mode with
    | .rne => r = .above || (r = .half && k % 2 = 1)
    | .rtz => false
    | .rup => !neg
    | .rdn => neg
    | .rna => r = .above || r = .half

/-- The exponent of the leading bit of m × 2^e, for m ≠ 0. -/
def topExp (m : Nat) (e : Int) : Int := (Nat.log2 m : Int) + e

/-- Whether a mode rounds an overflowing value of a sign towards zero (R248). -/
def towardsZero (mode : Rnd) (neg : Bool) : Bool :=
  match mode with
  | .rtz => true
  | .rdn => !neg
  | .rup => neg
  | _ => false

/-- A finite nonzero value rounded into a floating-point format: its code and the bits set. -/
def roundFp (fmt : Nat) (mode : Rnd) (ovf : Bool) (neg : Bool) (m : Nat) (e : Int) : Nat × Word :=
  let (_, f, bias) := fpShape fmt
  let emin : Int := 1 - (bias : Int)
  let e0 := topExp m e
  let ex := max e0 emin
  let (k, r) := splitAt m e (ex - f)
  let k' := if goesUp mode neg k r then k + 1 else k
  let mag := ((ex - emin) * 2 ^ f).toNat + k'
  let s := if neg then 2 ^ signAt fmt else 0
  if maxCode fmt < mag then
    let code := if ovf && hasInf fmt && !towardsZero mode neg then infCode fmt neg else maxCode fmt + s
    (code, bOF ||| bNX)
  else
    let tiny :=
      if emin ≤ e0 then false
      else if e0 < emin - 1 then true
      else
        let (k1, r1) := splitAt m e (e0 - f)
        decide ((if goesUp mode neg k1 r1 then k1 + 1 else k1) < 2 ^ (f + 1))
    let nx := decide (r ≠ .exact)
    let code := if fmt = 0xA && mag = 0 then 0 else mag + s
    (code, (if nx then bNX else 0) ||| (if tiny && nx then bUF else 0))

/-- A finite value rounded to an integer, with its remainder. -/
def roundInt (mode : Rnd) (neg : Bool) (m : Nat) (e : Int) : Int × Bool :=
  let (k, r) := splitAt m e 0
  let k' : Int := if goesUp mode neg k r then k + 1 else k
  (if neg then -k' else k', decide (r ≠ .exact))

/-- An integer clamped into a range, and whether it was outside. -/
def clampInt (lo hi x : Int) : Int × Bool :=
  if x < lo then (lo, true) else if hi < x then (hi, true) else (x, false)

/-- `RoundTo` of R246 to R250: the code and the bits set. A NaN into E2M1 has no code of its own: it is the block's code 1000 (R254). -/
def roundTo (fmt : Nat) (mode : Rnd) (ovf : Bool) (x : Num) : Nat × Word :=
  if isIntFmt fmt then
    let (lo, hi) := intRange fmt
    let w := fmtWidth fmt
    let enc (i : Int) : Nat := (i % (2 ^ w : Int)).toNat
    match x with
    | .nan .. => (0, bNV)
    | .inf neg => (enc (if neg then lo else hi), bNV)
    | .fin neg m e =>
      let (y, nx) := roundInt mode neg m e
      let (z, out) := clampInt lo hi y
      (enc z, if out then bNV else if nx then bNX else 0)
  else
    match x with
    | .nan _ neg =>
      if fmt = 0x8 || fmt = 0x9 then (maxCode fmt + (if neg then 2 ^ signAt fmt else 0), bNANSAT)
      else if fmt = 0xA then (8, 0)
      else (canonNan fmt, 0)
    | .inf neg =>
      if hasInf fmt then (infCode fmt neg, 0) else (maxCode fmt + (if neg then 2 ^ signAt fmt else 0), bNANSAT)
    | .fin neg m e =>
      if m = 0 then ((if neg && fmt ≠ 0xA then 2 ^ signAt fmt else 0), 0)
      else roundFp fmt mode ovf neg m e

/-! ## Exact arithmetic -/

/-- A finite value over 2^e0 as an integer, for e0 at most its exponent. -/
def scaled (neg : Bool) (m : Nat) (e e0 : Int) : Int :=
  let k : Int := m * pow2 (e - e0)
  if neg then -k else k

/-- The least exponent of the finite terms of a sum. -/
def minExp : List Num → Option Int
  | [] => none
  | .fin _ m e :: xs => if m = 0 then minExp xs else
      match minExp xs with
      | none => some e
      | some e' => some (min e e')
  | _ :: xs => minExp xs

/-- The exact sum of finite terms over 2^e0. -/
def sumScaled (e0 : Int) (xs : List Num) : Int :=
  xs.foldl (fun a x => match x with | .fin neg m e => if m = 0 then a else a + scaled neg m e e0 | _ => a) 0

/-- The exact sum of terms, with the sign rules of R135 and R452 for a zero sum and the invalid sum of opposite infinities. -/
def sumNum (mode : Rnd) (xs : List Num) : Num × Word :=
  if xs.any Num.isNan then (.qnan, sigBits xs)
  else
    let pos := xs.any fun x => x == .inf false
    let neg := xs.any fun x => x == .inf true
    if pos && neg then (.qnan, bNV)
    else if pos then (.inf false, 0)
    else if neg then (.inf true, 0)
    else
      match minExp xs with
      | some e0 =>
        let v := sumScaled e0 xs
        if v = 0 then (.zero (decide (mode = .rdn)), 0) else (.fin (decide (v < 0)) v.natAbs e0, 0)
      | none =>
        if xs.all Num.sign && !xs.isEmpty then (.zero true, 0)
        else if xs.all (fun x => !x.sign) then (.zero false, 0)
        else (.zero (decide (mode = .rdn)), 0)

/-- The exact product: 0 × ±Inf is invalid (R136). -/
def mulNum (a b : Num) : Num × Word :=
  if a.isNan || b.isNan then (.qnan, sigBits [a, b])
  else
    let neg := a.sign != b.sign
    match a, b with
    | .fin _ m e, .fin _ m' e' => (.fin neg (m * m') (e + e'), 0)
    | _, _ => if a.isZero || b.isZero then (.qnan, bNV) else (.inf neg, 0)

/-- a × b + c (R139): 0 × ±Inf is invalid whatever c is. -/
def fmaNum (mode : Rnd) (a b c : Num) : Num × Word :=
  let (p, v) := mulNum a b
  let (r, v') := sumNum mode [p, c]
  (r, v ||| v' ||| sigBits [c])

/-- The order of two values that are no NaN: −0 equals +0. -/
def cmpNum (a b : Num) : Ordering :=
  let v (x : Num) : Int := match x with | .inf n => if n then -1 else 1 | _ => 0
  match a, b with
  | .fin n m e, .fin n' m' e' =>
    let e0 := min e e'
    compare (scaled n m e e0) (scaled n' m' e' e0)
  | _, _ => compare (v a) (v b)

/-- minimumNumber and maximumNumber (R137): a NaN operand is missing, −0 orders below +0. -/
def minNum (a b : Num) : Num :=
  if a.isNan then (if b.isNan then .qnan else b)
  else if b.isNan then a
  else match cmpNum a b with
    | .lt => a
    | .gt => b
    | .eq => if a.sign then a else b
def maxNum (a b : Num) : Num :=
  if a.isNan then (if b.isNan then .qnan else b)
  else if b.isNan then a
  else match cmpNum a b with
    | .lt => b
    | .gt => a
    | .eq => if a.sign then b else a

/-! ## FP32 (R135 to R139) -/

/-- The value of an FP32 code. -/
def f32 (x : W32) : Num := readFp 0x1 x.toNat

/-- A value rounded to FP32, overflow to infinity (R135), with the bits of its forming. -/
def toF32 (mode : Rnd) (x : Num × Word) : W32 × Word :=
  let (c, b) := roundTo 0x1 mode true x.1
  (BitVec.ofNat 32 c, x.2 ||| b)

def f32Add (mode : Rnd) (a b : W32) : W32 × Word := toF32 mode (sumNum mode [f32 a, f32 b])
def f32Mul (mode : Rnd) (a b : W32) : W32 × Word := toF32 mode (mulNum (f32 a) (f32 b))
def f32Fma (mode : Rnd) (a b c : W32) : W32 × Word := toF32 mode (fmaNum mode (f32 a) (f32 b) (f32 c))

/-- The code of a value that FP32 holds exactly. -/
def f32Of (x : Num) : W32 := (toF32 .rne (x, 0)).1

/-- `FMIN` and `FMAX` (R137). -/
def f32Min (a b : W32) : W32 × Word := (f32Of (minNum (f32 a) (f32 b)), sigBits [f32 a, f32 b])
def f32Max (a b : W32) : W32 × Word := (f32Of (maxNum (f32 a) (f32 b)), sigBits [f32 a, f32 b])

/-- `FCMP` (R138). -/
def f32Cmp (c : FCond) (a b : W32) : Bool × Word :=
  let x := f32 a
  let y := f32 b
  let nan := x.isNan || y.isNan
  match c with
  | .eq => (!nan && cmpNum x y == .eq, sigBits [x, y])
  | .ne => (nan || cmpNum x y != .eq, sigBits [x, y])
  | .lt => (!nan && cmpNum x y == .lt, if nan then bNV else 0)
  | .ge => (!nan && cmpNum x y != .lt, if nan then bNV else 0)

/-! ## FCVT (R140) -/

/-- The range of an integer kind. -/
def kindRange : FKind → Int × Int
  | .i32 => (-2147483648, 2147483647)
  | .n32 => (0, 4294967295)
  | _ => (-9223372036854775808, 9223372036854775807)

/-- An integer source of a kind. -/
def kindInt (k : FKind) (v : Word) : Int :=
  match k with
  | .i32 => sextNat v.toNat 32
  | .n32 => fld v.toNat 0 32
  | _ => v.toInt

/-- `FCVT` from kind `k` to kind `e` (R140): the word written and the bits set. -/
def fcvtWord (mode : Rnd) (k e : FKind) (v : Word) : Word × Word :=
  match e with
  | .f32 =>
    let (c, b) := roundTo 0x1 mode true (.ofInt (kindInt k v))
    (BitVec.ofNat 64 c, b)
  | _ =>
    let (lo, hi) := kindRange e
    match k with
    | .f32 =>
      match f32 (v.setWidth 32) with
      | .nan .. => (0, bNV)
      | .inf neg => (wordOfInt (if neg then lo else hi), bNV)
      | .fin neg m x =>
        let (y, nx) := roundInt mode neg m x
        let (z, out) := clampInt lo hi y
        (wordOfInt z, if out then bNV else if nx then bNX else 0)
    | _ =>
      let (z, out) := clampInt lo hi (kindInt k v)
      (wordOfInt z, if out then bNV else 0)

end Sys2Proof.Machine
end

