-- ==== Sys2Proof/Machine/Blocks.lean ====
section
/-! DEFINITION. Elements in registers and memory (R235 to R240): tags, counts, packing; block scales and spares and the quantiser
(R243, R251 to R254). -/

namespace Sys2Proof.Machine

/-! ## Tags (R235) -/

/-- The format code of a tag and its block-scaled flag. -/
def tagFmt (t : Nat) : Nat := t % 16
def tagBlk (t : Nat) : Bool := 16 ≤ t

/-- A valid tag without the block-scaled flag that a register may carry. -/
def plainValid (t : Nat) : Bool := t < 10 || (11 ≤ t && t ≤ 14)
/-- A valid block-scaled tag. -/
def blockValid (t : Nat) : Bool := 0x16 ≤ t && t ≤ 0x1B
/-- A valid tag of a register. -/
def regTag (t : Nat) : Bool := plainValid t || blockValid t

/-- Elements of a tag's format in a vector register (R238). -/
def eltCount (t : Nat) : Nat :=
  match fmtWidth (tagFmt t) with | 32 => 64 | 16 => 128 | 8 => 256 | 6 => 320 | _ => 512

/-- Whether a format has 6-bit elements. -/
def sixBit (t : Nat) : Bool := fmtWidth (tagFmt t) = 6

/-! ## Packing (R239) -/

/-- Element i of width w of a bit string. -/
def eltAt (d w i : Nat) : Nat := d / 2 ^ (w * i) % 2 ^ w

/-- The bit string of elements of width w. -/
def packElts (w : Nat) (cs : List Nat) : Nat := cs.foldr (fun c n => c % 2 ^ w + 2 ^ w * n) 0

/-- A bit string with the elements from index `j` on replaced. -/
def putElts (d w j : Nat) (cs : List Nat) : Nat :=
  let lo := 2 ^ (w * j)
  let hi := 2 ^ (w * (j + cs.length))
  d % lo + lo * packElts w cs + hi * (d / hi)

/-- Bytes that n elements of a format take, packed from a byte on. -/
def eltBytes (fmt n : Nat) : Nat := cdiv (n * fmtWidth fmt) 8

/-! ## Block-scaled values (R243, R251) -/

/-- A value multiplied by a power of two. -/
def scaleNum (x : Num) (k : Int) : Num :=
  match x with
  | .fin neg m e => .fin neg m (e + k)
  | x => x

/-- The value of code 1000 of an E2M1 block by its spare byte (R243). -/
def spareVal (spare : Nat) : Num :=
  if spare = 0 then .zero false
  else if spare = 0x7F || spare = 0xFF then .qnan
  else readFp 0x6 spare

/-- The value of a code of a block before its scale. -/
def blockElt (fmt spare code : Nat) : Num :=
  if fmt = 0xA && code = 8 then spareVal spare
  else if fmt = 0xB then scaleNum (.ofInt (readInt 0xB code)) (-6)
  else readFp fmt code

/-- The value of an element of a block (R251): a scale of 0xFF makes every element NaN. -/
def blockVal (fmt scale spare code : Nat) : Num :=
  if scale = 0xFF then .qnan else scaleNum (blockElt fmt spare code) ((scale : Int) - 127)

/-- The value of element i of a register or array whose tag is `t`, data `d` and side-file `sd` (R240). -/
def eltVal (t d sd i : Nat) : Num :=
  let f := tagFmt t
  let c := eltAt d (fmtWidth f) i
  if tagBlk t then blockVal f (eltAt sd 16 (i / 32) % 256) (eltAt sd 16 (i / 32) / 256) c else readElt f c

/-! ## The quantiser (R252 to R254) -/

/-- The exponent of a format's largest normal number (R252). -/
def emaxOf (fmt : Nat) : Int :=
  match fmt with | 0x6 => 8 | 0x7 => 15 | 0x8 => 4 | 0x9 => 2 | 0xA => 2 | _ => 0

/-- The scale code of a block of values (R252). -/
def scaleOf (fmt : Nat) (xs : List Num) : Nat :=
  let tops := xs.filterMap fun x => match x with | .fin _ m e => if m = 0 then none else some (topExp m e) | _ => none
  match tops with
  | [] => 0x7F
  | t :: ts =>
    let top := ts.foldl max t
    (max (-127) (min 127 (top - emaxOf fmt)) + 127).toNat

/-- The magnitude of the difference of two finite values. -/
def distNum (a b : Num) : Num := (sumNum .rne [a, b.neg]).1.abs

/-- A quantised block: its codes, its scale and spare bytes, and the bits each element raised. -/
structure QBlock where
  codes : List Nat
  scale : Nat
  spare : Nat
  bits : List Word
  deriving DecidableEq, Repr

/-- The spare of an E2M1 block and the codes that use it (R253). -/
def pickSpare (ys : List Num) (codes : List Nat) : List Nat × Nat :=
  let errs := (ys.zip codes).map fun p => match p.1 with | .fin .. => some (distNum p.1 (readFp 0xA p.2)) | _ => none
  let big := errs.foldl (fun b e => match b, e with
    | none, e => e
    | some b, some e => if cmpNum b e == .lt then some e else some b
    | some b, none => some b) none
  match big with
  | none => (codes, 0)
  | some b =>
    if b.isZero then (codes, 0)
    else
      let j := (errs.findIdx? fun e => match e with | some e => cmpNum e b == .eq | none => false).getD 0
      let s := (roundTo 0x6 .rne false (ys.getD j .qnan)).1
      let sv := readFp 0x6 s
      let cs := (List.range codes.length).map fun i =>
        match errs.getD i none with
        | some e => if cmpNum (distNum (ys.getD i .qnan) sv) e == .lt then 8 else codes.getD i 0
        | none => codes.getD i 0
      (cs, if s % 128 = 0 then 0 else s)

/-- A block of values quantised into a block-scaled format (R252 to R254); an INT8 element k stands for k / 64 (R251). -/
def quantise (fmt : Nat) (mode : Rnd) (xs : List Num) : QBlock :=
  let scale := scaleOf fmt xs
  let k : Int := (scale : Int) - 127 - (if fmt = 0xB then 6 else 0)
  let ys := xs.map fun x => scaleNum x (-k)
  let rs := ys.map fun y => let r := roundTo fmt mode false y; (r.1, r.2 ||| sigBits [y])
  let codes := rs.map (·.1)
  let bits := rs.map (·.2)
  if fmt ≠ 0xA then ⟨codes, scale, 0, bits⟩
  else if ys.any Num.isNan then ⟨codes, scale, 0xFF, bits⟩
  else
    let (cs, sp) := pickSpare ys codes
    ⟨cs, scale, sp, bits⟩

/-- A conversion of a value into a plain format, a signalling NaN counted (R241, R249). -/
def convNum (fmt : Nat) (mode : Rnd) (ovf : Bool) (x : Num) : Nat × Word :=
  let (c, b) := roundTo fmt mode ovf x
  (c, b ||| sigBits [x])

/-- A rounding-mode code (R53). -/
def rndOf (n : Nat) : Option Rnd :=
  match n with | 0 => some .rne | 1 => some .rtz | 2 => some .rup | 3 => some .rdn | 4 => some .rna | _ => none

end Sys2Proof.Machine
end

