-- ==== Sys2Proof/Machine/Queues.lean ====
section
/-! DEFINITION. The engine FIFOs of a resident (R11, R13, R76 to R79): entries, markers and fences, retirement, and the record and reply
queues (R14, R15). -/

namespace Sys2Proof.Machine

/-- The entry at the head of a FIFO, when it is a job. -/
def Res.head (x : Res) (f : Nat) : Option Job :=
  match x.fifo f with
  | .job j :: _ => some j
  | _ => none

/-- A FIFO's job at the head replaced. -/
def Res.setHead (x : Res) (f : Nat) (j : Job) : Res :=
  match x.fifo f with
  | .job _ :: q => x.setFifo f (.job j :: q)
  | _ => x

/-- The FIFO numbers in a named-queue mask (R54). -/
def queuesOf (m : BitVec 4) : List Nat := [0, 1, 2, 3].filter fun f => m.getLsbD f

/-- Whether a fence's entry stands at the head of every FIFO that still holds it (R78). -/
def fenceReady (x : Res) (id : Nat) : Bool :=
  [0, 1, 2, 3].all fun f => !(x.fifo f).contains (.fence id) || (x.fifo f).head? == some (.fence id)

/-- A marker that has reached the head of FIFO `f` is told to its stream (R79). -/
def markReached (s : State) (t f : Nat) : State :=
  let x := s.thr t
  s.setThr t { x with marks := x.marks.map fun m => m &&& ~~~(BitVec.ofNat 4 (2 ^ f)) }

/-- One marker or finished fence taken from the heads of a resident's FIFOs; none when no head is one. -/
def normOne (s : State) (r : Nat) : Option State :=
  let x := s.res r
  [0, 1, 2, 3].findSome? fun f =>
    match x.fifo f with
    | .marker t :: q => some (markReached (s.setRes r (x.setFifo f q)) t f)
    | .fence id :: _ =>
      if fenceReady x id then
        some (s.setRes r { x with fifos := x.fifos.map fun p => (p.1, if p.2.head? == some (.fence id) then p.2.tail else p.2) })
      else none
    | _ => none

/-- Markers and finished fences taken from the heads, at most `fuel` of them. -/
def normalise (r : Nat) : Nat → State → State
  | 0, s => s
  | fuel + 1, s => match normOne s r with | none => s | some s' => normalise r fuel s'

/-- How many entries the FIFOs of a resident hold. -/
def entryCount (x : Res) : Nat := x.fifos.foldl (fun n p => n + p.2.length) 0

/-- A resident's FIFOs with every marker and fence that has done its work taken away (R78, R79). -/
def settleFifos (s : State) (r : Nat) : State := normalise r (entryCount (s.res r)) s

/-- A context's wait counter lowered by one (R77, R120): 0 loads, 1 stores, 2 copies, 3 tile operations; any other number is none. -/
def lowerCounter (s : State) (w ctr : Nat) : State :=
  let c := s.ctx w
  s.setCtx w (match ctr with
    | 0 => { c with nLoads := less c.nLoads }
    | 1 => { c with nStores := less c.nStores }
    | 2 => { c with nCopies := less c.nCopies }
    | 3 => { c with nTiles := less c.nTiles }
    | _ => c)

/-- A context's wait counter raised by one. -/
def raiseCounter (c : Ctx) (ctr : Nat) : Ctx :=
  match ctr with
  | 0 => { c with nLoads := c.nLoads + 1 }
  | 1 => { c with nStores := c.nStores + 1 }
  | 2 => { c with nCopies := c.nCopies + 1 }
  | 3 => { c with nTiles := c.nTiles + 1 }
  | _ => c

/-- A context's wait counter. -/
def Ctx.counter (c : Ctx) (ctr : Nat) : Nat :=
  match ctr with | 0 => c.nLoads | 1 => c.nStores | 2 => c.nCopies | 3 => c.nTiles | _ => 0

/-- The head job of a FIFO retires (R76, R77): it leaves the FIFO and its counter, and what waited behind it may go on. -/
def retireHead (s : State) (r f : Nat) : State :=
  let x := s.res r
  match x.fifo f with
  | .job j :: q =>
    let s' := s.setRes r { x.setFifo f q with retired := tset x.retired f (tget 0 x.retired f + 1) }
    noteReleasers s (settleFifos (lowerCounter s' (ctxKey r j.strand) j.ctr) r) r (engineAgent r f)
  | _ => s

/-- A held signal's release conditions as some jobs of a FIFO are discarded (R80): it waits for those of the entries ahead of it that are left, and
`retired` counts the discarded ones as well. -/
def sigDiscard (s : State) (r f : Nat) (drop : Job → Bool) (g : HeldSig) : HeldSig :=
  let x := s.res r
  let js := jobsOf (x.fifo f)
  { g with heads := g.heads.map fun h =>
      if h.1 = f then (f, h.2 + ((js.drop (h.2 - tget 0 x.retired f)).filter drop).length) else h }

/-- Queued jobs of a FIFO discarded (those that `drop` holds of), each leaving its counter; a job discarded counts as retired for what
waits behind it. -/
def discardJobs (s : State) (r f : Nat) (drop : Job → Bool) : State :=
  let s := { s with ctxs := tmapIf (fun w => w / 4 = r) (fun _ c => { c with sigs := c.sigs.map (sigDiscard s r f drop) }) s.ctxs }
  let x := s.res r
  let gone := (jobsOf (x.fifo f)).filter drop
  let keep := (x.fifo f).filter fun e => match e with | .job j => !drop j | _ => true
  let s' := s.setRes r { x.setFifo f keep with retired := tset x.retired f (tget 0 x.retired f + gone.length) }
  let s' := gone.foldl (fun s j => lowerCounter s (ctxKey r j.strand) j.ctr) s'
  noteReleasers s (settleFifos s' r) r (engineAgent r f)

/-! Virtual time (R325) -/

/-- One unit of virtual time in the model's grain: weights divide it. -/
def vtUnit : Nat := 360360

/-- The least virtual time among the residents of a core with an entry in their `mq`, other than `k`. -/
def leastVt (s : State) (k : Nat) : Option Nat :=
  ([0, 1, 2, 3].map fun i => k / 4 * 4 + i).foldl (fun m r =>
    let x := s.res r
    if r = k || (jobsOf (x.fifo 0)).isEmpty then m else match m with | none => some x.vt | some v => some (min v x.vt)) none

/-- A resident's virtual time as an entry joins its `mq` (R325). -/
def vtArrive (s : State) (k : Nat) : State :=
  let x := s.res k
  if (jobsOf (x.fifo 0)).isEmpty then
    match leastVt s k with
    | some v => s.setRes k { x with vt := max x.vt v }
    | none => s
  else s

/-- An entry put at the tail of a FIFO; it adds 1 to its context's counter (R120, R174), and one of `mq` brings its resident's virtual time up (R325). -/
def enqueueJob (s : State) (r f : Nat) (j : Job) : State :=
  let s := if f = 0 then vtArrive s r else s
  let x := s.res r
  let s := s.setRes r (x.setFifo f (x.fifo f ++ [.job j]))
  s.setCtx (ctxKey r j.strand) (raiseCounter (s.ctx (ctxKey r j.strand)) j.ctr)

/-- Capacities of the record and reply queues (R11). -/
def evqSize : Nat := 64
def rpqSize : Nat := 32

/-- A record put into `evq` (R15); the caller has seen room for it (R14). -/
def postEvent (s : State) (r : Nat) (rec : BitVec 128) (ag : BitVec 14) : State :=
  let x := s.res r
  noteReleasers s (s.setRes r { x with evq := x.evq ++ [rec] }) r ag

/-- A reply put into `rpq` (R15). -/
def postReply (s : State) (r : Nat) (v : Word) (ag : BitVec 14) : State :=
  let x := s.res r
  noteReleasers s (s.setRes r { x with rpq := x.rpq ++ [v] }) r ag

/-- A signal of a view semaphore of a resident, by its own engines or strands; a name that is not mapped signals nothing. -/
def signalView (s : State) (r view amount : Nat) (ag : BitVec 14) : State :=
  match tget? (s.res r).semMap view with
  | some n => signalSem s (r / 4) n amount ag
  | none => s

end Sys2Proof.Machine
end

