-- ==== Sys2Proof/Machine/Sync.lean ====
section
/-! DEFINITION. Synchronisation instructions (R78 to R80, R120, R161 to R167) and the step that performs a held signal. -/

namespace Sys2Proof.Machine

/-- The view semaphore that a name means in a stream: in a frame the semaphore bound as that operand (R178). -/
def semView : List Frame → Nat → Option Nat
  | [], n => some n
  | f :: _, k =>
    match f.op k with
    | some (.sem n) => some n.toNat
    | _ => none

/-- The physical semaphore that an instruction names (R18, R178, R454). -/
def semOf (s : State) (d : BitVec 5) : Except Trap Nat :=
  match semView s.cthr.stack d.toNat with
  | none => .error trapILL
  | some v =>
    match tget? s.cres.semMap v with
    | some n => .ok n
    | none => .error (trapSYNC v)

/-- The physical mutex that an instruction names (R18, R454). -/
def mtxOf (s : State) (d : BitVec 3) : Except Trap Nat :=
  match tget? s.cres.mtxMap d.toNat with
  | some n => .ok n
  | none => .error (trapSYNC d.toNat)

/-! ## Signals and waits (R80, R161, R162) -/

/-- `SEMSIG` (R161): the increment is held with its release conditions. -/
def execSemsig (q : Bool) (d : BitVec 5) (a : BitVec 6) (m : BitVec 4) (s : State) : Done :=
  .next (
    match semOf s d with
    | .error t => settle s q (.trap t)
    | .ok n =>
      let x := s.cres
      let heads := (queuesOf m).map fun f => (f, tget 0 x.retired f + (jobsOf (x.fifo f)).length)
      let c := s.cctx
      settle (s.setCctx { c with sigs := c.sigs ++ [⟨n, a.toNat, c.memId, heads⟩] }) q (.ok 1 []))

/-- Whether a held signal's release conditions hold (R80). -/
def sigReady (s : State) (w : Nat) (g : HeldSig) : Bool :=
  (s.ctx w).memq.all (fun m => m.isLoad || g.afterMem ≤ m.id)
    && g.heads.all fun h => h.2 ≤ tget 0 (s.res (resKeyOf w)).retired h.1

/-- The first held signal that may be performed: signals of one context to one semaphore go in issue order (R161). -/
def firstSig (s : State) (w : Nat) : List HeldSig → List HeldSig → Option (HeldSig × List HeldSig)
  | _, [] => none
  | before, g :: rest =>
    if sigReady s w g && !before.any (fun h => h.sem = g.sem) then some (g, before.reverse ++ rest)
    else firstSig s w (g :: before) rest

/-- SEMSIG_INCREMENT_PERFORMED (R80, R161): a held increment whose conditions hold is performed. -/
def execSemsigIncrementPerformed (w : Nat) (s : State) : Done :=
  .next (
    match firstSig s w [] (s.ctx w).sigs with
    | none => s
    | some (g, rest) => signalSem (s.setCtx w { s.ctx w with sigs := rest }) (nodeOf w) g.sem g.amount (strandAgent w))

/-- `SEMWAIT` (R162): it takes its amount at once when no waiter is ahead and the count suffices, and joins the queue otherwise. -/
def execSemwait (q : Bool) (d : BitVec 5) (a : BitVec 6) (s : State) : Done :=
  .next (
    if a = 0 then settle s q (.trap trapILL)
    else if s.cthr.granted then settle s q (.ok 1 [])
    else if s.cthr.wait.isSome then s
    else
      match semOf s d with
      | .error t => settle s q (.trap t)
      | .ok n =>
        let k := s.core (nodeOf s.w)
        let x := tget ⟨0, []⟩ k.sems n
        let put (x : Sem) : State := s.setCore (nodeOf s.w) { k with sems := tset k.sems n x }
        if x.queue.isEmpty && a.toNat ≤ x.count.toNat then
          settle (put { x with count := BitVec.ofNat 16 (x.count.toNat - a.toNat) }) q (.ok 1 [])
        else beginWait (put { x with queue := x.queue ++ [(s.cur, a.toNat)] }) s.cur .semwait n)

/-- `MTXACQ` (R163). -/
def execMtxacq (q : Bool) (d : BitVec 3) (s : State) : Done :=
  .next (
    if s.cthr.granted then settle s q (.ok 1 [])
    else if s.cthr.wait.isSome then s
    else
      match mtxOf s d with
      | .error t => settle s q (.trap t)
      | .ok n =>
        let k := s.core (nodeOf s.w)
        let x := tget ⟨none, []⟩ k.mtxs n
        let put (x : Mtx) : State := s.setCore (nodeOf s.w) { k with mtxs := tset k.mtxs n x }
        match x.holder with
        | none => settle (put { x with holder := some s.w }) q (.ok 1 [])
        | some h =>
          if h = s.w then settle s q (.trap (trapSYNC d.toNat))
          else beginWait (put { x with queue := x.queue ++ [s.cur] }) s.cur .mtxacq n)

/-- Whether every store and `AMO` of a context has been performed. -/
def storesDone (c : Ctx) : Bool := c.memq.all MemOp.isLoad

/-- `MTXREL` (R163): the mutex is freed once the context's earlier stores are performed. -/
def execMtxrel (q : Bool) (d : BitVec 3) (s : State) : Done :=
  .next (
    match mtxOf s d with
    | .error t => settle s q (.trap t)
    | .ok n =>
      if (tget ⟨none, []⟩ (s.core (nodeOf s.w)).mtxs n).holder = some s.w then
        if storesDone s.cctx then settle (freeMutex s (nodeOf s.w) n (strandAgent s.w)) q (.ok 1 [])
        else beginWait s s.cur .counter 0
      else settle s q (.trap (trapSYNC d.toNat)))

/-! ## Strands (R164, R165) -/

/-- The strands of the current resident that a mask names. -/
def strandsOf (m : BitVec 4) : List Nat := [0, 1, 2, 3].filter fun k => m.getLsbD k

/-- A strand started by `FORK` (R164): a fresh one at its stream start, a halted one after its `HALT`; one of an empty stream stays as it
is. Its
first issue is in a later cycle, once `ctl`'s stores so far are performed. -/
def startStrand (s : State) (w gate : Nat) : State :=
  let c := s.ctx w
  let s' := s.setCtx w { c with run := .running, gate := some (gate, s.cycle), credit := 0, starve := 0 }
  match c.run with
  | .fresh => s'.setThr (mainOf w) { s'.thr (mainOf w) with regs := { (s'.thr (mainOf w)).regs with pc := c.start } }
  | .halted => s'
  | _ => s

/-- `FORK` (R164). -/
def execFork (q : Bool) (m : BitVec 4) (s : State) : Done :=
  .next (
    if m = 0 || m.getLsbD 0 || strandOf s.w ≠ 0 || qfOf s.cur ≠ 0 then settle s q (.trap trapILL)
    else
      let r := resKeyOf s.w
      if (strandsOf m).any fun k => (s.ctx (ctxKey r k)).run = .running then settle s q (.trap (trapSYNC 0))
      else
        let gate := s.cctx.memId
        settle ((strandsOf m).foldl (fun s k => startStrand s (ctxKey r k) gate) s) q (.ok 1 []))

/-- Whether a strand satisfies an `RDV` of a mask (R165): it does not run, or it stopped at one of the same mask with its accesses performed. -/
def rdvMet (s : State) (m : BitVec 4) (w : Nat) : Bool :=
  let c := s.ctx w
  c.run ≠ .running || (c.rdv = some m && c.memq.isEmpty)

/-- Every strand that waits at an `RDV` of a mask let past it (R165). -/
def rdvRelease (s : State) (r : Nat) (m : BitVec 4) (ag : BitVec 14) : State :=
  (strandsOf m).foldl (fun s k =>
    let w := ctxKey r k
    let c := s.ctx w
    if c.rdv = some m then
      let s := s.setCtx w { c with rdv := none }
      if (s.thr (mainOf w)).wait.isSome then grant s (mainOf w) ag else s
    else s) s

/-- An act of an agent noted on the waits of a kind of some contexts (R427). -/
def noteKind (s : State) (ws : List Nat) (kind : WaitKind) (ag : BitVec 14) : State :=
  ws.foldl (fun s w =>
    match (s.thr (mainOf w)).wait with
    | some x => if x.kind = kind then noteWait s (mainOf w) ag else s
    | none => s) s

/-- The agent that let the current stream past a wait for other strands: the one noted last, or its own arrival. -/
def lastArrival (s : State) : BitVec 14 := match s.cthr.wait with | some x => x.rel | none => strandAgent s.w

/-- The current stream waits for other strands; its own arrival is the last so far. -/
def awaitOthers (s : State) (kind : WaitKind) (flag : Nat) : State :=
  if s.cthr.wait.isSome then s else noteWait (beginWait s s.cur kind flag) s.cur (strandAgent s.w)

/-- `RDV` (R165). -/
def execRdv (q : Bool) (m : BitVec 4) (s : State) : Done :=
  .next (
    if !m.getLsbD (strandOf s.w) then settle s q (.trap trapILL)
    else if s.cthr.granted then settle s q (.ok 1 [])
    else
      let r := resKeyOf s.w
      let s := s.setCctx { s.cctx with rdv := some m }
      let s := if s.cthr.wait.isSome then s else noteKind s ((strandsOf m).map (ctxKey r)) .rdv (strandAgent s.w)
      if (strandsOf m).all fun k => rdvMet s m (ctxKey r k) then settle (rdvRelease s r m (lastArrival s)) q (.ok 1 [])
      else awaitOthers s .rdv m.toNat)

/-! ## Counters, markers, fences (R78, R79, R120) -/

/-- `WAITC` (R120, R166). -/
def execWaitc (q : Bool) (l st c t : BitVec 6) (s : State) : Done :=
  .next (settle s q (if s.cctx.meets (limitsOf l st c t) then .ok 1 [] else .stall .waitc (256 * limitsOf l st c t)))

/-- A marker or a fence put at the tail of the named FIFOs. -/
def placeEntries (x : Res) (m : BitVec 4) (e : Ent) : Res :=
  (queuesOf m).foldl (fun x f => x.setFifo f (x.fifo f ++ [e])) x

/-- `JOIN` (R79): its markers are placed once, and it goes on when every one has reached its head. -/
def execJoin (q : Bool) (m : BitVec 4) (s : State) : Done :=
  .next (
    if m = 0 then settle s q (.trap trapILL)
    else
      let s := match s.cthr.marks with
        | some _ => s
        | none =>
          let s := s.setCthr { s.cthr with marks := some m }
          settleFifos (s.setCres (placeEntries s.cres m (.marker s.cur))) (resKeyOf s.w)
      if s.cthr.marks = some 0 then settle (s.setCthr { s.cthr with marks := none }) q (.ok 1 [])
      else beginWait s s.cur .join m.toNat)

/-- `QFENCE` (R78): one fence in each named FIFO, in one step. -/
def execQfence (q : Bool) (m : BitVec 4) (s : State) : Done :=
  .next (
    if m = 0 then settle s q (.trap trapILL)
    else
      let x := s.cres
      let x := { placeEntries x m (.fence x.fenceId) with fenceId := x.fenceId + 1 }
      settle (settleFifos (s.setCres x) (resKeyOf s.w)) q (.ok 1 []))

/-! ## Barriers (R83, R167) -/

/-- The scope codes of R51. -/
def scopeCode : Scope → Nat | .core => 2 | .quad => 3 | .die => 4 | .pkg => 5 | .pod => 6

/-- The contexts that take part in a `BAR` of context `w` (R167): those of its kind in the residents of its stage within the scope's unit. -/
def barSet (s : State) (w : Nat) (c : Scope) : List Nat :=
  let r := s.res (resKeyOf w)
  match s.launch? r.launch with
  | none => [w]
  | some l =>
    let ps := l.placed.filter fun p => p.stage = r.stage && sameUnit c p.core (nodeOf w)
    let ws := ps.map fun p => ctxKey (4 * p.core + p.res) (strandOf w)
    if r.loaded && ws.contains w then ws else [w]

/-- The barriers of a scope that a context has arrived at. -/
def Ctx.bars (c : Ctx) (sc : Scope) : Nat := tget 0 c.barN (scopeCode sc)

/-- The participants that wait at a `BAR` of a scope. -/
def barWaits (s : State) (w : Nat) (c : Scope) : List Nat := (barSet s w c).filter fun v => (s.ctx v).barIn = some (scopeCode c)

/-- Whether a participant has arrived at the n-th barrier of a scope with its accesses performed: a halted strand counts as arrived (R83, R167). -/
def barMet (s : State) (sc : Scope) (n w : Nat) : Bool :=
  let c := s.ctx w
  if c.run = .halted then c.memq.isEmpty else n ≤ c.bars sc && (c.memq.isEmpty || c.barIn ≠ some (scopeCode sc))

/-- The key under which a launch counts the barriers that a package has reached in a set of strands, by stage and kind (R167). -/
def podKey (pkg stage kind : Nat) : Nat := pkg + 64 * (4 * stage + kind)

/-- Whether the other packages of a pod launch let a strand past its n-th barrier (R167, R422): at the pod root every member has arrived, and at any
other package the root has told it so (log entry 38). -/
def podMet (s : State) (w n : Nat) : Bool :=
  let r := s.res (resKeyOf w)
  let own := Config.packageNumber.toNat
  match s.launch? r.launch with
  | none => true
  | some l =>
    let met (k : Nat) : Bool := n ≤ tget 0 l.podArr (podKey k r.stage (strandOf w))
    if l.podmask = 0 then true
    else if l.root = own then (List.range 64).all fun k => !l.podmask.getLsbD k || k = own || met k
    else met l.root

/-- The contexts stopped at the n-th barrier of a scope let past it. -/
def barRelease (s : State) (sc : Scope) (n : Nat) (ws : List Nat) (ag : BitVec 14) : State :=
  ws.foldl (fun s w =>
    let c := s.ctx w
    if c.barIn = some (scopeCode sc) && c.bars sc = n then
      let s := s.setCtx w { c with barIn := none }
      if (s.thr (mainOf w)).wait.isSome then grant s (mainOf w) ag else s
    else s) s

/-- `BAR` (R83, R167). -/
def execBar (q : Bool) (c : Scope) (s : State) : Done :=
  .next (
    if s.cthr.granted then settle s q (.ok 1 [])
    else
      let x := s.cctx
      let s := if x.barIn.isSome then s
        else s.setCctx { x with barIn := some (scopeCode c), barN := tset x.barN (scopeCode c) (x.bars c + 1) }
      let n := s.cctx.bars c
      let ws := barSet s s.w c
      let s := if s.cthr.wait.isSome then s else noteKind s (barWaits s s.w c) .bar (strandAgent s.w)
      if ws.all (barMet s c n) && (c ≠ .pod || podMet s s.w n) then settle (barRelease s c n ws (lastArrival s)) q (.ok 1 [])
      else awaitOthers s .bar (scopeCode c))

/-- A halt noted on the waits that it bears on (R165, R167, R427): of the strands of the resident that wait for this one at an `RDV`, and of the
participants of its barriers. -/
def noteHalt (s : State) (w : Nat) : State :=
  let r := resKeyOf w
  let met (k : Nat) : Bool := match (s.ctx (ctxKey r k)).rdv with | some m => m.getLsbD (strandOf w) | none => false
  let s := noteKind s (([0, 1, 2, 3].filter met).map (ctxKey r)) .rdv (strandAgent w)
  [Scope.core, .quad, .die, .pkg, .pod].foldl (fun s c => noteKind s (barWaits s w c) .bar (strandAgent w)) s

/-- BAR_POD_ARRIVAL (R167, R422): the strands of a kind in a stage have arrived at their next pod barrier, on another package as its root hears of it,
and on every package as its root tells the others. -/
def execBarPodArrival (l : Nat) (seat : PodSeat) (s : State) : Done :=
  let k := podKey seat.pkg seat.stage seat.kind
  .next (
    match s.launch? l with
    | none => s
    | some x =>
      let ws := (x.placed.filter fun p => p.stage = seat.stage).map fun p => ctxKey (4 * p.core + p.res) seat.kind
      noteKind (s.setLaunch l { x with podArr := tset x.podArr k (tget 0 x.podArr k + 1) }) (ws.filter fun w => (s.ctx w).barIn = some (scopeCode .pod))
        .bar memoryAgent)

/-! ## A wait given up (R402) -/

/-- A stream's wait undone: it leaves the queues it stood in and waits anew when its instruction issues again. -/
def cancelWait (s : State) (t : Nat) : State :=
  let w := ctxOf t
  let k := s.core (nodeOf w)
  let s := s.setCore (nodeOf w)
    { k with sems := k.sems.map fun p => (p.1, { p.2 with queue := p.2.queue.filter fun e => e.1 ≠ t }),
             mtxs := k.mtxs.map fun p => (p.1, { p.2 with queue := p.2.queue.filter (· ≠ t) }) }
  let s := k.sems.foldl (fun s p =>
    if p.2.queue.any fun e => e.1 = t then
      let k := s.core (nodeOf w)
      let x := tget ⟨0, []⟩ k.sems p.1
      let (c, ts, q) := serveSem x.count.toNat x.queue
      let s := s.setCore (nodeOf w) { k with sems := tset k.sems p.1 ⟨BitVec.ofNat 16 c, q⟩ }
      ts.foldl (fun s t => grant s t memoryAgent) s
    else s) s
  let x := s.res (resKeyOf w)
  let s := s.setRes (resKeyOf w) { x with fifos := x.fifos.map fun p => (p.1, p.2.filter (· ≠ .marker t)) }
  let c := s.ctx w
  let c := match c.barIn with
    | some sc => { c with barIn := none, barN := tset c.barN sc (less (tget 0 c.barN sc)) }
    | none => c
  let s := settleFifos (s.setCtx w { c with rdv := none }) (resKeyOf w)
  endWait s t

end Sys2Proof.Machine
end

