-- ==== Sys2Proof/Machine/Routine.lean ====
section
/-! DEFINITION. `RCALL`, routine frames and their end (R62, R118, R174 to R188, R454), and the step that opens a queue frame. -/

namespace Sys2Proof.Machine

/-! ## Operands of a call -/

/-- Operands by operand word: an immediate of two words stands at both (R61, R176). -/
def byWord (ops : List Opnd) : List Opnd :=
  ops.flatMap fun o => match o with | .immw k => [.immw k, .immw k] | o => [o]

/-- Bytes of an `RCALL` with these operands (R48, R60). -/
def callBytes (ops : List Opnd) : Nat := 4 * (1 + (byWord ops).length)

/-- The class of an operand (R61). -/
def opClass : Opnd → Nat
  | .s _ => 0 | .v _ => 1 | .p _ => 2 | .q _ => 3 | .c _ => 4 | .imm _ => 5 | .immw _ => 6 | .sem _ => 7 | .queue _ => 8 | .fmt _ => 9

/-- The place that a `q` or `c` name means: in a frame the descriptor or slot bound as that operand; none, for an operand of another class, traps ILL
(R178; log entry 90). -/
def qName (stack : List Frame) (n : BitVec 4) : Option (BitVec 4) :=
  match stack with
  | [] => some n
  | f :: _ => match f.op n.toNat with | some (.q m) => some m | _ => none
def cName (stack : List Frame) (n : BitVec 5) : Option (BitVec 5) :=
  match stack with
  | [] => some n
  | f :: _ => match f.op n.toNat with | some (.c m) => some m | _ => none

/-- The queue that a class-8 operand means (R178). -/
def queueName (stack : List Frame) (k : QueueOp) : Option QueueOp :=
  match k with
  | .engine n => some (.engine n)
  | .stage i =>
    match stack with
    | [] => some (.stage i)
    | f :: _ => match f.op i.toNat with | some (.queue (.stage j)) => some (.stage j) | _ => none

/-- An operand as the call binds it, its name resolved to its place (R106, R178); none traps ILL. A `queued` call's frame may outlive the frame that
makes the call: a private vector register or predicate of that frame is bound by its value, and a scalar of it takes no result back (log entry 98). The
entry of a squashed one (`sq`) writes no register of its caller (R122). -/
def bindOp (s : State) (queued sq : Bool) (o : Opnd) : Option Bound :=
  let st := s.cthr.stack
  match o with
  | .s n => some (.s (if n = 0 || (queued && (sq || !st.isEmpty)) then 0 else s.regs.skey n.toNat))
  | .v n => (vslotIn st s.regs n.toNat).map fun k => if queued && (sq || 64 ≤ k) then .vval (s.vAt s.cur k) else .v k
  | .p n => (pslotIn st s.regs n.toNat).map fun k => if queued && (sq || 16 ≤ k) then .pval (s.pAt s.cur k) else .p k
  | .q n => (qName st n).map .q
  | .c n => (cName st n).map .c
  | .sem n => (semView st n.toNat).map fun k => .sem (BitVec.ofNat 5 k)
  | .queue k => (queueName st k).map .queue
  | _ => some .val

/-- Every operand bound. -/
def bindOps (s : State) (queued sq : Bool) (ops : List Opnd) : Option (List Bound) := ops.mapM (bindOp s queued sq)

/-- Whether the strand has the register file of a descriptor or slot operand (R12, R62). -/
def hasFile (strand : Nat) (o : Opnd) : Bool :=
  match o with
  | .q _ => strand = 1 || strand = 3
  | .c _ => strand = 1
  | _ => true

/-- The values of the scalar operands at the call's slot (R118), zero at the others. -/
def argsOf (s : State) (ops : List Opnd) : List Word := ops.map fun o => match o with | .s r => s.s r | _ => 0

/-- A captured operand value. -/
def arg (args : List Word) (k : Nat) : Word := args.getD k 0

/-! ## What a definition comes to -/

/-- The outcome of a routine's definition run as a whole (R187). -/
inductive RunOut where
  /-- It ends, with its register results. -/
  | ok (s : State) (effs : List Effect)
  /-- A check fails before anything is performed: `EUPC` 0; `cold` is the `COLD` that its
  reads raised (R236, R259, R304, R380). -/
  | trap (t : Trap) (cold : Word := 0)
  /-- A step traps: the status bits of the steps before it stay, and `EUPC` gives the step (R259). -/
  | step (s : State) (t : Trap) (below : Word) (n : Nat)
  /-- A step meets a launch-fatal fault (R181). -/
  | fatal (cls : Nat) (addr : Word) (n : Nat)
  /-- It has reached a commit point (R180): its accesses so far are in the queues, the status bits raised are `bits`, and it goes on from there with what
  it keeps behind its operand values, the number of commit points passed and `keep`. -/
  | commit (s : State) (bits : Word) (keep : List Word)
  /-- It waits. -/
  | stall (s : State) (k : WaitKind) (flag : Nat)
  /-- Its entry joins a FIFO. -/
  | queue (s : State) (f : Nat) (j : Job)

/-- A routine's definition: from the values of its scalar operands, behind them, after a commit point, the number of those passed and what the routine
keeps (R180), and the state as the caller's stream sees it. -/
abbrev SrlDef := List Word → State → RunOut

/-- A definition that may trap before it performs anything. -/
def orRun (x : Except Trap RunOut) : RunOut := match x with | .ok o => o | .error t => .trap t

/-- The frame of a definition that runs as a whole: its restart state holds the values it goes on with. -/
def natFrame (s : State) (num : Nat) (sq : Bool) (ops : List Opnd) (args : List Word) (commit step : Nat) : Thread :=
  let x := s.cthr
  let r := { Regs.reset with pc := x.regs.pc, s := (List.range args.length).map fun k => (16 + k, args.getD k 0) }
  let f : Frame := { caller := x.regs, num, kind := 1, lat := 1, site := x.regs.pc, sq, dead := squashed s sq, nat := true,
                     ops := ops.map fun _ => .val, dirs := [], vscr := 0, nopw := ops.length, restart := r, commit, step }
  { x with regs := r, stack := f :: x.stack }

/-- Steps counted on the outermost frame of a stream, or a frame of its own opened for the call, so that a fault reports its step
(R180, R181). -/
def markStep (s : State) (num n : Nat) (sq : Bool) (ops : List Opnd) (args : List Word) : State :=
  let x := s.cthr
  match x.stack.getLast? with
  | some f => s.setCthr { x with stack := x.stack.dropLast ++ [{ f with step := f.step + n }] }
  | none => s.setCthr (natFrame s num sq ops args (args.getD ops.length 0).toNat (n - 1))

/-- Results of a call put in flight, and its slot ended. -/
def finishCall (s : State) (q : Bool) (lat len : Nat) (effs : List Effect) : State :=
  let next := s.regs.pc + BitVec.ofNat 64 len
  endSlot (if squashed s q then s else s.setRegs (pushPend s.regs q lat effs)) next

/-- The descriptors and accumulator slots that differ between two states of the current context, told to its outermost frame as what they were (R180). -/
def noteNames (old s : State) : State :=
  let x := s.cthr
  match x.stack.getLast? with
  | none => s
  | some f =>
    let uq := old.cctx.qd.foldl (fun m e => if tget? s.cctx.qd e.1 = some e.2 then m else tnote m e.1 e.2) f.undo.q
    let uq := s.cctx.qd.foldl (fun m e => if (tget? old.cctx.qd e.1).isSome then m else tnote m e.1 0) uq
    let uc := old.cres.slots.foldl (fun m e => if tget? s.cres.slots e.1 = some e.2 then m else tnote m e.1 (some e.2)) f.undo.c
    let uc := s.cres.slots.foldl (fun m e => if (tget? old.cres.slots e.1).isSome then m else tnote m e.1 none) uc
    s.setCthr { x with stack := x.stack.dropLast ++ [{ f with undo := { f.undo with q := uq, c := uc } }] }

/-- In a frame the slots of an inner routine's own text count as steps of the outer frame (R179): of an SRL routine the manual gives no text, and their
number is free. -/
def innerSteps (s : State) : State :=
  let x := s.cthr
  match x.stack.getLast? with
  | none => s
  | some f =>
    let n := (Config.freeValue s.fresh).toNat % 2 ^ 16
    { s.setCthr { x with stack := x.stack.dropLast ++ [{ f with step := f.step + n }] } with fresh := s.fresh + 1 }

/-- A definition at a commit point (R180): a slot ends, and its frame stays open at the call with what it goes on with. -/
def commitCall (s : State) (num : Nat) (q : Bool) (ops : List Opnd) (args : List Word) (bits : Word) (keep : List Word) : State :=
  let n := (args.getD ops.length 0).toNat + 1
  let s := takeSlot (endWait (innerSteps (if squashed s q then s else orStatus s s.w bits)) s.cur)
  let s := s.setCthr (natFrame s num q ops ((List.range ops.length).map (fun k => args.getD k 0) ++ [BitVec.ofNat 64 n] ++ keep) n 0)
  tick s s.cur

/-- A definition run in the caller's stream, and its outcome settled (R118, R120, R122, R174); an entry counts on the counter that the call names. `x` is
the stream as it stands when the call waits. -/
def runDef (s : State) (x : Thread) (num : Nat) (q : Bool) (ctr lat : Nat) (ops : List Opnd) (args : List Word) (run : SrlDef) : State :=
  let len := callBytes ops
  let skip := endSlot s (s.regs.pc + BitVec.ofNat 64 len)
  let wait (s : State) (k : WaitKind) (f : Nat) : State := beginWait (s.setCthr x) s.cur k f
  match run args s with
  | .ok s' effs => finishCall (innerSteps (noteNames s s')) q lat len effs
  | .trap t cold => if squashed s q then skip else takeTrap (orStatus s s.w cold) { t with num }
  | .step s' t below n =>
    if squashed s q then endSlot s' (s.regs.pc + BitVec.ofNat 64 len)
    else takeTrap (markStep (orStatus s' s.w below) num n q (byWord ops) args) { t with num }
  | .fatal c a n => if squashed s q then skip else fatalStrand (markStep s num n q (byWord ops) args) num c a
  | .commit s' bits keep => commitCall s' num q (byWord ops) args bits keep
  | .stall s k f => wait s k f
  | .queue s' f j =>
    if s'.cres.full f then wait s .full (256 * f)
    else if counterMax ≤ s'.cctx.counter ctr then wait s .counter 0
    else finishCall (enqueueJob s' (resKeyOf s.w) f { j with ctr }) q 1 len []

/-! ## Frames of Itver bodies (R177 to R181) -/

/-- The value that operand k binds at s(16 + k) (R178). -/
def bindScalar (dirs : List Nat) (signed : Nat → Bool) (args : List Word) (k : Nat) (o : Opnd) : Word :=
  match o with
  | .s _ => if dirs.getD k 0 = 1 then 0 else arg args k
  | .imm v => if signed k then v.signExtend 64 else v.setWidth 64
  | .immw v => v.signExtend 64
  | .fmt v => v.setWidth 64
  | _ => 0

/-- The values that a call binds at the scalars of its frame, one for each operand word (R178). -/
def boundArgs (r : Routine) (ops : List Opnd) (args : List Word) : List Word :=
  let dirs := r.sigs.map fun b => fld b.toNat 4 2
  let signed := fun k => (r.sigs.getD k 0).getLsbD 6
  (List.range ops.length).map fun k => bindScalar dirs signed args k (ops.getD k (.imm 0))

/-- The registers a frame starts with (R178): operands bound, the rest its own and zero; its window takes the spill positions from `base` on. -/
def bindRegs (base : Nat) (r : Routine) (ops : List Bound) (vals : List Word) : Regs :=
  let s := (List.range vals.length).map fun k => (16 + k, arg vals k)
  let v := (List.range ops.length).filterMap fun k => match ops.getD k .val with | .vval x => some (k, x) | _ => none
  let p := (List.range ops.length).filterMap fun k => match ops.getD k .val with | .pval m => some (k + 1, m) | _ => none
  { Regs.reset with s := s, v := v, p := p, fs := r.nopw + 4 * r.frm, base := base, pc := r.body }

/-- The first spill position above the window of the registers in use (R107, R178). -/
def Regs.above (r : Regs) : Nat := r.base + r.wb + r.fs

/-- A frame opened on the current stream (R177). -/
def openFrame (s : State) (r : Routine) (q : Bool) (ops : List Bound) (vals : List Word) : State :=
  let s := takeSlot (endWait s s.cur)
  let x := s.cthr
  let regs := bindRegs x.regs.above r ops vals
  let f : Frame := { caller := x.regs, num := r.num, kind := r.kind, lat := r.lat, site := x.regs.pc, sq := q, dead := squashed s q,
                     nat := false, ops, dirs := r.sigs.map fun b => fld b.toNat 4 2, vscr := r.vscr, nopw := r.nopw,
                     restart := regs, commit := 0, step := 0 }
  let stack := match x.stack.getLast? with
    | none => []
    | some g => x.stack.dropLast ++ [{ g with step := g.step + 1 }]
  s.setCthr { x with regs := regs, stack := f :: stack }

/-- The routine that a number names in the current context's launch (R62). -/
def routineOf (s : State) (num : Nat) : Option Routine :=
  match s.launch? (launchOf s s.w) with
  | none => none
  | some l => l.routines.find? fun r => r.num = num

/-- The FIFO of a strand's engine, for the entry of a queued routine that a binary defines (R11, R174): `cpy` uses `cq.in`, and the call of one on
`ctl`, which has no engine, traps ILL (log entry 42). -/
def bodyFifo (strand : Nat) : Option Nat :=
  match strand with | 1 => some 0 | 2 => some 1 | 3 => some 3 | _ => none

/-- A job with nothing in it. -/
def Job.blank : Job where
  num := 0
  strand := 0
  site := 0
  word := 0
  sem := 0
  ctr := 0
  args := []
  descs := []
  slot := 0
  tile := none
  fmt := 0
  nest := []
  dscale := DrainSet.one
  dbias := DrainSet.zero
  gathA := none
  gathB := none
  vec := 0
  lanes := []
  evarm := 0
  cursor := 0
  bytes := 0
  started := false
  fin := none
  itver := false
  ops := []
  wbase := 0

/-- A job of the current strand's call. -/
def newJob (s : State) (num ctr : Nat) : Job := { Job.blank with num, strand := strandOf s.w, site := s.regs.pc, ctr }

/-- A call of a routine whose Itver body runs (R177): a frame, or an entry of the strand's FIFO. The window of a queue frame takes the positions above
the caller's at the call, and is checked there (log entry 98). -/
def callBody (s : State) (r : Routine) (q : Bool) (ctr : Nat) (ops : List Opnd) (args : List Word) : State :=
  let len := callBytes ops
  let ill := settleLen s q len (.trap { trapILL with num := r.num })
  let vals := boundArgs r (byWord ops) args
  match bindOps s (r.kind = 2) (squashed s q) (byWord ops) with
  | none => ill
  | some rs =>
    if windowFull s then ill
    else if r.kind = 2 then
      match bodyFifo (strandOf s.w) with
      | none => ill
      | some f =>
        let j := { newJob s r.num ctr with args := vals, itver := true, ops := rs, wbase := s.regs.above }
        runDef s s.cthr r.num q ctr 1 ops args fun _ s => .queue s f j
    else openFrame s r q rs vals

/-- Whether a call of a routine passes check 3 of R62 on the current strand; `sig` is the signature's part of it. -/
def callAllowed (s : State) (r : Routine) (async : Bool) (ctr : Nat) (sig : Bool) : Bool :=
  sig && (async = decide (r.kind = 2)) && (r.kind = 2 || ctr = 0) && r.smask.getLsbD (strandOf s.w)
    && (r.kind = 2 || s.cthr.stack.length < 2)

/-- The frame of a definition that goes on from a commit point, or that a return from its handler reopened (R180, R181). -/
def reopened (s : State) (num : Nat) : Option Frame :=
  match s.cthr.stack with
  | f :: _ => if f.nat && f.num = num then some f else none
  | [] => none

/-- The mode bits that the signature of an SRL routine's class-9 operand defines (R61, R260, R319, R208, R211): bits 27..9 of the value. -/
def srlModes (num : Nat) : Nat :=
  if num < 0x40 then 0x7E00
  else match num with
    | 0x048 => 0x1E00
    | 0x049 => 0xFFFFE00
    | 0x075 => 0x3E00
    | 0x076 => 0x200
    | _ => 0

/-- The mode bits that a routine of a number defines: an SRL routine's own, by its text where the binary holds one; none for any other (R61, R176). -/
def modesOf (num : Nat) (r : Option Routine) : Nat :=
  match r with
  | some r => match r.srl with | some n => srlModes n | none => 0
  | none => srlModes num

/-- Whether an operand sets no bit of its value that R61 requires to be zero. -/
def modeOk (modes : Nat) (o : Opnd) : Bool :=
  match o with
  | .fmt v => v.toNat / 2 ^ 9 * 2 ^ 9 &&& modes = v.toNat / 2 ^ 9 * 2 ^ 9
  | _ => true

/-- A call: the checks of R62, then the definition `run` where the routine's text is the one whose definition that is, else its Itver body.
`lat` is the slot distance of the results: the header latency when inline, 1 otherwise (R118). -/
def callRoutine (s : State) (num : Nat) (q async : Bool) (ctr : Nat) (ops : List Opnd) (sig : Routine → Bool)
    (lat : Routine → Nat) (run : Routine → Option SrlDef) : State :=
  let len := callBytes ops
  match reopened s num with
  | some f =>
    match routineOf s num with
    | some r =>
      match run r with
      | some d =>
        let args := f.restart.s.map (·.2)
        runDef (s.setCthr { s.cthr with regs := f.caller, stack := s.cthr.stack.tail }) s.cthr num q ctr (lat r) ops args d
      | none => settleLen s q len (.trap { trapILL with num })
    | none => settleLen s q len (.trap { trapRNOTDEF num with num })
  | none =>
    if !(ops.all (hasFile (strandOf s.w))) || !(ops.all (modeOk (modesOf num (routineOf s num)))) then settleLen s q len (.trap { trapILL with num })
    else
      match routineOf s num with
      | none => settleLen s q len (.trap { trapRNOTDEF num with num })
      | some r =>
        if !callAllowed s r async ctr (sig r) then settleLen s q len (.trap { trapILL with num })
        else
          let args := argsOf s (byWord ops)
          match run r with
          | some d => runDef s s.cthr num q ctr (lat r) ops args d
          | none => callBody s r q ctr ops args

/-- A call of an SRL routine by its own instruction: operands and kind are those of its signature (R62, R63). -/
def callSrl (num : Nat) (async : Bool) (ctr lat : Nat) (q : Bool) (ops : List Opnd) (run : SrlDef) (s : State) : Done :=
  .next (callRoutine s num q async ctr ops (fun _ => true) (fun _ => lat) fun r => if r.srl = some num then some run else none)

/-! ## Commit points and the return (R175, R179 to R181) -/

/-- Whether a load or `AMO` result of the frames open at `depth` or deeper is still to come. -/
def frameLoads (s : State) (depth : Nat) : Bool :=
  s.cctx.memq.any fun m => m.thr = s.cur && depth ≤ m.depth && !m.held
    && (match m.kind with | .load d => d != .none | .amo _ _ _ _ _ _ d => d != .none | _ => false)

/-- Whether an access of the current stream is still to be performed: an entry retires with its accesses performed (R76). -/
def frameAccesses (s : State) : Bool := s.cctx.memq.any fun m => m.thr = s.cur

/-- `RCHK` (R175, R180): a commit point of the outermost frame. -/
def execRchk (q : Bool) (s : State) : Done :=
  .next (
    let depth := s.cthr.stack.length
    if depth = 0 then settle s q (.trap trapILL)
    else if frameLoads s depth then settle s q (.stall .rchk 0)
    else
      let s := endSlot (landAll s s.cur) (s.regs.pc + 4)
      match s.cthr.stack with
      | [f] =>
        s.setCthr { s.cthr with stack := [{ f with commit := f.commit + 1, step := 0, restart := s.regs, undo := if f.dead then f.undo else {} }] }
      | _ => s)

/-- The scalar results that a frame returns to its caller (R118, R178): those of direction out and in-out. -/
def scalarResults (f : Frame) (r : Regs) : List Effect :=
  (List.range f.ops.length).flatMap fun k =>
    match f.op k with
    | some (.s key) => if f.dirs.getD k 0 = 0 || key = 0 then [] else [.sreg key (tget 0 r.s (16 + k))]
    | _ => []

/-- The vector registers and predicates of the caller that a frame's body has written, as they stand (R178). -/
def aliasResults (s : State) (f : Frame) : List Effect :=
  (f.undo.v.map fun e => .vreg e.1 (s.vAt s.cur e.1)) ++ f.undo.p.map fun e => .preg e.1 (s.pAt s.cur e.1)

/-- The end of the innermost frame (R118, R177): its caller goes on after the `RCALL`. The results of an inline routine land `LAT` slots after the call, those
in the caller's vector registers and predicates too; a squashed call leaves its caller's registers as they were (R122). -/
def closeFrame (s : State) (f : Frame) : State :=
  let effs := if f.dead then [] else scalarResults f s.regs ++ if f.kind = 0 then aliasResults s f else []
  let s := if f.dead then undoFrame s s.cur f.undo else if f.kind = 0 then undoFrame s s.cur { f.undo with q := [], c := [] } else s
  let x := s.cthr
  let caller := match x.stack with | g :: _ => g.caller | [] => f.caller
  let lat := if f.kind = 0 then f.lat else 1
  endSlot (endWait (s.setCthr { x with regs := pushPend caller f.sq lat effs, stack := x.stack.tail }) s.cur) (f.site + BitVec.ofNat 64 f.len)

/-- The end of a queue frame (R177): its scalar results go to the context, and its entry retires. -/
def endQueueFrame (s : State) (f : Frame) (r : Regs) : State :=
  let w := s.w
  let s := takeSlot s
  let s := (scalarResults f r).foldl (landAtDepth · (mainOf w) 0) s
  let s := s.setThr s.cur Thread.reset
  retireHead s (resKeyOf w) (qfOf s.cur - 1)

/-- `RRET` (R118, R175, R179): once the frame's pending results have landed it ends; a queue frame's accesses are performed before its entry retires (R76). -/
def execRret (q : Bool) (s : State) : Done :=
  .next (
    match s.cthr.stack with
    | [] => settle s q (.trap trapILL)
    | _ :: rest =>
      let last := qfOf s.cur ≠ 0 && rest.isEmpty
      if frameLoads s (rest.length + 1) || (last && frameAccesses s) then settle s q (.stall .rchk 0)
      else
        let s := landAll s s.cur
        match s.cthr.stack with
        | [] => s
        | f :: _ => if last then endQueueFrame s f s.regs else closeFrame s f)

/-- QUEUE_FRAME_OPEN (R177): the entry of a binary's queued routine at the head of its FIFO opens its frame on the issuing context. -/
def execQueueFrameOpen (core res fifo : Nat) (s : State) : Done :=
  let k := 4 * core + res
  .next (
    match (s.res k).head fifo with
    | none => s
    | some j =>
      let w := ctxKey k j.strand
      let t := mainOf w + 1 + fifo
      if !j.itver || j.started then s
      else
        match s.launch? (s.res k).launch with
        | none => s
        | some l =>
          match l.routines.find? fun r => r.num = j.num with
          | none => s
          | some r =>
            let regs := bindRegs j.wbase r j.ops j.args
            let f : Frame := { caller := Regs.reset, num := r.num, kind := 2, lat := 1, site := j.site,
                               sq := false, dead := false, nat := false, ops := j.ops, dirs := r.sigs.map fun b => fld b.toNat 4 2,
                               vscr := r.vscr, nopw := r.nopw, restart := regs, commit := 0, step := 0 }
            let s := s.setRes k ((s.res k).setHead fifo { j with started := true })
            s.setThr t { regs := regs, stack := [f] })

/-- A reserved encoding (R64, R65): ILL, unless it is squashed. -/
def execReservedEncoding (w : W32) (s : State) : Done :=
  .next (settleLen s (squashOf w) (4 * wordCount w) (.trap { trapILL with num := if isCall w then (numOf w).toNat else 0x3FFF }))

end Sys2Proof.Machine
end

