-- ==== Sys2Proof/Machine/VectorCore.lean ====
section
/-! DEFINITION. The core vector instructions on 64 lanes of 32 bits (R149, R151 to R155); `VLD` and `VST` stand with the memory
instructions. -/

namespace Sys2Proof.Machine

/-- Lane i of a vector's data (R149). -/
def lane (v : VReg) (i : Nat) : W32 := v.data.extractLsb' (32 * i) 32

/-- Data bytes from lanes, lane 0 lowest. -/
def ofLanes (xs : List W32) : BitVec 2048 := BitVec.ofNat 2048 (xs.foldr (fun x n => x.toNat + 2 ^ 32 * n) 0)

/-- The lane numbers. -/
def lanes64 : List Nat := List.range 64

/-- A predicate from its lanes. -/
def maskOf (p : Nat → Bool) : Word := BitVec.ofNat 64 (lanes64.foldl (fun n i => if p i then n + 2 ^ i else n) 0)

/-- A register with the tag and zero side-file that a core vector instruction writes (R149). -/
def vec32 (tag : BitVec 5) (xs : List W32) : VReg := ⟨ofLanes xs, 0, tag⟩

/-- A source's tag checked; `op` is its number in `DETAIL` (R399). -/
def needTag (op : Nat) (ok : BitVec 5 → Bool) (v : VReg) : Except Trap Unit :=
  if ok v.tag then .ok () else .error (trapTAG op v.tag.toNat)

/-- Tags that an arithmetic source of a type may carry (R149). -/
def tyTag : VTy → BitVec 5 → Bool
  | .f32, t => t == 1
  | .i32, t => t == 2 || t == 3

/-- The tag of an arithmetic result (R151). -/
def resTag (t : VTy) (a b : VReg) : BitVec 5 :=
  match t with
  | .f32 => 1
  | .i32 => if a.tag == 2 || b.tag == 2 then 2 else 3

/-- The tags of `VLOG` and `VSHF` sources (R151). -/
def plainTag (t : BitVec 5) : Bool := t.toNat < 4

/-- A core vector instruction: ILL without vector registers (R149), `COLD` from its reads, then its own outcome. -/
def vecOp (s : State) (q : Bool) (reads : List (BitVec 6)) (o : Except Trap Out) : Done :=
  .next (if noVectors s then settle s q (.trap trapILL) else settleCold s q (coldBits s reads) (orTrap o))

/-- Lane results of two sources, with the bits raised in any lane. -/
def lanewise (f : W32 → W32 → W32 × Word) (a b : VReg) : List W32 × Word :=
  let rs := lanes64.map fun i => f (lane a i) (lane b i)
  (rs.map (·.1), rs.foldl (fun n r => n ||| r.2) 0)

/-- A vector result with the conditions that its lanes raise: an enabled one traps, and nothing is written (R149); else the destination counts. -/
def raisingVec (s : State) (lat : Nat) (bits : Word) (d : BitVec 6) (v : VReg) : Except Trap Out := do
  let _ ← vslot s d
  match enabledBit s.cctx.status bits with
  | some b => .error (trapARITH b)
  | none => .ok (raising s lat bits (← vdst s lat d v))

/-- An arithmetic instruction of two sources (R151). -/
def arithOp (s : State) (q : Bool) (lat : Nat) (d a b : BitVec 6) (t : VTy) (f : W32 → W32 → W32 × Word) : Done :=
  vecOp s q [a, b] do
    let va ← vsrc s a
    let vb ← vsrc s b
    needTag 0 (tyTag t) va
    needTag 1 (tyTag t) vb
    let (xs, bits) := lanewise f va vb
    raisingVec s lat bits d (vec32 (resTag t va vb) xs)

/-- A bitwise instruction of two sources of plain tags (R151). -/
def bitwiseOp (s : State) (q : Bool) (d a b : BitVec 6) (f : W32 → W32 → W32) : Done :=
  vecOp s q [a, b] do
    let va ← vsrc s a
    let vb ← vsrc s b
    needTag 0 plainTag va
    needTag 1 plainTag vb
    .ok (.ok 2 (← vdst s 2 d (vec32 va.tag (lanes64.map fun i => f (lane va i) (lane vb i)))))

/-- `VADD` (R151). -/
def execVadd (q : Bool) (d a b : BitVec 6) (t : VTy) (s : State) : Done :=
  arithOp s q 2 d a b t (match t with | .f32 => f32Add .rne | .i32 => fun x y => (x + y, 0))

/-- `VMUL` (R151). -/
def execVmul (q : Bool) (d a b : BitVec 6) (t : VTy) (s : State) : Done :=
  arithOp s q 4 d a b t (match t with | .f32 => f32Mul .rne | .i32 => fun x y => (x * y, 0))

/-- `VLOG` (R151). -/
def execVlog (q : Bool) (d a b : BitVec 6) (v : VLogOp) (s : State) : Done :=
  bitwiseOp s q d a b fun x y => match v with | .and => x &&& y | .or => x ||| y | .xor => x ^^^ y | .andn => x &&& ~~~y

/-- `VSHF` (R151). -/
def execVshf (q : Bool) (d a b : BitVec 6) (v : VShfOp) (s : State) : Done :=
  bitwiseOp s q d a b fun x y =>
    let n := y.toNat % 32
    match v with | .shl => x <<< n | .shr => x >>> n | .sra => x.sshiftRight n

/-- `VFMA` (R151). -/
def execVfma (q : Bool) (d a b : BitVec 6) (s : State) : Done :=
  vecOp s q [a, b, d] do
    let va ← vsrc s a
    let vb ← vsrc s b
    let vd ← vsrc s d
    needTag 0 (tyTag .f32) va
    needTag 1 (tyTag .f32) vb
    needTag 2 (tyTag .f32) vd
    let rs := lanes64.map fun i => f32Fma .rne (lane va i) (lane vb i) (lane vd i)
    raisingVec s 4 (rs.foldl (fun n r => n ||| r.2) 0) d (vec32 1 (rs.map (·.1)))

/-- The scalar floating-point condition behind a condition code (R152); the unsigned codes have none (R64). -/
def fcondOf : Cond → FCond
  | .eq => .eq | .ne => .ne | .lt => .lt | _ => .ge

/-- One lane of `VCMP` (R152). -/
def vcmpLane (t : VTy) (c : Cond) (x y : W32) : Bool × Word :=
  match t with
  | .f32 => f32Cmp (fcondOf c) x y
  | .i32 => (condHolds c x y, 0)

/-- `VCMP` (R152). -/
def execVcmp (q : Bool) (d : BitVec 4) (a b : BitVec 6) (t : VTy) (c : Cond) (s : State) : Done :=
  vecOp s q [a, b] do
    let va ← vsrc s a
    let vb ← vsrc s b
    needTag 0 (tyTag t) va
    needTag 1 (tyTag t) vb
    let k ← pslot s d
    let rs := lanes64.map fun i => vcmpLane t c (lane va i) (lane vb i)
    .ok (raising s 2 (rs.foldl (fun n r => n ||| r.2) 0) (toP k (maskOf fun i => (rs.getD i (false, 0)).1)))

/-- `VSEL` (R153). -/
def execVsel (q : Bool) (d a b : BitVec 6) (p : BitVec 4) (s : State) : Done :=
  vecOp s q [a, b] do
    let va ← vsrc s a
    let vb ← vsrc s b
    let m ← psrc s p
    needTag 0 (fun t => plainValid t.toNat) va
    needTag 1 (· == va.tag) vb
    .ok (.ok 2 (← vdst s 2 d (vec32 va.tag (lanes64.map fun i => if m.getLsbD i then lane va i else lane vb i))))

/-- `VPERM` (R153). -/
def execVperm (q : Bool) (d a b : BitVec 6) (s : State) : Done :=
  vecOp s q [a, b] do
    let va ← vsrc s a
    let vb ← vsrc s b
    needTag 0 (fun t => plainValid t.toNat) va
    needTag 1 (tyTag .i32) vb
    .ok (.ok 3 (← vdst s 3 d (vec32 va.tag (lanes64.map fun i => lane va ((lane vb i).toNat % 64)))))

/-- `VSPLAT` (R154). -/
def execVsplat (q : Bool) (d a : BitVec 6) (t : CoreTag) (s : State) : Done :=
  vecOp s q [] do
    .ok (.ok 1 (← vdst s 1 d (vec32 (coreTag t) (lanes64.map fun _ => (s.s a).setWidth 32))))

/-- `VEXT` (R154). -/
def execVext (q : Bool) (d a l : BitVec 6) (s : State) : Done :=
  vecOp s q [a] do
    let va ← vsrc s a
    let x := lane va l.toNat
    .ok (.ok 2 (toS s.regs d (if va.tag == 2 then x.signExtend 64 else x.setWidth 64)))

/-- `VANY` (R155). -/
def execVany (q : Bool) (d a : BitVec 4) (s : State) : Done :=
  vecOp s q [] do
    let m ← psrc s a
    .ok (.ok 2 (toP (← pslot s d) (boolMask (m != 0))))

/-- `VALL` (R155). -/
def execVall (q : Bool) (d a : BitVec 4) (s : State) : Done :=
  vecOp s q [] do
    let m ← psrc s a
    .ok (.ok 2 (toP (← pslot s d) (boolMask (m == ones))))

end Sys2Proof.Machine
end

