-- ==== Sys2Proof/Machine/VElem.lean ====
section
/-! DEFINITION. Vector routines 0x000 to 0x01A: conversion, elementwise arithmetic and rearrangement (R258 to R277). -/

namespace Sys2Proof.Machine

/-! ## The fmt operand (R260) -/

def fmtTag (f : BitVec 28) : Nat := fld f.toNat 0 5
def fmtRm (f : BitVec 28) : Nat := fld f.toNat 5 3
def fmtOvf (f : BitVec 28) : Bool := f.getLsbD 8
def fmtArg (f : BitVec 28) : Nat := fld f.toNat 9 6

/-- A fmt operand checked (R259, check 2): TAG among those accepted, ARG in its range, RM and OVF only where the routine gives them a
meaning and OVF only where the target has infinities. -/
def needFmt (f : BitVec 28) (tag : Nat → Bool) (rm ovf : Bool) (arg : Nat → Bool) : Except Trap Rnd :=
  match rndOf (fmtRm f) with
  | none => .error trapILL
  | some m =>
    if fld f.toNat 15 13 = 0 && tag (fmtTag f) && arg (fmtArg f) && (rm || fmtRm f = 0)
        && (!fmtOvf f || (ovf && !tagBlk (fmtTag f) && hasInf (tagFmt (fmtTag f)))) then .ok m
    else .error trapILL

/-- ARG must be zero. -/
def argZero (n : Nat) : Bool := n = 0
/-- ARG holds PART in its low three bits (R260). -/
def argPart (n : Nat) : Bool := n < 8

/-! ## Outcomes -/

/-- A vector routine: ILL without vector registers (R259), its own checks that read no source, then the rest with the `COLD` of its reads. -/
def vdefAt {α : Type} (reads : State → List (BitVec 6)) (pre : Except Trap α) (body : α → State → Except Trap RunOut) : SrlDef := fun _ s =>
  if noVectors s then .trap trapILL
  else
    match pre with
    | .error t => .trap t
    | .ok a =>
      let cold := coldBits s (reads s)
      match body a s with
      | .error t => .trap t cold
      | .ok (.ok s e) => .ok s (e ++ toSticky cold)
      | .ok (.step s t below n) => .step s t (below ||| cold) n
      | .ok o => o

/-- A vector routine whose reads are its operands. -/
def vdef {α : Type} (reads : List (BitVec 6)) (pre : Except Trap α) (body : α → State → Except Trap RunOut) : SrlDef := vdefAt (fun _ => reads) pre body

/-- A source's tag checked where RAW is accepted: a source in a gated or waking cluster fails every tag check (R259). -/
def needWarm (s : State) (n : BitVec 6) (op : Nat) (ok : BitVec 5 → Bool) (v : VReg) : Except Trap Unit :=
  needTag op (fun t => ok t && !coldName s n) v

/-- The first element whose conditions include an enabled one: its place, the condition's bit, and what the elements below it raised. -/
def firstEnabled (status : Word) : List Word → Nat → Word → Option (Nat × Nat × Word)
  | [], _, _ => none
  | b :: bs, i, below =>
    match enabledBit status b with
    | some k => some (i, k, below)
    | none => firstEnabled status bs (i + 1) (below ||| b)

/-- A result formed element by element (R259): the bits of element i stand at place i, the first of them element `i0` of the result. Where an element
traps nothing is written, and the destinations do not count. -/
def eltsOut (s : State) (bits : List Word) (i0 : Nat) (effs : Except Trap (List Effect)) : Except Trap RunOut :=
  match firstEnabled s.cctx.status bits 0 0 with
  | some (i, k, below) => .ok (.step s (trapARITH k) below (i0 + i + 1))
  | none => do .ok (.ok s ((← effs) ++ toSticky (bits.foldl (· ||| ·) 0)))

/-- A plain register from its element codes. -/
def plainReg (tag : Nat) (codes : List Nat) : VReg :=
  ⟨BitVec.ofNat 2048 (packElts (fmtWidth (tagFmt tag)) codes), 0, BitVec.ofNat 5 tag⟩

/-- A plain result formed element by element. -/
def eltResult (s : State) (lat : Nat) (d : BitVec 6) (tag : Nat) (xs : List (Nat × Word)) : Except Trap RunOut := do
  let _ ← vslot s d
  eltsOut s (xs.map (·.2)) 0 (vdst s lat d (plainReg tag (xs.map (·.1))))

/-- A source's element codes and values. -/
def VReg.code (v : VReg) (i : Nat) : Nat := eltAt v.data.toNat (fmtWidth (tagFmt v.tag.toNat)) i
def VReg.val (v : VReg) (i : Nat) : Num := eltVal v.tag.toNat v.data.toNat v.side.toNat i
/-- A source's element count. -/
def VReg.count (v : VReg) : Nat := eltCount v.tag.toNat

/-- A tag that must be a given one. -/
def isTag (n : Nat) (t : BitVec 5) : Bool := t.toNat = n

/-! ## Conversions (R262 to R266) -/

/-- The placement of R262: conversion of element j of the source, PART, target tag. A register part written over v[d] must find the target tag there. -/
def placePart (s : State) (lat : Nat) (d : BitVec 6) (tag part : Nat) (v : VReg) (conv : Nat → Nat × Word) : Except Trap RunOut := do
  let ns := v.count
  let nd := eltCount tag
  let w := fmtWidth (tagFmt tag)
  if nd ≤ ns then
    if cdiv ns nd ≤ part then .error trapILL
    else
      eltResult s lat d tag ((List.range nd).map fun i => let j := part * nd + i; if j < ns then conv j else (0, 0))
  else if cdiv nd ns ≤ part then .error trapILL
  else
    let old ← vsrc s d
    if part ≠ 0 then needTag 0 (isTag tag) old
    let n := min ns (nd - part * ns)
    let xs := (List.range n).map conv
    let base := if part = 0 then 0 else old.data.toNat
    let r : VReg := ⟨BitVec.ofNat 2048 (putElts base w (part * ns) (xs.map (·.1)) % (if sixBit tag then 2 ^ 1920 else 2 ^ 2048)), 0, BitVec.ofNat 5 tag⟩
    eltsOut s (xs.map (·.2)) (part * ns) (vdst s lat d r)

/-- The names a PART reads (R262): v[d] too when PART is not 0 and the target holds more elements than the source. -/
def partReads (d a : BitVec 6) (f : BitVec 28) (s : State) : List (BitVec 6) :=
  match vsrc s a with
  | .ok v => if fmtArg f = 0 || eltCount (fmtTag f) ≤ v.count then [a] else [a, d]
  | .error _ => [a]

/-- Tags that `VCVT` takes from and converts to (R263). -/
def cvtSrc (t : Nat) : Bool := plainValid t && t ≠ 0
def cvtDst (t : Nat) : Bool := cvtSrc t && t ≠ 0xE

/-- `VCVT`'s definition (R263). -/
def vcvtDef (d a : BitVec 6) (f : BitVec 28) : SrlDef :=
  vdefAt (partReads d a f) (needFmt f cvtDst true true argPart) fun m s => do
    let v ← vsrc s a
    needTag 1 (fun t => cvtSrc t.toNat) v
    let tag := fmtTag f
    placePart s 3 d tag (fmtArg f) v fun j =>
      if v.tag.toNat = tag then (v.code j, 0) else convNum tag m (fmtOvf f) (v.val j)

/-- `VCVT`. -/
def execVcvt (q : Bool) (d a : BitVec 6) (f : BitVec 28) (s : State) : Done :=
  callSrl 0x000 false 0 3 q [.v d, .v a, .fmt f] (vcvtDef d a f) s

/-- FP32, BF16 or FP16 (R264, R265, R267). -/
def floatTag (t : Nat) : Bool := t = 1 || t = 4 || t = 5

/-- `VQNT`'s definition (R264): whole blocks of 32, their bytes of the side-file replaced with them. -/
def vqntDef (d a : BitVec 6) (f : BitVec 28) : SrlDef :=
  vdefAt (partReads d a f) (needFmt f blockValid true false argPart) fun m s => do
    let v ← vsrc s a
    needTag 1 (fun t => floatTag t.toNat) v
    let tag := fmtTag f
    let part := fmtArg f
    let ns := v.count
    let nd := eltCount tag
    if cdiv nd ns ≤ part then .error trapILL
    else
      let old ← vsrc s d
      if part ≠ 0 then needTag 0 (isTag tag) old
      let nb := min ns (nd - part * ns) / 32
      let bs := (List.range nb).map fun b => quantise (tagFmt tag) m ((List.range 32).map fun i => v.val (32 * b + i))
      let data := putElts (if part = 0 then 0 else old.data.toNat) (fmtWidth (tagFmt tag)) (part * ns) (bs.flatMap (·.codes))
      let side := putElts (if part = 0 then 0 else old.side.toNat) 16 (part * ns / 32) (bs.map fun b => b.scale + 256 * b.spare)
      let r : VReg := ⟨BitVec.ofNat 2048 (data % (if sixBit tag then 2 ^ 1920 else 2 ^ 2048)), BitVec.ofNat 256 side, BitVec.ofNat 5 tag⟩
      eltsOut s (bs.flatMap (·.bits)) (part * ns) (vdst s 6 d r)

/-- `VQNT`. -/
def execVqnt (q : Bool) (d a : BitVec 6) (f : BitVec 28) (s : State) : Done :=
  callSrl 0x001 false 0 6 q [.v d, .v a, .fmt f] (vqntDef d a f) s

/-- `VDQNT`'s definition (R265). -/
def vdqntDef (d a : BitVec 6) (f : BitVec 28) : SrlDef :=
  vdefAt (partReads d a f) (needFmt f floatTag true true argPart) fun m s => do
    let v ← vsrc s a
    needTag 1 (fun t => blockValid t.toNat) v
    placePart s 3 d (fmtTag f) (fmtArg f) v fun j => convNum (fmtTag f) m (fmtOvf f) (v.val j)

/-- `VDQNT`. -/
def execVdqnt (q : Bool) (d a : BitVec 6) (f : BitVec 28) (s : State) : Done :=
  callSrl 0x002 false 0 3 q [.v d, .v a, .fmt f] (vdqntDef d a f) s

/-! ## Floating-point arithmetic (R267, R268) -/

/-- A source of exactly the tag of the fmt operand. -/
def sameTag (s : State) (pos : Nat) (n : BitVec 6) (f : BitVec 28) : Except Trap VReg := do
  let v ← vsrc s n
  needTag pos (isTag (fmtTag f)) v
  .ok v

/-- A value rounded as an element of the fmt operand's format, with the bits of its forming. -/
def fmtRound (f : BitVec 28) (m : Rnd) (x : Num × Word) : Nat × Word :=
  let (c, b) := roundTo (fmtTag f) m (fmtOvf f) x.1
  (c, x.2 ||| b)

/-- Elementwise arithmetic of two sources (R267). -/
def vf2 (lat : Nat) (rnd : Bool) (d a b : BitVec 6) (f : BitVec 28) (op : Rnd → Num → Num → Num × Word) : SrlDef :=
  vdef [a, b] (needFmt f floatTag rnd rnd argZero) fun m s => do
    let va ← sameTag s 1 a f
    let vb ← sameTag s 2 b f
    eltResult s lat d (fmtTag f) ((List.range va.count).map fun i => fmtRound f m (op m (va.val i) (vb.val i)))

/-- `VFADD`. -/
def execVfadd (q : Bool) (d a b : BitVec 6) (f : BitVec 28) (s : State) : Done :=
  callSrl 0x003 false 0 3 q [.v d, .v a, .v b, .fmt f] (vf2 3 true d a b f fun m x y => sumNum m [x, y]) s

/-- `VFSUB`. -/
def execVfsub (q : Bool) (d a b : BitVec 6) (f : BitVec 28) (s : State) : Done :=
  callSrl 0x004 false 0 3 q [.v d, .v a, .v b, .fmt f] (vf2 3 true d a b f fun m x y => sumNum m [x, y.neg]) s

/-- `VFMUL`. -/
def execVfmul (q : Bool) (d a b : BitVec 6) (f : BitVec 28) (s : State) : Done :=
  callSrl 0x005 false 0 3 q [.v d, .v a, .v b, .fmt f] (vf2 3 true d a b f fun _ x y => mulNum x y) s

/-- `VFFMA`'s definition: it reads its destination. -/
def vffmaDef (d a b : BitVec 6) (f : BitVec 28) : SrlDef :=
  vdef [a, b, d] (needFmt f floatTag true true argZero) fun m s => do
    let vd ← sameTag s 0 d f
    let va ← sameTag s 1 a f
    let vb ← sameTag s 2 b f
    eltResult s 4 d (fmtTag f) ((List.range va.count).map fun i => fmtRound f m (fmaNum m (va.val i) (vb.val i) (vd.val i)))

/-- `VFFMA`. -/
def execVffma (q : Bool) (d a b : BitVec 6) (f : BitVec 28) (s : State) : Done :=
  callSrl 0x006 false 0 4 q [.v d, .v a, .v b, .fmt f] (vffmaDef d a b f) s

/-- `VFMIN`. -/
def execVfmin (q : Bool) (d a b : BitVec 6) (f : BitVec 28) (s : State) : Done :=
  callSrl 0x007 false 0 2 q [.v d, .v a, .v b, .fmt f] (vf2 2 false d a b f fun _ x y => (minNum x y, sigBits [x, y])) s

/-- `VFMAX`. -/
def execVfmax (q : Bool) (d a b : BitVec 6) (f : BitVec 28) (s : State) : Done :=
  callSrl 0x008 false 0 2 q [.v d, .v a, .v b, .fmt f] (vf2 2 false d a b f fun _ x y => (maxNum x y, sigBits [x, y])) s

/-- A change of sign bits that keeps payloads (R267). -/
def signDef (d a : BitVec 6) (f : BitVec 28) (op : Nat → Nat → Nat) : SrlDef :=
  vdef [a] (needFmt f floatTag false false argZero) fun _ s => do
    let va ← sameTag s 1 a f
    let top := 2 ^ signAt (fmtTag f)
    eltResult s 1 d (fmtTag f) ((List.range va.count).map fun i => (op top (va.code i), 0))

/-- `VFABS`. -/
def execVfabs (q : Bool) (d a : BitVec 6) (f : BitVec 28) (s : State) : Done :=
  callSrl 0x009 false 0 1 q [.v d, .v a, .fmt f] (signDef d a f fun top c => c % top) s

/-- `VFNEG`. -/
def execVfneg (q : Bool) (d a : BitVec 6) (f : BitVec 28) (s : State) : Done :=
  callSrl 0x00A false 0 1 q [.v d, .v a, .fmt f] (signDef d a f fun top c => if c < top then c + top else c - top) s

/-- One element of `VCLAMP`. -/
def clampNum (a b c : Num) : Num × Word :=
  (if a.isNan then .qnan else minNum (maxNum a b) c, sigBits [a, b, c])

/-- `VCLAMP`'s definition. -/
def vclampDef (d a b c : BitVec 6) (f : BitVec 28) : SrlDef :=
  vdef [a, b, c] (needFmt f floatTag false false argZero) fun m s => do
    let va ← sameTag s 1 a f
    let vb ← sameTag s 2 b f
    let vc ← sameTag s 3 c f
    eltResult s 2 d (fmtTag f) ((List.range va.count).map fun i => fmtRound f m (clampNum (va.val i) (vb.val i) (vc.val i)))

/-- `VCLAMP`. -/
def execVclamp (q : Bool) (d a b c : BitVec 6) (f : BitVec 28) (s : State) : Done :=
  callSrl 0x00B false 0 2 q [.v d, .v a, .v b, .v c, .fmt f] (vclampDef d a b c f) s

/-! ## Integer arithmetic (R269, R270) -/

/-- INT32, N32, INT8, N8 or INT4. -/
def intTag (t : Nat) : Bool := t = 2 || t = 3 || t = 0xB || t = 0xC || t = 0xD

/-- An integer clamped to a format's range and encoded; a clamp raises `NV` (R269). -/
def satInt (fmt : Nat) (x : Int) : Nat × Word :=
  let (lo, hi) := intRange fmt
  let (y, out) := clampInt lo hi x
  ((y % (2 ^ fmtWidth fmt : Int)).toNat, if out then bNV else 0)

/-- Elementwise integer arithmetic of two sources. -/
def vs2 (lat : Nat) (rnd : Bool) (argOk : Nat → Bool) (d a b : BitVec 6) (f : BitVec 28) (op : Rnd → Int → Int → Int) : SrlDef :=
  vdef [a, b] (needFmt f intTag rnd false argOk) fun m s => do
    let va ← sameTag s 1 a f
    let vb ← sameTag s 2 b f
    let t := fmtTag f
    eltResult s lat d t ((List.range va.count).map fun i => satInt t (op m (readInt t (va.code i)) (readInt t (vb.code i))))

/-- `VSADD`. -/
def execVsadd (q : Bool) (d a b : BitVec 6) (f : BitVec 28) (s : State) : Done :=
  callSrl 0x00C false 0 2 q [.v d, .v a, .v b, .fmt f] (vs2 2 false argZero d a b f fun _ x y => x + y) s

/-- `VSSUB`. -/
def execVssub (q : Bool) (d a b : BitVec 6) (f : BitVec 28) (s : State) : Done :=
  callSrl 0x00D false 0 2 q [.v d, .v a, .v b, .fmt f] (vs2 2 false argZero d a b f fun _ x y => x - y) s

/-- The definition of `VSMUL`. -/
def vsmulDef (d a b : BitVec 6) (f : BitVec 28) : SrlDef :=
  vs2 3 true (· < 32) d a b f fun m x y => (roundInt m (decide (x * y < 0)) (x * y).natAbs (-(fmtArg f : Int))).1

/-- `VSMUL`: the rounding of its shift sets no `NX` (R269). -/
def execVsmul (q : Bool) (d a b : BitVec 6) (f : BitVec 28) (s : State) : Done :=
  callSrl 0x00E false 0 3 q [.v d, .v a, .v b, .fmt f] (vsmulDef d a b f) s

/-- The tag that `VIDOT`'s second source carries (R270): with SB the other 8-bit tag. -/
def otherTag (t : Nat) (sb : Bool) : Nat := if sb then (if t = 0xB then 0xC else 0xB) else t

/-- `VIDOT`'s definition (R270). -/
def vidotDef (d a b : BitVec 6) (f : BitVec 28) : SrlDef :=
  let t := fmtTag f
  let sb := fmtArg f = 1
  vdef [a, b, d] (needFmt f (fun t => 0xB ≤ t && t ≤ 0xD && (t ≠ 0xD || !sb)) false false (· < 2)) fun _ s => do
    let vd ← vsrc s d
    needTag 0 (isTag 2) vd
    let va ← vsrc s a
    needTag 1 (isTag t) va
    let vb ← vsrc s b
    let tb := otherTag t sb
    needTag 2 (isTag tb) vb
    let g := eltCount t / 64
    eltResult s 4 d 2 (lanes64.map fun i =>
      satInt 2 ((List.range g).foldl (fun n j => n + readInt t (va.code (g * i + j)) * readInt tb (vb.code (g * i + j))) (readInt 2 (vd.code i))))

/-- `VIDOT`. -/
def execVidot (q : Bool) (d a b : BitVec 6) (f : BitVec 28) (s : State) : Done :=
  callSrl 0x00F false 0 4 q [.v d, .v a, .v b, .fmt f] (vidotDef d a b f) s

/-- A scale exponent kept in a range beyond which every result is the same (R268). -/
def scaleExp (v : Word) : Int := max (-1000) (min 1000 (sextNat v.toNat 32))

/-- `VSCALE`'s definition (R268). -/
def vscaleDef (d a : BitVec 6) (f : BitVec 28) : SrlDef := fun args =>
  vdef [a] (needFmt f floatTag true true argZero) (fun m s => do
    let va ← sameTag s 1 a f
    let k := scaleExp (arg args 2)
    eltResult s 3 d (fmtTag f) ((List.range va.count).map fun i =>
      fmtRound f m (scaleNum (va.val i) k, sigBits [va.val i]))) args

/-- `VSCALE`. -/
def execVscale (q : Bool) (d a : BitVec 6) (b : BitVec 6) (f : BitVec 28) (s : State) : Done :=
  callSrl 0x010 false 0 3 q [.v d, .v a, .s b, .fmt f] (vscaleDef d a f) s

/-! ## Retagging and rearrangement (R266, R271 to R276) -/

/-- `VTAG`'s definition (R271). -/
def vtagDef (d a : BitVec 6) (f : BitVec 28) : SrlDef :=
  vdef [a] (needFmt f regTag false false argZero) fun _ s => do
    let va ← vsrc s a
    needTag 1 (fun t => regTag t.toNat) va
    let t := fmtTag f
    let data := if sixBit t then BitVec.ofNat 2048 (va.data.toNat % 2 ^ 1920) else va.data
    .ok (.ok s (← vdst s 1 d ⟨data, if tagBlk t && tagBlk va.tag.toNat then va.side else 0, BitVec.ofNat 5 t⟩))

/-- `VTAG`. -/
def execVtag (q : Bool) (d a : BitVec 6) (f : BitVec 28) (s : State) : Done :=
  callSrl 0x011 false 0 1 q [.v d, .v a, .fmt f] (vtagDef d a f) s

/-- A plain tag narrower than 32 bits: `VPACK`'s targets, `VUNPK`'s sources (R266). -/
def narrowTag (t : Nat) : Bool := plainValid t && 4 ≤ t

/-- RAW, INT32 or N32. -/
def wordTag (t : Nat) : Bool := t = 0 || t = 2 || t = 3

/-- `VPACK`'s definition (R266). -/
def vpackDef (d a : BitVec 6) (f : BitVec 28) : SrlDef :=
  vdefAt (partReads d a f) (needFmt f narrowTag false false argPart) fun _ s => do
    let v ← vsrc s a
    needWarm s a 1 (fun t => wordTag t.toNat) v
    placePart s 2 d (fmtTag f) (fmtArg f) v fun j => (v.code j % 2 ^ fmtWidth (fmtTag f), 0)

/-- `VPACK`. -/
def execVpack (q : Bool) (d a : BitVec 6) (f : BitVec 28) (s : State) : Done :=
  callSrl 0x012 false 0 2 q [.v d, .v a, .fmt f] (vpackDef d a f) s

/-- Flags below a limit; bits above are reserved. -/
def needFlags (f : BitVec 28) (limit : Nat) : Except Trap Unit := if f.toNat < limit then .ok () else .error trapILL

/-- `VUNPK`'s definition (R266). -/
def vunpkDef (d a : BitVec 6) (f : BitVec 28) : SrlDef :=
  vdef [a] (needFlags f 16) fun _ s => do
    let v ← vsrc s a
    needTag 1 (fun t => narrowTag t.toNat) v
    let part := fld f.toNat 0 3
    let signed := f.getLsbD 3
    let w := fmtWidth (tagFmt v.tag.toNat)
    if cdiv v.count 64 ≤ part then .error trapILL
    else
      let codes := lanes64.map fun i =>
        let j := part * 64 + i
        if j < v.count then (if signed then (sextNat (v.code j) w % (2 ^ 32 : Int)).toNat else v.code j) else 0
      .ok (.ok s (← vdst s 2 d (plainReg (if signed then 2 else 3) codes)))

/-- `VUNPK`. -/
def execVunpk (q : Bool) (d a : BitVec 6) (f : BitVec 28) (s : State) : Done :=
  callSrl 0x013 false 0 2 q [.v d, .v a, .imm f] (vunpkDef d a f) s

/-- Two sources of one plain tag (R272). -/
def pairDef (d a b : BitVec 6) (f : BitVec 28) (pick : VReg → VReg → Nat → Nat → Nat) : SrlDef :=
  vdef [a, b] (needFlags f 2) fun _ s => do
    let va ← vsrc s a
    let vb ← vsrc s b
    needWarm s a 1 (fun t => plainValid t.toNat) va
    needWarm s b 2 (· == va.tag) vb
    let n := va.count
    let codes := (List.range n).map fun i => pick va vb n i
    .ok (.ok s (← vdst s 2 d (plainReg va.tag.toNat codes)))

/-- The definition of `VZIP`. -/
def vzipDef (d a b : BitVec 6) (f : BitVec 28) : SrlDef :=
  pairDef d a b f fun va vb n i =>
      let j := f.toNat % 2 * (n / 2) + i / 2
      if i % 2 = 0 then va.code j else vb.code j

/-- `VZIP`. -/
def execVzip (q : Bool) (d a b : BitVec 6) (f : BitVec 28) (s : State) : Done :=
  callSrl 0x014 false 0 2 q [.v d, .v a, .v b, .imm f] (vzipDef d a b f) s

/-- The definition of `VUZP`. -/
def vuzpDef (d a b : BitVec 6) (f : BitVec 28) : SrlDef :=
  pairDef d a b f fun va vb n i =>
      if i < n / 2 then va.code (2 * i + f.toNat % 2) else vb.code (2 * (i - n / 2) + f.toNat % 2)

/-- `VUZP`. -/
def execVuzp (q : Bool) (d a b : BitVec 6) (f : BitVec 28) (s : State) : Done :=
  callSrl 0x015 false 0 2 q [.v d, .v a, .v b, .imm f] (vuzpDef d a b f) s

/-- A plain tag of 8, 16 or 32 bits, or RAW (R273). -/
def shufTag (t : Nat) : Bool := plainValid t && (fmtWidth t = 8 || fmtWidth t = 16 || fmtWidth t = 32)

/-- `VSHUF`'s definition (R273). -/
def vshufDef (d a i : BitVec 6) (f : BitVec 28) : SrlDef :=
  vdef [a, i] (needFlags f 2) fun _ s => do
    let va ← vsrc s a
    let vi ← vsrc s i
    needWarm s a 1 (fun t => shufTag t.toNat) va
    needTag 2 (isTag 0xC) vi
    let n := va.count
    let codes := (List.range n).map fun j =>
      let k := vi.code j
      if k < n then va.code k else if f.getLsbD 0 then 0 else va.code (k % n)
    .ok (.ok s (← vdst s 3 d (plainReg va.tag.toNat codes)))

/-- `VSHUF`. -/
def execVshuf (q : Bool) (d a i : BitVec 6) (f : BitVec 28) (s : State) : Done :=
  callSrl 0x016 false 0 3 q [.v d, .v a, .v i, .imm f] (vshufDef d a i f) s

/-- The lanes that a mask selects, rising. -/
def selected (m : Word) : List Nat := lanes64.filter fun i => m.getLsbD i

/-- `VCOMPR`'s definition (R274). -/
def vcomprDef (d c a : BitVec 6) (p : BitVec 4) : SrlDef :=
  vdef [a] (.ok ()) fun _ s => do
    let v ← vsrc s a
    let m ← psrc s p
    needWarm s a 2 plainTag v
    let sel := selected m
    let codes := lanes64.map fun i => match sel[i]? with | some j => v.code j | none => 0
    .ok (.ok s ((← vdst s 3 d (plainReg v.tag.toNat codes)) ++ toS s.regs c (BitVec.ofNat 64 sel.length)))

/-- `VCOMPR`. -/
def execVcompr (q : Bool) (d c a : BitVec 6) (p : BitVec 4) (s : State) : Done :=
  callSrl 0x017 false 0 3 q [.v d, .s c, .v a, .p p] (vcomprDef d c a p) s

/-- `VEXPND`'s definition (R274). -/
def vexpndDef (d a : BitVec 6) (p : BitVec 4) : SrlDef :=
  vdef [a] (.ok ()) fun _ s => do
    let v ← vsrc s a
    let m ← psrc s p
    needWarm s a 1 plainTag v
    let codes := lanes64.map fun i => if m.getLsbD i then v.code ((selected m).filter (· < i)).length else 0
    .ok (.ok s (← vdst s 3 d (plainReg v.tag.toNat codes)))

/-- `VEXPND`. -/
def execVexpnd (q : Bool) (d a : BitVec 6) (p : BitVec 4) (s : State) : Done :=
  callSrl 0x018 false 0 3 q [.v d, .v a, .p p] (vexpndDef d a p) s

/-- One step of `VSCAN`'s accumulator (R275). -/
def scanStep (f : BitVec 28) (m : Rnd) (acc : Option Nat) (x : Nat) : Nat × Word :=
  match acc with
  | none => (x, 0)
  | some a => if fmtTag f = 1 then fmtRound f m (sumNum m [readFp 1 a, readFp 1 x]) else ((a + x) % 2 ^ 32, 0)

/-- The elements of `VSCAN` from accumulator `acc` on. -/
def scanElts (f : BitVec 28) (m : Rnd) : Option Nat → List Nat → List (Nat × Word)
  | _, [] => []
  | acc, x :: xs =>
    let (y, b) := scanStep f m acc x
    ((if fmtArg f = 1 then acc.getD 0 else y), b) :: scanElts f m (some y) xs

/-- `VSCAN`'s definition (R275). -/
def vscanDef (d a : BitVec 6) (f : BitVec 28) : SrlDef :=
  let fp := fmtTag f = 1
  vdef [a] (needFmt f (fun t => 1 ≤ t && t ≤ 3) fp fp (· < 2)) fun m s => do
    let v ← sameTag s 1 a f
    eltResult s 6 d (fmtTag f) (scanElts f m none (lanes64.map v.code))

/-- `VSCAN`. -/
def execVscan (q : Bool) (d a : BitVec 6) (f : BitVec 28) (s : State) : Done :=
  callSrl 0x019 false 0 6 q [.v d, .v a, .fmt f] (vscanDef d a f) s

/-- `VIOTA`'s definition (R276). -/
def viotaDef (d : BitVec 6) : SrlDef := fun args =>
  vdef [] (.ok ()) (fun _ s => do
    let codes := lanes64.map fun i => (arg args 1 + BitVec.ofNat 64 i * arg args 2).toNat % 2 ^ 32
    .ok (.ok s (← vdst s 2 d (plainReg 2 codes)))) args

/-- `VIOTA`. -/
def execViota (q : Bool) (d a b : BitVec 6) (s : State) : Done :=
  callSrl 0x01A false 0 2 q [.v d, .s a, .s b] (viotaDef d) s

end Sys2Proof.Machine
end

