-- ==== Sys2Proof/Machine/Desc.lean ====
section
/-! DEFINITION. Tile descriptors and the matrices they name (R307 to R309, R332): fields, checks, element places and values; what the
engines of a resident touch in its scratchpad (R226, R227). -/

namespace Sys2Proof.Machine

/-! ## Descriptors (R307) -/

/-- The fields of a tile descriptor. -/
structure Desc where
  addr : Nat
  rows : Nat
  cols : Nat
  rstride : Nat
  tag : Nat
  trans : Bool
  sparse : Bool
  scale : Nat
  sphdr : Nat
  deriving DecidableEq, Repr

/-- A descriptor's fields from its 256 bits. -/
def Desc.of (q : BitVec 256) : Desc :=
  let x := q.toNat
  { addr := fld x 0 57, rows := fld x 64 16, cols := fld x 80 16, rstride := fld x 96 32, tag := fld x 128 5, trans := bitOf x 133,
    sparse := bitOf x 134, scale := fld x 135 57, sphdr := fld x 192 57 }

/-- Whether the 256 bits are a descriptor that `MDESC` accepts (R307). -/
def descValid (q : BitVec 256) : Bool :=
  let d := Desc.of q
  fld q.toNat 57 7 = 0 && fld q.toNat 249 7 = 0 && d.rows ≠ 0 && d.cols ≠ 0 && regTag d.tag

/-- Four words as 256 bits. -/
def fourWords (w0 w1 w2 w3 : Word) : BitVec 256 := w3 ++ w2 ++ w1 ++ w0

/-- Bits of an element. -/
def Desc.w (d : Desc) : Nat := fmtWidth (tagFmt d.tag)
/-- Bytes of a block's scale entry (R309). -/
def Desc.bs (d : Desc) : Nat := if tagFmt d.tag = 0xA then 2 else 1
/-- Stored rows and columns (R308). -/
def Desc.srows (d : Desc) : Nat := if d.trans then d.cols else d.rows
def Desc.scols (d : Desc) : Nat := if d.trans then d.rows else d.cols
/-- Bytes from the first to the last of the stored elements (R308). -/
def Desc.span (d : Desc) : Nat := (d.srows - 1) * d.rstride + cdiv (d.scols * d.w) 8
/-- Bytes of the block-scale array (R309); `kcols` says that the contracted dimension is the column dimension. -/
def Desc.scaleSpan (d : Desc) (kcols : Bool) : Nat :=
  if kcols then d.rows * cdiv d.cols 32 * d.bs else d.cols * cdiv d.rows 32 * d.bs

/-- Bytes of a scratchpad. -/
def padBytes : Nat := 2 ^ 19

/-- The scratchpad place that a descriptor's address names (R308): the core of the issuing quad and the offset there. -/
def padLoc (core : Nat) (va : Nat) : Option (Nat × Nat) :=
  let at? (k w off : Nat) : Option (Nat × Nat) := if w = 0 && k / 4 = core / 4 && off < padBytes then some (k, off) else none
  if 2 ^ 56 ≤ va && va < 2 ^ 56 + 2 ^ 40 then at? (fld va 31 9) (fld va 27 4) (fld va 0 27)
  else if 0x0101000000000000 ≤ va && va < 0x0101000000000000 + 2 ^ 31 then at? core (fld va 27 4) (fld va 0 27)
  else none

/-- `n` bytes from an address, all in one scratchpad of the quad. -/
def padRange (core va n : Nat) : Option (Nat × Nat) :=
  match padLoc core va with
  | some (k, off) => if off + n ≤ padBytes then some (k, off) else none
  | none => none

/-- A dense matrix where it lies: its descriptor, its core, the offsets of its first byte and of its scale array, and whether the contracted
dimension is the column dimension. -/
structure Mat where
  d : Desc
  core : Nat
  off : Nat
  soff : Nat
  kcols : Bool
  deriving DecidableEq, Repr

/-- The place of a dense descriptor, checked (R308, R309). -/
def placeMat (core : Nat) (d : Desc) (kcols : Bool) : Option Mat :=
  if d.rows = 0 || d.cols = 0 then none
  else
    match padRange core d.addr d.span with
    | none => none
    | some (k, off) =>
      if !tagBlk d.tag then some ⟨d, k, off, 0, kcols⟩
      else
        match padRange core d.scale (d.scaleSpan kcols) with
        | some (k', so) => if k' = k then some ⟨d, k, off, so, kcols⟩ else none
        | none => none

/-- The places of a sparse descriptor (R308, R332): its packed lines, header and scale array in one scratchpad. -/
def placeSparse (core : Nat) (d : Desc) : Option (Nat × Nat × Nat × Nat) :=
  if d.rows = 0 || d.cols = 0 then none
  else
    match padRange core d.addr 1, padRange core d.sphdr 16 with
    | some (k, off), some (k', h) =>
      if k' ≠ k then none
      else if !tagBlk d.tag then some (k, off, h, 0)
      else match padLoc core d.scale with
        | some (k'', so) => if k'' = k then some (k, off, h, so) else none
        | none => none
    | _, _ => none

/-! ## Elements (R309, R239) -/

/-- The bits of an element that starts at bit `pos` of the string from byte `off`. -/
def bitsAt (m : Memory) (off pos w : Nat) : Nat :=
  let n := (pos % 8 + w + 7) / 8
  rdNat m (off + pos / 8) n / 2 ^ (pos % 8) % 2 ^ w

/-- The bytes, from byte `off + pos / 8` on, that hold an element replaced. -/
def bitsPut (m : Memory) (off pos w code : Nat) : List Byte :=
  let n := (pos % 8 + w + 7) / 8
  let old := rdNat m (off + pos / 8) n
  let lo := 2 ^ (pos % 8)
  leBytes n (old % lo + lo * (code % 2 ^ w) + lo * 2 ^ w * (old / (lo * 2 ^ w)))

/-- The byte offset and bit of matrix element (x, y). -/
def Mat.cell (M : Mat) (x y : Nat) : Nat × Nat :=
  let r := if M.d.trans then y else x
  let c := if M.d.trans then x else y
  (M.off + r * M.d.rstride, c * M.d.w)

/-- The byte offset of the scale of element (x, y) (R309). -/
def Mat.scaleAt (M : Mat) (x y : Nat) : Nat :=
  let kext := if M.kcols then M.d.cols else M.d.rows
  let k := if M.kcols then y else x
  let n := if M.kcols then x else y
  M.soff + (n * cdiv kext 32 + k / 32) * M.d.bs

/-- The value of an element of a tag, with the scale and spare bytes at an offset of a scratchpad (R251). -/
def taggedVal (m : Memory) (tag bs soff code : Nat) : Num :=
  if tagBlk tag then blockVal (tagFmt tag) (rdNat m soff 1) (if bs = 2 then rdNat m (soff + 1) 1 else 0) code
  else readElt (tagFmt tag) code

/-- A matrix element's code and value. -/
def Mat.code (M : Mat) (m : Memory) (x y : Nat) : Nat := let (o, p) := M.cell x y; bitsAt m o p M.d.w
def Mat.val (M : Mat) (m : Memory) (x y : Nat) : Num := taggedVal m M.d.tag M.d.bs (M.scaleAt x y) (M.code m x y)

/-- A matrix element at signed coordinates: +0 outside the matrix (R316). -/
def Mat.valAt (M : Mat) (m : Memory) (x y : Int) : Num :=
  if 0 ≤ x ∧ x < M.d.rows ∧ 0 ≤ y ∧ y < M.d.cols then M.val m x.toNat y.toNat else .zero false

/-- The byte ranges that an element and its scale take. -/
def Mat.bytesOf (M : Mat) (x y : Nat) : List (Nat × Nat) :=
  let (o, p) := M.cell x y
  (o + p / 8, (p % 8 + M.d.w + 7) / 8) :: (if tagBlk M.d.tag then [(M.scaleAt x y, M.d.bs)] else [])

/-! ## The scratchpad of the owning resident (R226, R227) -/

/-- The chunks of 4 KB that some byte ranges meet. -/
def chunksOf (rs : List (Nat × Nat)) : List Nat :=
  rs.foldl (fun cs r => (List.range ((r.1 % 4096 + r.2 + 4095) / 4096)).foldl (fun cs i =>
    let c := r.1 / 4096 + i
    if cs.contains c then cs else cs ++ [c]) cs) []

/-- Whether a chunk of a resident's scratchpad waits for its first-touch fill. -/
def chunkUnfilled (s : State) (ag : Ag) (c : Nat) : Bool :=
  match regionAt (s.res ag.res) (4096 * c) with
  | some (_, e) => !e.filled.contains c
  | none => false

/-- Chunks filled in turn, to the first fault. -/
def fillList (ag : Ag) : List Nat → State → Except (Nat × Word) Unit × State
  | [], s => (.ok (), s)
  | c :: cs, s =>
    if !chunkUnfilled s ag c then fillList ag cs s
    else
      match fillChunk s ag c with
      | (.error f, s) => (.error f, s)
      | (.ok (), s) => fillList ag cs s

/-- The chunks of core `k`'s scratchpad that an engine of a resident touches filled first (R226). -/
def touchPad (s : State) (ag : Ag) (k : Nat) (rs : List (Nat × Nat)) : Except (Nat × Word) Unit × State :=
  if ag.core ≠ some k || (s.res ag.res).regions.isEmpty then (.ok (), s) else fillList ag (chunksOf rs) s

/-- The address of a scratchpad byte in the on-chip map (R19). -/
def padAddr (k off : Nat) : Word := BitVec.ofNat 64 (2 ^ 56 + k * 2 ^ 31 + off)

/-- Bytes that an engine writes into a scratchpad. -/
def padWrite (s : State) (ag : Ag) (k off : Nat) (bs : List Byte) : State :=
  writePlaces s ag ((List.range bs.length).map fun i => .win k 0 (off + i)) bs

/-- A matrix element written. -/
def Mat.put (M : Mat) (s : State) (ag : Ag) (x y code : Nat) : State :=
  let (o, p) := M.cell x y
  padWrite s ag M.core (o + p / 8) (bitsPut (s.core M.core).scratch o p M.d.w code)

/-! ## Descriptor and slot operands (R12, R178) -/

/-- The descriptor that a name means, with its register. -/
def qsrc (s : State) (n : BitVec 4) : Except Trap (Nat × BitVec 256) :=
  match qName s.cthr.stack n with
  | some k => .ok (k.toNat, tget 0 s.cctx.qd k.toNat)
  | none => .error trapILL

/-- The slot that a name means. -/
def cslot (s : State) (n : BitVec 5) : Except Trap Nat :=
  match cName s.cthr.stack n with
  | some k => .ok k.toNat
  | none => .error trapILL

/-- The tile bound to a slot; an unbound slot traps ILL (R304). -/
def ctile (s : State) (n : BitVec 5) : Except Trap (Nat × CSlot) := do
  let k ← cslot s n
  match tget? s.cres.slots k with
  | some t => .ok (k, t)
  | none => .error trapILL

/-- Whether a squash, of the instruction itself or of the call whose frame runs it, drops what it would write into registers (R122). -/
def writesNothing (s : State) (q : Bool) : Bool := squashed s q || s.cthr.stack.any (·.dead)

/-- A write of the registers that a routine sets in its own slot. -/
def setting (s : State) (q : Bool) (f : State → State) : RunOut := .ok (if writesNothing s q then s else f s) []

/-- A check that traps ILL. -/
def needILL (ok : Bool) : Except Trap Unit := if ok then .ok () else .error trapILL
/-- A tag check of an operand. -/
def needTagN (pos tag : Nat) (ok : Bool) : Except Trap Unit := if ok then .ok () else .error (trapTAG pos tag)

/-- The view semaphore of a class-7 operand; a signal that it would be asked for needs it mapped (R454). -/
def semArg (s : State) (n : BitVec 5) (used : Bool) : Except Trap Nat :=
  match semView s.cthr.stack n.toNat with
  | none => .error trapILL
  | some v => if used && (tget? s.cres.semMap v).isNone then .error (trapSYNC v) else .ok v

/-- An outcome of a definition whose checks may trap; it writes no vector register. -/
def plainDef (body : State → Except Trap RunOut) : SrlDef := fun _ s => orRun (body s)

end Sys2Proof.Machine
end

