-- ==== Sys2Proof/Machine/Engine.lean ====
section
/-! DEFINITION. What the entry steps of all three engines share: when a FIFO head may run, how an entry traps (R181, R327, R402) or ends its
launch, and the ways an entry's chargeable units are chosen (R325). -/

namespace Sys2Proof.Machine

/-- Whether the launch of a context runs, so that its engines do (R45). -/
def launchRuns (s : State) (w : Nat) : Bool :=
  match s.launch? (launchOf s w) with
  | some l => l.st = .running
  | none => false

/-- Whether a FIFO holds at its head for a trap that its context has not returned from (R181, R402). -/
def fifoHeld (s : State) (k f : Nat) : Bool :=
  [0, 1, 2, 3].any fun st =>
    let c := s.ctx (ctxKey k st)
    (c.traps.any fun t => t.fifo = f) || c.frameTrap == some f

/-- The job at the head of a FIFO, when its engine may work on it. -/
def engineHead (s : State) (k f : Nat) : Option Job :=
  match (s.res k).head f with
  | some j => if !j.itver && (s.res k).loaded && launchRuns s (ctxKey k j.strand) && !fifoHeld s k f then some j else none
  | none => none

/-- The head job when it is one of a routine. -/
def headOf (s : State) (k f num : Nat) : Option Job := (engineHead s k f).filter fun j => j.num = num

/-- The head job of a FIFO replaced. -/
def setJob (s : State) (k f : Nat) (j : Job) : State := s.setRes k ((s.res k).setHead f j)

/-- The `UPC` of an entry's fault (R180, R181, R327): the commit points it has passed, and the step since, which a natively run entry leaves open but
which counts the current one (log entry 101). -/
def entryUpc (s : State) (commits : Nat) : BitVec 32 × State :=
  (BitVec.ofNat 32 (2 ^ 16 * (commits % 2 ^ 16) + 1 + (Config.freeValue s.fresh).toNat % 65535), { s with fresh := s.fresh + 1 })

/-- A strand trap of an entry (R327, R402): the entry keeps what it has done and reads its header afresh, and its context takes the trap; a tile resident's instruction
completes faulted (R365). -/
def engineTrap (s : State) (k f : Nat) (j : Job) (t : Trap) (done : Nat) : State :=
  let w := ctxKey k j.strand
  let (upc, s) := entryUpc s done
  if runsTile s w then tileFault s w j.num (t.cls + 256 * t.detail) upc t.addr
  else
    let s := setJob s k f { j with cursor := done, started := true, hdr := none }
    let c := s.ctx w
    s.setCtx w { c with traps := c.traps ++ [⟨f, t.cls, t.detail, t.arg, t.core, j.site, upc, t.addr⟩] }

/-- A launch-fatal fault of an entry after a number of its commit points (R181, R403). -/
def engineFatalAt (s : State) (k : Nat) (j : Job) (commits : Nat) (e : Nat × Word) : State :=
  let (upc, s) := entryUpc s commits
  fatalAt s (ctxKey k j.strand) j.num e.1 upc e.2

/-- A launch-fatal fault of an entry whose cursor counts its commit points. -/
def engineFatal (s : State) (k : Nat) (j : Job) (e : Nat × Word) : State := engineFatalAt s k j j.cursor e

/-- Whether a resident's reply queue has room for one reply beyond those on their way (R14). -/
def replyRoom (s : State) (k : Nat) : Bool :=
  let due := ((s.core (k / 4)).tupd.filter fun u => u.res = k && u.reply.isSome).length
  (s.res k).rpq.length + due < rpqSize

/-! ## Virtual time (R325) -/

/-- The charge of an entry put on its resident as it starts (R325). -/
def vtCharge (s : State) (k charge : Nat) : State :=
  let x := s.res k
  s.setRes k { x with vt := x.vt + charge * 16 * vtUnit / max 1 x.weight }

end Sys2Proof.Machine
end

