-- ==== Sys2Proof/Machine/SparseTile.lean ====
section
/-! DEFINITION. Sparse tiles (R332 to R340): header, checks, groups, the depth of a step and the expected cycles. -/

namespace Sys2Proof.Machine

/-- A sparsity header's fields (R333). -/
structure SpHdr where
  magic : Nat
  n : Nat
  m : Nat
  dir : Bool
  tp : Bool
  iw : Nat
  rows : Nat
  cols : Nat
  ecyc : Nat
  resv : Nat
  stamp : Nat
  csum : Nat
  deriving DecidableEq, Repr

/-- A header from its 16 bytes as a number. -/
def SpHdr.of (x : Nat) : SpHdr :=
  { magic := fld x 0 8, n := fld x 8 4, m := fld x 12 5, dir := bitOf x 17, tp := bitOf x 18, iw := fld x 19 3, rows := fld x 22 16,
    cols := fld x 38 16, ecyc := fld x 54 24, resv := fld x 78 18, stamp := fld x 96 16, csum := fld x 112 16 }

/-- A header as a number, its checksum apart. -/
def SpHdr.low (h : SpHdr) : Nat :=
  h.magic + 2 ^ 8 * h.n + 2 ^ 12 * h.m + (if h.dir then 2 ^ 17 else 0) + (if h.tp then 2 ^ 18 else 0) + 2 ^ 19 * h.iw + 2 ^ 22 * h.rows
    + 2 ^ 38 * h.cols + 2 ^ 54 * h.ecyc + 2 ^ 96 * h.stamp

/-- The checksum of a header: the sum of its first 14 bytes (R334). -/
def csumOf (x : Nat) : Nat := (List.range 14).foldl (fun a i => a + fld x (8 * i) 8) 0 % 2 ^ 16

/-- A header's 16 bytes. -/
def SpHdr.bytes (h : SpHdr) : List Byte := leBytes 16 (h.low % 2 ^ 112 + 2 ^ 112 * csumOf h.low)

/-- Whether N and M are valid (R337, check 4). -/
def nmOk (n m : Nat) : Bool := n ≠ 0 && n ≤ m && n ≤ 8 && (m = 2 || m = 4 || m = 8 || m = 16)

/-- Lines, and the length along which groups run (R332). -/
def linesOf (d : Desc) (dir : Bool) : Nat := if dir then d.cols else d.rows
def lengthOf (d : Desc) (dir : Bool) : Nat := if dir then d.rows else d.cols

/-- Bytes of the index array (R335). -/
def indexBytes (lines groups n iw : Nat) : Nat := cdiv (lines * groups * n * (iw + 1)) 8

/-- A sparse tile where it lies: its descriptor and header, the core, and the offsets of values, header and scales. -/
structure SpTile where
  d : Desc
  h : SpHdr
  core : Nat
  off : Nat
  hoff : Nat
  soff : Nat
  deriving DecidableEq, Repr

def SpTile.lines (T : SpTile) : Nat := linesOf T.d T.h.dir
def SpTile.len (T : SpTile) : Nat := lengthOf T.d T.h.dir
def SpTile.groups (T : SpTile) : Nat := T.len / T.h.m

/-- The header checks of R337 before the last, in their order: 0 when all pass, else the cause. -/
def headerFields (x : Nat) (T : SpTile) : Nat :=
  let h := T.h
  let lg := Nat.log2 h.m
  if h.magic ≠ 0xD5 then 1
  else if h.csum ≠ csumOf x then 2
  else if h.resv ≠ 0 then 3
  else if !nmOk h.n h.m then 4
  else if h.iw + 1 < lg || !(h.iw + 1 = lg || h.iw + 1 = 4 || h.iw + 1 = 8) then 5
  else if h.rows ≠ T.d.rows || h.cols ≠ T.d.cols || T.d.trans || T.len % h.m ≠ 0 || (h.tp && T.lines % h.m ≠ 0) then 6
  else 0

/-- Check 7 of R337: whether the index array or a packed line passes the end of the scratchpad. -/
def SpTile.pastEnd (T : SpTile) : Bool :=
  padBytes < T.hoff + 16 + indexBytes T.lines T.groups T.h.n T.h.iw
    || padBytes < T.off + (T.lines - 1) * T.d.rstride + cdiv (T.groups * T.h.n * T.d.w) 8

/-- The header checks of R337 in their order: 0 when all pass, else the cause. -/
def headerCause (x : Nat) (T : SpTile) : Nat :=
  if headerFields x T ≠ 0 then headerFields x T else if T.pastEnd then 7 else 0

/-- The byte that holds the first index of group g of line x (R338). -/
def SpTile.indexAt (T : SpTile) (x g : Nat) : Nat := T.hoff + 16 + (x * T.groups + g) * T.h.n * (T.h.iw + 1) / 8

/-- The offset of the scale of a group (R332). -/
def SpTile.scaleAt (T : SpTile) (x g : Nat) : Nat := T.soff + (x * cdiv T.len 32 + g * T.h.m / 32) * T.d.bs

/-- The slots of a group: index, code and value (R335, R336). -/
def SpTile.slots (T : SpTile) (m : Memory) (x g : Nat) : List (Nat × Nat × Num) :=
  (List.range T.h.n).map fun t =>
    let i := bitsAt m (T.hoff + 16) (((x * T.groups + g) * T.h.n + t) * (T.h.iw + 1)) (T.h.iw + 1)
    let c := bitsAt m (T.off + x * T.d.rstride) ((g * T.h.n + t) * T.d.w) T.d.w
    (i, c, taggedVal m T.d.tag T.d.bs (T.scaleAt x g) c)

/-- The group checks of R337: 0, or the cause. -/
def groupCause (m : Nat) (ss : List (Nat × Nat × Num)) : Nat :=
  if ss.any fun s => m ≤ s.1 then 8
  else
    let nz := (ss.filter fun s => !s.2.2.isZero).map (·.1)
    if nz.eraseDups.length ≠ nz.length then 9 else 0

/-- The value at position p of a group (R336). -/
def groupVal (ss : List (Nat × Nat × Num)) (p : Nat) : Num :=
  match ss.find? fun s => s.1 = p && !s.2.2.isZero with
  | some s => s.2.2
  | none => match ss.find? fun s => s.1 = p with | some s => s.2.2 | none => .zero false

/-- The bytes a group takes (R335). -/
def SpTile.bytesOf (T : SpTile) (x g : Nat) : List (Nat × Nat) :=
  let i0 := (x * T.groups + g) * T.h.n * (T.h.iw + 1)
  let v0 := g * T.h.n * T.d.w
  [(T.hoff + 16 + i0 / 8, (i0 % 8 + T.h.n * (T.h.iw + 1) + 7) / 8),
   (T.off + x * T.d.rstride + v0 / 8, (v0 % 8 + T.h.n * T.d.w + 7) / 8)]
    ++ (if tagBlk T.d.tag then [(T.scaleAt x g, T.d.bs)] else [])

/-- The SPMETA trap of a cause at an offset of the scratchpad that holds a tile's header, with that byte's address (R338, R399). -/
def spmeta (T : SpTile) (cause off : Nat) : Trap :=
  trapSPMETA cause off (T.core % 4) (BitVec.ofNat 64 (T.d.sphdr + off - T.hoff))

/-- The SPMETA trap of a header check, which names the header. -/
def spmetaHdr (T : SpTile) (cause : Nat) : Trap := spmeta T cause T.hoff

/-! ## Depth and cost (R340, R349) -/

/-- The dense depth of a step by A's tag (R24, R315); none is no tag that A may carry. -/
def stepDepth (tag : Nat) : Option Nat :=
  if tag = 4 || tag = 5 then some 24
  else if tag = 6 || tag = 7 || tag = 0x16 || tag = 0x17 || tag = 0xB || tag = 0x1B then some 48
  else if tag = 8 || tag = 9 || tag = 0x18 || tag = 0x19 then some 64
  else if tag = 0x1A || tag = 0xD then some 96
  else none

/-- DK of R340. -/
def sparseDepth (k n m : Nat) : Nat := m * min (k / n) (4 * k / m)

/-- The expected cycles of R349. -/
def expectedCycles (k n m lines len cols : Nat) : Nat :=
  min (2 ^ 24 - 1) (cdiv lines 16 * cdiv len (sparseDepth k n m) * cdiv cols 24)

end Sys2Proof.Machine
end

