-- ==== Sys2Proof/Machine/Matrix.lean ====
section
/-! DEFINITION. The matrix routines as the `mtx` strand issues them (R303 to R324): descriptors, slots, staging registers and the entries
that join `mq`. -/

namespace Sys2Proof.Machine

/-! ## Staging and slots -/

/-- The definition of `MDESC`. -/
def mdescDef (q : Bool) (d : BitVec 4) : SrlDef :=
  fun args s => orRun do
    let (n, _) ← qsrc s d
    let x := fourWords (arg args 1) (arg args 2) (arg args 3) (arg args 4)
    needILL (descValid x)
    .ok (setting s q fun s => s.setCctx { s.cctx with qd := tset s.cctx.qd n x })

/-- `MDESC` (R307). -/
def execMdesc (q : Bool) (d : BitVec 4) (w0 w1 w2 w3 : BitVec 6) (s : State) : Done :=
  callSrl 0x040 false 0 1 q [.q d, .s w0, .s w1, .s w2, .s w3] (mdescDef q d) s

/-- The two signed halves of a stride (R314). -/
def strideOf (x : Nat) : Int × Int := (sextNat (fld x 0 16) 16, sextNat (fld x 16 16) 16)

/-- The definition of `MNEST`. -/
def mnestDef (q : Bool) (lvl : BitVec 28) : SrlDef :=
  fun args s => orRun do
    let n := (arg args 1).toNat
    let x := (arg args 2).toNat
    let y := (arg args 3).toNat
    needILL (lvl.toNat ≤ 5 && n < 2 ^ 16 && y < 2 ^ 32)
    let l : NestLvl := ⟨n, strideOf x, strideOf (fld x 32 32), strideOf y⟩
    .ok (setting s q fun s => s.setCres { s.cres with nest := tset s.cres.nest lvl.toNat l })

/-- `MNEST` (R314). -/
def execMnest (q : Bool) (lvl : BitVec 28) (cnt ab c : BitVec 6) (s : State) : Done :=
  callSrl 0x041 false 0 1 q [.imm lvl, .s cnt, .s ab, .s c] (mnestDef q lvl) s

/-- Bytes of an accumulator element (R311). -/
def accSize (fmt : Nat) : Nat := if fmt = 0xF then 8 else 4

/-- Bytes of an accumulator bank. -/
def bankBytes : Nat := 4096

/-- Whether a bank of a resident's set is bound to no slot. -/
def bankFree (x : Res) (b : Nat) : Bool :=
  x.bank0 ≤ b && b < x.bank0 + x.banks && !(x.slots.any fun e => e.2.bank ≤ b && b < e.2.bank + e.2.nb)

/-- The lowest run of `n` free banks of a resident (R310). -/
def freeRun (x : Res) (n : Nat) : Option Nat :=
  (List.range (33 - n)).find? fun b => (List.range n).all fun i => bankFree x (b + i)

/-- The definition of `ACALLOC`. -/
def acallocDef (q : Bool) (c : BitVec 5) (f : BitVec 28) : SrlDef :=
  fun args s => orRun do
    let k ← cslot s c
    let x := (arg args 1).toNat
    let fmt := fmtTag f
    let nb := fld x 32 6
    needILL (fld f.toNat 9 19 = 0 && (fmt = 1 || fmt = 2 || fmt = 0xF) && !(fmtOvf f && fmt = 2) && x < 2 ^ 38
      && 1 ≤ nb && nb ≤ 32 && fld x 0 16 ≠ 0 && fld x 16 16 ≠ 0 && (tget? s.cres.slots k).isNone)
    match rndOf (fmtRm f), freeRun s.cres nb with
    | some m, some b =>
      let t : CSlot := { bank := b, nb, rows := fld x 0 16, cols := fld x 16 16, fmt, rnd := m, inf := fmtOvf f, bands := [] }
      .ok (setting s q fun s =>
        let s := s.setCres { s.cres with slots := tset s.cres.slots k t }
        let core := s.core (nodeOf s.w)
        s.setCore (nodeOf s.w) { core with tstat := tset core.tstat b ⟨0, 0, 0, BitVec.ofNat 5 b, BitVec.ofNat 6 nb⟩ })
    | _, _ => .error trapILL

/-- `ACALLOC` (R310). -/
def execAcalloc (q : Bool) (c : BitVec 5) (g : BitVec 6) (f : BitVec 28) (s : State) : Done :=
  callSrl 0x043 false 0 1 q [.c c, .s g, .fmt f] (acallocDef q c f) s

/-- Whether an entry of a resident's `mq` names a slot. -/
def slotBusy (x : Res) (k : Nat) : Bool := (jobsOf (x.fifo 0)).any fun j => if j.itver then j.ops.contains (Bound.c (BitVec.ofNat 5 k)) else j.slot = k

/-- A slot unbound and its banks free (R312): its status entry ends, and an update still on its way changes no later tile's. -/
def unbind (s : State) (k : Nat) (t : CSlot) : State :=
  let s := s.setCres { s.cres with slots := terase s.cres.slots k }
  let c := s.core (nodeOf s.w)
  s.setCore (nodeOf s.w) { c with tstat := terase c.tstat t.bank, tupd := c.tupd.map fun u => if u.bank = t.bank then { u with bank := 32 } else u }

/-- The definition of `ACFREE`. -/
def acfreeDef (q : Bool) (c : BitVec 5) : SrlDef :=
  plainDef fun s => do
    let (k, t) ← ctile s c
    if slotBusy s.cres k then .ok (.stall s .blocking 0)
    else .ok (setting s q fun s => unbind s k t)

/-- `ACFREE` (R312). -/
def execAcfree (q : Bool) (c : BitVec 5) (s : State) : Done :=
  callSrl 0x044 false 0 1 q [.c c] (acfreeDef q c) s

/-- The definition of `ACOWN`. -/
def acownDef (q : Bool) (c : BitVec 5) (grp : BitVec 28) : SrlDef :=
  fun args s => orRun do
    let (k, t) ← ctile s c
    let x := (arg args 2).toNat
    let r0 := fld x 0 16
    let n := fld x 16 16
    needILL (n ≠ 0 && r0 + n ≤ t.rows && x < 2 ^ 32 && grp.toNat ≤ 3)
    let t := { t with bands := (List.range n).foldl (fun b i => tset b (r0 + i) grp.toNat) t.bands }
    .ok (setting s q fun s => s.setCres { s.cres with slots := tset s.cres.slots k t })

/-- `ACOWN` (R313). -/
def execAcown (q : Bool) (c : BitVec 5) (grp : BitVec 28) (band : BitVec 6) (s : State) : Done :=
  callSrl 0x045 false 0 1 q [.c c, .imm grp, .s band] (acownDef q c grp) s

/-- The definition of `MCAST`. -/
def mcastDef (q : Bool) (mc : BitVec 28) : SrlDef :=
  plainDef fun s => do
    needILL (mc.toNat < 2 ^ 12)
    .ok (setting s q fun s => s.setCres { s.cres with mcast := mc.setWidth 12 })

/-- `MCAST` (R323). -/
def execMcast (q : Bool) (mc : BitVec 28) (s : State) : Done :=
  callSrl 0x04B false 0 1 q [.imm mc] (mcastDef q mc) s

/-- A staging drain setting checked (R319). -/
def drainSet (core : Nat) (mode : BitVec 28) (v : Word) : Except Trap DrainSet :=
  match mode.toNat with
  | 0 => .ok ⟨0, v &&& 0xFFFFFFFF⟩
  | 1 | 2 =>
    match padLoc core v.toNat with
    | some (k, _) => if k = core && v.toNat % 4 = 0 then .ok ⟨mode.toNat, v⟩ else .error trapILL
    | none => .error trapILL
  | _ => .error trapILL

/-- The definition of `MSCALE`. -/
def mscaleDef (q : Bool) (mode : BitVec 28) : SrlDef :=
  fun args s => orRun do
    let d ← drainSet (nodeOf s.w) mode (arg args 1)
    .ok (setting s q fun s => s.setCres { s.cres with dscale := d })

/-- `MSCALE` (R319). -/
def execMscale (q : Bool) (mode : BitVec 28) (v : BitVec 6) (s : State) : Done :=
  callSrl 0x04C false 0 1 q [.imm mode, .s v] (mscaleDef q mode) s

/-- The definition of `MBIAS`. -/
def mbiasDef (q : Bool) (mode : BitVec 28) : SrlDef :=
  fun args s => orRun do
    let d ← drainSet (nodeOf s.w) mode (arg args 1)
    .ok (setting s q fun s => s.setCres { s.cres with dbias := d })

/-- `MBIAS` (R319). -/
def execMbias (q : Bool) (mode : BitVec 28) (v : BitVec 6) (s : State) : Done :=
  callSrl 0x04D false 0 1 q [.imm mode, .s v] (mbiasDef q mode) s

/-- The definition of `MSTAT`. -/
def mstatDef (q : Bool) (d : BitVec 6) (k : BitVec 28) : SrlDef :=
  plainDef fun s => do
    needILL (k.toNat < 64)
    match tget? s.cres.slots (k.toNat % 32) with
    | none => .ok (.ok s (toS s.regs d 0))
    | some t =>
      let core := s.core (nodeOf s.w)
      let v := tileWord s (nodeOf s.w) t.bank
      let clear (s : State) : State :=
        match tget? core.tstat t.bank with
        | some x => s.setCore (nodeOf s.w) { core with tstat := tset core.tstat t.bank { x with bits := 0 } }
        | none => s
      .ok (.ok (if k.getLsbD 5 && !writesNothing s q then clear s else s) (toS s.regs d v))

/-- `MSTAT` (R322): a slot of the resident's `mtx` context, read and with CLR cleared in the same slot. -/
def execMstat (q : Bool) (d : BitVec 6) (k : BitVec 28) (s : State) : Done :=
  callSrl 0x04A false 0 2 q [.s d, .imm k] (mstatDef q d k) s

/-! ## Regions, job words and entries (R304, R305) -/

/-- An operand region. -/
structure TileReg where
  row0 : Nat
  col0 : Nat
  rows : Nat
  cols : Nat
  deriving DecidableEq, Repr

/-- The region of a scalar (R304). -/
def TileReg.of (x : Word) : TileReg := ⟨fld x.toNat 0 16, fld x.toNat 16 16, fld x.toNat 32 16, fld x.toNat 48 16⟩

/-- Whether a region lies inside a tile. -/
def TileReg.inside (r : TileReg) (t : CSlot) : Bool :=
  1 ≤ r.rows && 1 ≤ r.cols && r.row0 + r.rows ≤ t.rows && r.col0 + r.cols ≤ t.cols

/-- Whether a matrix job word is valid (R305). -/
def mjobOk (j : BitVec 28) : Bool := j.toNat < 2 ^ 19 && fld j.toNat 16 2 ≤ 1
/-- Whether a matrix job word asks for a signal. -/
def mjobSig (j : BitVec 28) : Bool := fld j.toNat 16 2 = 1

/-- An entry for `mq` (R304): it joins after its checks. -/
def mqEntry (s : State) (j : Job) : RunOut := .queue s 0 j

/-- A matrix job with its slot, tile, job word and semaphore. -/
def mjob (s : State) (num : Nat) (k : Nat) (t : CSlot) (job : BitVec 28) (sem : Nat) (args : List Word) : Job :=
  { newJob s num 3 with word := job, sem, slot := k, tile := some t, args }

/-- The family of A's and B's tags (R315): tags of one family pair, those of `same` only with themselves. -/
def tagFamily (t : Nat) : Nat :=
  if t = 4 then 1 else if t = 5 then 2 else if t = 6 || t = 7 || t = 0x16 || t = 0x17 then 3
  else if t = 0xB || t = 0x1B then 4 else if t = 8 || t = 9 || t = 0x18 || t = 0x19 then 5
  else if t = 0x1A then 6 else if t = 0xD then 7 else 0

/-- Whether a tile format suits a pair (R315). -/
def tileSuits (ta tb fmt : Nat) : Bool :=
  if tagFamily ta = 7 || (ta = 0xB && tb = 0xB) then fmt = 2 else fmt = 1 || fmt = 0xF

/-- Whether every captured index of a gather lies below a count (R348). -/
def gatherOk (g : Option (List Nat)) (n : Nat) : Bool :=
  match g with
  | none => true
  | some is => is.all (· < n)

/-- Whether the scale array of a sparse descriptor lies in the scratchpad that holds the tile (R308, R332): its extent by the DIR of the header as it
stands. -/
def sparseScaleOk (s : State) (core : Nat) (d : Desc) : Bool :=
  match placeSparse core d with
  | none => false
  | some (k, _, hoff, soff) =>
    let dir := (SpHdr.of (rdNat (s.core k).scratch hoff 16)).dir
    !tagBlk d.tag || soff + linesOf d dir * cdiv (lengthOf d dir) 32 * d.bs ≤ padBytes

/-- The definition of `MGO`. -/
def mgoDef (qa qb : BitVec 4) (c : BitVec 5) (job : BitVec 28) (sem : BitVec 5) : SrlDef :=
  fun args s => orRun do
    let (_, xa) ← qsrc s qa
    let (_, xb) ← qsrc s qb
    let (k, t) ← ctile s c
    let da := Desc.of xa
    let db := Desc.of xb
    let core := nodeOf s.w
    needILL (mjobOk job && (arg args 3).toNat < 2 ^ 32 && !db.sparse)
    if da.sparse then needILL (!da.trans && da.sphdr % 16 = 0 && (placeSparse core da).isSome && sparseScaleOk s core da)
    else needILL ((placeMat core da true).isSome && gatherOk s.cres.gathA da.srows)
    needILL ((placeMat core db false).isSome && gatherOk s.cres.gathB db.srows)
    needTagN 0 da.tag (tagFamily da.tag ≠ 0)
    needTagN 1 db.tag (tagFamily db.tag = tagFamily da.tag)
    needTagN 2 t.fmt (tileSuits da.tag db.tag t.fmt)
    let n ← semArg s sem (mjobSig job)
    let x := s.cres
    let j := { mjob s 0x042 k t job n [arg args 3] with descs := [xa, xb], nest := x.nest, gathA := x.gathA, gathB := x.gathB, mcast := x.mcast }
    .ok (mqEntry (s.setCres { x with nest := [], gathA := none, gathB := none }) j)

/-- `MGO` (R315, R339, R348). -/
def execMgo (q : Bool) (qa qb : BitVec 4) (c : BitVec 5) (org : BitVec 6) (job : BitVec 28) (sem : BitVec 5) (s : State) : Done :=
  callSrl 0x042 true 3 1 q [.q qa, .q qb, .c c, .s org, .imm job, .sem sem] (mgoDef qa qb c job sem) s

/-- A drain-path call's slot, tile and region (R304). -/
def needRegion (s : State) (c : BitVec 5) (reg : Word) (job : BitVec 28) : Except Trap (Nat × CSlot) := do
  let (k, t) ← ctile s c
  needILL ((TileReg.of reg).inside t && mjobOk job)
  .ok (k, t)

/-- The definition of `MZERO`. -/
def mzeroDef (c : BitVec 5) (job : BitVec 28) (sem : BitVec 5) : SrlDef :=
  fun args s => orRun do
    let (k, t) ← needRegion s c (arg args 1) job
    let n ← semArg s sem (mjobSig job)
    .ok (mqEntry s (mjob s 0x046 k t job n [arg args 1]))

/-- `MZERO` (R317). -/
def execMzero (q : Bool) (c : BitVec 5) (reg : BitVec 6) (job : BitVec 28) (sem : BitVec 5) (s : State) : Done :=
  callSrl 0x046 true 3 1 q [.c c, .s reg, .imm job, .sem sem] (mzeroDef c job sem) s

/-- The definition of `MLDACC`. -/
def mldaccDef (c : BitVec 5) (qs : BitVec 4) (job : BitVec 28) (sem : BitVec 5) : SrlDef :=
  fun args s => orRun do
    let (k, t) ← needRegion s c (arg args 2) job
    let (_, x) ← qsrc s qs
    let d := Desc.of x
    let r := TileReg.of (arg args 2)
    needILL (!d.sparse && r.rows ≤ d.rows && r.cols ≤ d.cols && (placeMat (nodeOf s.w) d true).isSome)
    needTagN 1 d.tag (if t.fmt = 2 then d.tag = 2 else floatTag d.tag)
    let n ← semArg s sem (mjobSig job)
    .ok (mqEntry s { mjob s 0x047 k t job n [arg args 2] with descs := [x] })

/-- `MLDACC` (R317). -/
def execMldacc (q : Bool) (c : BitVec 5) (qs : BitVec 4) (reg : BitVec 6) (job : BitVec 28) (sem : BitVec 5) (s : State) : Done :=
  callSrl 0x047 true 3 1 q [.c c, .q qs, .s reg, .imm job, .sem sem] (mldaccDef c qs job sem) s

/-- Tags that `MDRAIN` writes (R318). -/
def drainTag (t : Nat) : Bool := regTag t && t ≠ 0 && t ≠ 0xE

/-- Whether the array of a drain setting ends inside the scratchpad for a region (R319). -/
def drainArrayOk (core : Nat) (d : DrainSet) (r : TileReg) : Bool :=
  if d.mode = 0 then true
  else
    match padLoc core d.v.toNat with
    | some (_, off) => off + 4 * (if d.mode = 1 then r.col0 + r.cols else r.row0 + r.rows) ≤ padBytes
    | none => false

/-- The definition of `MDRAIN`. -/
def mdrainDef (c : BitVec 5) (qd : BitVec 4) (f : BitVec 28) (job : BitVec 28) (sem : BitVec 5) : SrlDef :=
  fun args s => orRun do
    let (k, t) ← needRegion s c (arg args 2) job
    let (_, x) ← qsrc s qd
    let d := Desc.of x
    let r := TileReg.of (arg args 2)
    let blk := tagBlk d.tag
    needILL (fld f.toNat 13 15 = 0 && drainTag (fmtTag f) && (rndOf (fmtRm f)).isSome && !d.sparse && r.rows ≤ d.rows && r.cols ≤ d.cols
      && !(fmtOvf f && (blk || !hasInf (tagFmt d.tag))) && !(blk && (d.trans || r.cols % 32 ≠ 0))
      && (placeMat (nodeOf s.w) d true).isSome
      && (!f.getLsbD 11 || drainArrayOk (nodeOf s.w) s.cres.dscale r) && (!f.getLsbD 12 || drainArrayOk (nodeOf s.w) s.cres.dbias r))
    needTagN 1 d.tag (drainTag d.tag)
    needTagN 3 (fmtTag f) (fmtTag f = d.tag)
    let n ← semArg s sem (mjobSig job)
    .ok (mqEntry s { mjob s 0x048 k t job n [arg args 2] with descs := [x], fmt := f, dscale := s.cres.dscale, dbias := s.cres.dbias })

/-- `MDRAIN` (R318). -/
def execMdrain (q : Bool) (c : BitVec 5) (qd : BitVec 4) (reg : BitVec 6) (f : BitVec 28) (job : BitVec 28) (sem : BitVec 5)
    (s : State) : Done :=
  callSrl 0x048 true 3 1 q [.c c, .q qd, .s reg, .fmt f, .imm job, .sem sem] (mdrainDef c qd f job sem) s

/-- The accumulator place that a peer-add goes to (R320): a window-1 address of a core of the issuing quad. -/
def accLoc (core va : Nat) : Option (Nat × Nat) :=
  let at? (k w off : Nat) : Option (Nat × Nat) := if w = 1 && k / 4 = core / 4 && off < 2 ^ 17 then some (k, off) else none
  if 2 ^ 56 ≤ va && va < 2 ^ 56 + 2 ^ 40 then at? (fld va 31 9) (fld va 27 4) (fld va 0 27)
  else if 0x0101000000000000 ≤ va && va < 0x0101000000000000 + 2 ^ 31 then at? core (fld va 27 4) (fld va 0 27)
  else none

/-- The definition of `MPEER`. -/
def mpeerDef (c : BitVec 5) (f : BitVec 28) (job : BitVec 28) (sem : BitVec 5) : SrlDef :=
  fun args s => orRun do
    let (k, t) ← needRegion s c (arg args 2) job
    let r := TileReg.of (arg args 2)
    let dcols := fld f.toNat 11 16
    let es := accSize t.fmt
    needILL (match accLoc (nodeOf s.w) (arg args 1).toNat with
      | some (_, off) => fld f.toNat 5 4 = 0 && !f.getLsbD 27 && dcols ≠ 0 && off % es = 0
          && off + ((r.rows - 1) * dcols + r.cols) * es ≤ 2 ^ 17
      | none => false)
    needILL (fmtTag f = 1 || fmtTag f = 2 || fmtTag f = 0xF)
    needTagN 3 (fmtTag f) (fmtTag f = t.fmt)
    let n ← semArg s sem (mjobSig job)
    .ok (mqEntry s { mjob s 0x049 k t job n [arg args 2, arg args 1] with fmt := f })

/-- `MPEER` (R320). -/
def execMpeer (q : Bool) (c : BitVec 5) (dst reg : BitVec 6) (f : BitVec 28) (job : BitVec 28) (sem : BitVec 5) (s : State) : Done :=
  callSrl 0x049 true 3 1 q [.c c, .s dst, .s reg, .fmt f, .imm job, .sem sem] (mpeerDef c f job sem) s

/-- A reply of a flush or an abort (R209, R324): the count and the routine's number. -/
def flushReply (count num : Nat) : Word := BitVec.ofNat 64 (count % 2 ^ 32 + 2 ^ 32 * num)

/-- The entries of a FIFO that have not started discarded at the call of a routine of `n` operand words, and one reply of their number, which is kept
while the reply waits for room (R209, R324). -/
def flushFifo (f num n : Nat) (args : List Word) (s : State) : RunOut :=
  let k := resKeyOf s.w
  let post (s : State) (n : Nat) : RunOut := .ok (postReply s k (flushReply n num) (strandAgent s.w)) []
  match args.drop n with
  | [] =>
    let n := ((jobsOf (s.cres.fifo f)).filter fun j => !j.started).length
    let s := discardJobs s k f fun j => !j.started
    if replyRoom s k then post s n else .commit s 0 [BitVec.ofNat 64 n]
  | _ :: kept => if replyRoom s k then post s (arg kept 0).toNat else .stall s .blocking 0

/-- The definition of `MQFLUSH`. -/
def mqflushDef : SrlDef := flushFifo 0 0x4E 0

/-- `MQFLUSH` (R324): entries not started leave; one reply, for which it waits while `rpq` is full. -/
def execMqflush (q : Bool) (s : State) : Done :=
  callSrl 0x04E false 0 1 q [] mqflushDef s

end Sys2Proof.Machine
end

