-- ==== Sys2Proof/Machine/Copy.lean ====
section
/-! DEFINITION. The copy routines as strands issue them (R194 to R197, R204, R209, R213). -/

namespace Sys2Proof.Machine

/-! ## Job words (R196, R197) -/

/-- Whether a copy job word is valid. -/
def copyWordOk (j : BitVec 28) : Bool := fld j.toNat 25 3 = 0 && fld j.toNat 16 2 ≠ 3
/-- Its fields. -/
def copyTag (j : BitVec 28) : Nat := fld j.toNat 0 16
def copySig (j : BitVec 28) : Nat := fld j.toNat 16 2
def copyRec (j : BitVec 28) : Nat := fld j.toNat 18 2
def copyShift (j : BitVec 28) : Nat := fld j.toNat 21 4
/-- The FIFO that Q names. -/
def copyFifo (j : BitVec 28) : Nat := if j.getLsbD 20 then 2 else 1

/-- A copy entry (R195): its checks, the operands captured, and the FIFO of its job word. -/
def copyEntry (num : Nat) (job : BitVec 28) (sem : BitVec 5) (n : Nat) (check : State → Except Trap Unit) (f : Job → Job) : SrlDef :=
  fun args s => orRun do
    needILL (copyWordOk job)
    check s
    let v ← semArg s sem (copySig job ≠ 0)
    .ok (.queue s (copyFifo job) (f { newJob s num 2 with word := job, sem := v, evarm := s.cctx.evarm, args := args.take n }))

/-- A copy entry without further checks or captures: the first `n` operands are its arguments. -/
def plainCopyDef (num : Nat) (job : BitVec 28) (sem : BitVec 5) (n : Nat) : SrlDef := copyEntry num job sem n (fun _ => .ok ()) id

/-- Its call. -/
def plainCopy (num : Nat) (q : Bool) (job : BitVec 28) (sem : BitVec 5) (regs : List (BitVec 6)) (s : State) : Done :=
  callSrl num true 2 1 q (regs.map .s ++ [.imm job, .sem sem]) (plainCopyDef num job sem regs.length) s

/-- `CPY` (R199). -/
def execCpy (q : Bool) (dst src shape : BitVec 6) (job : BitVec 28) (sem : BitVec 5) (s : State) : Done :=
  plainCopy 0x070 q job sem [dst, src, shape] s

/-- `CPYG` (R205). -/
def execCpyg (q : Bool) (dst src idx cnt shape : BitVec 6) (job : BitVec 28) (sem : BitVec 5) (s : State) : Done :=
  plainCopy 0x071 q job sem [dst, src, idx, cnt, shape] s

/-- `CPYS` (R205). -/
def execCpys (q : Bool) (dst src idx cnt shape : BitVec 6) (job : BitVec 28) (sem : BitVec 5) (s : State) : Done :=
  plainCopy 0x072 q job sem [dst, src, idx, cnt, shape] s

/-- The definition of `CPYSA`. -/
def cpysaDef (job : BitVec 28) (sem : BitVec 5) : SrlDef :=
  copyEntry 0x073 job sem 5 (fun _ => needILL (job.getLsbD 20)) id

/-- `CPYSA` (R197, R206): only in `cq.out`. -/
def execCpysa (q : Bool) (dst src idx cnt shape : BitVec 6) (job : BitVec 28) (sem : BitVec 5) (s : State) : Done :=
  callSrl 0x073 true 2 1 q [.s dst, .s src, .s idx, .s cnt, .s shape, .imm job, .sem sem] (cpysaDef job sem) s

/-- `CPYF` (R200). -/
def execCpyf (q : Bool) (dst pat shape : BitVec 6) (job : BitVec 28) (sem : BitVec 5) (s : State) : Done :=
  plainCopy 0x074 q job sem [dst, pat, shape] s

/-- Whether `CPYC`'s fmt operand is valid (R197, R210, R248): no reserved bit or code, `.inf` only for a target with infinities. -/
def cpycFmtOk (f : BitVec 28) : Bool :=
  fld f.toNat 14 14 = 0 && (rndOf (fmtRm f)).isSome && regTag (fmtTag f) && regTag (fld f.toNat 9 5)
    && !(fmtOvf f && (tagBlk (fmtTag f) || !hasInf (tagFmt (fmtTag f))))

/-- The definition of `CPYC`. -/
def cpycDef (f : BitVec 28) (job : BitVec 28) (sem : BitVec 5) : SrlDef :=
  copyEntry 0x075 job sem 4 (fun _ => needILL (cpycFmtOk f)) fun j => { j with fmt := f }

/-- `CPYC` (R210). -/
def execCpyc (q : Bool) (dst src shape side : BitVec 6) (f : BitVec 28) (job : BitVec 28) (sem : BitVec 5) (s : State) : Done :=
  callSrl 0x075 true 2 1 q [.s dst, .s src, .s shape, .s side, .fmt f, .imm job, .sem sem] (cpycDef f job sem) s

/-- The definition of `CPYW`. -/
def cpywDef (f : BitVec 28) (job : BitVec 28) (sem : BitVec 5) : SrlDef :=
  copyEntry 0x076 job sem 3 (fun _ => needILL (fld f.toNat 10 18 = 0 && (f.getLsbD 9 || fld f.toNat 0 9 = 0)))
      fun j => { j with fmt := f }

/-- `CPYW` (R211). -/
def execCpyw (q : Bool) (dst src len : BitVec 6) (f : BitVec 28) (job : BitVec 28) (sem : BitVec 5) (s : State) : Done :=
  callSrl 0x076 true 2 1 q [.s dst, .s src, .s len, .fmt f, .imm job, .sem sem] (cpywDef f job sem) s

/-- The definition of `CPYRES`. -/
def cpyresDef (tag job : BitVec 28) (sem : BitVec 5) : SrlDef :=
  copyEntry 0x077 job sem 0 (fun _ => .ok ()) fun j => { j with args := [tag.setWidth 64] }

/-- `CPYRES` (R208): the tag operand is kept as the job's first argument; only 16 bits of it name a job. -/
def execCpyres (q : Bool) (tag job : BitVec 28) (sem : BitVec 5) (s : State) : Done :=
  callSrl 0x077 true 2 1 q [.imm tag, .imm job, .sem sem] (cpyresDef tag job sem) s

/-- `CPY2D` (R217). -/
def execCpy2d (q : Bool) (dst src geom strides : BitVec 6) (job : BitVec 28) (sem : BitVec 5) (s : State) : Done :=
  plainCopy 0x08F q job sem [dst, src, geom, strides] s

/-! ## Stage queues (R197, R212) -/

/-- The stage queue that an operand names in the current launch (R178, R197). -/
def stageQueue (s : State) (k : QueueOp) : Except Trap (Nat × StageQ) :=
  match queueName s.cthr.stack k, s.launch? (launchOf s s.w) with
  | some (.stage i), some l =>
    match l.queues[i.toNat]? with
    | some x => .ok (i.toNat, x)
    | none => .error trapILL
  | _, _ => .error trapILL

/-- A stage-queue entry: the queue's index is kept after the register operands. -/
def queueEntry (num : Nat) (job : BitVec 28) (sem : BitVec 5) (k : QueueOp) (n : Nat) (regs : List Word → List Word)
    (may : StageQ → Nat → Bool) : SrlDef := fun args s => orRun do
  let (i, x) ← stageQueue s k
  needILL (may x s.cres.stage)
  .ok (copyEntry num job sem n (fun _ => .ok ()) (fun j => { j with args := regs args ++ [BitVec.ofNat 64 i] }) args s)

/-- The definition of `QPUSH`. -/
def qpushDef (k : QueueOp) (job : BitVec 28) (sem : BitVec 5) : SrlDef :=
  queueEntry 0x079 job sem k 0 (fun a => [arg a 1]) fun x st => x.prod = st

/-- `QPUSH` (R212). -/
def execQpush (q : Bool) (k : QueueOp) (src : BitVec 6) (job : BitVec 28) (sem : BitVec 5) (s : State) : Done :=
  callSrl 0x079 true 2 1 q [.queue k, .s src, .imm job, .sem sem] (qpushDef k job sem) s

/-- The definition of `QPOP`. -/
def qpopDef (k : QueueOp) (job : BitVec 28) (sem : BitVec 5) : SrlDef :=
  queueEntry 0x07A job sem k 0 (fun a => [arg a 0]) fun x st => x.cons = st

/-- `QPOP` (R212). -/
def execQpop (q : Bool) (dst : BitVec 6) (k : QueueOp) (job : BitVec 28) (sem : BitVec 5) (s : State) : Done :=
  callSrl 0x07A true 2 1 q [.s dst, .queue k, .imm job, .sem sem] (qpopDef k job sem) s

/-- The definition of `QFLUSH`. -/
def qflushDef (k : QueueOp) (job : BitVec 28) (sem : BitVec 5) : SrlDef :=
  queueEntry 0x07B job sem k 0 (fun _ => [0]) fun _ _ => true

/-- `QFLUSH` (R212). -/
def execQflush (q : Bool) (k : QueueOp) (job : BitVec 28) (sem : BitVec 5) (s : State) : Done :=
  callSrl 0x07B true 2 1 q [.queue k, .imm job, .sem sem] (qflushDef k job sem) s

/-! ## Records and aborts (R201, R204, R209) -/

/-- Whether a job posts a record with a status (R196, R204). -/
def recWanted (j : Job) (status : Nat) : Bool :=
  match copyRec j.word with
  | 0 => if status = 0 then j.evarm.getLsbD 0 else j.evarm.getLsbD 1
  | 1 => true
  | 2 => status ≠ 0
  | _ => false

/-- A completion record (R201). -/
def copyRecord (j : Job) (origin status : Nat) : BitVec 128 :=
  BitVec.ofNat 128 (copyTag j.word + 2 ^ 16 * status + 2 ^ 24 * (origin % 256) + 2 ^ 32 * (copyFifo j.word - 1)
    + 2 ^ 40 * (j.cursor % 2 ^ 24) + 2 ^ 64 * (j.bytes % 2 ^ 48))

/-- The jobs of a suspended-job table that `CPYABT` abandons, and those it keeps (R209). -/
def abandoned (susp : List Job) (mode tag : Nat) : List Job × List Job :=
  if mode = 2 then (susp, [])
  else
    match susp.find? fun j => copyTag j.word = tag with
    | some j => ([j], susp.erase j)
    | none => ([], susp)

/-- The definition of `CPYABT`. -/
def cpyabtDef (mode a : BitVec 28) : SrlDef :=
  fun args s => orRun do
    let m := mode.toNat
    needILL (match m with | 0 => a.toNat ≤ 1 | 1 => a.toNat < 2 ^ 16 | 2 => a.toNat = 0 | _ => false)
    let k := resKeyOf s.w
    let x := s.cres
    let ag := strandAgent s.w
    if m = 0 then .ok (flushFifo (1 + a.toNat) 0x78 2 args s)
    else
      let (gone, kept) := abandoned x.susp m a.toNat
      let recs := gone.filter fun j => recWanted j 3
      if !replyRoom s k || evqSize < x.evq.length + recs.length then .ok (.stall s .blocking 0)
      else
        let s := recs.foldl (fun s j => postEvent s k (copyRecord j j.num 3) ag) (s.setRes k { x with susp := kept })
        .ok (.ok (postReply s k (flushReply gone.length 0x78) ag) [])

/-- `CPYABT` (R209): it acts, posts the records of abandoned jobs and one reply, and waits while a queue lacks the room for them. -/
def execCpyabt (q : Bool) (mode a : BitVec 28) (s : State) : Done :=
  callSrl 0x078 false 0 1 q [.imm mode, .imm a] (cpyabtDef mode a) s

/-- The definition of `EVARM`. -/
def evarmDef (q : Bool) (opts : BitVec 28) : SrlDef :=
  plainDef fun s => do
    needILL (opts.toNat < 4)
    .ok (setting s q fun s => s.setCctx { s.cctx with evarm := opts.setWidth 2 })

/-- `EVARM` (R204). -/
def execEvarm (q : Bool) (opts : BitVec 28) (s : State) : Done :=
  callSrl 0x07F false 0 1 q [.imm opts] (evarmDef q opts) s

/-! ## Region maps (R213, R214) -/

/-- The definition of `RGMAP`. -/
def rgmapDef (q : Bool) (e : BitVec 28) : SrlDef :=
  fun args s => orRun do
    let n := e.toNat
    let off := (arg args 1).toNat
    let v := (arg args 2).toNat
    let l := (arg args 3).toNat
    let x := s.cres
    let clash := x.regions.any fun r => r.1 ≠ n && r.2.sp < off + l && off < r.2.sp + r.2.len
    needILL (n < 16 && off % 4096 = 0 && v % 4096 = 0 && l % 4096 = 0 && l ≠ 0 && off + l ≤ allocSPB x.alloc && v < 2 ^ 57 && !clash)
    match tget? x.regions n with
    | some r => if r.dirty.isEmpty then .ok () else .error (trapSYNC n)
    | none => .ok ()
    .ok (setting s q fun s => s.setCres { s.cres with regions := tset s.cres.regions n ⟨off, arg args 2, l, [], []⟩ })

/-- `RGMAP` (R213). -/
def execRgmap (q : Bool) (e : BitVec 28) (sp va len : BitVec 6) (s : State) : Done :=
  callSrl 0x07C false 0 1 q [.imm e, .s sp, .s va, .s len] (rgmapDef q e) s

/-- A region-map entry's write-back (R214): the entry's number is the job's argument. -/
def regionDef (num : Nat) (e job : BitVec 28) (sem : BitVec 5) : SrlDef :=
  copyEntry num job sem 0 (fun _ => needILL (e.toNat < 16)) fun j => { j with args := [e.setWidth 64] }

/-- Its call. -/
def regionEntry (num : Nat) (q : Bool) (e job : BitVec 28) (sem : BitVec 5) (s : State) : Done :=
  callSrl num true 2 1 q [.imm e, .imm job, .sem sem] (regionDef num e job sem) s

/-- `RGFLUSH` (R214). -/
def execRgflush (q : Bool) (e job : BitVec 28) (sem : BitVec 5) (s : State) : Done := regionEntry 0x07D q e job sem s

/-- `RGDROP` (R214). -/
def execRgdrop (q : Bool) (e job : BitVec 28) (sem : BitVec 5) (s : State) : Done := regionEntry 0x07E q e job sem s

end Sys2Proof.Machine
end

