-- ==== Sys2Proof/Machine/CopyRun.lean ====
section
/-! DEFINITION. The copy engine's entries as they run (R198 to R214): shape records, index jobs, conversions, register windows, stage
queues and region maps; completion, suspension and resumption. -/

namespace Sys2Proof.Machine

/-! ## Completion (R203, R207, R208) -/

def stOK : Nat := 0
def stSUSPIDX : Nat := 1
def stSUSPXLT : Nat := 2
def stBADSHAPE : Nat := 4
def stNOJOB : Nat := 5

/-- The slots of the suspended-job table (R207). -/
def suspSlots : Nat := 8

/-- The amount that a finished entry adds to its semaphore (R203, R208). -/
def copySignal (j : Job) (status : Nat) : Nat :=
  if copySig j.word = 1 then (if status = stOK || status = stNOJOB then 1 else 0)
  else if copySig j.word = 2 && status = stOK then min 65535 (j.bytes / 2 ^ copyShift j.word)
  else 0

/-- A resumed job as it suspends again: the routine it was issued as stands behind its operands while `CPYRES` runs it. -/
def asSuspended (j : Job) : Job :=
  let j := { j with fin := none, started := false, lanes := [] }
  if j.num = 0x077 then { j with num := (j.args.getLastD 0).toNat, args := j.args.dropLast } else j

/-- A finished entry ends: its record, signal and, on a suspension, its job in the table; while `evq` or the table lacks room it stays at
the head (R14, R207). -/
def finishCopy (s : State) (k f : Nat) (j : Job) (status : Nat) : State :=
  let j := { j with fin := some status, started := true }
  let x := s.res k
  let susp := status = stSUSPIDX || status = stSUSPXLT
  let rec? := recWanted j status
  if (susp && suspSlots ≤ x.susp.length) || (rec? && evqSize ≤ x.evq.length) then setJob s k f j
  else
    let ag := engineAgent k f
    let s := if susp then s.setRes k { x with susp := x.susp ++ [asSuspended j] } else s
    let s := orStatus s (ctxKey k j.strand) (BitVec.ofNat 64 (j.lanes.headD 0))
    let s := if rec? then postEvent s k (copyRecord j j.num status) ag else s
    let n := copySignal j status
    let s := if n = 0 then s else signalView s k j.sem n ag
    retireHead s k f

/-- How far a job's run comes: to its end, with a status; to a commit point, from which it goes on (R216); or to a launch-fatal fault. -/
inductive CopyEnd where
  | done (s : State) (j : Job) (status : Nat)
  | more (s : State) (j : Job)
  | fatal (s : State) (j : Job) (e : Nat × Word)

/-- Whether another resident's entry of a copy FIFO runs, so that the engine starts none of this resident's (R215). -/
def copyBusy (s : State) (core res f : Nat) : Bool :=
  (List.range 4).any fun r => r ≠ res && match engineHead s (4 * core + r) f with | some j => j.started && j.fin.isNone | none => false

/-- A copy entry served: at the head and not yet finished it runs to its next commit point; finished, it ends when it may. -/
def serveCopy (s : State) (core res f num : Nat) (run : State → Job → CopyEnd) : State :=
  let k := 4 * core + res
  match headOf s k f num with
  | none => s
  | some j =>
    if !j.started && copyBusy s core res f then s
    else
      let c := s.core core
      let s := s.setCore core (if f = 1 then { c with rrIn := res } else { c with rrOut := res })
      match j.fin with
      | some st => finishCopy s k f j st
      | none =>
        match run s j with
        | .done s j st => finishCopy s k f j st
        | .more s j => setJob s k f { j with started := true, commits := j.commits + 1 }
        | .fatal s j e => engineFatalAt s k j j.commits e

/-! ## Shape records (R198) -/

/-- A shape record's fields. -/
structure Shape where
  run : Nat
  n : Nat × Nat × Nat
  ss : Int × Int × Int
  ds : Int × Int × Int
  deriving DecidableEq, Repr

/-- A signed 64-bit field. -/
def sField (x lo : Nat) : Int := sextNat (x / 2 ^ lo) 64

/-- The fields of a record's 512 bits. -/
def Shape.of (x : Nat) : Shape :=
  ⟨fld x 0 24, (fld x 32 16, fld x 48 16, fld x 64 16), (sField x 128, sField x 192, sField x 256), (sField x 320, sField x 384, sField x 448)⟩

/-- Whether a stride is in the record's range. -/
def strideOk (i : Int) : Bool := -(2 ^ 47 : Int) ≤ i && i < 2 ^ 47

/-- A record's reserved bits are clear. -/
def shapeReserved (x : Nat) : Bool := fld x 24 8 = 0 && fld x 80 48 = 0

/-- The iterations of a record. -/
def Shape.iters (h : Shape) : Nat := h.n.1 * h.n.2.1 * h.n.2.2

/-- The offsets that a record's strides give iteration number `i`, dimension 1 fastest (R199). -/
def Shape.offs (h : Shape) (i : Nat) : Int × Int :=
  let i1 : Int := (i % h.n.1 : Nat)
  let i2 : Int := (i / h.n.1 % h.n.2.1 : Nat)
  let i3 : Int := (i / h.n.1 / h.n.2.1 : Nat)
  (i1 * h.ss.1 + i2 * h.ss.2.1 + i3 * h.ss.2.2, i1 * h.ds.1 + i2 * h.ds.2.1 + i3 * h.ds.2.2)

/-- An address moved by an offset, modulo 2^64. -/
def addOff (a : Word) (o : Int) : Word := a + wordOfInt o

/-- A shape record read at an aligned address; none is a misaligned one. -/
def readShape (s : State) (ag : Ag) (a : Word) : Except (Nat × Word) (Option Nat) × State :=
  if a.toNat % 8 ≠ 0 then (.ok none, s)
  else match agRead s ag a 64 .copy with
    | (.error e, s) => (.error e, s)
    | (.ok bs, s) => (.ok (some (leNat bs)), s)

/-! ## Loops -/

/-- Bytes between two commit points of a copy (R216). -/
def commitBytes : Nat := 4096

/-- Where the commit interval ends that byte `b` of a job lies in. -/
def commitEnd (b : Nat) : Nat := b / commitBytes * commitBytes + commitBytes

/-- Units `b` to `e − 1` of a job's loop, run by run, until a part meets a fault; `step i o n` moves `n` units of run `i` from its unit `o` on. -/
def runParts (step : Nat → Nat → Nat → State → Except (Nat × Word) Unit × State) (run : Nat) :
    Nat → Nat → Nat → State → Except (Nat × Word) Unit × State
  | 0, _, _, s => (.ok (), s)
  | fuel + 1, b, e, s =>
    if e ≤ b then (.ok (), s)
    else
      let n := min (run - b % run) (e - b)
      match step (b / run) (b % run) n s with
      | (.error x, s) => (.error x, s)
      | (.ok (), s) => runParts step run fuel (b + n) e s

/-- One part of a run moved, read whole before it is written. -/
def moveRun (ag : Ag) (dst src : Word) (n : Nat) (s : State) : Except (Nat × Word) Unit × State :=
  match agRead s ag src n .copy with
  | (.error e, s) => (.error e, s)
  | (.ok bs, s) => agWrite s ag dst bs .copy

/-- A job of R199's loop whose checks have passed: its bytes up to the next commit point, the job's count of them being its place in the loop. -/
def runLoop (s : State) (j : Job) (run total : Nat) (step : Nat → Nat → Nat → State → Except (Nat × Word) Unit × State) : CopyEnd :=
  let e := min total (commitEnd j.bytes)
  match runParts step run (e - j.bytes) j.bytes e s with
  | (.error x, s) => .fatal s j x
  | (.ok (), s) => if e < total then .more s { j with bytes := e } else .done s { j with bytes := total } stOK

/-- The largest byte total (R199). -/
def maxBytes : Nat := 2 ^ 48 - 1

/-- A job as it starts, with its shape record kept for what it does after its commit points. -/
def withShape (j : Job) (x : Nat) : Job := { j with vec := BitVec.ofNat 2048 x, started := true }

/-- A job of R199's loop: its record read as it starts and checked as `bad` adds to R199, its bytes counted by `total`, its runs performed by
`go`. -/
def shapeJob (s : State) (ag : Ag) (j : Job) (shape : Word) (strides : Shape → List Int) (bad : Shape → Bool) (total : Shape → Nat)
    (go : Shape → State → Job → CopyEnd) : CopyEnd :=
  if j.started then go (Shape.of j.vec.toNat) s j
  else
    match readShape s ag shape with
    | (.error e, s) => .fatal s j e
    | (.ok none, s) => .done s j stBADSHAPE
    | (.ok (some x), s) =>
      let h := Shape.of x
      if !shapeReserved x || !((strides h).all strideOk) || maxBytes < total h || bad h then .done s j stBADSHAPE
      else if total h = 0 then .done s j stOK
      else go h s (withShape j x)

/-- All six strides of a record. -/
def Shape.allStrides (h : Shape) : List Int := [h.ss.1, h.ss.2.1, h.ss.2.2, h.ds.1, h.ds.2.1, h.ds.2.2]
/-- Its destination strides. -/
def Shape.dstStrides (h : Shape) : List Int := [h.ds.1, h.ds.2.1, h.ds.2.2]

/-- The bytes of a record's runs (R199). -/
def Shape.bytes (h : Shape) : Nat := h.run * h.iters

/-- `CPY`'s loop (R199). -/
def copyRuns (ag : Ag) (dst src : Word) (h : Shape) (s : State) (j : Job) : CopyEnd :=
  runLoop s j h.run h.bytes fun i o n =>
    let (so, d) := h.offs i
    moveRun ag (addOff dst (d + o)) (addOff src (so + o)) n

/-- A `CPY2D` entry's run (R217): `CPY` with the record that its two operands describe. -/
def run2d (core res fifo : Nat) (s : State) (j : Job) : CopyEnd :=
  let g := (arg j.args 2).toNat
  let t := (arg j.args 3).toNat
  let h : Shape := ⟨fld g 0 24, (fld g 24 16, 1, 1), (sextNat (fld t 0 32) 32, 0, 0), (sextNat (fld t 32 32) 32, 0, 0)⟩
  if fld g 40 24 ≠ 0 then .done s j stBADSHAPE
  else if h.bytes = 0 then .done s j stOK
  else copyRuns (engineAg s (4 * core + res) fifo) (arg j.args 0) (arg j.args 1) h s j

/-- A `CPY` entry's run (R199). -/
def runCpy (core res fifo : Nat) (s : State) (j : Job) : CopyEnd :=
  let ag := engineAg s (4 * core + res) fifo
  shapeJob s ag j (arg j.args 2) Shape.allStrides (fun _ => false) Shape.bytes (copyRuns ag (arg j.args 0) (arg j.args 1))

/-- CPY_JOB_RUN (R199, R217): a `CPY` or a `CPY2D`. -/
def execCpyJobRun (core res fifo : Nat) (s : State) : Done :=
  .next (
    match headOf s (4 * core + res) fifo 0x08F with
    | some _ => serveCopy s core res fifo 0x08F (run2d core res fifo)
    | none => serveCopy s core res fifo 0x070 (runCpy core res fifo))

/-- The pattern's bytes of a run from its byte `o` on (R200). -/
def patternRun (v : Word) (o n : Nat) : List Byte := (List.range n).map fun i => v.extractLsb' (8 * ((o + i) % 8)) 8

/-- A `CPYF` entry's run (R200). -/
def runCpyf (core res fifo : Nat) (s : State) (j : Job) : CopyEnd :=
  let ag := engineAg s (4 * core + res) fifo
  shapeJob s ag j (arg j.args 2) Shape.dstStrides (fun _ => false) Shape.bytes fun h s j =>
    runLoop s j h.run h.bytes fun i o n s =>
      agWrite s ag (addOff (arg j.args 0) ((h.offs i).2 + o)) (patternRun (arg j.args 1) o n) .copy

/-- CPYF_JOB_RUN (R200). -/
def execCpyfJobRun (core res fifo : Nat) (s : State) : Done := .next (serveCopy s core res fifo 0x074 (runCpyf core res fifo))

/-! ## Index jobs (R205 to R208) -/

/-- An index job's operands: destination, source, index array, element count, limit, run, and the two strides. -/
structure IndexJob where
  dst : Word
  src : Word
  idx : Word
  n : Nat
  limit : Nat
  run : Nat
  ss : Int
  ds : Int
  deriving DecidableEq, Repr

/-- The operands of an index job once its record is read; none is BADSHAPE. -/
def indexJob (j : Job) (x : Nat) : Option IndexJob :=
  let h := Shape.of x
  let c := (arg j.args 3).toNat
  let idx := arg j.args 2
  if fld x 24 8 ≠ 0 || !strideOk h.ss.1 || !strideOk h.ds.1 || fld c 48 16 ≠ 0 || idx.toNat % 4 ≠ 0 then none
  else some ⟨arg j.args 0, arg j.args 1, idx, fld c 0 24, if fld c 24 24 = 0 then 2 ^ 24 else fld c 24 24, h.run, h.ss.1, h.ds.1⟩

/-- An index of the array. -/
def IndexJob.index (x : IndexJob) (ag : Ag) (s : State) (i : Nat) : Except (Nat × Word) Nat × State :=
  match agRead s ag (x.idx + BitVec.ofNat 64 (4 * i)) 4 .copy with
  | (.error e, s) => (.error e, s)
  | (.ok bs, s) => (.ok (leNat bs), s)

/-- Row `i` of a strided matrix. -/
def rowAt (base : Word) (stride : Int) (i : Nat) : Word := addOff base (i * stride)

/-- A row's fault: the two that suspend a job (R205). -/
def rowFault (e : Nat × Word) : Bool := e.1 = clsUnmapped || e.1 = clsProt

/-- An access's translation made without the access: nothing is counted for its page (R230). -/
def probe (s : State) (ag : Ag) (va : Word) (n : Nat) (acc : Acc) : Except (Nat × Word) Unit × State :=
  let (r, t) := resolve s ag va n acc .copy
  let t := { t with pages := s.pages }
  let t := match ag.core with
    | some k => t.setCore k { t.core k with counters := tset (t.core k).counters 4 (tget 0 (s.core k).counters 4) }
    | none => t
  (match r with | .ok _ => .ok () | .error e => .error e, t)

/-- A row's translations, those of its source and its destination. -/
def probeRow (ag : Ag) (dst src : Word) (n : Nat) (s : State) : Except (Nat × Word) Unit × State :=
  match probe s ag src n .rd with
  | (.error e, s) => (.error e, s)
  | (.ok (), s) => probe s ag dst n .wr

/-- An index job that suspends at an element (R207), or the launch-fatal fault that its row met. -/
def suspendAt (x : IndexJob) (s : State) (j : Job) (e : Nat × Word) : CopyEnd :=
  let j := { j with bytes := j.cursor * x.run, lanes := [] }
  if rowFault e then .done s j stSUSPXLT else .fatal s j e

/-- `CPYG` and `CPYS` from the job's element on, up to the element's end or the job's next commit point (R205, R216): the bytes counted say how far
into its element the job is, and the element's index stays with the job until its end. -/
def indexStep (ag : Ag) (rows : IndexJob → Nat → Nat → Word × Word) (x : IndexJob) (s : State) (j : Job) : CopyEnd :=
  if x.n ≤ j.cursor then .done s j stOK
  else
    let o := j.bytes - j.cursor * x.run
    match if o = 0 then x.index ag s j.cursor else (.ok (j.lanes.headD 0), s) with
    | (.error e, s) => .fatal s j e
    | (.ok k, s) =>
      if x.limit ≤ k then .done s j stSUSPIDX
      else
        let (d, a) := rows x j.cursor k
        let n := min (x.run - o) (commitEnd j.bytes - j.bytes)
        match if o = 0 then probeRow ag d a x.run s else (.ok (), s) with
        | (.error e, s) => suspendAt x s j e
        | (.ok (), s) =>
          match moveRun ag (addOff d o) (addOff a o) n s with
          | (.error e, s) => suspendAt x s j e
          | (.ok (), s) =>
            let whole := o + n = x.run
            let j := { j with bytes := j.bytes + n, lanes := if whole then [] else [k], cursor := if whole then j.cursor + 1 else j.cursor }
            if x.n ≤ j.cursor then .done s j stOK else .more s j

/-- An index job: its record read as it starts and checked, then `go` from its cursor on. -/
def runIndex (ag : Ag) (s : State) (j : Job) (bad : IndexJob → Bool) (go : IndexJob → State → Job → CopyEnd) : CopyEnd :=
  let from? (s : State) (j : Job) (r : Nat) : CopyEnd :=
    match indexJob j r with
    | none => .done s j stBADSHAPE
    | some x =>
      if bad x then .done s j stBADSHAPE
      else if x.run = 0 then .done s { j with cursor := x.n } stOK
      else go x s j
  if j.started then from? s j j.vec.toNat
  else
    match readShape s ag (arg j.args 4) with
    | (.error e, s) => .fatal s j e
    | (.ok none, s) => .done s j stBADSHAPE
    | (.ok (some r), s) => from? s (withShape j r) r

/-- `CPYG`. -/
def runCpyg (ag : Ag) (s : State) (j : Job) : CopyEnd :=
  runIndex ag s j (fun _ => false) (indexStep ag fun x i k => (rowAt x.dst x.ds i, rowAt x.src x.ss k))

/-- `CPYS`. -/
def runCpys (ag : Ag) (s : State) (j : Job) : CopyEnd :=
  runIndex ag s j (fun _ => false) (indexStep ag fun x i k => (rowAt x.dst x.ds k, rowAt x.src x.ss i))

/-- The FP32 words of bytes. -/
def wordsOf : List Byte → List W32
  | a :: b :: c :: d :: bs => BitVec.ofNat 32 (leNat [a, b, c, d]) :: wordsOf bs
  | _ => []

/-- FP32 words as bytes. -/
def bytesOfWords (ws : List W32) : List Byte := ws.flatMap fun w => leBytes 4 w.toNat

/-- Rows added element by element, each sum rounded once (R206). -/
def addRows (a b : List W32) : List W32 := List.zipWith (fun x y => (f32Add .rne x y).1) a b

/-- The indices of positions, read in order. -/
def readIndices (ag : Ag) (x : IndexJob) : List Nat → State → Except (Nat × Word) (List Nat) × State
  | [], s => (.ok [], s)
  | i :: is, s =>
    match x.index ag s i with
    | (.error e, s) => (.error e, s)
    | (.ok k, s) =>
      match readIndices ag x is s with
      | (.error e, s) => (.error e, s)
      | (.ok ks, s) => (.ok (k :: ks), s)

/-- Rows read in order. -/
def readRows (ag : Ag) (run : Nat) : List Word → State → Except (Nat × Word) (List (List W32)) × State
  | [], s => (.ok [], s)
  | a :: rest, s =>
    match agRead s ag a run .copy with
    | (.error e, s) => (.error e, s)
    | (.ok bs, s) =>
      match readRows ag run rest s with
      | (.error e, s) => (.error e, s)
      | (.ok rs, s) => (.ok (wordsOf bs :: rs), s)

/-- The translations of destination rows checked for reading and writing. -/
def checkRows (ag : Ag) (run : Nat) : List Word → State → Except (Nat × Word) Unit × State
  | [], s => (.ok (), s)
  | a :: rest, s =>
    match probe s ag a run .amo with
    | (.error e, s) => (.error e, s)
    | (.ok (), s) => checkRows ag run rest s

/-- The rows of a group merged by index, in the order of each index's lowest position. -/
def mergeRows (krs : List (Nat × List W32)) : List (Nat × List W32) :=
  krs.foldl (fun ms p =>
    if ms.any (fun m => m.1 = p.1) then ms.map fun m => if m.1 = p.1 then (m.1, addRows m.2 p.2) else m
    else ms ++ [p]) []

/-- A merged row added at its destination. -/
def addRow (ag : Ag) (x : IndexJob) (s : State) (m : Nat × List W32) : Except (Nat × Word) Unit × State :=
  let d := rowAt x.dst x.ds m.1
  match agRead s ag d x.run .copy with
  | (.error e, s) => (.error e, s)
  | (.ok bs, s) => agWrite s ag d (bytesOfWords (addRows (wordsOf bs) m.2)) .copy

/-- Merged rows added in order. -/
def addAll (ag : Ag) (x : IndexJob) : List (Nat × List W32) → State → Except (Nat × Word) Unit × State
  | [], s => (.ok (), s)
  | m :: ms, s =>
    match addRow ag x s m with
    | (.error e, s) => (.error e, s)
    | (.ok (), s) => addAll ag x ms s

/-- The group of `CPYSA` that the job's cursor begins (R206); its end is a commit point (R216). -/
def groupStep (ag : Ag) (x : IndexJob) (s : State) (j : Job) : CopyEnd :=
  let i := j.cursor
  if x.n ≤ i then .done s j stOK
  else
    let suspend (s : State) (e : Nat × Word) : CopyEnd := if rowFault e then .done s j stSUSPXLT else .fatal s j e
    let is := (List.range (min 64 (x.n - i))).map (i + ·)
    match readIndices ag x is s with
    | (.error e, s) => .fatal s j e
    | (.ok ks, s) =>
      if ks.any fun k => x.limit ≤ k then .done s j stSUSPIDX
      else
        match checkRows ag x.run (ks.map fun k => rowAt x.dst x.ds k) s with
        | (.error e, s) => suspend s e
        | (.ok (), s) =>
          match readRows ag x.run (is.map fun i => rowAt x.src x.ss i) s with
          | (.error e, s) => suspend s e
          | (.ok rows, s) =>
            let ms := mergeRows (ks.zip rows)
            match addAll ag x ms s with
            | (.error e, s) => .fatal s j e
            | (.ok (), s) =>
              let j := { j with bytes := j.bytes + x.run * ms.length, cursor := min x.n (i + 64) }
              if x.n ≤ i + 64 then .done s j stOK else .more s j

/-- `CPYSA` (R206). -/
def runCpysa (ag : Ag) (s : State) (j : Job) : CopyEnd := runIndex ag s j (fun x => x.run % 4 ≠ 0) (groupStep ag)

/-- CPYG_JOB_RUN (R205). -/
def execCpygJobRun (core res fifo : Nat) (s : State) : Done :=
  .next (serveCopy s core res fifo 0x071 fun s j => runCpyg (engineAg s (4 * core + res) fifo) s j)

/-- CPYS_JOB_RUN (R205). -/
def execCpysJobRun (core res fifo : Nat) (s : State) : Done :=
  .next (serveCopy s core res fifo 0x072 fun s j => runCpys (engineAg s (4 * core + res) fifo) s j)

/-- CPYSA_JOB_RUN (R206). -/
def execCpysaJobRun (core res fifo : Nat) (s : State) : Done :=
  .next (serveCopy s core res fifo 0x073 fun s j => runCpysa (engineAg s (4 * core + res) fifo) s j)

/-- The oldest suspended job of a tag (R208). -/
def oldestSuspended (x : Res) (tag : Nat) : Option Job := x.susp.find? fun j => copyTag j.word = tag

/-- A suspended job as `CPYRES` goes on with it (R208). -/
def resumedJob (j o : Job) : Job :=
  { o with word := j.word, sem := j.sem, evarm := j.evarm, site := j.site, strand := j.strand, ctr := j.ctr, started := false, commits := j.commits }

/-- The same job marked as the entry of `CPYRES`, with its own routine behind its operands. -/
def asCpyres (num : Nat) (j : Job) : Job := { j with num := 0x077, args := j.args ++ [BitVec.ofNat 64 num] }

/-- A resumed job's run under its own routine. -/
def runResumed (ag : Ag) (s : State) (m : Job) : CopyEnd :=
  match (match m.num with | 0x071 => runCpyg ag s m | 0x072 => runCpys ag s m | _ => runCpysa ag s m) with
  | .done s j st => .done s (asCpyres m.num j) st
  | .more s j => .more s (asCpyres m.num j)
  | .fatal s j e => .fatal s (asCpyres m.num j) e

/-- A `CPYRES` entry's run (R208): it takes the job from the table as it starts, and goes on with it from its commit points. -/
def runCpyres (core res fifo : Nat) (s : State) (j : Job) : CopyEnd :=
  let k := 4 * core + res
  let x := s.res k
  let ag := engineAg s k fifo
  if j.started then runResumed ag s { j with num := (j.args.getLastD 0).toNat, args := j.args.dropLast }
  else
    match oldestSuspended x (arg j.args 0).toNat with
    | none => .done s j stNOJOB
    | some o => runResumed ag (s.setRes k { x with susp := x.susp.erase o }) (resumedJob j o)

/-- CPYRES_JOB_RUN (R208). -/
def execCpyresJobRun (core res fifo : Nat) (s : State) : Done := .next (serveCopy s core res fifo 0x077 (runCpyres core res fifo))

/-! ## Conversion (R210) -/

/-- Whether `CPYC` converts a pair of tags: as `VCVT`, `VQNT` or `VDQNT` does. -/
def cpycPair (src dst : Nat) : Bool := (cvtSrc src && cvtDst dst) || (floatTag src && blockValid dst) || (blockValid src && floatTag dst)

/-- Where a run of `CPYC` goes: ordinary storage, a register slot's data bytes, or nowhere that a copy may write (R20, R210). -/
inductive RunDst where
  | mem
  | reg (core off : Nat)
  | bad

/-- The destination of a run of `n` bytes. -/
def runDst (ag : Ag) (va : Word) (n : Nat) : RunDst :=
  match locOf ag va.toNat with
  | some (.win k 3 off) => if fld off 15 8 = 0 && off % 4 = 0 && n % 4 = 0 && off % 512 + n ≤ 256 then .reg k off else .bad
  | some (.win _ w _) => if w ≤ 1 then .mem else .bad
  | _ => .mem

/-- A run's converted bytes: the element codes, the scale and spare of each block, and the bits raised. -/
structure Converted where
  codes : List Nat
  blocks : List Nat
  bits : Word

/-- The codes of a run converted between plain formats, or quantised into blocks, or taken out of blocks whose scale and spare
bytes are `sd` (R210, R263 to R265). -/
def convertRun (src dst : Nat) (m : Rnd) (ovf : Bool) (sd : List Nat) (codes : List Nat) : Converted :=
  if tagBlk dst then
    let vals := codes.map (readElt (tagFmt src))
    let qs := (List.range (codes.length / 32)).map fun b => quantise (tagFmt dst) m ((vals.drop (32 * b)).take 32)
    ⟨qs.flatMap (·.codes), qs.map fun q => q.scale + 256 * q.spare, qs.foldl (fun w q => q.bits.foldl (· ||| ·) w) 0⟩
  else
    let xs := (List.range codes.length).map fun i =>
      let c := codes.getD i 0
      if src = dst then (c, 0)
      else if tagBlk src then
        let b := sd.getD (i / 32) 0
        convNum dst m ovf (blockVal (tagFmt src) (b % 256) (b / 256) c)
      else convNum dst m ovf (readElt (tagFmt src) c)
    ⟨xs.map (·.1), [], xs.foldl (fun w x => w ||| x.2) 0⟩

/-- Two-byte entries read. -/
def pairsOf : List Byte → List Nat
  | a :: b :: bs => leNat [a, b] :: pairsOf bs
  | _ => []

/-- A part of a run of `CPYC` written, from byte `at'` of the run's `len` on, with its scale and spare bytes beside it, or into its register's
side-file with its tag (R210). -/
def putRun (ag : Ag) (side : Word) (tag : Nat) (dst : Word) (len at' : Nat) (bs : List Byte) (blocks : List Nat) (s : State) :
    Except (Nat × Word) Unit × State :=
  match runDst ag dst len with
  | .bad => (.error (clsUnmapped, dst), s)
  | .reg k off =>
    let slot := off / 512 * 512
    let first := (off % 512 + at') * 8 / (32 * fmtWidth (tagFmt tag))
    let s := winStore s ag k 3 (off + at') bs
    let s := if blocks.isEmpty then s else winStore s ag k 3 (slot + 256 + 2 * first) (blocks.flatMap (leBytes 2))
    (.ok (), winStore s ag k 3 (slot + 288) [BitVec.ofNat 8 tag])
  | .mem =>
    match agWrite s ag (dst + BitVec.ofNat 64 at') bs .copy with
    | (.error e, s) => (.error e, s)
    | (.ok (), s) => if blocks.isEmpty then (.ok (), s) else agWrite s ag side (blocks.flatMap (leBytes 2)) .copy

/-- A conversion's tags and rounding (R210). -/
structure Cpyc where
  src : Nat
  dst : Nat
  rnd : Rnd

def Cpyc.ws (c : Cpyc) : Nat := fmtWidth (tagFmt c.src)
def Cpyc.wd (c : Cpyc) : Nat := fmtWidth (tagFmt c.dst)

/-- Elements `o` to `o + n − 1` of run `i` of `CPYC`, with the bits they raise. -/
def cpycPart (ag : Ag) (j : Job) (h : Shape) (c : Cpyc) (i o n : Nat) (s : State) : Except (Nat × Word) Word × State :=
  let (so, d) := h.offs i
  let side := arg j.args 3 + BitVec.ofNat 64 (2 * (h.run / 32 * i + o / 32))
  match agRead s ag (addOff (arg j.args 1) (so + (o * c.ws / 8 : Nat))) (n * c.ws / 8) .copy with
  | (.error e, s) => (.error e, s)
  | (.ok bs, s) =>
    match if tagBlk c.src then agRead s ag side (2 * (n / 32)) .copy else (.ok [], s) with
    | (.error e, s) => (.error e, s)
    | (.ok sd, s) =>
      let x := leNat bs
      let r := convertRun c.src c.dst c.rnd (fmtOvf j.fmt) (pairsOf sd) ((List.range n).map (eltAt x c.ws))
      let out := leBytes (n * c.wd / 8) (packElts c.wd r.codes)
      match putRun ag side c.dst (addOff (arg j.args 0) d) (h.run * c.wd / 8) (o * c.wd / 8) out r.blocks s with
      | (.error e, s) => (.error e, s)
      | (.ok (), s) => (.ok r.bits, s)

/-- Elements `b` to `e − 1` of a job in loop order, with the bits raised. -/
def cpycParts (ag : Ag) (j : Job) (h : Shape) (c : Cpyc) : Nat → Nat → Nat → Word → State → Except (Nat × Word) Word × State
  | 0, _, _, bits, s => (.ok bits, s)
  | fuel + 1, b, e, bits, s =>
    if e ≤ b then (.ok bits, s)
    else
      let n := min (h.run - b % h.run) (e - b)
      match cpycPart ag j h c (b / h.run) (b % h.run) n s with
      | (.error x, s) => (.error x, s)
      | (.ok w, s) => cpycParts ag j h c fuel (b + n) e (bits ||| w) s

/-- The elements between which `CPYC` may stop (log entry 102): whole blocks and whole bytes of both formats, or whole runs into register slots. -/
def cpycUnit (ag : Ag) (j : Job) (h : Shape) (c : Cpyc) : Nat :=
  match runDst ag (addOff (arg j.args 0) (h.offs 0).2) (h.run * c.wd / 8) with
  | .mem => if tagBlk c.src || tagBlk c.dst then 32 else Nat.lcm (8 / Nat.gcd 8 c.ws) (8 / Nat.gcd 8 c.wd)
  | _ => h.run

/-- `CPYC`'s loop from the job's element on, to the first whole unit at or behind its next commit point (R210, R216); the job keeps the elements done
as its cursor, and the bits raised. -/
def cpycLoop (ag : Ag) (c : Cpyc) (h : Shape) (s : State) (j : Job) : CopyEnd :=
  let total := h.run * h.iters
  let u := cpycUnit ag j h c
  let e := min total (cdiv (cdiv (8 * commitEnd (j.cursor * c.wd / 8)) c.wd) u * u)
  match cpycParts ag j h c (e - j.cursor) j.cursor e (BitVec.ofNat 64 (j.lanes.headD 0)) s with
  | (.error x, s) => .fatal s { j with lanes := [] } x
  | (.ok bits, s) =>
    let j := { j with bytes := e * c.wd / 8, lanes := [bits.toNat] }
    if e < total then .more s { j with cursor := e } else .done s { j with cursor := 0 } stOK

/-- A `CPYC` entry's run (R210). -/
def runCpyc (core res fifo : Nat) (s : State) (j : Job) : CopyEnd :=
  let ag := engineAg s (4 * core + res) fifo
  let dst := fmtTag j.fmt
  let src := fld j.fmt.toNat 9 5
  match rndOf (fmtRm j.fmt) with
  | none => .done s j stBADSHAPE
  | some m =>
    let c : Cpyc := ⟨src, dst, m⟩
    let bad (h : Shape) : Bool :=
      !cpycPair src dst || h.run * c.ws % 8 ≠ 0 || h.run * c.wd % 8 ≠ 0 || ((tagBlk src || tagBlk dst) && h.run % 32 ≠ 0)
    shapeJob s ag j (arg j.args 2) Shape.allStrides bad (fun h => h.run * c.wd / 8 * h.iters) (cpycLoop ag c)

/-- CPYC_JOB_RUN (R210). -/
def execCpycJobRun (core res fifo : Nat) (s : State) : Done := .next (serveCopy s core res fifo 0x075 (runCpyc core res fifo))

/-! ## Register windows (R211) -/

/-- Whether a range of a window is one that `CPYW` may write. -/
def cpywRange (w off n : Nat) (tagged : Bool) : Bool :=
  match w with
  | 2 => n % 4 = 0 && off < 2 ^ 16 && off % 4096 + n ≤ 4096 && !tagged
  | 3 => n % 4 = 0 && fld off 15 8 = 0 && off % 512 + n ≤ 288
  | 4 => n % 8 = 0 && fld off 9 14 = 0 && off % 512 + n ≤ 512 && !tagged
  | _ => false

/-- A `CPYW` entry's run (R211): a destination that is not aligned to its window's unit takes R21's fault. -/
def runCpyw (core res fifo : Nat) (s : State) (j : Job) : CopyEnd :=
  let ag := engineAg s (4 * core + res) fifo
  let dst := arg j.args 0
  let n := (arg j.args 2).toNat
  let tagged := j.fmt.getLsbD 9
  match locOf ag dst.toNat with
  | some (.win k w off) =>
    if !cpywRange w off n tagged || (tagged && !regTag (fmtTag j.fmt)) then .done s j stBADSHAPE
    else if off % (if w = 4 then 8 else 4) ≠ 0 then .fatal s j (clsUnmapped, dst)
    else
      match agRead s ag (arg j.args 1) n .copy with
      | (.error e, s) => .fatal s j e
      | (.ok bs, s) =>
        let s := if n = 0 then s else winStore s ag k w off bs
        let s := if tagged then winStore s ag k 3 (off / 512 * 512 + 288) [BitVec.ofNat 8 (fmtTag j.fmt)] else s
        .done s { j with bytes := n } stOK
  | _ => .done s j stBADSHAPE

/-- CPYW_JOB_RUN (R211). -/
def execCpywJobRun (core res fifo : Nat) (s : State) : Done := .next (serveCopy s core res fifo 0x076 (runCpyw core res fifo))

/-! ## Stage queues (R29, R212) -/

/-- The launch and stage queue that an entry names: its index stands behind the entry's register operand. -/
def jobQueue (s : State) (k : Nat) (i : Nat) : Option (Nat × Launch × StageQ) :=
  match s.launch? (s.res k).launch with
  | some l => match l.queues[i]? with | some x => some ((s.res k).launch, l, x) | none => none
  | none => none

/-- The places of a slot of a stage queue. -/
def StageQ.places (x : StageQ) (slot : Nat) : List Place :=
  (List.range x.esz).map fun i =>
    match x.home with
    | some k => .win k 0 (x.base + slot * x.esz + i)
    | none => .phys (lpddr (x.base + slot * x.esz + i))

/-- A stage queue of a launch replaced. -/
def setQueue (s : State) (id i : Nat) (x : StageQ) : State :=
  match s.launch? id with
  | some l => s.setLaunch id { l with queues := lset l.queues i x }
  | none => s

/-- Whether a queue's tail slot can be claimed (R212): a slot is free, and the tail is. -/
def StageQ.open (x : StageQ) : Bool :=
  x.occ.length + x.busy.length < x.depth && !x.busy.contains x.nextSlot && !x.occ.any fun e => e.1 = x.nextSlot

/-- An occupied entry put into its place by sequence number. -/
def occIn (e : Nat × Nat) : List (Nat × Nat) → List (Nat × Nat)
  | [] => [e]
  | x :: xs => if e.2 < x.2 then e :: x :: xs else x :: occIn e xs

/-- A `QPUSH` entry's run on queue i of a launch (R212): the tail slot is claimed as it starts, its sequence number kept as the cursor, and the
entry counts as occupied from its end. -/
def runQpush (k fifo i id : Nat) (x : StageQ) (s : State) (j : Job) : CopyEnd :=
  let slot := if j.started then j.slot else x.nextSlot
  let seq := if j.started then j.cursor else x.pushed
  let x := if j.started then x else { x with nextSlot := (x.nextSlot + 1) % max 1 x.depth, pushed := x.pushed + 1, busy := x.busy ++ [slot] }
  let e := min x.esz (commitEnd j.bytes)
  match agRead s (engineAg s k fifo) (addOff (arg j.args 0) j.bytes) (e - j.bytes) .copy with
  | (.error f, s) => .fatal s j f
  | (.ok bs, s) =>
    let ps := ((x.places slot).drop j.bytes).take (e - j.bytes)
    let s := putBytes (noteWrote s id ps) (ps.zip bs)
    let j := { j with slot, cursor := seq, bytes := e }
    if e < x.esz then .more (setQueue s id i x) j
    else .done (setQueue s id i { x with occ := occIn (slot, seq) x.occ, busy := x.busy.erase slot }) j stOK

/-- QPUSH_JOB_RUN (R212): a full queue holds the entry at its head. -/
def execQpushJobRun (core res fifo : Nat) (s : State) : Done :=
  let k := 4 * core + res
  .next (
    match headOf s k fifo 0x079 with
    | none => s
    | some j =>
      let i := (arg j.args 1).toNat
      match jobQueue s k i with
      | none => s
      | some (id, _, x) => if !j.started && !x.open then s else serveCopy s core res fifo 0x079 (runQpush k fifo i id x))

/-- A `QPOP` entry's run on queue i of a launch (R212): the oldest occupied entry is claimed as it starts, and its slot is free from its end. -/
def runQpop (k fifo i id : Nat) (x : StageQ) (s : State) (j : Job) : CopyEnd :=
  match if j.started then some (j.slot, j.cursor) else x.occ.head? with
  | none => .done s j stOK
  | some (slot, seq) =>
    let x := if j.started then x else { x with occ := x.occ.tail, busy := x.busy ++ [slot] }
    let e := min x.esz (commitEnd j.bytes)
    let bs := (((x.places slot).drop j.bytes).take (e - j.bytes)).map (placeByte s)
    match agWrite s (engineAg s k fifo) (addOff (arg j.args 0) j.bytes) bs .copy with
    | (.error f, s) => .fatal s j f
    | (.ok (), s) =>
      let j := { j with slot, cursor := seq, bytes := e }
      if e < x.esz then .more (setQueue s id i x) j else .done (setQueue s id i { x with busy := x.busy.erase slot }) j stOK

/-- QPOP_JOB_RUN (R212): an empty queue holds the entry at its head. -/
def execQpopJobRun (core res fifo : Nat) (s : State) : Done :=
  let k := 4 * core + res
  .next (
    match headOf s k fifo 0x07A with
    | none => s
    | some j =>
      let i := (arg j.args 1).toNat
      match jobQueue s k i with
      | none => s
      | some (id, _, x) => if !j.started && x.occ.isEmpty then s else serveCopy s core res fifo 0x07A (runQpop k fifo i id x))

/-- A `QFLUSH` entry's run (R212). -/
def runQflush (k : Nat) (s : State) (j : Job) : CopyEnd :=
  let i := (arg j.args 1).toNat
  match jobQueue s k i with
  | none => .done s j stOK
  | some (id, _, x) => .done (setQueue s id i { x with occ := [] }) { j with cursor := x.occ.length } stOK

/-- QFLUSH_JOB_RUN (R212). -/
def execQflushJobRun (core res fifo : Nat) (s : State) : Done := .next (serveCopy s core res fifo 0x07B (runQflush (4 * core + res)))

/-! ## Region maps (R214) -/

/-- A number put into its place in a rising list. -/
def insertNat (n : Nat) : List Nat → List Nat
  | [] => [n]
  | m :: ms => if n ≤ m then n :: m :: ms else m :: insertNat n ms

/-- Numbers in rising order. -/
def sortNats (ns : List Nat) : List Nat := ns.foldr insertNat []

/-- A line of the entry written back, its dirty bit cleared (R214). -/
def flushLine (ag : Ag) (core n : Nat) (ln : Nat) (s : State) : Except (Nat × Word) Unit × State :=
  let x := s.res ag.res
  match tget? x.regions n with
  | none => (.ok (), s)
  | some e =>
    let bs := rdBytes (s.core core).scratch (64 * ln) 64
    match agWrite s ag (e.va + BitVec.ofNat 64 (64 * ln - (e.sp + shareBase x))) bs .copy with
    | (.error f, s) => (.error f, s)
    | (.ok (), s) =>
      let x := s.res ag.res
      (.ok (), s.setRes ag.res { x with regions := x.regions.map fun r => if r.1 = n then (n, { r.2 with dirty := r.2.dirty.filter (· ≠ ln) }) else r })

/-- Lines written back in turn. -/
def flushLines (ag : Ag) (core n : Nat) : List Nat → State → Except (Nat × Word) Unit × State
  | [], s => (.ok (), s)
  | ln :: lns, s =>
    match flushLine ag core n ln s with
    | (.error f, s) => (.error f, s)
    | (.ok (), s) => flushLines ag core n lns s

/-- A write-back of an entry (R214), in rising order of the lines that are dirty as it starts, up to the next commit point (R216); `RGDROP` then
invalidates the entry. -/
def runRegion (core res fifo : Nat) (drop : Bool) (s : State) (j : Job) : CopyEnd :=
  let k := 4 * core + res
  let n := (arg j.args 0).toNat
  match tget? (s.res k).regions n with
  | none => .done s { j with lanes := [] } stOK
  | some e =>
    let lines := if j.started then j.lanes else sortNats e.dirty
    let now := lines.take (commitBytes / 64)
    let rest := lines.drop (commitBytes / 64)
    match flushLines (engineAg s k fifo) core n now s with
    | (.error f, s) => .fatal s { j with lanes := [] } f
    | (.ok (), s) =>
      let j := { j with bytes := j.bytes + 64 * now.length, lanes := rest }
      if !rest.isEmpty then .more s j
      else
        let x := s.res k
        .done (if drop then s.setRes k { x with regions := terase x.regions n } else s) j stOK

/-- RGFLUSH_JOB_RUN (R214). -/
def execRgflushJobRun (core res fifo : Nat) (s : State) : Done :=
  .next (serveCopy s core res fifo 0x07D (runRegion core res fifo false))

/-- RGDROP_JOB_RUN (R214). -/
def execRgdropJobRun (core res fifo : Nat) (s : State) : Done :=
  .next (serveCopy s core res fifo 0x07E (runRegion core res fifo true))

end Sys2Proof.Machine
end

