-- ==== Sys2Proof/Machine/Image.lean ====
section
/-! DEFINITION. The Golrober image as the loader takes it (R435 to R443): its checks, the placement of its sections, relocation, routine
headers (R63, R176, R183) and their binding (R184 to R186). -/

namespace Sys2Proof.Machine

/-- Refusal statuses of R30. -/
def lsOK : Nat := 0
def lsBADHDR : Nat := 1
def lsQDEPTH : Nat := 2
def lsNOPLACE : Nat := 3
def lsNOQUAD : Nat := 4
def lsBADSEM : Nat := 5
def lsBADIMG : Nat := 6

/-- A status unless a check holds. -/
def check (st : Nat) (b : Bool) : Except Nat Unit := if b then .ok () else .error st

/-- Bytes at device addresses of an address space, as the front end reads them; none where an address has no translation. -/
def devRead (s : State) (asid : Nat) (va n : Nat) : Option (List Byte) :=
  (List.range n).mapM fun i => (walk s asid (va + i)).map fun x => rdByte s.mem (x.place (va + i))

/-- Bytes written by the loader at device addresses; a byte without a translation is dropped. -/
def devWrite (asid : Nat) (va : Nat) : List Byte → State → State
  | [], s => s
  | b :: bs, s =>
    devWrite asid (va + 1) bs (match walk s asid va with | some x => { s with mem := wrByte s.mem (x.place va) b } | none => s)

/-- A little-endian number in a list of bytes. -/
def natAt (bs : List Byte) (off n : Nat) : Nat := leNat ((bs.drop off).take n)

/-- A range of a list of bytes. -/
def sliceOf (bs : List Byte) (off n : Nat) : List Byte := (bs.drop off).take n

/-- Bytes of a list replaced from an offset on. -/
def patchBytes (bs : List Byte) (off : Nat) (new : List Byte) : List Byte := bs.take off ++ new ++ bs.drop (off + new.length)

/-! ## Header and sections (R435 to R437) -/

/-- A section of an image: its place in the table, type, log2 of the alignment, and bytes. -/
structure Sec where
  idx : Nat
  type : Nat
  align : Nat
  bytes : List Byte

/-- The image header's own checks (R435). -/
def imageHeaderOk (h : Nat) : Bool :=
  fld h 0 32 = 0x49524C47 && fld h 32 16 = 1 && fld h 48 16 = srlVer && fld h 64 64 &&& devFeat = fld h 64 64
    && fld h 128 16 = 0 && 1 ≤ fld h 144 16 && fld h 144 16 ≤ 64 && 128 + 32 * fld h 144 16 ≤ fld h 160 32 && fld h 576 448 = 0

/-- Whether a launchable image may hold a section of a type (R437): variants are of the portable form only. -/
def secTypeOk (t : Nat) : Bool := (1 ≤ t && t ≤ 2) || (4 ≤ t && t ≤ 0x0B) || t = 0x0D || (0x10 ≤ t && t ≤ 0x14)

/-- The sections of an image, or none where an entry fails its checks (R437). -/
def sectionsOf (img : List Byte) (n : Nat) : Option (List Sec) :=
  (List.range n).mapM fun i =>
    let e := natAt img (128 + 32 * i) 32
    let ok := secTypeOk (fld e 0 16) && fld e 16 16 = 0 && 2 ≤ fld e 32 8 && fld e 32 8 ≤ 20 && fld e 40 24 = 0
      && fld e 64 64 + fld e 128 64 ≤ img.length && fld e 192 64 = 0
    if ok then some ⟨i, fld e 0 16, fld e 32 8, sliceOf img (fld e 64 64) (fld e 128 64)⟩ else none

/-- The section of a type. -/
def secOf (ss : List Sec) (type : Nat) : Option Sec := ss.find? fun x => x.type = type
/-- Its bytes; nothing where the image has none. -/
def secBytes (ss : List Sec) (type : Nat) : List Byte := match secOf ss type with | some x => x.bytes | none => []

/-- Where the loader places a section (R437; log entry 20): at a multiple of its alignment, the data section of at least 4 KB. -/
def placeSec (image : Word) (l : Nat) (x : Sec) : Nat :=
  let a := 2 ^ (if x.type = 8 then max 12 x.align else x.align)
  (Config.sectionPlace image l x.idx).toNat / a * a

/-- The placed address of a type's section. -/
def secAddr (image : Word) (l : Nat) (ss : List Sec) (type : Nat) : Nat := match secOf ss type with | some x => placeSec image l x | none => 0

/-! ## Relocation (R443) -/

/-- A relocation: section, byte offset, type, and the target's section and offset with the addend added. -/
structure Reloc where
  sec : Nat
  off : Nat
  type : Nat
  tsec : Nat
  toff : Int

/-- The relocation records of an image. -/
def relocsOf (ss : List Sec) : List Reloc :=
  let bs := secBytes ss 0x0A
  let syms := secBytes ss 0x09
  (List.range (bs.length / 16)).map fun i =>
    let r := natAt bs (16 * i) 16
    let t := Config.symbolPlace syms (fld r 64 32)
    ⟨fld r 48 8, fld r 0 48, fld r 56 4, t.1, (t.2 : Int) + sextNat (fld r 96 32) 32⟩

/-- Whether the records of a relocation section are whole and their zero bits zero. -/
def relocsWhole (bs : List Byte) : Bool := bs.length % 16 = 0 && (List.range (bs.length / 16)).all fun i => fld (natAt bs (16 * i) 16) 60 4 = 0

/-- The placed address of a relocation's target. -/
def Reloc.target (image : Word) (l : Nat) (ss : List Sec) (r : Reloc) : Int :=
  (match ss.find? fun x => x.idx = r.tsec with | some x => (placeSec image l x : Int) | none => 0) + r.toff

/-- Whether a relocation lies in its section and its target is in range (R443). -/
def Reloc.ok (image : Word) (l : Nat) (ss : List Sec) (r : Reloc) : Bool :=
  let c := r.target image l ss
  let n := if r.type = 4 then 8 else 4
  1 ≤ r.type && r.type ≤ 4 && (ss.any fun x => x.idx = r.sec && r.off + n ≤ x.bytes.length)
    && (2 < r.type || (-(2 ^ 31 : Int) ≤ c && c ≤ 2 ^ 31 - 4097))

/-- A word with a field of it replaced. -/
def putField (w lo n v : Nat) : Nat := w - fld w lo n * 2 ^ lo + v % 2 ^ n * 2 ^ lo

/-- A section's bytes with one relocation made; `base` is the section's placed address. -/
def Reloc.patch (image : Word) (l : Nat) (ss : List Sec) (base : Nat) (bs : List Byte) (r : Reloc) : List Byte :=
  let c := r.target image l ss
  let hi := (c + 0x1000) / 0x2000
  let field (lo n : Nat) (v : Int) : List Byte :=
    patchBytes bs r.off (leBytes 4 (putField (natAt bs r.off 4) lo n (v % (2 ^ n : Int)).toNat))
  match r.type with
  | 1 => field 0 19 hi
  | 2 => field 0 13 (c - 0x2000 * hi)
  | 3 => field 0 22 ((c - ((base + r.off : Nat) : Int)) / 4)
  | _ => patchBytes bs r.off (leBytes 8 (c % (2 ^ 64 : Int)).toNat)

/-- A section's bytes as they are loaded. -/
def loadedBytes (image : Word) (l : Nat) (ss : List Sec) (x : Sec) : List Byte :=
  ((relocsOf ss).filter fun r => r.sec = x.idx).foldl (Reloc.patch image l ss (placeSec image l x)) x.bytes

/-! ## Routine table (R63, R176, R183, R438) -/

/-- The inline latency of an SRL routine (R258, R278, R303, R341, R194); zero where it is not inline. -/
def srlLat (num : Nat) : Nat :=
  if num < 0x20 then [3, 6, 3, 3, 3, 3, 4, 2, 2, 1, 1, 2, 2, 2, 3, 4, 3, 1, 2, 2, 2, 2, 3, 3, 3, 6, 2].getD num 0
  else if num < 0x37 then [6, 5, 5, 7, 5, 4, 5, 4, 4, 4, 6, 6, 7, 6, 10, 8, 6, 6, 8, 10, 10, 8, 6].getD (num - 0x20) 0
  else match num with
    | 0x3F => 12 | 0x40 | 0x41 | 0x43 | 0x45 | 0x4B | 0x4C | 0x4D => 1 | 0x4A => 2 | 0x64 => 1 | 0x65 => 2 | 0x7F => 1 | _ => 0

/-- The strand mask of an SRL routine (R258, R278, R303, R341, R194, R378, R353). -/
def srlSmask (num : Nat) : Nat :=
  if num < 0x40 then 0xF
  else if num < 0x60 then (if num = 0x40 then 0xA else if num = 0x4A then 3 else 2)
  else if num < 0x70 then (if num = 0x60 || num = 0x65 then 0xF else 2)
  else if num < 0x90 then (if num = 0x78 then 5 else if num = 0x7F then 0xF else 4)
  else if num < 0xA0 then 8 else 1

/-- The directions of an SRL routine's operands that are not in (0): 1 out, 2 in-out. -/
def srlDirs (num : Nat) : List Nat :=
  if num < 0x1B then (if num = 0 || num = 1 || num = 6 || num = 0xF || num = 0x12 then [2] else if num = 0x17 then [1, 1] else [1])
  else if num < 0x40 then
    (match num with
    | 0x20 | 0x23 | 0x36 | 0x3F => [1]
    | 0x21 | 0x22 | 0x30 | 0x32 | 0x34 | 0x35 => [1, 1]
    | 0x33 => [2, 2]
    | _ => [2])
  else match num with
    | 0x40 | 0x43 | 0x4A | 0x61 | 0x65 | 0xA0 | 0xA1 | 0xA2 | 0xA3 | 0xA4 | 0xA5 | 0xA8 | 0xA9 => [1]
    | 0x66 => [2]
    | _ => []

/-- The header fields of an SRL routine that the manual's tables give (R63, R176): all but FRM, VSCR, HINT, BLEN, NCP and CLEN. -/
def srlHeaderKnown (num : Nat) : Option Nat :=
  match srlSig num with
  | none => none
  | some (cls, queued, ctr) =>
    let lat := srlLat num
    let kind := if queued then 2 else if lat = 0 then 1 else 0
    let ord := queued || (0xA0 ≤ num && num < 0xA6)
    let depr := num = 0x3F || num = 0x8F
    let sig := (List.range cls.length).foldl (fun v k => v + 2 ^ (80 + 8 * k) * (cls.getD k 0 + 16 * (srlDirs num).getD k 0)) 0
    some (num + 2 ^ 14 * kind + (if ord then 2 ^ 16 else 0) + (if depr then 2 ^ 17 else 0) + 2 ^ 20 * srlSmask num + 2 ^ 24 * ctr.toNat
      + 2 ^ 26 * lat + 2 ^ 32 * cls.length + sig)

/-- The bits of a routine header that depend on a routine's text. -/
def headerTextBits : Nat := 0xF * 2 ^ 36 + 0xF * 2 ^ 40 + 0xFFFFFF * 2 ^ 48 + 0xFFFFFFFFFFFFFFFF * 2 ^ 136

/-- The whole header of an SRL routine. -/
def srlHeader (num : Nat) : Option Nat :=
  (srlHeaderKnown num).map fun h => h + ((Config.srlHeaderRest (BitVec.ofNat 14 num)).toNat &&& headerTextBits)

/-- The `RCHK` words of a body, the operand words of its calls passed over (R175, R176). -/
def rchkCount : Nat → List W32 → Nat
  | 0, _ => 0
  | _, [] => 0
  | n + 1, w :: ws => (if w &&& 0xFDFFFFFF = 0xF8000000 then 1 else 0) + rchkCount n (ws.drop (wordCount w - 1))

/-- The words of a body. -/
def bodyWords (bs : List Byte) : List W32 := (List.range (bs.length / 4)).map fun i => BitVec.ofNat 32 (natAt bs (4 * i) 4)

/-- Signature entry k of a header. -/
def sigAt (h k : Nat) : Nat := fld h (80 + 8 * k) 8

/-- Whether the signature's class-6 entries come in pairs, the second with direction in (R176). -/
def pairedWide (h : Nat) : Nat → Nat → Bool
  | 0, _ => true
  | fuel + 1, k =>
    if fld h 32 3 ≤ k then true
    else if fld (sigAt h k) 0 4 = 6 then k + 1 < fld h 32 3 && fld (sigAt h (k + 1)) 0 6 = 6 && pairedWide h fuel (k + 2)
    else pairedWide h fuel (k + 1)

/-- Whether a routine header keeps every limit (R176, R183), given the words of its body. -/
def routineHeaderOk (h : Nat) (body : List W32) : Bool :=
  let kind := fld h 14 2
  let n := fld h 32 3
  kind ≠ 3 && fld h 18 2 = 0 && fld h 20 4 ≠ 0 && (kind = 2 || fld h 24 2 = 0)
    && (if kind = 0 then 1 ≤ fld h 26 6 else fld h 26 6 = 0)
    && (kind ≠ 2 || (bitOf h 16 && [1, 2, 4, 8].contains (fld h 20 4)))
    && fld h 35 1 = 0 && fld h 36 4 ≤ 12 && fld h 40 4 ≤ 8 && fld h 44 4 = 0 && fld h 72 8 = 0
    && ((List.range 7).all fun k => if k < n then fld (sigAt h k) 0 4 ≤ 9 && fld (sigAt h k) 4 2 ≠ 3 && fld (sigAt h k) 7 1 = 0 else sigAt h k = 0)
    && pairedWide h 7 0
    && 1 ≤ fld h 136 24 && fld h 160 16 = rchkCount body.length body && fld h 176 24 % 8 = 0 && fld h 200 56 = 0
    && (kind ≠ 0 || fld h 160 16 = 0)

/-- Whether an entry of an SRL number carries that routine's header (R63); a number of a binary's own is free. -/
def srlEntryOk (h : Nat) : Bool := 0x1000 ≤ fld h 0 14 || srlHeader (fld h 0 14) == some h

/-! ## Canonical form, digest, binding (R184 to R186) -/

/-- The relocations into a body at a byte offset of the routine section; none where the body has no digest. -/
def bodyRelocs (ss : List Sec) (off blen coff clen : Nat) : Option (List (Nat × Nat × Nat)) :=
  match secOf ss 2 with
  | none => none
  | some x =>
    let rs := (relocsOf ss).filter fun r => r.sec = x.idx && off ≤ r.off && r.off < off + 4 * blen
    rs.mapM fun r =>
      if (r.type = 1 || r.type = 2) && r.tsec = x.idx && (coff : Int) ≤ r.toff && r.toff < ((coff + clen : Nat) : Int) && r.off % 4 = 0 then
        some ((r.off - off) / 4, r.type, (r.toff - (coff : Int)).toNat)
      else none

/-- An entry put into a list by its first part. -/
def insertRel (e : Nat × Nat × Nat) : List (Nat × Nat × Nat) → List (Nat × Nat × Nat)
  | [] => [e]
  | x :: xs => if e.1 ≤ x.1 then e :: x :: xs else x :: insertRel e xs

/-- The digest of a routine (R184); none where it has no canonical form. -/
def routineDigest (ss : List Sec) (h off coff : Nat) : Option (BitVec 384) :=
  let blen := fld h 136 24
  let clen := fld h 176 24
  let bs := secBytes ss 2
  match bodyRelocs ss off blen coff clen with
  | none => none
  | some rs =>
    let rs := rs.foldr insertRel []
    let zeroed := rs.foldl (fun b r =>
      patchBytes b (4 * r.1) (leBytes 4 (putField (natAt b (4 * r.1) 4) 0 (if r.2.1 = 1 then 19 else 13) 0))) (sliceOf bs off (4 * blen))
    let head := h - fld h 0 14 - fld h 48 24 * 2 ^ 48
    let recs := rs.flatMap fun r => leBytes 8 (r.1 + 2 ^ 24 * r.2.1 + 2 ^ 32 * r.2.2)
    some (sha384 (leBytes 32 head ++ zeroed ++ sliceOf bs coff clen ++ recs))

/-- The numbers of SRL 1.0 (R63). -/
def srlNumbers : List Nat := (List.range 0xAA).filter fun n => (srlSig n).isSome

/-- Entries of the substitution table (R185). -/
def subEntries : Nat := 1024

/-- The words that both texts of `DOT4` begin with, its loads and their `WAITC`, and its shifts (listings of R189 and R190). -/
def dotLoads : List Nat :=
  [0x600A2001, 0x60122009, 0x601A2011, 0x60222019, 0x602A4001, 0x60324009, 0x603A4011, 0x60424019, 0xE407FFFE]
def dotShifts : List Nat := [0x1C082010, 0x1C104010, 0x1C186010, 0x1C208010, 0x1C28A010, 0x1C30C010, 0x1C38E010, 0x1C410010]

/-- The canonical form of a text of `DOT4`: the header with its third word, and the body (R184, R190). -/
def dotForm (third : Nat) (body : List Nat) : List Byte :=
  ([0x0000000300F04000, 0x0000000000100000, third, 0].flatMap (leBytes 8)) ++ body.flatMap (leBytes 4)

/-- The digest of the seasoned `DOT4` (R190, R191). -/
def dotDigest : BitVec 384 :=
  sha384 (dotForm 0x0000000100001A00 (dotLoads ++ [0xF8000000] ++ dotShifts
    ++ [0x4C000000, 0x4C002281, 0x4C004301, 0x4C006381, 0x4C008401, 0xF4000000, 0x4C800003, 0xF8000001]))

/-- The digest of the plain `DOT4` (R189, R190). -/
def plainDigest : BitVec 384 :=
  let op (i : Instr) : List Nat := (encode i).map (·.toNat)
  let mul (d a b : BitVec 6) : List Nat := op (.fmul false d a b .rne)
  let add (d a b : BitVec 6) : List Nat := op (.fadd false d a b .rne)
  let nop : Nat := 0xF4000000
  sha384 (dotForm 0x1D00 (dotLoads ++ dotShifts ++ mul 9 1 5 ++ mul 10 2 6 ++ mul 11 3 7 ++ mul 12 4 8 ++ add 9 9 10 ++ [nop, nop] ++ add 9 9 11
    ++ [nop, nop] ++ add 16 9 12 ++ [0xF8000001]))

/-- The SRL routine whose published text a digest is (R184); the texts of `DOT4` are no SRL routine's (R191). -/
def srlByDigest (d : Option (BitVec 384)) : Option Nat :=
  (d.filter fun d => d ≠ dotDigest && d ≠ plainDigest).bind fun d => srlNumbers.find? fun n => Config.srlDigest (BitVec.ofNat 14 n) = d

/-- The SRL routines with an entry: all but the two deprecated ones (R185, R188). -/
def nativeNumbers : List Nat := srlNumbers.filter fun n => n ≠ 0x3F && n ≠ 0x8F

/-- The digest of an entry of the substitution table: those of SRL 1.0 in the order of their numbers, then that of the seasoned `DOT4`, then what
firmware admitted beside them (R185, R191; log entry 28). -/
def entryDigest (n : Nat) : BitVec 384 :=
  match nativeNumbers[n]? with
  | some k => Config.srlDigest (BitVec.ofNat 14 k)
  | none => if n = nativeNumbers.length then dotDigest else Config.nativeDigest n

/-- Whether firmware may have admitted a digest: no deprecated routine's (R185), and not that of the plain `DOT4` (R189). -/
def admissible (d : BitVec 384) : Bool := d ≠ Config.srlDigest 0x3F && d ≠ Config.srlDigest 0x8F && d ≠ plainDigest

/-- Whether the native unit of an entry is present (R185, R191). -/
def entryPresent (n : Nat) : Bool := n ≤ nativeNumbers.length || (n < subEntries && Config.nativePresent n && admissible (Config.nativeDigest n))

/-- The SRL number of an entry, 0x3FFF where its digest is none of SRL's (R185, R191). -/
def entryNum (n : Nat) : Nat :=
  match nativeNumbers[n]? with
  | some k => k
  | none => (srlByDigest (some (entryDigest n))).getD 0x3FFF

/-- Whether an entry of the substitution table is in force (R185, R186). -/
def subEnabled (s : State) (n : Nat) : Bool := entryPresent n && !s.subDis.contains n

/-- Whether a routine binds a native unit now (R186): none does whose header has DEPR set (R185, R188). -/
def bindsNative (s : State) (depr : Bool) (d : Option (BitVec 384)) : Bool :=
  match d with
  | none => false
  | some d => !depr && (List.range subEntries).any fun n => subEnabled s n && entryDigest n = d

/-- A routine from its table entry. -/
def routineFrom (s : State) (image : Word) (l : Nat) (ss : List Sec) (e : Nat) : Routine :=
  let h := e % 2 ^ 256
  let off := 4 * fld e 256 64
  let coff := fld e 320 64
  let base := secAddr image l ss 2
  let d := routineDigest ss h off coff
  { num := fld h 0 14, kind := fld h 14 2, ord := bitOf h 16, depr := bitOf h 17, smask := BitVec.ofNat 4 (fld h 20 4), ctr := fld h 24 2,
    lat := fld h 26 6, nopw := fld h 32 3, frm := fld h 36 4, vscr := fld h 40 4,
    sigs := (List.range (fld h 32 3)).map fun k => BitVec.ofNat 8 (sigAt h k), blen := fld h 136 24, ncp := fld h 160 16,
    clen := fld h 176 24, body := BitVec.ofNat 64 (base + off), consts := BitVec.ofNat 64 (base + coff),
    native := bindsNative s (bitOf h 17) d, srl := srlByDigest d, digest := d }

/-- Whether the numbers of a list rise strictly. -/
def rising : List Nat → Bool
  | a :: b :: rest => a < b && rising (b :: rest)
  | _ => true

/-- The routines of an image, or none where the table fails a check (R438). -/
def routinesOf (s : State) (image : Word) (l : Nat) (ss : List Sec) : Option (List Routine) :=
  let bs := secBytes ss 1
  let code := secBytes ss 2
  let es := (List.range (bs.length / 48)).map fun i => natAt bs (48 * i) 48
  let ok := bs.length % 48 = 0 && rising (es.map fun e => fld e 0 14) && es.all fun e =>
    let h := e % 2 ^ 256
    let off := 4 * fld e 256 64
    off + 4 * fld h 136 24 ≤ code.length && fld e 320 64 + fld h 176 24 ≤ code.length
      && routineHeaderOk h (bodyWords (sliceOf code off (4 * fld h 136 24))) && srlEntryOk h
  if ok then some (es.map (routineFrom s image l ss)) else none

/-! ## Stages, tokens, queues, templates (R439 to R442) -/

/-- The address of a word offset in a stream's section (R439); zero where there is none, and no address where it lies outside. -/
def streamAddr (image : Word) (l : Nat) (ss : List Sec) (k off : Nat) : Option Word :=
  if off = 0xFFFFFFFF then some 0
  else if 4 * off + 4 ≤ (secBytes ss (0x10 + k)).length then some (BitVec.ofNat 64 (secAddr image l ss (0x10 + k) + 4 * off))
  else none

/-- The stage table entries. -/
def stageEntries (ss : List Sec) : List Nat :=
  let bs := secBytes ss 7
  (List.range ((bs.length - 8) / 64)).map fun i => natAt bs (64 * i) 64

/-- A stage from its entry (R439), its reserved bits apart, which are a stage program header's (R30): its starts come from the command's table (R416). -/
def stageFrom (image : Word) (l : Nat) (ss : List Sec) (templates : Nat) (e : Nat) : Option Stage :=
  let sched := fld e 72 8
  let hs := (List.range 4).mapM fun k => streamAddr image l ss k (fld e (256 + 32 * k) 32)
  match hs with
  | none => none
  | some hs =>
    if 1 ≤ fld e 64 8 && fld e 64 8 ≤ 128 && fld e 96 32 ≠ 0xFFFFFFFF && (sched = 0xFF || sched < templates) then
      some { alloc := BitVec.ofNat 64 (fld e 0 64), repl := fld e 64 8, sched := if sched = 0xFF then none else some sched, starts := [], handlers := hs }
    else none

/-- The stages of an image, or none where the stage table fails a check. -/
def stagesOf (image : Word) (l : Nat) (ss : List Sec) (templates : Nat) : Option (List Stage) :=
  let bs := secBytes ss 7
  if bs.length = 0 then some []
  else if bs.length % 64 ≠ 8 then none
  else (stageEntries ss).mapM (stageFrom image l ss templates)

/-- The templates of section 0x06, one behind the other (R442); none where one breaks its layout. -/
def templatesFrom : Nat → List Byte → Option (List Template)
  | 0, bs => if bs.isEmpty then some [] else none
  | fuel + 1, bs =>
    if bs.isEmpty then some []
    else
      let h := natAt bs 0 16
      let t := fld h 0 32
      let ws := (List.range t).map fun i => natAt bs (16 + 4 * i) 4
      if bs.length < 16 + 4 * t || fld h 33 95 ≠ 0 || ws.any (fun w => 2 ^ 24 ≤ w) then none
      else (templatesFrom fuel (bs.drop (16 + 4 * t))).map fun ts => ⟨bitOf h 32, ws⟩ :: ts

/-- The tokens of the synchronisation table, each with the count its entry declares (R440); none where an entry breaks its layout. -/
def tokensOf (ss : List Sec) (stages : Nat) : Option (List Token) :=
  let bs := secBytes ss 4
  if bs.length % 16 ≠ 0 then none
  else (List.range (bs.length / 16)).mapM fun i =>
    let e := natAt bs (16 * i) 16
    if fld e 9 7 = 0 && fld e 56 8 = 0 && fld e 96 32 = 0 && fld e 0 8 < (if bitOf e 8 then 8 else 32) && fld e 16 16 < stages then
      some ⟨fld e 0 8, bitOf e 8, fld e 16 16, fld e 32 16⟩
    else none

/-- Whether a queue table is made of whole entries whose reserved bits are zero. -/
def queuesWhole (bs : List Byte) : Bool :=
  bs.length % 32 = 0 && (List.range (bs.length / 32)).all fun i => let e := natAt bs (32 * i) 32; fld e 13 3 = 0 && fld e 27 5 = 0 && fld e 50 14 = 0

/-- The stage queues of an image (R441), or none where a value lies outside its limits. The home core and the base come with the placement. -/
def queuesFrom (ss : List Sec) (stages : Nat) : Option (List StageQ) :=
  let bs := secBytes ss 5
  (List.range (bs.length / 32)).mapM fun i =>
    let e := natAt bs (32 * i) 32
    let ok := 1 ≤ fld e 0 13 && fld e 0 13 ≤ 4096 && 1 ≤ fld e 16 11 && fld e 16 11 ≤ 1024 && fld e 32 8 < stages && fld e 40 8 < stages
      && fld e 49 1 = 0 && fld e 64 128 = 0
    if ok then
      some { depth := fld e 0 13, esz := 64 * fld e 16 11, prod := fld e 32 8, cons := fld e 40 8, dev := bitOf e 48, home := none, base := 0,
             occ := [], nextSlot := 0, pushed := 0 }
    else none

end Sys2Proof.Machine
end

