-- ==== Sys2Proof/Machine/MatrixRun.lean ====
section
/-! DEFINITION. The matrix engine's entries as they run (R316 to R322, R327, R339, R340): steps and rows, retirement, and the tile status
update that follows. -/

namespace Sys2Proof.Machine

/-! ## Accumulators (R311) -/

/-- The offset in accumulator memory of a tile's element; none when it is unallocated. -/
def cellOff (t : CSlot) (r c : Nat) : Option Nat :=
  let off := (r * t.cols + c) * accSize t.fmt
  if off < t.nb * bankBytes then some (t.bank * bankBytes + off) else none

/-- The bank that an element falls in, for ACCW (R399). -/
def cellBank (t : CSlot) (r c : Nat) : Nat := (t.bank + (r * t.cols + c) * accSize t.fmt / bankBytes) % 32

/-- The value of an accumulator code. -/
def accVal (fmt code : Nat) : Num := if fmt = 0xF then readFp 0xF (code % 2 ^ 39) else readElt fmt code

/-- The value at an offset of a core's accumulator memory. -/
def accAt (s : State) (core fmt off : Nat) : Num := accVal fmt (rdNat (s.core core).acc off (accSize fmt))

/-- An accumulator element written by an engine. -/
def accPut (s : State) (ag : Ag) (core fmt off code : Nat) : State :=
  let n := accSize fmt
  writePlaces s ag ((List.range n).map fun i => .win core 1 (off + i)) (leBytes n code)

/-- Status bits of the tile status file (R321). -/
def tDNAN : Nat := 1
def tDINF : Nat := 2
def tUNALLOC : Nat := 0x80
def tBAND : Nat := 0x100

/-- The X bits of Ox conditions (R316, R321). -/
def xBits (b : Word) : Nat :=
  (if b &&& bNV != 0 then 0x200 else 0) + (if b &&& bOF != 0 then 0x400 else 0) + (if b &&& bUF != 0 then 0x800 else 0)
    + (if b &&& bNX != 0 then 0x1000 else 0)

/-- The D bits of drain conversions (R318, R321). -/
def dBits (b : Word) : Nat :=
  (if b &&& bNV != 0 then 4 else 0) + (if b &&& bOF != 0 then 8 else 0) + (if b &&& bUF != 0 then 0x10 else 0)
    + (if b &&& bNX != 0 then 0x20 else 0) + (if b &&& bNANSAT != 0 then 0x40 else 0)

/-! ## The work of an entry between its commit points (R327) -/

/-- The outcome of one step or row. -/
inductive StepEnd where
  | ok (s : State) (bits : Nat)
  | trap (s : State) (t : Trap)
  | fatal (s : State) (e : Nat × Word)

/-- An entry retires (R306, R322): its update becomes visible 12 cycles later, its signal and reply follow; while `rpq` has no room for the
reply the entry stays at the head (R14). -/
def retireMatrix (s : State) (k : Nat) (j : Job) (t : CSlot) (count : Nat) (drained stepped : Bool) : State :=
  let rpy := j.word.getLsbD 18
  if rpy && !replyRoom s k then s
  else
    let band := j.bytes &&& tBAND != 0
    let status := if band then 0x20 else if j.bytes &&& tUNALLOC != 0 then 0x21 else 0
    let reply := BitVec.ofNat 64 (fld j.word.toNat 0 16 + 2 ^ 16 * status + 2 ^ 24 * (j.num % 256) + 2 ^ 32 * (count % 2 ^ 32))
    let u : TileUpd := { due := s.cycle + 12, bank := t.bank, bits := BitVec.ofNat 13 j.bytes, drained, stepped, res := k,
                         signal := if mjobSig j.word && !band then some j.sem else none, reply := if rpy then some reply else none }
    let c := s.core (k / 4)
    retireHead (s.setCore (k / 4) { c with tupd := c.tupd ++ [u] }) k 0

/-- An entry's run from one commit point to the next (R327): its start where it is the first, one step or row, and its end with the last. -/
def runMatrix (s : State) (k : Nat) (j : Job) (t : CSlot) (total charge count : Nat) (drained stepped : Bool)
    (pre : State → StepEnd) (step : Nat → State → StepEnd) : State :=
  if j.started && j.cursor = total then retireMatrix s k j t count drained stepped
  else
    match pre (if j.started then s else vtCharge s k charge) with
    | .trap s x => engineTrap s k 0 j x j.cursor
    | .fatal s e => engineFatal s k j e
    | .ok s _ =>
      let go (s : State) (n bits : Nat) : State :=
        let j := { j with cursor := n, started := true, bytes := bits }
        let s := setJob s k 0 j
        if n = total then retireMatrix s k j t count drained stepped else s
      if j.cursor = total then go s total j.bytes
      else
        match step j.cursor s with
        | .ok s b => go s (j.cursor + 1) (j.bytes ||| b)
        | .trap s x => engineTrap s k 0 j x j.cursor
        | .fatal s e => engineFatal s k j e

/-- Nothing to do before the first step. -/
def noPre (s : State) : StepEnd := .ok s 0

/-! ## MGO (R316, R339, R340) -/

/-- The count of a level (R314). -/
def levelOfNest (n : Tab NestLvl) (l : Nat) : NestLvl := tget ⟨1, (0, 0), (0, 0), (0, 0)⟩ n l

/-- The steps of a nest. -/
def nestSteps (n : Tab NestLvl) : Nat := (List.range 6).foldl (fun t l => t * (levelOfNest n l).count) 1

/-- The loop indices of step number `i`, level 0 fastest. -/
def nestIndex (n : Tab NestLvl) (i : Nat) : List Nat :=
  ((List.range 6).foldl (fun (p : Nat × List Nat) l => let c := (levelOfNest n l).count; (p.1 / c, p.2 ++ [p.1 % c])) (i, [])).2

/-- A sum of strides over the loop indices. -/
def nestSum (n : Tab NestLvl) (ix : List Nat) (f : NestLvl → Int × Int) : Int × Int :=
  (List.range 6).foldl (fun a l =>
    let x := f (levelOfNest n l)
    let i : Int := (ix.getD l 0 : Nat)
    (a.1 + i * x.1, a.2 + i * x.2)) (0, 0)

/-- The line or row that a gather puts at row x: none reads as +0 (R348). -/
def gathered (g : Option (List Nat)) (x : Int) : Option Int :=
  match g with
  | none => some x
  | some is => if x < 0 then none else match is[x.toNat]? with | some i => some (i : Int) | none => none

/-- The operand A of a nest. -/
inductive OpA where
  | dense (m : Mat)
  | sparse (t : SpTile)

/-- The depth of a step (R315, R340). -/
def OpA.depth : OpA → Nat
  | .dense m => (stepDepth m.d.tag).getD 0
  | .sparse t => sparseDepth ((stepDepth t.d.tag).getD 0) t.h.n t.h.m

/-- The groups of a line that positions lo to hi − 1 meet, with their slots. -/
def lineGroups (T : SpTile) (m : Memory) (x lo hi : Nat) : List (Nat × List (Nat × Nat × Num)) :=
  if hi ≤ lo then []
  else (List.range ((hi - 1) / T.h.m + 1 - lo / T.h.m)).map fun i => let g := lo / T.h.m + i; (g, T.slots m x g)

/-- The element that an operand has at row x and column y: a row that a gather puts there is a stored row (R348; log entry 106). -/
def Mat.gathAt (M : Mat) (m : Memory) (g : Option (List Nat)) (x y : Int) : Num :=
  match gathered g x with
  | none => .zero false
  | some i => if g.isSome && M.d.trans then (if y < M.d.cols then M.valAt m y i else .zero false) else M.valAt m i y

/-- Row x of A′ from column k0 on (R336). -/
def rowOfA (s : State) (A : OpA) (gath : Option (List Nat)) (x k0 : Int) : List Num :=
  match A with
  | .dense M => (List.range A.depth).map fun (t : Nat) => M.gathAt (s.core M.core).scratch gath x (k0 + t)
  | .sparse T =>
    match gathered gath x with
    | none => List.replicate A.depth (.zero false)
    | some x =>
      if x < 0 ∨ (T.lines : Int) ≤ x then List.replicate A.depth (.zero false)
      else
        let gs := lineGroups T (s.core T.core).scratch x.toNat k0.toNat (min (T.len : Int) (k0 + A.depth)).toNat
        (List.range A.depth).map fun (t : Nat) =>
          let k := k0 + t
          if k < 0 ∨ (T.len : Int) ≤ k then .zero false
          else groupVal (tget [] gs (k.toNat / T.h.m)) (k.toNat % T.h.m)

/-- The trap of the groups that rows xs of A′ from column k0 on read (R337, R339): of the first, by ascending number, that fails its checks. -/
def groupTrap (s : State) (A : OpA) (gath : Option (List Nat)) (xs : List Int) (k0 : Int) : Option Trap :=
  match A with
  | .dense _ => none
  | .sparse T =>
    let lines := xs.filterMap fun x => (gathered gath x).bind fun x => if 0 ≤ x ∧ x < T.lines then some x.toNat else none
    let bad := lines.flatMap fun x =>
      (lineGroups T (s.core T.core).scratch x k0.toNat (min (T.len : Int) (k0 + A.depth)).toNat).filterMap fun g =>
        let c := groupCause T.h.m g.2
        if c = 0 then none else some (x * T.groups + g.1, spmeta T c (T.indexAt x g.1))
    (bad.foldl (fun m b => match m with | none => some b | some a => some (if b.1 < a.1 then b else a)) none).map (·.2)

/-- Column n of B from row k0 on. -/
def colOfB (s : State) (B : Mat) (gath : Option (List Nat)) (depth : Nat) (k0 n : Int) : List Num :=
  (List.range depth).map fun (t : Nat) => B.gathAt (s.core B.core).scratch gath (k0 + t) n

/-- The bytes of the element that stands at a row, after a gather, and a column. -/
def Mat.bytesAt (M : Mat) (g : Option (List Nat)) (i y : Int) : List (Nat × Nat) :=
  let (a, b) := if g.isSome && M.d.trans then (y, i) else (i, y)
  if 0 ≤ a ∧ a < M.d.rows ∧ 0 ≤ b ∧ b < M.d.cols ∧ y < M.d.cols then M.bytesOf a.toNat b.toNat else []

/-- The bytes of A that a step's row x reads. -/
def touchA (A : OpA) (gath : Option (List Nat)) (x k0 : Int) : List (Nat × Nat) :=
  match gathered gath x with
  | none => []
  | some x =>
    match A with
    | .dense M => (List.range A.depth).flatMap fun (t : Nat) => M.bytesAt gath x (k0 + t)
    | .sparse T =>
      if x < 0 ∨ (T.lines : Int) ≤ x then []
      else
        let lo := k0.toNat
        let hi := (min (T.len : Int) (k0 + A.depth)).toNat
        if hi ≤ lo then []
        else (List.range ((hi - 1) / T.h.m + 1 - lo / T.h.m)).flatMap fun i => T.bytesOf x.toNat (lo / T.h.m + i)

/-- The bytes of B that a step reads. -/
def touchB (B : Mat) (gath : Option (List Nat)) (depth : Nat) (k0 n : Int) : List (Nat × Nat) :=
  (List.range depth).flatMap fun (t : Nat) =>
    match gathered gath (k0 + t) with
    | none => []
    | some k => B.bytesAt gath k n

/-- The core whose scratchpad holds A. -/
def OpA.core : OpA → Nat | .dense m => m.core | .sparse t => t.core

/-- One dot unit's update of an accumulator (R255): the exact sum rounded once. -/
def dotStep (t : CSlot) (acc : Num) (a b : List Num) : Nat × Nat :=
  let ps := List.zipWith mulNum a b
  let (v, nv) := sumNum t.rnd (acc :: ps.map (·.1))
  let (c, r) := roundTo t.fmt t.rnd t.inf v
  (c, xBits (ps.foldl (fun w p => w ||| p.2) (nv ||| r)))

/-- Whether two sets of byte ranges share a byte. -/
def rangesMeet (as bs : List (Nat × Nat)) : Bool := as.any fun a => bs.any fun b => a.1 < b.1 + b.2 && b.1 < a.1 + a.2

/-- An operand fetch of a nest with a multicast setting (R323): a share is counted where a nest of another core that both settings mask, under the same
key, has fetched a byte of it from the same scratchpad within 64 cycles (log entry 105). -/
def castFetch (s : State) (core : Nat) (mc : BitVec 12) (pad : Nat) (rs : List (Nat × Nat)) : State :=
  if mc.extractLsb' 0 4 = 0 || rs.isEmpty then s
  else
    let near (e : Nat × BitVec 12 × Nat × List (Nat × Nat)) : Bool := s.cycle ≤ e.1 + 64
    let shared := (List.range 4).any fun i =>
      let k := core / 4 * 4 + i
      k ≠ core && mc.getLsbD i && (s.core k).casts.any fun e =>
        near e && e.2.1.getLsbD (core % 4) && e.2.1.extractLsb' 4 8 = mc.extractLsb' 4 8 && e.2.2.1 = pad && rangesMeet e.2.2.2 rs
    let c := s.core core
    let c := { c with casts := c.casts.filter near ++ [(s.cycle, mc, pad, rs)] }
    s.setCore core (if shared then countUp c 5 else c)

/-- One step of a nest (R316). -/
def mgoStep (k : Nat) (j : Job) (t : CSlot) (A : OpA) (B : Mat) (i : Nat) (s : State) : StepEnd :=
  let core := k / 4
  let ag := engineAg s k 0
  let org := (arg j.args 0).toNat
  let ix := nestIndex j.nest i
  let (ar, ak) := nestSum j.nest ix (·.sa)
  let (bk, bn) := nestSum j.nest ix (·.sb)
  let (dr, dc) := nestSum j.nest ix (·.sc)
  let cr : Int := (fld org 0 16 : Nat) + dr
  let cc : Int := (fld org 16 16 : Nat) + dc
  let rs := (List.range 16).filter fun (r : Nat) => 0 ≤ cr + r && cr + r < t.rows
  let cs := (List.range 24).filter fun (c : Nat) => 0 ≤ cc + c && cc + c < t.cols
  let cells := rs.flatMap fun (r : Nat) => cs.map fun (c : Nat) => (r, c, (cr + r).toNat, (cc + c).toNat)
  match cells.find? fun x => (cellOff t x.2.2.1 x.2.2.2).isNone with
  | some x => .trap s (trapACCW (cellBank t x.2.2.1 x.2.2.2))
  | none =>
    let rs := if cells.isEmpty then [] else rs
    let cs := if cells.isEmpty then [] else cs
    let bytesA := rs.flatMap fun (r : Nat) => touchA A j.gathA (ar + r) ak
    let bytesB := cs.flatMap fun (c : Nat) => touchB B j.gathB A.depth bk (bn + c)
    match touchPad s ag A.core bytesA with
    | (.error e, s) => .fatal s e
    | (.ok (), s) =>
      match touchPad s ag B.core bytesB with
      | (.error e, s) => .fatal s e
      | (.ok (), s) =>
        let s := castFetch (castFetch s core j.mcast A.core bytesA) core j.mcast B.core bytesB
        match groupTrap s A j.gathA (rs.map fun (r : Nat) => ar + r) ak with
        | some x => .trap s x
        | none =>
          let ra := rs.map fun (r : Nat) => (r, rowOfA s A j.gathA (ar + r) ak)
          let cb := cs.map fun (c : Nat) => (c, colOfB s B j.gathB A.depth bk (bn + c))
          let news := cells.filterMap fun x =>
            (cellOff t x.2.2.1 x.2.2.2).map fun off => (off, dotStep t (accAt s core t.fmt off) (tget [] ra x.1) (tget [] cb x.2.1))
          .ok (news.foldl (fun s x => accPut s ag core t.fmt x.1 x.2.1) s) (news.foldl (fun b x => b ||| x.2.2) 0)

/-- The header of a sparse A that an entry has read, or that it reads at its start (R339), or the trap of its checks. -/
def readHeader (s : State) (k : Nat) (ag : Ag) (d : Desc) (had : Option Nat) : Except (Nat × Word) (Except Trap (Nat × SpTile)) × State :=
  match placeSparse (k / 4) d with
  | none => (.ok (.error trapILL), s)
  | some (core, off, hoff, soff) =>
    match if had.isSome then (.ok (), s) else touchPad s ag core [(hoff, 16)] with
    | (.error e, s) => (.error e, s)
    | (.ok (), s) =>
      let x := had.getD (rdNat (s.core core).scratch hoff 16)
      let T : SpTile := ⟨d, SpHdr.of x, core, off, hoff, soff⟩
      let c := headerCause x T
      (.ok (if c = 0 then .ok (x, T) else .error (spmetaHdr T c)), s)

/-- The charge of an entry with a sparse A, by the header as it stands (R349). -/
def sparseCharge (s : State) (k : Nat) (d : Desc) : Nat :=
  match placeSparse (k / 4) d with
  | none => 1
  | some (core, _, hoff, _) =>
    let x := rdNat (s.core core).scratch hoff 16
    let h := SpHdr.of x
    if h.magic = 0xD5 ∧ h.csum = csumOf x then max 1 h.ecyc else 1

/-- MGO_ENTRY_RUN (R316, R327): the `MGO` at the head of a resident's `mq`. -/
def execMgoEntryRun (core res : Nat) (s : State) : Done :=
  let k := 4 * core + res
  .next (
    match headOf s k 0 0x042 with
    | none => s
    | some j =>
      match j.tile, j.descs with
      | some t, [xa, xb] =>
        let da := Desc.of xa
        let total := nestSteps j.nest
        match placeMat core (Desc.of xb) false with
        | none => s
        | some B =>
          if da.sparse then
            if j.started && j.cursor = total then retireMatrix s k j t total false true
            else
              let charge := j.charge.getD (sparseCharge s k da)
              match readHeader s k (engineAg s k 0) da j.hdr with
              | (.error e, s) => engineFatal s k j e
              | (.ok (.error x), s) => engineTrap (if j.started then s else vtCharge s k charge) k 0 j x j.cursor
              | (.ok (.ok (x, T)), s) =>
                let pre (s : State) : StepEnd := if gatherOk j.gathA T.lines then .ok s 0 else .trap s trapILL
                let step (i : Nat) (s : State) : StepEnd := mgoStep k j t (.sparse T) B i s
                runMatrix s k { j with hdr := some x } t total charge total false true pre step
          else
            match placeMat core da true with
            | none => s
            | some A => runMatrix s k j t total total total false true noPre (mgoStep k j t (.dense A) B)
      | _, _ => s)

/-! ## The drain path (R317 to R320) -/

/-- The offsets of a region's row, or ACCW at the first element that is unallocated (R311). -/
def rowOffs (t : CSlot) (r : TileReg) (i : Nat) : Except Trap (List Nat) :=
  (List.range r.cols).mapM fun c =>
    match cellOff t (r.row0 + i) (r.col0 + c) with
    | some off => .ok off
    | none => .error (trapACCW (cellBank t (r.row0 + i) (r.col0 + c)))

/-- The charge of a drain-path entry (R325). -/
def TileReg.charge (r : TileReg) : Nat := cdiv (r.rows * r.cols) 384

/-- A row of `MZERO` (R317). -/
def mzeroStep (k : Nat) (t : CSlot) (r : TileReg) (i : Nat) (s : State) : StepEnd :=
  match rowOffs t r i with
  | .error x => .trap s x
  | .ok offs => .ok (offs.foldl (fun s o => accPut s (engineAg s k 0) (k / 4) t.fmt o 0) s) 0

/-- MZERO_ENTRY_RUN (R317). -/
def execMzeroEntryRun (core res : Nat) (s : State) : Done :=
  let k := 4 * core + res
  .next (
    match headOf s k 0 0x046 with
    | none => s
    | some j =>
      match j.tile with
      | none => s
      | some t =>
        let r := TileReg.of (arg j.args 0)
        runMatrix s k j t r.rows r.charge (r.rows * r.cols) false false noPre (mzeroStep k t r))

/-- A row of `MLDACC` (R317). -/
def mldaccStep (k : Nat) (t : CSlot) (M : Mat) (r : TileReg) (i : Nat) (s : State) : StepEnd :=
  match rowOffs t r i with
  | .error x => .trap s x
  | .ok offs =>
    let ag := engineAg s k 0
    match touchPad s ag M.core ((List.range r.cols).flatMap fun c => M.bytesOf i c) with
    | (.error e, s) => .fatal s e
    | (.ok (), s) =>
      let m := (s.core M.core).scratch
      let news := (List.range r.cols).zip offs |>.map fun p => (p.2, convNum t.fmt t.rnd t.inf (M.val m i p.1))
      .ok (news.foldl (fun s x => accPut s ag (k / 4) t.fmt x.1 x.2.1) s) (news.foldl (fun b x => b ||| xBits x.2.2) 0)

/-- MLDACC_ENTRY_RUN (R317). -/
def execMldaccEntryRun (core res : Nat) (s : State) : Done :=
  let k := 4 * core + res
  .next (
    match headOf s k 0 0x047 with
    | none => s
    | some j =>
      match j.tile, j.descs with
      | some t, [x] =>
        match placeMat core (Desc.of x) true with
        | none => s
        | some M =>
          let r := TileReg.of (arg j.args 0)
          runMatrix s k j t r.rows r.charge (r.rows * r.cols) false false noPre (mldaccStep k t M r)
      | _, _ => s)

/-- Whether an entry is refused by the drain groups it captured (R313). -/
def bandRefused (t : CSlot) (r : TileReg) (grp : Nat) : Bool := (List.range r.rows).any fun i => tget 0 t.bands (r.row0 + i) ≠ grp

/-- A tile element as a drain or peer-add reads it, with the status bits of the read (R311, R318). -/
def drainRead (s : State) (core : Nat) (t : CSlot) (row col : Nat) : Num × Nat :=
  match cellOff t row col with
  | none => (.zero false, tUNALLOC)
  | some off =>
    let x := accAt s core t.fmt off
    (x, (if x.isNan then tDNAN else 0) + (if x.isInf then tDINF else 0))

/-- A drain scale's or bias's value for element (i, j) of a region (R319). -/
def drainVal (s : State) (core : Nat) (d : DrainSet) (r : TileReg) (i c : Nat) : Num :=
  if d.mode = 0 then f32 (d.v.setWidth 32)
  else
    match padLoc core d.v.toNat with
    | none => .zero false
    | some (k, off) => readFp 1 (rdNat (s.core k).scratch (off + 4 * (if d.mode = 1 then r.col0 + c else r.row0 + i)) 4)

/-- The bytes of a drain setting's array that a row reads. -/
def drainTouch (core : Nat) (d : DrainSet) (r : TileReg) (i : Nat) : List (Nat × Nat) :=
  if d.mode = 0 then []
  else
    match padLoc core d.v.toNat with
    | none => []
    | some (_, off) => if d.mode = 1 then [(off + 4 * r.col0, 4 * r.cols)] else [(off + 4 * (r.row0 + i), 4)]

/-- The value that a drain converts (R318): scaled and biased as the fmt operand asks, with the bits raised. -/
def drained (s : State) (core : Nat) (j : Job) (m : Rnd) (r : TileReg) (i c : Nat) (x : Num) : Num × Word :=
  let (y, b) := if j.fmt.getLsbD 11 then mulNum x (drainVal s core j.dscale r i c) else (x, 0)
  if j.fmt.getLsbD 12 then
    let (z, b') := sumNum m [y, drainVal s core j.dbias r i c]
    (z, b ||| b')
  else (y, b)

/-- A row of converted values written to a plain or block-scaled matrix (R318). -/
def drainRow (s : State) (ag : Ag) (M : Mat) (m : Rnd) (ovf : Bool) (i : Nat) (ys : List Num) : State × Word :=
  let f := tagFmt M.d.tag
  if tagBlk M.d.tag then
    (List.range (ys.length / 32)).foldl (fun p b =>
      let q := quantise f m ((ys.drop (32 * b)).take 32)
      let s := (List.range 32).foldl (fun s e => M.put s ag i (32 * b + e) (q.codes.getD e 0)) p.1
      let s := padWrite s ag M.core (M.scaleAt i (32 * b)) (if M.d.bs = 2 then leBytes 2 (q.scale + 256 * q.spare) else leBytes 1 q.scale)
      (s, q.bits.foldl (· ||| ·) p.2)) (s, 0)
  else
    (List.range ys.length).foldl (fun p c =>
      let (code, b) := convNum f m ovf (ys.getD c .qnan)
      (M.put p.1 ag i c code, p.2 ||| b)) (s, 0)

/-- A row of `MDRAIN` (R318, R319). -/
def mdrainStep (k : Nat) (j : Job) (t : CSlot) (M : Mat) (m : Rnd) (r : TileReg) (i : Nat) (s : State) : StepEnd :=
  let core := k / 4
  let ag := engineAg s k 0
  let arrays := (if j.fmt.getLsbD 11 then drainTouch core j.dscale r i else [])
    ++ (if j.fmt.getLsbD 12 then drainTouch core j.dbias r i else [])
  match touchPad s ag core arrays with
  | (.error e, s) => .fatal s e
  | (.ok (), s) =>
    match touchPad s ag M.core ((List.range r.cols).flatMap fun c => M.bytesOf i c) with
    | (.error e, s) => .fatal s e
    | (.ok (), s) =>
      let xs := (List.range r.cols).map fun c => drainRead s core t (r.row0 + i) (r.col0 + c)
      let ys := (List.range r.cols).map fun c => drained s core j m r i c (xs.getD c (.qnan, 0)).1
      let (s, b) := drainRow s ag M m (fmtOvf j.fmt) i (ys.map (·.1))
      let b := ys.foldl (fun w y => w ||| y.2) b
      .ok s (xs.foldl (fun n x => n ||| x.2) (dBits b))

/-- An entry that reads a tile's region under a drain group: one that the groups refuse is charged, and retires with nothing done (R313, R325). -/
def runDrain (s : State) (k : Nat) (j : Job) (t : CSlot) (r : TileReg) (step : Nat → State → StepEnd) : State :=
  if !j.started && bandRefused t r (fld j.fmt.toNat 9 2) then
    let j := { j with bytes := tBAND, cursor := r.rows, started := true }
    retireMatrix (setJob (vtCharge s k r.charge) k 0 j) k j t 0 true false
  else runMatrix s k j t r.rows r.charge (if j.bytes &&& tBAND != 0 then 0 else r.rows * r.cols) true false noPre step

/-- MDRAIN_ENTRY_RUN (R318). -/
def execMdrainEntryRun (core res : Nat) (s : State) : Done :=
  let k := 4 * core + res
  .next (
    match headOf s k 0 0x048 with
    | none => s
    | some j =>
      match j.tile, j.descs, rndOf (fmtRm j.fmt) with
      | some t, [x], some m =>
        match placeMat core (Desc.of x) true with
        | none => s
        | some M =>
          let r := TileReg.of (arg j.args 0)
          runDrain s k j t r (mdrainStep k j t M m r)
      | _, _, _ => s)

/-- Whether a bank of a core is bound to some tile (R320). -/
def bankBound (s : State) (core bank : Nat) : Bool :=
  [0, 1, 2, 3].any fun r => (s.res (4 * core + r)).slots.any fun e => e.2.bank ≤ bank && bank < e.2.bank + e.2.nb

/-- A row of `MPEER` (R320), for a destination at an offset of core `pc`. -/
def mpeerStep (k : Nat) (j : Job) (t : CSlot) (pc poff : Nat) (r : TileReg) (i : Nat) (s : State) : StepEnd :=
  let es := accSize t.fmt
  let dcols := fld j.fmt.toNat 11 16
  let offs := (List.range r.cols).map fun c => poff + (i * dcols + c) * es
  match offs.find? fun o => !bankBound s pc (o / bankBytes) with
  | some o => .trap s (trapACCW (o / bankBytes))
  | none =>
    let (s, b) := (List.range r.cols).foldl (fun p c =>
      let o := offs.getD c 0
      let (x, rb) := drainRead p.1 (k / 4) t (r.row0 + i) (r.col0 + c)
      let (v, nv) := sumNum t.rnd [accAt p.1 pc t.fmt o, x]
      let (code, cb) := roundTo t.fmt t.rnd t.inf v
      (accPut p.1 (engineAg p.1 k 0) pc t.fmt o code, p.2 ||| rb ||| dBits (nv ||| cb))) (s, 0)
    .ok s b

/-- MPEER_ENTRY_RUN (R320). -/
def execMpeerEntryRun (core res : Nat) (s : State) : Done :=
  let k := 4 * core + res
  .next (
    match headOf s k 0 0x049 with
    | none => s
    | some j =>
      match j.tile, accLoc core (arg j.args 1).toNat with
      | some t, some (pc, poff) =>
        let r := TileReg.of (arg j.args 0)
        runDrain s k j t r (mpeerStep k j t pc poff r)
      | _, _ => s)

/-! ## Status (R322) -/

/-- A retired entry's update shown, then its signal and its reply. -/
def showUpdate (s : State) (core : Nat) (u : TileUpd) : State :=
  let c := s.core core
  let s := match tget? c.tstat u.bank with
    | some x =>
      let x := { x with bits := x.bits ||| u.bits, dseq := if u.drained then x.dseq + 1 else x.dseq, gseq := if u.stepped then x.gseq + 1 else x.gseq }
      s.setCore core { c with tstat := tset c.tstat u.bank x }
    | none => s
  let ag := engineAgent u.res 0
  let s := match u.signal with | some v => signalView s u.res v 1 ag | none => s
  match u.reply with | some v => postReply s u.res v ag | none => s

/-- TILE_STATUS_VISIBLE (R322): the updates of a core whose 12 cycles have passed. -/
def execTileStatusVisible (core : Nat) (s : State) : Done :=
  let c := s.core core
  let s := s.setCore core { c with tupd := c.tupd.filter fun u => s.cycle < u.due }
  .next ((c.tupd.filter fun u => u.due ≤ s.cycle).foldl (fun s u => showUpdate s core u) s)

end Sys2Proof.Machine
end

