-- ==== Sys2Proof/Machine/Sparse.lean ====
section
/-! DEFINITION. The sparsity routines (R341 to R349). -/

namespace Sys2Proof.Machine

/-- Whether every earlier access of the current context is performed, so that the routine's own loads follow them in the strand's queues and see its
stores (R73, R75, R342). -/
def ownAccessesDone (s : State) : Bool := s.cctx.memq.isEmpty

/-- A blocking routine's own loads wait for its strand's earlier accesses (R75, R342). -/
def afterOwn (s : State) (go : Except Trap RunOut) : Except Trap RunOut := if ownAccessesDone s then go else .ok (.stall s .blocking 0)

/-- The bytes of scratchpads that a routine touches, filled first (R226); a fault of a fill ends the launch. -/
def touching (s : State) (rs : List (Nat × List (Nat × Nat))) (go : State → RunOut) : RunOut :=
  match rs.foldl (fun (p : Except (Nat × Word) Unit × State) r =>
    match p.1 with | .ok () => touchPad p.2 (strandAg s s.w) r.1 r.2 | .error _ => p) (.ok (), s) with
  | (.error e, _) => .fatal e.1 e.2 1
  | (.ok (), s) => go s

/-! ## SPHDR (R343) -/

/-- One store of 8 bytes into the strand's store queue (R343). -/
def queueStore (s : State) (q : Bool) (va : Word) (v : Nat) : Except (Nat × Word) State :=
  match resolve s (strandAg s s.w) va 8 .wr .store with
  | (.error e, _) => .error e
  | (.ok ps, s) => .ok (enqueue s q (.store (leBytes 8 v)) ps va)

/-- A chunk that a store of 16 bytes would still have to fill. -/
def storeUnfilled (s : State) (va : Word) : Option Nat :=
  match resolve s (strandAg s s.w) va 16 .wr .store with
  | (.ok ps, s') => unfilled s' (strandAg s s.w) ps
  | _ => none

/-- The definition of `SPHDR`. -/
def sphdrDef (q : Bool) : SrlDef :=
  fun args s => orRun do
    let va := arg args 0
    let x := (arg args 1).toNat
    let y := fld (arg args 2).toNat 0 48
    needILL (va.toNat % 8 = 0)
    match storeUnfilled s va with
    | some c =>
      match takeBadFill s (resKeyOf s.w) c with
      | some (e, u) => .ok (if squashed s q then .ok u [] else .fatal e.1 e.2 1)
      | none => .ok (.stall (s.setCres { s.cres with fills := s.cres.fills.filter (· ≠ c) ++ [c] }) .fill 0)
    | none =>
      if counterMax < s.cctx.nStores + 2 then .ok (.stall s .counter 0)
      else
        match queueStore s q va x with
        | .error e => .ok (.fatal e.1 e.2 1)
        | .ok s1 =>
          match queueStore s1 q (va + 8) (2 ^ 48 * csumOf (x + 2 ^ 64 * y) + y) with
          | .error e => .ok (if squashed s q then .ok s1 [] else .fatal e.1 e.2 2)
          | .ok s2 => .ok (.ok s2 [])

/-- `SPHDR` (R343). -/
def execSphdr (q : Bool) (a lo hi : BitVec 6) (s : State) : Done :=
  callSrl 0x060 false 0 1 q [.s a, .s lo, .s hi] (sphdrDef q) s

/-! ## SPATTACH and SPCHK (R344, R345) -/

/-- A sparse tile at the places of a descriptor, its header read. -/
def readTile (s : State) (d : Desc) : Option (Nat × SpTile) :=
  (placeSparse (nodeOf s.w) d).map fun (core, off, hoff, soff) =>
    let x := rdNat (s.core core).scratch hoff 16
    (x, ⟨d, SpHdr.of x, core, off, hoff, soff⟩)

/-- The header's bytes of a descriptor, to be touched. -/
def hdrTouch (s : State) (d : Desc) : List (Nat × List (Nat × Nat)) :=
  match placeSparse (nodeOf s.w) d with
  | some (core, _, hoff, _) => [(core, [(hoff, 16)])]
  | none => []

/-- The definition of `SPATTACH`. -/
def spattachDef (q : Bool) (qd : BitVec 4) : SrlDef :=
  fun args s => orRun do
    let (n, x) ← qsrc s qd
    let va := (arg args 1).toNat
    let d := Desc.of x
    needILL (!d.sparse && va % 16 = 0 && va < 2 ^ 57)
    let d := { d with sparse := true, sphdr := va }
    needILL (placeSparse (nodeOf s.w) d).isSome
    afterOwn s (.ok (touching s (hdrTouch s d) fun s =>
      match readTile s d with
      | none => .trap trapILL
      | some (y, T) =>
        let c := headerCause y T
        if c ≠ 0 then .step s (spmetaHdr T c) 0 1
        else
          let new := fourWords (x.setWidth 64) (x.extractLsb' 64 64) (x.extractLsb' 128 64 ||| 0x40) (BitVec.ofNat 64 va)
          setting s q fun s => s.setCctx { s.cctx with qd := tset s.cctx.qd n new }))

/-- `SPATTACH` (R344). -/
def execSpattach (q : Bool) (qd : BitVec 4) (hdr : BitVec 6) (s : State) : Done :=
  callSrl 0x066 false 0 1 q [.q qd, .s hdr] (spattachDef q qd) s

/-- Every group of a tile by its number, to the first that fails its checks (R337): its cause and number. -/
def scanGroups (T : SpTile) (m : Memory) : Nat → Nat → Option (Nat × Nat)
  | 0, _ => none
  | fuel + 1, g =>
    let c := groupCause T.h.m (T.slots m (g / T.groups) (g % T.groups))
    if c ≠ 0 then some (c, g) else scanGroups T m fuel (g + 1)

/-- Whether a block of M lines from line x and group g has a position that more than N nonzero slots hold (R337, check 10). -/
def blockOver (T : SpTile) (m : Memory) (x g : Nat) : Bool :=
  let ps := (List.range T.h.m).flatMap fun i => (T.slots m (x + i) g).filterMap fun s => if s.2.2.isZero then none else some s.1
  (List.range T.h.m).any fun p => T.h.n < ps.count p

/-- The pattern check over every block, to the first that fails: the number of its first group. -/
def scanBlocks (T : SpTile) (m : Memory) : Nat → Nat → Option Nat
  | 0, _ => none
  | fuel + 1, b =>
    let x := b / T.groups * T.h.m
    if blockOver T m x (b % T.groups) then some (x * T.groups + b % T.groups) else scanBlocks T m fuel (b + 1)

/-- The pattern check of a whole tile: the number of the first group of the failing block. -/
def patternCause (T : SpTile) (m : Memory) : Option Nat := scanBlocks T m (T.lines / T.h.m * T.groups) 0

/-- The checks after the header's (R337): the cause and the number of the failing group. -/
def tileCause (T : SpTile) (m : Memory) (pattern : Bool) : Option (Nat × Nat) :=
  match scanGroups T m (T.lines * T.groups) 0 with
  | some r => some r
  | none => if pattern then (patternCause T m).map fun g => (0xA, g) else none

/-- The bytes of some lines of a tile from line x on. -/
def SpTile.touchLines (T : SpTile) (x n : Nat) : List (Nat × List (Nat × Nat)) :=
  let lineBytes := cdiv (T.groups * T.h.n * T.d.w) 8
  let per := T.groups * T.h.n * (T.h.iw + 1)
  let sc := cdiv T.len 32 * T.d.bs
  [(T.core, (T.hoff + 16 + x * per / 8, cdiv ((x + n) * per) 8 - x * per / 8)
    :: ((List.range n).map fun i => (T.off + (x + i) * T.d.rstride, lineBytes))
      ++ (if tagBlk T.d.tag then [(T.soff + x * sc, n * sc)] else []))]

/-- The bytes of a whole tile. -/
def SpTile.touch (T : SpTile) : List (Nat × List (Nat × Nat)) := T.touchLines 0 T.lines

/-- The number of commit points that a definition has passed, and what it keeps behind that (R180). -/
def passed (args : List Word) (n : Nat) : Nat := (arg args n).toNat
def kept (args : List Word) (n k : Nat) : Word := arg args (n + 1 + k)

/-- A header as the two words that a routine keeps of it, and back. -/
def hdrWords (x : Nat) : List Word := [BitVec.ofNat 64 x, BitVec.ofNat 64 (x / 2 ^ 64)]
def hdrOf (args : List Word) (n : Nat) : Nat := (kept args n 0).toNat + 2 ^ 64 * (kept args n 1).toNat

/-- A sparse tile by its descriptor: its header read from the scratchpad before the first commit point, and as it was kept after one. -/
def heldTile (s : State) (d : Desc) (args : List Word) (n : Nat) : Option (Nat × SpTile) :=
  if passed args n = 0 then readTile s d
  else (placeSparse (nodeOf s.w) d).map fun (core, off, hoff, soff) => (hdrOf args n, ⟨d, SpHdr.of (hdrOf args n), core, off, hoff, soff⟩)

/-- The definition of `SPCHK`: the header, the groups line after line, a commit point after each line, then the pattern. -/
def spchkDef (d : BitVec 6) (qa : BitVec 4) : SrlDef :=
  fun args s => orRun do
    let (_, x) ← qsrc s qa
    let de := Desc.of x
    let line := passed args 2
    needILL (de.sparse && (placeSparse (nodeOf s.w) de).isSome)
    afterOwn s (.ok (touching s (if line = 0 then hdrTouch s de else []) fun s =>
      match heldTile s de args 2 with
      | none => .trap trapILL
      | some (y, T) =>
        let c := headerCause y T
        let stamp := if c = 1 ∨ c = 2 then 0 else T.h.stamp
        let out (s : State) (c g : Nat) : RunOut := .ok s (toS s.regs d (BitVec.ofNat 64 (c + 2 ^ 16 * stamp + 2 ^ 32 * (g % 2 ^ 32))))
        if c ≠ 0 then out s c 0
        else if line < T.lines then
          touching s (T.touchLines line 1) fun s =>
            match scanGroups T (s.core T.core).scratch T.groups (line * T.groups) with
            | some (c, g) => out s c g
            | none => .commit s 0 (hdrWords y)
        else
          match if T.h.tp then patternCause T (s.core T.core).scratch else none with
          | some g => out s 0xA g
          | none => out s 0 0))

/-- `SPCHK` (R345). -/
def execSpchk (q : Bool) (d : BitVec 6) (qa : BitVec 4) (s : State) : Done :=
  callSrl 0x061 false 0 1 q [.s d, .q qa] (spchkDef d qa) s

/-! ## SPPRUNE and SPXPOSE (R346, R347) -/

/-- Whether a byte range meets rows of `nb` bytes, `n` of them a stride apart from `off` on. -/
def meetsRows (a len off n stride nb : Nat) : Bool :=
  let i := if a < off + nb then 0 else if stride = 0 then n else (a - off - nb) / stride + 1
  i < n && off + i * stride < a + len

/-- A larger magnitude, NaN above every number (R346). -/
def biggerThan (x y : Num) : Bool := if x.isNan then !y.isNan else !y.isNan && cmpNum x.abs y.abs == .gt

/-- An element put in its place in a list from the largest magnitude down, after its equals. -/
def insertBig {α : Type} (v : α → Num) (x : α) : List α → List α
  | [] => [x]
  | y :: ys => if biggerThan (v x) (v y) then x :: y :: ys else y :: insertBig v x ys

/-- Elements in falling order of magnitude, equals in their order. -/
def byMagnitude {α : Type} (v : α → Num) (xs : List α) : List α := xs.foldl (fun l x => insertBig v x l) []

/-- The kept elements of a transposable block (R346): from the largest on, while line and position each hold fewer than N. -/
def acceptBlock (n : Nat) : List (Nat × Nat) → List (Nat × Nat) → List (Nat × Nat)
  | acc, [] => acc
  | acc, (x, p) :: rest =>
    if (acc.filter fun e => e.1 = x).length < n && (acc.filter fun e => e.2 = p).length < n then acceptBlock n (acc ++ [(x, p)]) rest
    else acceptBlock n acc rest

/-- The slots of a group from its kept positions (R346): padded from the lowest free position on, in rising order of position. -/
def padSlots (n m : Nat) (kept : List Nat) : List Nat :=
  let pads := ((List.range m).filter fun p => !kept.contains p).take (n - kept.length)
  (List.range m).filter fun p => kept.contains p || pads.contains p

/-- The pattern and the codes of a tile that a routine writes: for each line and group the positions of its slots, and the code at each. -/
structure Pruned where
  slots : Nat → Nat → List Nat
  code : Nat → Nat → Nat → Nat

/-- Elements of a width as bytes. -/
def packBytes (w : Nat) (cs : List Nat) : List Byte := leBytes (cdiv (w * cs.length) 8) (packElts w cs)

/-- The bytes of the index array that line x of a tile fills, from the one that its first index begins in: the array's first byte there, and what the
lines up to x put into these bytes (R335). -/
def indexLine (T : SpTile) (P : Pruned) (x : Nat) : Nat × List Byte :=
  let per := T.groups * T.h.n * (T.h.iw + 1)
  let b := x * per / 8
  let l0 := 8 * b / max 1 per
  let v := packElts (T.h.iw + 1) ((List.range (x + 1 - l0)).flatMap fun i => (List.range T.groups).flatMap fun g => P.slots (l0 + i) g)
  (b, leBytes (cdiv ((x + 1) * per) 8 - b) (v / 2 ^ (8 * b - l0 * per)))

/-- What a routine stores for line x of a tile (R346), by offset of its scratchpad: its packed elements, its scale entries and its indices. -/
def lineStores (T : SpTile) (P : Pruned) (scales : Nat → List Byte) (x : Nat) : List (Nat × List Byte) :=
  let ix := indexLine T P x
  [(T.off + x * T.d.rstride, packBytes T.d.w ((List.range T.groups).flatMap fun g => (P.slots x g).map (P.code x g)))]
    ++ (if tagBlk T.d.tag then [(T.soff + x * (cdiv T.len 32 * T.d.bs), scales x)] else [])
    ++ [(T.hoff + 16 + ix.1, ix.2)]

/-- Stores into a scratchpad put into the strand's store queue (R75, R342). -/
def queuePad (q : Bool) (core : Nat) (ws : List (Nat × List Byte)) (s : State) : State :=
  ws.foldl (fun s w => enqueue s q (.store w.2) ((List.range w.2.length).map fun i => .win core 0 (w.1 + i)) (padAddr core w.1)) s

/-- The bytes that such stores touch. -/
def storesTouch (core : Nat) (ws : List (Nat × List Byte)) : List (Nat × List (Nat × Nat)) := [(core, ws.map fun w => (w.1, w.2.length))]

/-- The lines that a routine writes between two commit points (R346): one, or the M of a transposable block. -/
def SpTile.stepLines (T : SpTile) : Nat := if T.h.tp then T.h.m else 1

/-- A tile written up to its next commit point (R346): the lines of step `i` into the store queue; after the last of them the header. -/
def writeStep (s : State) (q : Bool) (T : SpTile) (P : Pruned) (scales : Nat → List Byte) (i : Nat) (bits : Word) (keep : List Word) : RunOut :=
  let ws := if i * T.stepLines < T.lines
    then (List.range T.stepLines).flatMap fun j => lineStores T P scales (i * T.stepLines + j)
    else [(T.hoff, T.h.bytes)]
  touching s (storesTouch T.core ws) fun s =>
    let s := queuePad q T.core ws s
    if i * T.stepLines < T.lines then .commit s bits keep else .ok s []

/-- The checks of `SPPRUNE` that trap ILL, up to the places of its tiles (R346). -/
def pruneOk (dd ds : Desc) (opt : Nat) : Bool :=
  let n := fld opt 0 4
  let m := fld opt 4 5
  let dir := bitOf opt 10
  nmOk n m && fld opt 11 5 = 0 && fld opt 32 32 = 0 && !ds.sparse && dd.sparse && !ds.trans && !dd.trans
    && ds.rows = dd.rows && ds.cols = dd.cols && ds.rows ≠ 0 && ds.cols ≠ 0 && lengthOf ds dir % m = 0
    && !(bitOf opt 9 && linesOf ds dir % m ≠ 0) && dd.sphdr % 16 = 0

/-- The tile that `SPPRUNE` writes, where its whole extent lies in its scratchpad. -/
def pruneTile (core : Nat) (dd : Desc) (opt : Nat) : Option SpTile :=
  let n := fld opt 0 4
  let m := fld opt 4 5
  let dir := bitOf opt 10
  match placeSparse core dd with
  | none => none
  | some (k, off, hoff, soff) =>
    let lines := linesOf dd dir
    let h : SpHdr := { magic := 0xD5, n, m, dir, tp := bitOf opt 9, iw := Nat.log2 m - 1, rows := dd.rows, cols := dd.cols,
                       ecyc := match stepDepth dd.tag with | some k => expectedCycles k n m lines (lengthOf dd dir) 24 | none => 0,
                       resv := 0, stamp := fld opt 16 16, csum := 0 }
    let T : SpTile := ⟨dd, h, k, off, hoff, soff⟩
    if padBytes < hoff + 16 + indexBytes lines T.groups n h.iw || padBytes < off + (lines - 1) * dd.rstride + cdiv (T.groups * n * dd.w) 8
        || (tagBlk dd.tag && padBytes < soff + lines * cdiv T.len 32 * dd.bs) then none
    else some T

/-- Whether a tile to be written meets the elements of a dense matrix (R346). -/
def pruneMeets (T : SpTile) (M : Mat) : Bool :=
  let hit (a len : Nat) : Bool := meetsRows a len M.off M.d.rows M.d.rstride (cdiv (M.d.cols * M.d.w) 8)
  T.core = M.core &&
    (hit T.hoff (16 + indexBytes T.lines T.groups T.h.n T.h.iw)
      || (tagBlk T.d.tag && hit T.soff (T.lines * cdiv T.len 32 * T.d.bs))
      || (List.range T.lines).any fun x => hit (T.off + x * T.d.rstride) (cdiv (T.groups * T.h.n * T.d.w) 8))

/-- What `SPPRUNE` keeps of a dense matrix (R346). -/
def pruneOf (T : SpTile) (M : Mat) (m : Memory) : Pruned :=
  let el (x p : Nat) : Nat × Nat := if T.h.dir then (p, x) else (x, p)
  let val (x p : Nat) : Num := let (i, j) := el x p; M.val m i j
  let mm := T.h.m
  let row (x g : Nat) : List Nat := (byMagnitude (fun p => val x (g * mm + p)) (List.range mm)).take T.h.n
  let block (x0 g : Nat) : List (Nat × Nat) :=
    let all := (List.range mm).flatMap fun i => (List.range mm).map fun p => (x0 + i, p)
    acceptBlock T.h.n [] (byMagnitude (fun (e : Nat × Nat) => val e.1 (g * mm + e.2)) all)
  let kept (x g : Nat) : List Nat :=
    if T.h.tp then ((block (x / mm * mm) g).filter fun e => e.1 = x).map (·.2) else row x g
  { slots := fun x g => padSlots T.h.n mm (kept x g)
    code := fun x g p => if (kept x g).contains p then (let (i, j) := el x (g * mm + p); M.code m i j) else 0 }

/-- The elements of lines x to x + n − 1 of a dense matrix, lines taken by DIR (R332). -/
def lineElts (M : Mat) (dir : Bool) (x n : Nat) : List (Nat × Nat) :=
  (List.range n).flatMap fun i => (List.range (lengthOf M.d dir)).map fun p => if dir then (p, x + i) else (x + i, p)

/-- Whether elements of a dense matrix hold a NaN (R346). -/
def anyNan (M : Mat) (m : Memory) (es : List (Nat × Nat)) : Bool := es.any fun e => (M.val m e.1 e.2).isNan

/-- The scale entries of line x of a dense matrix (R309, R332). -/
def lineScales (M : Mat) (m : Memory) (T : SpTile) (x : Nat) : List Byte :=
  let n := cdiv T.len 32 * T.d.bs
  rdBytes m (M.soff + x * n) n

/-- The definition of `SPPRUNE`: the lines one after another, or block after block, a commit point after each; the header last. -/
def sppruneDef (q : Bool) (qd qs : BitVec 4) : SrlDef :=
  fun args s => orRun do
    let (_, xd) ← qsrc s qd
    let (_, xs) ← qsrc s qs
    let o := (arg args 2).toNat
    let i := passed args 3
    let dd := Desc.of xd
    let ds := Desc.of xs
    needILL (pruneOk dd ds o)
    match pruneTile (nodeOf s.w) dd o, placeMat (nodeOf s.w) ds (!bitOf o 10) with
    | some T, some M =>
      needILL (!pruneMeets T M)
      needTagN 0 dd.tag (stepDepth dd.tag).isSome
      needTagN 1 ds.tag (ds.tag = dd.tag)
      let es := if i * T.stepLines < T.lines then lineElts M T.h.dir (i * T.stepLines) T.stepLines else []
      afterOwn s (.ok (touching s [(M.core, es.flatMap fun e => M.bytesOf e.1 e.2)] fun s =>
        let m := (s.core M.core).scratch
        writeStep s q T (pruneOf T M m) (lineScales M m T) i (if anyNan M m es then bNANSEEN else 0) []))
    | _, _ => .error trapILL

/-- `SPPRUNE` (R346). -/
def execSpprune (q : Bool) (qd qs : BitVec 4) (opt : BitVec 6) (s : State) : Done :=
  callSrl 0x062 false 0 1 q [.q qd, .q qs, .s opt] (sppruneDef q qd qs) s

/-- The nonzero slots of a tile along the other direction (R347): those of line y of the transpose in its group g, by position. -/
def crossKept (T : SpTile) (m : Memory) (y g : Nat) : List (Nat × Nat) :=
  (List.range T.h.m).filterMap fun i =>
    match (T.slots m (g * T.h.m + i) (y / T.h.m)).find? fun s => s.1 = y % T.h.m && !s.2.2.isZero with
    | some s => some (i, s.2.1)
    | none => none

/-- What `SPXPOSE` writes of a tile (R347). -/
def crossOf (T : SpTile) (m : Memory) : Pruned :=
  { slots := fun y g => padSlots T.h.n T.h.m ((crossKept T m y g).map (·.1))
    code := fun y g p => match (crossKept T m y g).find? fun e => e.1 = p with | some e => e.2 | none => 0 }

/-- The tile that `SPXPOSE` writes at the places of qD; its expected cycles are open where A's tag gives no depth. -/
def crossTile (s : State) (T : SpTile) (dd : Desc) (k off hoff soff : Nat) : SpTile × State :=
  let lines := linesOf dd (!T.h.dir)
  let h := { T.h with dir := !T.h.dir, resv := 0, csum := 0 }
  match stepDepth dd.tag with
  | some d => (⟨dd, { h with ecyc := expectedCycles d h.n h.m lines (lengthOf dd (!T.h.dir)) 24 }, k, off, hoff, soff⟩, s)
  | none => (⟨dd, { h with ecyc := (Config.freeValue s.fresh).toNat % 2 ^ 24 }, k, off, hoff, soff⟩, { s with fresh := s.fresh + 1 })

/-- The transposition of a tile whose header has passed its checks, up to its next commit point (R347): before the first of them the checks of qS's
groups and pattern, and of qD's extent. -/
def crossStep (s : State) (q : Bool) (T : SpTile) (y : Nat) (dd : Desc) (k off hoff soff i : Nat) : RunOut :=
  if T.lines % T.h.m ≠ 0 then .step s (spmetaHdr T 6) 0 1
  else
    let (D, s) := crossTile s T dd k off hoff soff
    if padBytes < hoff + 16 + indexBytes D.lines D.groups D.h.n D.h.iw
        || padBytes < off + (D.lines - 1) * dd.rstride + cdiv (D.groups * D.h.n * dd.w) 8 then .step s (spmetaHdr D 7) 0 1
    else
      touching s T.touch fun s =>
        let m := (s.core T.core).scratch
        match if i = 0 then tileCause T m true else none with
        | some (c, g) => .step s (spmeta T c (T.indexAt (g / T.groups) (g % T.groups))) 0 1
        | none => writeStep s q D (crossOf T m) (fun _ => []) i 0 (hdrWords y)

/-- The definition of `SPXPOSE`. -/
def spxposeDef (q : Bool) (qd qs : BitVec 4) : SrlDef :=
  fun args s => orRun do
    let (_, xd) ← qsrc s qd
    let (_, xs) ← qsrc s qs
    let dd := Desc.of xd
    let ds := Desc.of xs
    let i := passed args 2
    needILL (dd.sparse && ds.sparse && !dd.trans && !ds.trans && dd.rows = ds.rows && dd.cols = ds.cols)
    match placeSparse (nodeOf s.w) dd, placeSparse (nodeOf s.w) ds with
    | some (k, off, hoff, soff), some _ =>
      needTagN 0 dd.tag (plainValid dd.tag)
      needTagN 1 ds.tag (ds.tag = dd.tag)
      afterOwn s (.ok (touching s (if i = 0 then hdrTouch s ds else []) fun s =>
        match heldTile s ds args 2 with
        | none => .trap trapILL
        | some (y, T) =>
          let c := headerCause y T
          if c ≠ 0 then .step s (spmetaHdr T c) 0 1 else crossStep s q T y dd k off hoff soff i))
    | _, _ => .error trapILL

/-- `SPXPOSE` (R347). -/
def execSpxpose (q : Bool) (qd qs : BitVec 4) (s : State) : Done :=
  callSrl 0x063 false 0 1 q [.q qd, .q qs] (spxposeDef q qd qs) s

/-! ## SPGATH and SPCOST (R348, R349) -/

/-- The definition of `SPGATH`. -/
def spgathDef (q : Bool) (opd : BitVec 28) (i : BitVec 6) : SrlDef :=
  fun args =>
    vdef [i] (needILL (opd.toNat ≤ 1 && (arg args 2).toNat ≤ 64)) (fun _ s => do
      let v ← vsrc s i
      needTag 1 (tyTag .i32) v
      let c := (arg args 2).toNat
      let g := if c = 0 then none else some ((List.range c).map fun l => (lane v l).toNat)
      .ok (setting s q fun s => s.setCres (if opd = 0 then { s.cres with gathA := g } else { s.cres with gathB := g }))) args

/-- `SPGATH` (R348). -/
def execSpgath (q : Bool) (opd : BitVec 28) (i n : BitVec 6) (s : State) : Done :=
  callSrl 0x064 false 0 1 q [.imm opd, .v i, .s n] (spgathDef q opd i) s

/-- The definition of `SPCOST`. -/
def spcostDef (d : BitVec 6) (f : BitVec 28) : SrlDef :=
  fun args s => orRun do
    let x := (arg args 1).toNat
    let y := (arg args 2).toNat
    let n := fld x 0 4
    let m := fld x 4 5
    needILL (nmOk n m && x < 2 ^ 9 && y < 2 ^ 48 && fld y 0 16 ≠ 0 && fld y 16 16 ≠ 0 && fld y 32 16 ≠ 0 && fld f.toNat 9 19 = 0
      && (rndOf (fmtRm f)).isSome)
    match stepDepth (fmtTag f) with
    | some k => .ok (.ok s (toS s.regs d (BitVec.ofNat 64 (expectedCycles k n m (fld y 0 16) (fld y 16 16) (fld y 32 16)))))
    | none => .error trapILL

/-- `SPCOST` (R349). -/
def execSpcost (q : Bool) (d nm dim : BitVec 6) (f : BitVec 28) (s : State) : Done :=
  callSrl 0x065 false 0 2 q [.s d, .s nm, .s dim, .fmt f] (spcostDef d f) s

end Sys2Proof.Machine
end

