-- ==== Sys2Proof/Machine/Select.lean ====
section
/-! DEFINITION. The selection routines as strands issue them (R376 to R383, R387, R389, R390): layer entries and their checks, and the
checks and captures of each routine. -/

namespace Sys2Proof.Machine

/-! ## Layer entries (R377) -/

/-- The fields of a layer entry. -/
structure Layer where
  kfmt : Nat
  vfmt : Nat
  cfmt : Nat
  bound : Bool
  d : Nat
  nblk : Nat
  kbase : Nat
  vbase : Nat
  sbase : Nat
  kscl : Nat
  vscl : Nat
  bstr : Nat
  sstr : Nat
  deriving DecidableEq, Repr

/-- The fields of 512 bits. -/
def Layer.of (b : BitVec 512) : Layer :=
  let x := b.toNat
  { kfmt := fld x 0 5, vfmt := fld x 5 5, cfmt := fld x 10 5, bound := bitOf x 15, d := fld x 16 8, nblk := fld x 24 24,
    kbase := fld x 64 64, vbase := fld x 128 64, sbase := fld x 192 64, kscl := fld x 256 64, vscl := fld x 320 64,
    bstr := fld x 384 32, sstr := fld x 416 32 }

/-- A storage tag of keys and values. -/
def storageTag (t : Nat) : Bool := (4 ≤ t && t ≤ 9) || t = 0xB || blockValid t

/-- Bytes of a token's row in a tag. -/
def Layer.row (y : Layer) (tag : Nat) : Nat := y.d * fmtWidth (tagFmt tag) / 8

/-- Bytes of a block's scale entry of a tag. -/
def scaleBytes (tag : Nat) : Nat := if tagFmt tag = 0xA then 2 else 1

/-- Whether a layer entry is valid. -/
def layerValid (b : BitVec 512) : Bool :=
  let y := Layer.of b
  storageTag y.kfmt && storageTag y.vfmt && floatTag y.cfmt && (y.d = 32 || y.d = 64 || y.d = 96 || y.d = 128) && y.nblk ≠ 0
    && fld b.toNat 48 16 = 0 && fld b.toNat 448 64 = 0
    && decide (y.kscl ≠ 0) == tagBlk y.kfmt && decide (y.vscl ≠ 0) == tagBlk y.vfmt
    && 64 * y.row y.kfmt ≤ y.bstr && 64 * y.row y.vfmt ≤ y.bstr && (if y.bound then 4 else 2) * y.d ≤ y.sstr
    && [y.kbase, y.vbase, y.sbase, y.kscl, y.vscl].all (· < 2 ^ 57)

/-- The candidate unit emptied with its flags (R376). -/
def SelState.empty (x : SelState) : SelState := { x with cands := [], nan := false, clip := false, full := false }

/-- The layer that is current. -/
def SelState.layer (x : SelState) : Option Layer :=
  match x.cur with
  | none => none
  | some n => (x.layers[n]?).map Layer.of

/-! ## SLCFG (R381) -/

/-- Whether a FIFO holds neither a queued nor a running entry. -/
def fifoIdle (x : Res) (f : Nat) : Bool := (jobsOf (x.fifo f)).isEmpty

/-- `n` entries of 64 bytes from an address, loaded one after the other. -/
def loadLayers (ag : Ag) (a : Word) : Nat → Nat → State → Except (Nat × Word × Nat) (List (BitVec 512)) × State
  | 0, _, s => (.ok [], s)
  | fuel + 1, i, s =>
    match agRead s ag (a + BitVec.ofNat 64 (64 * i)) 64 .load with
    | (.error e, s) => (.error (e.1, e.2, i + 1), s)
    | (.ok bs, s) =>
      match loadLayers ag a fuel (i + 1) s with
      | (.error e, s) => (.error e, s)
      | (.ok ls, s) => (.ok (BitVec.ofNat 512 (leNat bs) :: ls), s)

/-- `SLCFG`'s definition. -/
def slcfgDef (q : Bool) : SrlDef := fun args s => orRun do
  let n := (arg args 1).toNat
  needILL ((arg args 0).toNat % 64 = 0 && 1 ≤ n && n ≤ 256)
  if !fifoIdle s.cres 3 then .ok (.stall s .blocking 0)
  else afterOwn s (
    match loadLayers (strandAg s s.w) (arg args 0) n 0 s with
    | (.error e, _) => .ok (.fatal e.1 e.2.1 e.2.2)
    | (.ok ls, s) =>
      match ls.findIdx? fun b => !layerValid b with
      | some j => .ok (.step s trapILL 0 (j + 1))
      | none => .ok (setting s q fun s => s.setCctx { s.cctx with sel := { s.cctx.sel.empty with layers := ls, cur := none, query := 0, last := [] } }))

/-- `SLCFG`. -/
def execSlcfg (q : Bool) (a n : BitVec 6) (s : State) : Done :=
  callSrl 0x090 false 0 1 q [.s a, .s n] (slcfgDef q) s

/-! ## Queued routines -/

/-- A selection job word (R379). -/
def selWordOk (j : BitVec 28) : Bool := fld j.toNat 17 11 = 0

/-- An entry of `zq`. -/
def selEntry (s : State) (num : Nat) (f : Job → Job) : RunOut := .queue s 3 (f (newJob s num 2))

/-- `SLQ`'s definition (R382). -/
def slqDef (a : BitVec 6) (layer : BitVec 28) : SrlDef :=
  vdef [a] (.ok ()) fun _ s => do
    needILL (layer.toNat < s.cctx.sel.layers.length)
    let v ← vsrc s a
    needTag 0 (isTag 4) v
    .ok (selEntry s 0x091 fun j => { j with vec := v.data, args := [layer.setWidth 64] })

/-- `SLQ`. -/
def execSlq (q : Bool) (a : BitVec 6) (layer : BitVec 28) (s : State) : Done :=
  callSrl 0x091 true 2 1 q [.v a, .imm layer] (slqDef a layer) s

/-- The limits of `SLSUM` and `SLSCORE` on a first block and a count (R384). -/
def selRange (first count : Word) : Bool := first.toNat < 2 ^ 24 && 1 ≤ count.toNat && count.toNat ≤ 65535

/-- `SLSUM`'s definition (R384). -/
def slsumDef (job : BitVec 28) (sem : BitVec 5) : SrlDef := fun args s => orRun do
  needILL (selWordOk job && selRange (arg args 0) (arg args 1))
  let v ← semArg s sem (job.getLsbD 16)
  .ok (selEntry s 0x092 fun j => { j with word := job, sem := v, args := [arg args 0, arg args 1] })

/-- `SLSUM`. -/
def execSlsum (q : Bool) (first count : BitVec 6) (job : BitVec 28) (sem : BitVec 5) (s : State) : Done :=
  callSrl 0x092 true 2 1 q [.s first, .s count, .imm job, .sem sem] (slsumDef job sem) s

/-- `SLSCORE`'s definition (R385). -/
def slscoreDef (job : BitVec 28) (sem : BitVec 5) : SrlDef := fun args s => orRun do
  needILL (selWordOk job && selRange (arg args 0) (arg args 1) && (arg args 2).toNat % 4 = 0)
  let v ← semArg s sem (job.getLsbD 16)
  .ok (selEntry s 0x093 fun j => { j with word := job, sem := v, args := [arg args 0, arg args 1, arg args 2] })

/-- `SLSCORE`. -/
def execSlscore (q : Bool) (first count out : BitVec 6) (job : BitVec 28) (sem : BitVec 5) (s : State) : Done :=
  callSrl 0x093 true 2 1 q [.s first, .s count, .s out, .imm job, .sem sem] (slscoreDef job sem) s

/-- Bytes of the longest list (R387). -/
def listBytes : Nat := 1088

/-- The offset of a list in the issuing core's own scratchpad. -/
def listAt (core va : Nat) : Option Nat :=
  match padRange core va listBytes with
  | some (k, off) => if k = core && va % 4 = 0 then some off else none
  | none => none

/-- `SLTOPK`'s definition (R387). -/
def sltopkDef (job : BitVec 28) (sem : BitVec 5) : SrlDef := fun args s => orRun do
  needILL (selWordOk job && (arg args 1).toNat ≤ 256 && (listAt (nodeOf s.w) (arg args 0).toNat).isSome)
  let v ← semArg s sem (job.getLsbD 16)
  .ok (selEntry s 0x094 fun j => { j with word := job, sem := v, args := [arg args 0, arg args 1] })

/-- `SLTOPK`. -/
def execSltopk (q : Bool) (dst k : BitVec 6) (job : BitVec 28) (sem : BitVec 5) (s : State) : Done :=
  callSrl 0x094 true 2 1 q [.s dst, .s k, .imm job, .sem sem] (sltopkDef job sem) s

/-- Distinct members of a list, the first of each kept. -/
def distinct (ns : List Nat) : List Nat := ns.foldl (fun l n => if l.contains n then l else l ++ [n]) []

/-- `SLFORCE`'s definition (R383): the value checks, the captured lanes' among them, stand before the tag check (R380). -/
def slforceDef (a : BitVec 6) : SrlDef := fun args =>
  vdef [a] (needILL ((arg args 1).toNat ≤ 16)) (fun _ s => do
    let v ← vsrc s a
    let ns := (List.range (arg args 1).toNat).map fun i => (lane v i).toNat
    needILL (ns.all (· < 2 ^ 24))
    needTag 0 (fun t => t.toNat = 2 || t.toNat = 3) v
    .ok (selEntry s 0x095 fun j => { j with lanes := distinct ns })) args

/-- `SLFORCE`. -/
def execSlforce (q : Bool) (a n : BitVec 6) (s : State) : Done :=
  callSrl 0x095 true 2 1 q [.v a, .s n] (slforceDef a) s

/-- `SLFETCH`'s definition (R389). -/
def slfetchDef (job : BitVec 28) (sem : BitVec 5) : SrlDef := fun args s => orRun do
  needILL (copyWordOk job && !job.getLsbD 20 && (arg args 2).toNat ≤ 1)
  let v ← semArg s sem (copySig job ≠ 0)
  .ok (selEntry s 0x096 fun j => { j with word := job, sem := v, evarm := s.cctx.evarm, args := [arg args 0, arg args 1, arg args 2] })

/-- `SLFETCH`. -/
def execSlfetch (q : Bool) (dk dv opt : BitVec 6) (job : BitVec 28) (sem : BitVec 5) (s : State) : Done :=
  callSrl 0x096 true 2 1 q [.s dk, .s dv, .s opt, .imm job, .sem sem] (slfetchDef job sem) s

/-- `SLRES`'s definition (R390). -/
def slresDef (mode : BitVec 28) : SrlDef := fun _ s => orRun do
  needILL (mode.toNat ≤ 1)
  .ok (selEntry s 0x097 fun j => { j with args := [mode.setWidth 64] })

/-- `SLRES`. -/
def execSlres (q : Bool) (mode : BitVec 28) (s : State) : Done :=
  callSrl 0x097 true 2 1 q [.imm mode] (slresDef mode) s

end Sys2Proof.Machine
end

