-- ==== Sys2Proof/Machine/SelectRun.lean ====
section
/-! DEFINITION. The selection engine's entries and its fetch jobs as they run (R382 to R390). -/

namespace Sys2Proof.Machine

/-- The selection state of the context that issued an entry. -/
def selOf (s : State) (k : Nat) (j : Job) : SelState := (s.ctx (ctxKey k j.strand)).sel
/-- It replaced. -/
def setSel (s : State) (k : Nat) (j : Job) (x : SelState) : State :=
  let w := ctxKey k j.strand
  s.setCtx w { s.ctx w with sel := x }

/-- Status bits of the context that issued an entry set. -/
def selStatus (s : State) (k : Nat) (j : Job) (bits : Word) : State := orStatus s (ctxKey k j.strand) bits

/-- Whether another resident's entry of `zq` runs, so that the engine starts none of this resident's (R13). -/
def selBusy (s : State) (core res : Nat) : Bool :=
  (List.range 4).any fun r => r ≠ res && match engineHead s (4 * core + r) 3 with | some j => j.started && j.fin.isNone && j.num ≠ 0x096 | none => false

/-- A selection entry served (R13). -/
def serveSel (s : State) (core res num : Nat) (run : State → Job → State) : State :=
  let k := 4 * core + res
  match headOf s k 3 num with
  | none => s
  | some j => if !j.started && selBusy s core res then s else run (s.setCore core { s.core core with rrSel := res }) j

/-- An entry retires, with its signal where it asks for one (R379). -/
def retireSel (s : State) (k : Nat) (j : Job) (sig : Bool) : State :=
  let s := if sig then signalView s k j.sem 1 (engineAgent k 3) else s
  retireHead s k 3

/-- SLQ_ENTRY_RUN (R382). -/
def execSlqEntryRun (core res : Nat) (s : State) : Done :=
  let k := 4 * core + res
  .next (serveSel s core res 0x091 fun s j =>
    let x := (selOf s k j).empty
    let x := { x with cur := some (arg j.args 0).toNat }
    let d := match x.layer with | some y => y.d | none => 0
    retireSel (setSel s k j { x with query := BitVec.ofNat 2048 (j.vec.toNat % 2 ^ (16 * d)) }) k j false)

/-- SLFORCE_ENTRY_RUN (R383). -/
def execSlforceEntryRun (core res : Nat) (s : State) : Done :=
  let k := 4 * core + res
  .next (serveSel s core res 0x095 fun s j => retireSel (setSel s k j { selOf s k j with forced := j.lanes }) k j false)

/-- SLRES_ENTRY_RUN (R390). -/
def execSlresEntryRun (core res : Nat) (s : State) : Done :=
  let k := 4 * core + res
  .next (serveSel s core res 0x097 fun s j =>
    let x := (selOf s k j).empty
    let x := if arg j.args 0 = 0 then x else { x with cur := none, query := 0, forced := [], last := [] }
    retireSel (setSel s k j x) k j false)

/-! ## Keys and values (R377) -/

/-- The value of element i of a string of a tag, with the scale entries `sc` of its groups of 32. -/
def storedVal (tag x sc i : Nat) : Num :=
  let c := eltAt x (fmtWidth (tagFmt tag)) i
  if tagBlk tag then
    let n := 8 * scaleBytes tag
    let b := eltAt sc n (i / 32)
    blockVal (tagFmt tag) (b % 256) (b / 256) c
  else readElt (tagFmt tag) c

/-- The bytes of a block's 64 tokens, and those of their scale entries. -/
def readBlock (s : State) (ag : Ag) (use : WinUse) (d tag : Nat) (base scl : Word) :
    Except (Nat × Word) (Nat × Nat) × State :=
  match agRead s ag base (8 * d * fmtWidth (tagFmt tag)) use with
  | (.error e, s) => (.error e, s)
  | (.ok bs, s) =>
    if !tagBlk tag then (.ok (leNat bs, 0), s)
    else match agRead s ag scl (2 * d * scaleBytes tag) use with
      | (.error e, s) => (.error e, s)
      | (.ok sc, s) => (.ok (leNat bs, leNat sc), s)

/-- The address of block b of a layer's keys or values, and of its scale entries. -/
def blockBase (y : Layer) (base b : Nat) : Word := BitVec.ofNat 64 (base + b * y.bstr)
def blockScl (y : Layer) (tag scl b : Nat) : Word := BitVec.ofNat 64 (scl + 2 * b * y.d * scaleBytes tag)

/-! ## SLSUM (R384) -/

/-- The codes of a summary's value for one position, from the values of its 64 tokens. -/
def summaryOf (bound : Bool) (xs : List Num) : List Nat :=
  let nan := xs.any Num.isNan
  let code (m : Rnd) (v : Num) : Nat := if nan then 0x7FC0 else (roundTo 0x4 m true v).1
  if bound then
    match xs with
    | [] => []
    | y :: ys => [code .rdn (ys.foldl minNum y), code .rup (ys.foldl maxNum y)]
  else [code .rne (scaleNum (sumNum .rne xs).1 (-6))]

/-- The summary of a block, and whether a NaN was among its keys. -/
def blockSummary (y : Layer) (x sc : Nat) : List Nat × Bool :=
  let cols := (List.range y.d).map fun d => (List.range 64).map fun t => storedVal y.kfmt x sc (t * y.d + d)
  let sums := cols.map (summaryOf y.bound)
  (sums.map (·.headD 0) ++ (if y.bound then sums.map (·.getD 1 0) else []), cols.any fun c => c.any Num.isNan)

/-- The blocks of a layer that an entry visits, and whether it skips any (R384). -/
def blocksOf (y : Layer) (first count : Word) : List Nat × Bool :=
  let bs := (List.range count.toNat).map (first.toNat + ·)
  (bs.filter (· < y.nblk), bs.any fun b => y.nblk ≤ b)

/-- A block's summary written; true when a NaN was met. -/
def sumBlock (ag : Ag) (y : Layer) (b : Nat) (s : State) : Except (Nat × Word) Bool × State :=
  match readBlock s ag .copy y.d y.kfmt (blockBase y y.kbase b) (blockScl y y.kfmt y.kscl b) with
  | (.error e, s) => (.error e, s)
  | (.ok (x, sc), s) =>
    let (codes, nan) := blockSummary y x sc
    match agWrite s ag (BitVec.ofNat 64 (y.sbase + b * y.sstr)) (codes.flatMap (leBytes 2)) .copy with
    | (.error e, s) => (.error e, s)
    | (.ok (), s) => (.ok nan, s)

/-- An entry that has passed a commit point stays at its head, `cursor` blocks done (R391). -/
def commitSel (s : State) (k : Nat) (j : Job) (cursor : Nat) : State :=
  setJob s k 3 { j with cursor, started := true, commits := j.commits + 1 }

/-- The candidate unit's CLIP set. -/
def clipSel (s : State) (k : Nat) (j : Job) : State := setSel s k j { selOf s k j with clip := true }

/-- An `SLSUM` entry's run, block by block (R384, R391). -/
def runSlsum (k : Nat) (s : State) (j : Job) : State :=
  let sig := j.word.getLsbD 16
  match (selOf s k j).layer with
  | none => retireSel (clipSel s k j) k j sig
  | some y =>
    let (bs, skip) := blocksOf y (arg j.args 0) (arg j.args 1)
    match bs[j.cursor]? with
    | none => retireSel (if skip then clipSel s k j else s) k j sig
    | some b =>
      match sumBlock (engineAg s k 3) y b s with
      | (.error e, s) => engineFatalAt s k j j.commits e
      | (.ok nan, s) =>
        let j := { j with lanes := if nan then [1] else j.lanes }
        if j.cursor + 1 < bs.length then commitSel s k j (j.cursor + 1)
        else
          let s := if skip then clipSel s k j else s
          retireSel (if j.lanes.isEmpty then s else selStatus s k j bNANSEEN) k j sig

/-- SLSUM_ENTRY_RUN (R384). -/
def execSlsumEntryRun (core res : Nat) (s : State) : Done := .next (serveSel s core res 0x092 (runSlsum (4 * core + res)))

/-! ## SLSCORE (R385, R386) -/

/-- Whether a pair ranks before another (R386). -/
def Cand.before (a b : Cand) : Bool :=
  let x := f32 a.score
  let y := f32 b.score
  if x.isNan then y.isNan && a.block < b.block
  else y.isNan || cmpNum x y == .gt || (cmpNum x y == .eq && a.block < b.block)

/-- A pair put in its place among ranked ones, after its equals. -/
def candIn (a : Cand) : List Cand → List Cand
  | [] => [a]
  | b :: bs => if a.before b then a :: b :: bs else b :: candIn a bs

/-- The candidate unit's capacity (R385). -/
def candMax : Nat := 256

/-- An insertion into the candidate unit. -/
def insertCand (x : SelState) (a : Cand) : SelState :=
  let l := candIn a x.cands
  { x with cands := l.take candMax, full := x.full || candMax < l.length, nan := x.nan || (f32 a.score).isNan }

/-- The score of a summary of codes against a query (R385). -/
def scoreOf (y : Layer) (query : Nat) (sum : Nat) : W32 :=
  let q (d : Nat) : Num := readElt 0x4 (eltAt query 16 d)
  let m (d : Nat) : Num := readElt 0x4 (eltAt sum 16 d)
  let terms := (List.range y.d).map fun d =>
    if y.bound then
      let a := (mulNum (q d) (m d)).1
      let b := (mulNum (q d) (m (y.d + d))).1
      if a.isNan || b.isNan then .qnan else maxNum a b
    else (mulNum (q d) (m d)).1
  BitVec.ofNat 32 (roundTo 0x1 .rne true (sumNum .rne terms).1).1

/-- Blocks scored in order; true when a NaN score went into the candidate unit. -/
def scoreBlocks (ag : Ag) (k : Nat) (j : Job) (y : Layer) (first : Nat) (out : Word) : List Nat → Bool → State → Except (Nat × Word) Bool × State
  | [], seen, s => (.ok seen, s)
  | b :: bs, seen, s =>
    match agRead s ag (BitVec.ofNat 64 (y.sbase + b * y.sstr)) ((if y.bound then 4 else 2) * y.d) .copy with
    | (.error e, s) => (.error e, s)
    | (.ok sm, s) =>
      let sc := scoreOf y (selOf s k j).query.toNat (leNat sm)
      match if out = 0 then (.ok (), s) else agWrite s ag (out + BitVec.ofNat 64 (4 * (b - first))) (leBytes 4 sc.toNat) .copy with
      | (.error e, s) => (.error e, s)
      | (.ok (), s) =>
        let x := selOf s k j
        if x.forced.contains b then scoreBlocks ag k j y first out bs seen s
        else scoreBlocks ag k j y first out bs (seen || (f32 sc).isNan) (setSel s k j (insertCand x ⟨sc, b⟩))

/-- Blocks between two commit points of `SLSCORE` (R391). -/
def scoreGroup : Nat := 16

/-- An `SLSCORE` entry's run, 16 blocks after 16 blocks (R385, R391). -/
def runSlscore (k : Nat) (s : State) (j : Job) : State :=
  let sig := j.word.getLsbD 16
  match (selOf s k j).layer with
  | none => retireSel (clipSel s k j) k j sig
  | some y =>
    let (bs, skip) := blocksOf y (arg j.args 0) (arg j.args 1)
    match scoreBlocks (engineAg s k 3) k j y (arg j.args 0).toNat (arg j.args 2) ((bs.drop j.cursor).take scoreGroup) false s with
    | (.error e, s) => engineFatalAt s k j j.commits e
    | (.ok nan, s) =>
      let j := { j with lanes := if nan then [1] else j.lanes }
      if j.cursor + scoreGroup < bs.length then commitSel s k j (j.cursor + scoreGroup)
      else
        let s := if skip then clipSel s k j else s
        retireSel (if j.lanes.isEmpty then s else selStatus s k j bNANSEEN) k j sig

/-- SLSCORE_ENTRY_RUN (R385). -/
def execSlscoreEntryRun (core res : Nat) (s : State) : Done := .next (serveSel s core res 0x093 (runSlscore (4 * core + res)))

/-! ## SLTOPK (R387, R388) -/

/-- The candidates of a selection in order: forced and repeated blocks dropped. -/
def pickable (forced : List Nat) (cs : List Cand) : List Nat :=
  distinct ((cs.map (·.block)).filter fun b => !forced.contains b)

/-- The reply of `SLTOPK`. -/
def topkReply (tag count : Nat) (nan short clip noLayer full : Bool) : Word :=
  let b (x : Bool) (i : Nat) : Nat := if x then 2 ^ i else 0
  BitVec.ofNat 64 (tag + b nan 16 + b short 17 + b clip 18 + b noLayer 19 + b full 20 + 2 ^ 24 * 0x94 + 2 ^ 32 * count)

/-- `SLTOPK`'s entry ends: reply and signal, or it waits at its head for room in `rpq` (R14). -/
def endTopk (s : State) (k : Nat) (j : Job) (reply : Word) : State :=
  if replyRoom s k then retireSel (postReply s k reply (engineAgent k 3)) k j (j.word.getLsbD 16)
  else setJob s k 3 { j with fin := some 0, started := true, args := [reply] }

/-- SLTOPK_ENTRY_RUN (R387). -/
def execSltopkEntryRun (core res : Nat) (s : State) : Done :=
  let k := 4 * core + res
  .next (serveSel s core res 0x094 fun s j =>
    if j.fin.isSome then endTopk s k j (arg j.args 0)
    else
      let x := selOf s k j
      let kk := (arg j.args 1).toNat
      let off := (listAt core (arg j.args 0).toNat).getD 0
      let forced := match x.layer with | some y => x.forced.filter (· < y.nblk) | none => x.forced
      let ps := pickable forced x.cands
      let l := sortNats (forced ++ ps.take kk)
      let clip := x.clip || forced.length < x.forced.length
      let reply := topkReply (fld j.word.toNat 0 16) l.length x.nan (ps.length < kk) clip x.layer.isNone x.full
      let ag := engineAg s k 3
      match touchPad s ag core [(off, 4 * l.length)] with
      | (.error e, s) => engineFatal s k j e
      | (.ok (), s) =>
        let s := if l.isEmpty then s else padWrite s ag core off (l.flatMap (leBytes 4))
        endTopk (setSel s k j { (selOf s k j).empty with last := l }) k j reply)

/-! ## SLFETCH (R389) -/

/-- The job word of fetch job number `i` of `n`: with LAST set only the final one keeps SIG. -/
def fetchWord (w : BitVec 28) (isLast final : Bool) : BitVec 28 := if isLast && !final then w &&& ~~~(0x30000 : BitVec 28) else w

/-- The job that fetches keys or values of a block. -/
def fetchJob (j : Job) (x : SelState) (i : Nat) (final : Bool) : Job :=
  let e : Job := { Job.blank with num := 0x096, strand := j.strand, site := j.site, sem := j.sem, ctr := 4, evarm := j.evarm,
                                  word := fetchWord j.word ((arg j.args 2).getLsbD 0) final, cursor := i }
  match x.last[i / 2]? with
  | none => { e with cursor := 0 }
  | some b =>
    match x.layer with
    | none => { e with lanes := [0, 0, 0, 0x10] }
    | some y =>
      if y.nblk ≤ b then { e with lanes := [0, 0, 0, 0x11] }
      else
        let value := i % 2 = 1
        let tag := if value then y.vfmt else y.kfmt
        let at' := i / 2 * (64 * y.d * (fmtWidth y.cfmt / 8))
        { e with args := [arg j.args (if value then 1 else 0) + BitVec.ofNat 64 at', blockBase y (if value then y.vbase else y.kbase) b,
                          blockScl y tag (if value then y.vscl else y.kscl) b],
                 lanes := [y.d, tag, y.cfmt, 0] }

/-- Fetch jobs from number `i` on put into `cq.in`, while it has room. -/
def emitFetches (k : Nat) (j : Job) (n : Nat) : Nat → Nat → State → Nat × State
  | 0, i, s => (i, s)
  | fuel + 1, i, s =>
    if n ≤ i || (s.res k).full 1 then (i, s)
    else emitFetches k j n fuel (i + 1) (enqueueJob s k 1 (fetchJob j (selOf s k j) i (i + 1 = n)))

/-- SLFETCH_ENTRY_RUN (R389, R391): it retires when its last job has entered `cq.in`. -/
def execSlfetchEntryRun (core res : Nat) (s : State) : Done :=
  let k := 4 * core + res
  .next (serveSel s core res 0x096 fun s j =>
    let n := max 1 (2 * (selOf s k j).last.length)
    let (i, s) := emitFetches k j n (n - j.cursor) j.cursor s
    if n ≤ i then retireSel s k j false else setJob s k 3 { j with cursor := i, started := true, commits := i })

/-- Elements `i` to `i + n − 1` of a block's tokens, whole groups of 32: their codes and scale entries. -/
def readElts (s : State) (ag : Ag) (tag : Nat) (base scl : Word) (i n : Nat) : Except (Nat × Word) (Nat × Nat) × State :=
  let w := fmtWidth (tagFmt tag)
  match agRead s ag (base + BitVec.ofNat 64 (i * w / 8)) (n * w / 8) .copy with
  | (.error e, s) => (.error e, s)
  | (.ok bs, s) =>
    if !tagBlk tag then (.ok (leNat bs, 0), s)
    else match agRead s ag (scl + BitVec.ofNat 64 (i / 32 * scaleBytes tag)) (n / 32 * scaleBytes tag) .copy with
      | (.error e, s) => (.error e, s)
      | (.ok sc, s) => (.ok (leNat bs, leNat sc), s)

/-- A fetch job's run to its next commit point (R216, R389); behind its layer's fields stand the bits it has raised. -/
def runFetch (k : Nat) (s : State) (j : Job) : CopyEnd :=
  let d := j.lanes.getD 0 0
  let src := j.lanes.getD 1 0
  let dst := j.lanes.getD 2 0
  let status := j.lanes.getD 3 0
  let bare := { j with lanes := [] }
  if status ≠ 0 || d = 0 then .done s bare status
  else
    let ag := engineAg s k 1
    let w := fmtWidth dst
    let total := 8 * d * w
    let e := min total (commitEnd j.bytes)
    let n := 8 * (e - j.bytes) / w
    match readElts s ag src (arg j.args 1) (arg j.args 2) (8 * j.bytes / w) n with
    | (.error e, s) => .fatal s bare e
    | (.ok (x, sc), s) =>
      let xs := (List.range n).map fun i => convNum dst .rne false (storedVal src x sc i)
      let bits := (xs.foldl (fun (b : Word) x => b ||| x.2) (BitVec.ofNat 64 (j.lanes.getD 4 0))).toNat
      match agWrite s ag (addOff (arg j.args 0) j.bytes) (leBytes (e - j.bytes) (packElts w (xs.map (·.1)))) .copy with
      | (.error f, s) => .fatal s bare f
      | (.ok (), s) => if e < total then .more s { j with bytes := e, lanes := [d, src, dst, 0, bits] } else .done s { j with bytes := e, lanes := [bits] } stOK

/-- FETCH_JOB_RUN (R389): a key or value job in `cq.in`. -/
def execFetchJobRun (core res : Nat) (s : State) : Done := .next (serveCopy s core res 1 0x096 (runFetch (4 * core + res)))

end Sys2Proof.Machine
end

