-- ==== Sys2Proof/Machine/Special.lean ====
section
/-! DEFINITION. Exact quotients and roots, and transcendental values close enough to round correctly (R284 to R287). -/

namespace Sys2Proof.Machine

/-! ## Algebraic values

A value that no binary fraction holds is given by its leading bits and a last bit of 1, which every rounding treats as it treats the value. -/

/-- The value q × 2^e, or one strictly between it and the next when `more` is set. -/
def sticky (neg : Bool) (q : Nat) (more : Bool) (e : Int) : Num := .fin neg (2 * q + (if more then 1 else 0)) (e - 1)

/-- The quotient of two values, as IEEE 754-2019 divides. -/
def divNum (a b : Num) : Num :=
  let neg := a.sign != b.sign
  match a, b with
  | .nan .., _ => .qnan
  | _, .nan .. => .qnan
  | .inf _, .inf _ => .qnan
  | .inf _, _ => .inf neg
  | _, .inf _ => .zero neg
  | .fin _ m e, .fin _ m' e' =>
    if m' = 0 then (if m = 0 then .qnan else .inf neg)
    else if m = 0 then .zero neg
    else
      let n := m * 2 ^ 200
      sticky neg (n / m') (decide (n % m' ≠ 0)) (e - e' - 200)

/-- The integer part of a square root, bit by bit from bit `k - 1` down on top of `r`. -/
def isqrtFrom : Nat → Nat → Nat → Nat
  | 0, _, r => r
  | k + 1, n, r => let t := r + 2 ^ k; isqrtFrom k n (if t * t ≤ n then t else r)

/-- The integer part of a square root. -/
def isqrt (n : Nat) : Nat := isqrtFrom (Nat.log2 n / 2 + 1) n 0

/-- A magnitude as m × 2^e with e even. -/
def evenExp (m : Nat) (e : Int) : Nat × Int := if e % 2 = 0 then (m, e) else (2 * m, e - 1)

/-- The square root of a positive finite value. -/
def rootNum (m : Nat) (e : Int) : Num :=
  let (m, e) := evenExp m e
  let n := m * 2 ^ 120
  let r := isqrt n
  sticky false r (decide (r * r ≠ n)) (e / 2 - 60)

/-- The reciprocal square root of a positive finite value. -/
def rsqrtNum (m : Nat) (e : Int) : Num :=
  let (m, e) := evenExp m e
  let r := isqrt (2 ^ 200 / m)
  sticky false r (decide (r * r * m ≠ 2 ^ 200)) (-(e / 2) - 100)

/-! ## Transcendental values in fixed point (log entry 60) -/

/-- Fraction bits of the fixed-point values. -/
def fxBits : Nat := 400
/-- The fixed-point 1. -/
def fxOne : Nat := 2 ^ fxBits
/-- The product of two fixed-point values. -/
def fxMul (a b : Nat) : Nat := a * b / fxOne

/-- The sum of terms that start at `t`, each the last times r over its number plus one, from number `k` on. -/
def expTerms (r : Nat) : Nat → Nat → Nat → Nat
  | 0, _, _ => 0
  | n + 1, k, t => t + expTerms r n (k + 1) (fxMul t r / (k + 1))

/-- e^r for a fixed-point r below 1. -/
def fxExp (r : Nat) : Nat := expTerms r 100 0 fxOne

/-- The sum of y^k / k over odd k from `k` on, t being y^k and y2 being y². -/
def atanhTerms (y2 : Nat) : Nat → Nat → Nat → Nat
  | 0, _, _ => 0
  | n + 1, k, t => t / k + atanhTerms y2 n (k + 2) (fxMul t y2)

/-- The logarithm of the fixed-point m between 1 and 2: twice the inverse hyperbolic tangent of (m − 1) / (m + 1). -/
def fxLog (m : Nat) : Nat :=
  let y := (m - fxOne) * fxOne / (m + fxOne)
  2 * atanhTerms (fxMul y y) 140 1 y

/-- The logarithm of 2. -/
def fxLn2 : Nat := let y := fxOne / 3; 2 * atanhTerms (fxMul y y) 140 1 y

/-- The alternating sum of y^k / k over odd k from `k` on, for y = 1 / d. -/
def atanTerms (d : Nat) : Nat → Nat → Nat → Int
  | 0, _, _ => 0
  | n + 1, k, t => ((t / k : Nat) : Int) - atanTerms d n (k + 2) (t / (d * d))

/-- π by Machin's formula. -/
def fxPi : Nat := (16 * atanTerms 5 90 1 (fxOne / 5) - 4 * atanTerms 239 40 1 (fxOne / 239)).toNat

/-- 1 / √(2π). -/
def fxRsqrt2Pi : Nat := isqrt (2 ^ (3 * fxBits) / (2 * fxPi))

/-- The value v × 2^e / 2^400, never exact. -/
def fxNum (neg : Bool) (v : Nat) (e : Int) : Num := sticky neg v true (e - fxBits)

/-- 2^e times 1 + 2^-200, or 1 − 2^-200. -/
def nearPow (up : Bool) (e : Int) : Num := .fin false (if up then 2 ^ 200 + 1 else 2 ^ 200 - 1) (e - 200)

/-- A value just beyond or just within another in magnitude. -/
def nearVal (out : Bool) (neg : Bool) (m : Nat) (e : Int) : Num := .fin neg (if out then m * 2 ^ 250 + 1 else m * 2 ^ 250 - 1) (e - 250)

/-- A magnitude as a fixed-point number, for values that are multiples of 2^-400. -/
def fxOf (m : Nat) (e : Int) : Nat := m * pow2 (e + fxBits)

/-- e^x as a fixed-point v times 2^k, for a fixed-point x. -/
def expParts (neg : Bool) (x : Nat) : Nat × Int :=
  let X : Int := if neg then -(x : Int) else x
  let k := X / (fxLn2 : Int)
  (fxExp (X - k * fxLn2).toNat, k)

/-- e^x of a nonzero finite value. -/
def expNum (neg : Bool) (m : Nat) (e : Int) : Num :=
  let t := topExp m e
  if t < -100 then nearPow (!neg) 0
  else if 15 ≤ t then .fin false 1 (if neg then -30000 else 30000)
  else
    let (v, k) := expParts neg (fxOf m e)
    fxNum false v k

/-- 2^x of a nonzero finite value. -/
def exp2Num (neg : Bool) (m : Nat) (e : Int) : Num :=
  let t := topExp m e
  if t < -100 then nearPow (!neg) 0
  else if 11 ≤ t then .fin false 1 (if neg then -30000 else 30000)
  else
    let X : Int := if neg then -(fxOf m e : Int) else fxOf m e
    let k := X / (fxOne : Int)
    let f := (X - k * fxOne).toNat
    if f = 0 then .fin false 1 k else fxNum false (fxExp (fxMul f fxLn2)) k

/-- log2 x of a positive finite value. -/
def log2Num (m : Nat) (e : Int) : Num :=
  let k := topExp m e
  let x := m * pow2 (fxBits - Nat.log2 m)
  if x = fxOne then .ofInt k
  else
    let v : Int := k * fxOne + (fxLog x * fxOne / fxLn2 : Nat)
    fxNum (decide (v < 0)) v.natAbs 0

/-- tanh x of a nonzero finite value. -/
def tanhNum (neg : Bool) (m : Nat) (e : Int) : Num :=
  let t := topExp m e
  if t < -100 then nearVal false neg m e
  else if 6 ≤ t then nearVal false neg 1 0
  else
    let (v, k) := expParts true (2 * fxOf m e)
    let y := v / pow2 (-k)
    fxNum neg ((fxOne - y) * fxOne / (fxOne + y)) 0

/-- 1 / (1 + e^-x) as a fixed-point v times 2^k, for a fixed-point x. -/
def sigmParts (neg : Bool) (x : Nat) : Nat × Int :=
  let (v, k) := expParts true x
  let y := v / pow2 (-k)
  if neg then (v * fxOne / (fxOne + y), k) else (fxOne * fxOne / (fxOne + y), 0)

/-- 1 / (1 + e^-x) of a nonzero finite value. -/
def sigmNum (neg : Bool) (m : Nat) (e : Int) : Num :=
  let t := topExp m e
  if t < -100 then nearPow (!neg) (-1)
  else if 7 ≤ t then (if neg then .fin false 1 (-3000) else nearVal false false 1 0)
  else
    let (v, k) := sigmParts neg (fxOf m e)
    fxNum false v k

/-- x / (1 + e^-x) of a nonzero finite value. -/
def siluNum (neg : Bool) (m : Nat) (e : Int) : Num :=
  let t := topExp m e
  if t < -100 then nearVal (!neg) neg m (e - 1)
  else if 7 ≤ t then (if neg then .fin true 1 (-3000) else nearVal false false m e)
  else
    let (v, k) := sigmParts neg (fxOf m e)
    fxNum neg (v * m) (k + e)

/-- The sum of x^k / k!! over odd k from `k` on, t being its first term and x2 being x². -/
def phiTerms (x2 : Nat) : Nat → Nat → Nat → Nat
  | 0, _, _ => 0
  | n + 1, k, t => t + phiTerms x2 n (k + 2) (fxMul t x2 / (k + 2))

/-- x × Φ(x) of a nonzero finite value. -/
def geluNum (neg : Bool) (m : Nat) (e : Int) : Num :=
  let t := topExp m e
  if t < -100 then nearVal (!neg) neg m (e - 1)
  else if 4 ≤ t then (if neg then .fin true 1 (-3000) else nearVal false false m e)
  else
    let x := fxOf m e
    let x2 := fxMul x x
    let (v, k) := expParts true (x2 / 2)
    let part := fxMul (fxMul v fxRsqrt2Pi) (phiTerms x2 800 1 x) / pow2 (-k)
    let half := fxOne / 2
    fxNum neg ((if neg then half - part else half + part) * m) e

/-! ## The special functions with their special inputs (R286) -/

/-- A function of finite nonzero values completed by its values at zero and infinity and, when `nonneg`, invalid below zero. -/
def specialFn (x : Num) (zero : Bool → Num) (zbits : Word) (pinf ninf : Num) (nonneg : Bool) (f : Bool → Nat → Int → Num) : Num × Word :=
  match x with
  | .nan .. => (.qnan, sigBits [x])
  | .inf neg => if neg then (ninf, if nonneg then bNV else 0) else (pinf, 0)
  | .fin neg m e =>
    if m = 0 then (zero neg, zbits)
    else if neg && nonneg then (.qnan, bNV)
    else (f neg m e, 0)

/-- One. -/
def numOne : Num := .fin false 1 0

def fnExp (x : Num) : Num × Word := specialFn x (fun _ => numOne) 0 (.inf false) (.zero false) false expNum
def fnExp2 (x : Num) : Num × Word := specialFn x (fun _ => numOne) 0 (.inf false) (.zero false) false exp2Num
def fnLog2 (x : Num) : Num × Word := specialFn x (fun _ => .inf true) bDZ (.inf false) .qnan true fun _ m e => log2Num m e
def fnRcp (x : Num) : Num × Word :=
  specialFn x .inf bDZ (.zero false) (.zero true) false fun neg m e => divNum (.fin neg 1 0) (.fin false m e)
def fnRsqrt (x : Num) : Num × Word := specialFn x .inf bDZ (.zero false) .qnan true fun _ m e => rsqrtNum m e
def fnSqrt (x : Num) : Num × Word := specialFn x .zero 0 (.inf false) .qnan true fun _ m e => rootNum m e
def fnTanh (x : Num) : Num × Word := specialFn x .zero 0 numOne (.fin true 1 0) false tanhNum
def fnSigm (x : Num) : Num × Word := specialFn x (fun _ => .fin false 1 (-1)) 0 numOne (.zero false) false sigmNum
def fnGelu (x : Num) : Num × Word := specialFn x .zero 0 (.inf false) (.zero true) false geluNum
def fnSilu (x : Num) : Num × Word := specialFn x .zero 0 (.inf false) (.zero true) false siluNum

end Sys2Proof.Machine
end

