-- ==== Sys2Proof/Machine/VReduce.lean ====
section
/-! DEFINITION. Vector routines 0x020 to 0x031 and 0x03F: sums, extremes, special functions, softmax, normalisation (R278 to R291). -/

namespace Sys2Proof.Machine

/-- A result of scalars, formed as one step: the bits of its forming. -/
def scalarOut (s : State) (bits : Word) (effs : List Effect) : Except Trap RunOut := eltsOut s [bits] 0 (.ok effs)

/-- A value rounded to nearest in a format with infinities, and the value that the code holds. -/
def rne (fmt : Nat) (x : Num × Word) : Num × Word :=
  let (c, b) := roundTo fmt .rne true x.1
  (readFp fmt c, x.2 ||| b)

/-- Two values with their bits added in a format (R281). -/
def addIn (fmt : Nat) (x y : Num × Word) : Num × Word :=
  let (z, b) := rne fmt (sumNum .rne [x.1, y.1])
  (z, x.2 ||| y.2 ||| b)

/-- The pairs of a list added (R257). -/
def pairUp {α : Type} (f : α → α → α) : List α → List α
  | x :: y :: xs => f x y :: pairUp f xs
  | xs => xs

/-- The tree of R257 over 64 leaves. -/
def treeSum (fmt : Nat) (xs : List (Num × Word)) : Num × Word :=
  let p := pairUp (addIn fmt)
  (p (p (p (p (p (p xs)))))).headD (.zero false, 0)

/-- The sum in lane order that `VRSUMS` forms (R257). -/
def laneSum (fmt : Nat) (xs : List (Num × Word)) : Num × Word :=
  match xs with
  | [] => (.zero false, 0)
  | x :: xs => xs.foldl (addIn fmt) x

/-- Whether a mask covers element j of a register of n elements (R281). -/
def covers (m : Word) (n j : Nat) : Bool := m.getLsbD (j / (n / 64))

/-- The 64 leaves of R281: elements of a 32-bit format as they stand, pairs of a 16-bit format added exactly and rounded once. -/
def leaves (fmt : Nat) (xs : List Num) : List (Num × Word) :=
  if xs.length ≤ 64 then xs.map fun x => (x, 0)
  else lanes64.map fun i => rne fmt (sumNum .rne [xs.getD (2 * i) .qnan, xs.getD (2 * i + 1) .qnan])

/-- The code of a sum in FP32 as a scalar result (R279). -/
def f32Word (x : Num) : Word := (f32Of x).setWidth 64

/-- A sum of the selected elements (R281). -/
def rsumDef (d a : BitVec 6) (p : BitVec 4) (f : BitVec 28) (sum : List (Num × Word) → Num × Word) : SrlDef :=
  vdef [a] (needFmt f floatTag false false argZero) fun _ s => do
    let v ← sameTag s 1 a f
    let m ← psrc s p
    let xs := (List.range v.count).map fun j => if covers m v.count j then v.val j else .zero false
    let (y, b) := sum (leaves 1 xs)
    scalarOut s b (toS s.regs d (f32Word y))

/-- `VRSUM`. -/
def execVrsum (q : Bool) (d a : BitVec 6) (p : BitVec 4) (f : BitVec 28) (s : State) : Done :=
  callSrl 0x020 false 0 6 q [.s d, .v a, .p p, .fmt f] (rsumDef d a p f (treeSum 1)) s

/-- `VRSUMS`. -/
def execVrsums (q : Bool) (d a : BitVec 6) (p : BitVec 4) (f : BitVec 28) (s : State) : Done :=
  callSrl 0x03F false 0 12 q [.s d, .v a, .p p, .fmt f] (rsumDef d a p f (laneSum 1)) s

/-- `VRDOT`'s definition (R282). -/
def vrdotDef (d a b : BitVec 6) (p : BitVec 4) (f : BitVec 28) : SrlDef :=
  vdef [a, b] (needFmt f floatTag false false argZero) fun _ s => do
    let va ← sameTag s 1 a f
    let vb ← sameTag s 2 b f
    let m ← psrc s p
    let n := va.count
    let ps := (List.range n).map fun j => if covers m n j then mulNum (va.val j) (vb.val j) else (.zero false, 0)
    let raised := ps.foldl (fun w x => w ||| x.2) 0
    let ls := if n = 64 then ps.map (rne 1) else leaves 1 (ps.map (·.1))
    let (y, b) := treeSum 1 ls
    scalarOut s (raised ||| b) (toS s.regs d (f32Word y))

/-- `VRDOT`. -/
def execVrdot (q : Bool) (d a b : BitVec 6) (p : BitVec 4) (f : BitVec 28) (s : State) : Done :=
  callSrl 0x023 false 0 7 q [.s d, .v a, .v b, .p p, .fmt f] (vrdotDef d a b p f) s

/-! ## Extremes (R283) -/

/-- Tags of ranked elements (R283, R293). -/
def rankTag (t : Nat) : Bool := floatTag t || t = 2 || t = 3

/-- The bits that a key raises (R283, R292). -/
def keyBits (x : Num) : Word := if x.isNan then bNANSEEN ||| sigBits [x] else 0

/-- The extreme of some elements, given with their indices in rising order: the first of those that no other exceeds. -/
def extreme (larger : Bool) (xs : List (Num × Nat)) : Option (Num × Nat) :=
  xs.foldl (fun best x =>
    if x.1.isNan then best
    else match best with
      | none => some x
      | some b => if cmpNum x.1 b.1 == (if larger then .gt else .lt) then some x else some b) none

/-- A key as a 32-bit value (R283, R292): a 16-bit element widened, a NaN canonical. -/
def keyCode (tag : Nat) (x : Num) : W32 :=
  match x with
  | .fin neg m _ => if tag = 2 || tag = 3 then BitVec.ofInt 32 (if neg then -(m : Int) else m) else f32Of x
  | x => f32Of x

/-- A 32-bit result of a tag as a scalar (R279). -/
def keyWord (tag : Nat) (c : W32) : Word := if tag = 2 then c.signExtend 64 else c.setWidth 64

/-- The result when no element qualifies (R283). -/
def noExtreme (tag : Nat) (larger : Bool) : W32 :=
  match tag with
  | 2 => if larger then 0x80000000 else 0x7FFFFFFF
  | 3 => if larger then 0 else 0xFFFFFFFF
  | _ => 0x7FC00000

/-- `VRMAX` and `VRMIN` (R283). -/
def extremeDef (larger : Bool) (d x a : BitVec 6) (p : BitVec 4) (f : BitVec 28) : SrlDef :=
  vdef [a] (needFmt f rankTag false false argZero) fun _ s => do
    let v ← sameTag s 2 a f
    let m ← psrc s p
    let t := fmtTag f
    let xs := ((List.range v.count).filter (covers m v.count)).map fun j => (v.val j, j)
    let bits := xs.foldl (fun w x => w ||| keyBits x.1) 0
    match extreme larger xs with
    | some (y, j) => scalarOut s bits (toS s.regs d (keyWord t (keyCode t y)) ++ toS s.regs x (BitVec.ofNat 64 j))
    | none => scalarOut s bits (toS s.regs d (keyWord t (noExtreme t larger)) ++ toS s.regs x 0xFFFFFFFF)

/-- `VRMAX`. -/
def execVrmax (q : Bool) (d x a : BitVec 6) (p : BitVec 4) (f : BitVec 28) (s : State) : Done :=
  callSrl 0x021 false 0 5 q [.s d, .s x, .v a, .p p, .fmt f] (extremeDef true d x a p f) s

/-- `VRMIN`. -/
def execVrmin (q : Bool) (d x a : BitVec 6) (p : BitVec 4) (f : BitVec 28) (s : State) : Done :=
  callSrl 0x022 false 0 5 q [.s d, .s x, .v a, .p p, .fmt f] (extremeDef false d x a p f) s

/-! ## Special functions (R284 to R286) -/

/-- Targets of the special functions (R284). -/
def fnTarget (t : Nat) : Bool := floatTag t || t = 6 || t = 7

/-- The fmt operand of a special function, `VSOFTMX` or `VNORMAP`. -/
def needFn (f : BitVec 28) (target : Nat → Bool) (fp32Rne : Bool) : Except Trap Rnd := do
  let m ← needFmt f target true true argPart
  if fp32Rne && fmtTag f = 1 && m ≠ .rne then .error trapILL else .ok m

/-- A special function of a register's elements (R284, R285). -/
def fnDef (lat : Nat) (d a : BitVec 6) (f : BitVec 28) (fn : Num → Num × Word) : SrlDef :=
  vdefAt (partReads d a f) (needFn f fnTarget true) fun m s => do
    let v ← vsrc s a
    needTag 1 (fun t => floatTag t.toNat) v
    placePart s lat d (fmtTag f) (fmtArg f) v fun j => fmtRound f m (fn (v.val j))

/-- A special function's call. -/
def callFn (num lat : Nat) (q : Bool) (d a : BitVec 6) (f : BitVec 28) (fn : Num → Num × Word) (s : State) : Done :=
  callSrl num false 0 lat q [.v d, .v a, .fmt f] (fnDef lat d a f fn) s

/-- `VEXP`. -/
def execVexp (q : Bool) (d a : BitVec 6) (f : BitVec 28) (s : State) : Done := callFn 0x024 5 q d a f fnExp s
/-- `VEXP2`. -/
def execVexp2 (q : Bool) (d a : BitVec 6) (f : BitVec 28) (s : State) : Done := callFn 0x025 4 q d a f fnExp2 s
/-- `VLOG2`. -/
def execVlog2 (q : Bool) (d a : BitVec 6) (f : BitVec 28) (s : State) : Done := callFn 0x026 5 q d a f fnLog2 s
/-- `VRCP`. -/
def execVrcp (q : Bool) (d a : BitVec 6) (f : BitVec 28) (s : State) : Done := callFn 0x027 4 q d a f fnRcp s
/-- `VRSQRT`. -/
def execVrsqrt (q : Bool) (d a : BitVec 6) (f : BitVec 28) (s : State) : Done := callFn 0x028 4 q d a f fnRsqrt s
/-- `VSQRT`. -/
def execVsqrt (q : Bool) (d a : BitVec 6) (f : BitVec 28) (s : State) : Done := callFn 0x029 4 q d a f fnSqrt s
/-- `VTANH`. -/
def execVtanh (q : Bool) (d a : BitVec 6) (f : BitVec 28) (s : State) : Done := callFn 0x02A 6 q d a f fnTanh s
/-- `VSIGM`. -/
def execVsigm (q : Bool) (d a : BitVec 6) (f : BitVec 28) (s : State) : Done := callFn 0x02B 6 q d a f fnSigm s
/-- `VGELU`. -/
def execVgelu (q : Bool) (d a : BitVec 6) (f : BitVec 28) (s : State) : Done := callFn 0x02C 7 q d a f fnGelu s
/-- `VSILU`. -/
def execVsilu (q : Bool) (d a : BitVec 6) (f : BitVec 28) (s : State) : Done := callFn 0x02D 6 q d a f fnSilu s

/-! ## Softmax (R287, R288) -/

/-- W(x) of R287. -/
def weight (x : Num) : Num × Word :=
  match x with
  | .nan .. => (.qnan, sigBits [x])
  | .inf neg => ((rne 0xF (expNum neg 11000 0, 0)).1, bNANSAT)
  | .fin neg m e =>
    if m = 0 then (numOne, 0)
    else if cmpNum (.fin false m e) (.fin false 11000 0) == .gt then ((rne 0xF (expNum neg 11000 0, 0)).1, 0)
    else ((rne 0xF (expNum neg m e, 0)).1, 0)

/-- The weights of the first n elements of a source, and what their forming raises. -/
def weights (v : VReg) (n : Nat) : List Num × Word :=
  let ws := (List.range n).map fun i => weight (v.val i)
  (ws.map (·.1), ws.foldl (fun b w => b ||| w.2) 0)

/-- Tree(w) of R287. -/
def weightSum (ns : Nat) (ws : List Num) : Num :=
  (treeSum 0xF (leaves 0xF (ws ++ List.replicate (ns - ws.length) (.zero false)))).1

/-- A count operand between 1 and the elements of a source, checked after the tags (R279, R287). -/
def needCount (n : Word) (ns : Nat) : Except Trap Nat :=
  if 1 ≤ n.toNat ∧ n.toNat ≤ ns then .ok n.toNat else .error trapILL

/-- `VEXPSUM`'s definition (R287). -/
def vexpsumDef (d a : BitVec 6) (f : BitVec 28) : SrlDef := fun args =>
  vdef [a] (needFmt f floatTag false false argZero) (fun _ s => do
    let v ← sameTag s 1 a f
    let n ← needCount (arg args 2) v.count
    let (ws, bits) := weights v n
    let p := readFp 0xF (fld (arg args 0).toNat 0 39)
    let (c, _) := roundTo 0xF .rne true (sumNum .rne [p, weightSum v.count ws]).1
    scalarOut s bits (toS s.regs d (BitVec.ofNat 64 c))) args

/-- `VEXPSUM`. -/
def execVexpsum (q : Bool) (d a n : BitVec 6) (f : BitVec 28) (s : State) : Done :=
  callSrl 0x02F false 0 8 q [.s d, .v a, .s n, .fmt f] (vexpsumDef d a f) s

/-- `VSOFTMX`'s definition (R288): what the weights raise comes with the first element of the result. -/
def vsoftmxDef (d a : BitVec 6) (f : BitVec 28) : SrlDef := fun args =>
  vdefAt (partReads d a f) (needFn f floatTag false) (fun m s => do
    let v ← vsrc s a
    needTag 1 (fun t => floatTag t.toNat) v
    let n ← needCount (arg args 2) v.count
    let (ws, bits) := weights v n
    let c := fld (arg args 3).toNat 0 39
    let S := if c = 0 then weightSum v.count ws else readFp 0xF c
    let dz := if S.isZero then bDZ else 0
    let nan := S.isNan || ws.any Num.isNan
    let first := if eltCount (fmtTag f) ≤ v.count then fmtArg f * eltCount (fmtTag f) else 0
    placePart s 10 d (fmtTag f) (fmtArg f) v fun j =>
      let (c, b) :=
        if n ≤ j then (0, 0)
        else if nan then fmtRound f m (.qnan, 0)
        else fmtRound f m (divNum (ws.getD j .qnan) S, dz)
      (c, if j = first then b ||| bits else b)) args

/-- `VSOFTMX`. -/
def execVsoftmx (q : Bool) (d a n t : BitVec 6) (f : BitVec 28) (s : State) : Done :=
  callSrl 0x02E false 0 10 q [.v d, .v a, .s n, .s t, .fmt f] (vsoftmxDef d a f) s

/-! ## Normalisation (R289, R290) -/

/-- `VNORMST`'s definition (R289). -/
def vnormstDef (d e a : BitVec 6) (f : BitVec 28) : SrlDef := fun args =>
  vdef [a] (needFmt f floatTag false false argZero) (fun _ s => do
    let v ← sameTag s 2 a f
    let n ← needCount (arg args 3) v.count
    let xs := (List.range n).map v.val
    let (x, b1) := toF32 .rne (sumNum .rne xs)
    let (y, b2) := toF32 .rne (sumNum .rne (xs.map fun x => (mulNum x x).1))
    scalarOut s (b1 ||| b2) (toS s.regs d (x.setWidth 64) ++ toS s.regs e (y.setWidth 64))) args

/-- `VNORMST`. -/
def execVnormst (q : Bool) (d e a n : BitVec 6) (f : BitVec 28) (s : State) : Done :=
  callSrl 0x030 false 0 6 q [.s d, .s e, .v a, .s n, .fmt f] (vnormstDef d e a f) s

/-- μ and r of R290 from S, Q, n and ε. -/
def normStats (S Q eps : Num) (n : Nat) : Num × Num :=
  let r32 (x : Num) : Num := (rne 1 (x, 0)).1
  let count := Num.fin false n 0
  let mu := r32 (divNum S count)
  let m2 := r32 (divNum Q count)
  let v := r32 (sumNum .rne [m2, ((mulNum mu mu).1).neg]).1
  let v := if !v.isNan && !v.isZero && v.sign then .zero false else v
  (mu, r32 (fnRsqrt (r32 (sumNum .rne [v, eps]).1)).1)

/-- `VNORMAP`'s definition (R290). -/
def vnormapDef (d a : BitVec 6) (f : BitVec 28) : SrlDef := fun args =>
  vdefAt (partReads d a f) (needFn f floatTag false) (fun m s => do
    let v ← vsrc s a
    needTag 1 (fun t => floatTag t.toNat) v
    let n ← needCount (arg args 4) v.count
    let g (k : Nat) : Num := f32 ((arg args k).setWidth 32)
    let (mu, r) := normStats (g 2) (g 3) (g 5) n
    placePart s 6 d (fmtTag f) (fmtArg f) v fun j =>
      if n ≤ j then (0, 0)
      else fmtRound f m ((mulNum (sumNum m [v.val j, mu.neg]).1 r).1, sigBits [v.val j])) args

/-- `VNORMAP`. -/
def execVnormap (q : Bool) (d a t u n e : BitVec 6) (f : BitVec 28) (s : State) : Done :=
  callSrl 0x031 false 0 6 q [.v d, .v a, .s t, .s u, .s n, .s e, .fmt f] (vnormapDef d a f) s

end Sys2Proof.Machine
end

