-- ==== Sys2Proof/Machine/TileMath.lean ====
section
/-! DEFINITION. Tile command blocks (R354, R355, R361) and their checks, the shares of R356 and R357, operands read and C written through an
agent's addresses, and what a core computes of its share (R358 to R361). -/

namespace Sys2Proof.Machine

/-! ## Command blocks (R354) -/

/-- The fields of a tile command block. -/
structure Tcb where
  op : Nat
  level : Nat
  ksplit : Nat
  acc : Bool
  wide : Bool
  rm : Nat
  ovf : Bool
  xop : Nat
  seq : BitVec 32
  param : Nat
  da : BitVec 256
  db : BitVec 256
  dc : BitVec 256
  resv : Bool
  deriving DecidableEq, Repr

/-- The fields of 1,024 bits; `resv` says that the reserved bits are clear. -/
def Tcb.of (b : BitVec 1024) : Tcb :=
  let x := b.toNat
  { op := fld x 0 8, level := fld x 8 3, ksplit := fld x 16 2, acc := bitOf x 18, wide := bitOf x 19, rm := fld x 20 3, ovf := bitOf x 23,
    xop := fld x 24 8, seq := BitVec.ofNat 32 (fld x 32 32), param := fld x 64 64, da := BitVec.ofNat 256 (fld x 256 256),
    db := BitVec.ofNat 256 (fld x 512 256), dc := BitVec.ofNat 256 (fld x 768 256),
    resv := fld x 11 5 = 0 && fld x 145 111 = 0 }

def Tcb.a (t : Tcb) : Desc := Desc.of t.da
def Tcb.b (t : Tcb) : Desc := Desc.of t.db
def Tcb.c (t : Tcb) : Desc := Desc.of t.dc

/-- The operations by their OP byte (R353). -/
def opMMUL : Nat := 0xA0
def opSPMUL : Nat := 0xA1
def opEWISE : Nat := 0xA2
def opRED : Nat := 0xA3
def opCOPY : Nat := 0xA4
def opATTN : Nat := 0xA5

/-- A matrix product. -/
def Tcb.mm (t : Tcb) : Bool := t.op = opMMUL || t.op = opSPMUL

/-- A block for a child: LEVEL and PATH rewritten, the rest copied (R363). -/
def childTcb (b : BitVec 1024) (level path : Nat) : BitVec 1024 :=
  let x := b.toNat
  BitVec.ofNat 1024 (x % 2 ^ 8 + 2 ^ 8 * (level % 8) + 2 ^ 11 * (fld x 11 117) + 2 ^ 128 * (path % 2 ^ 11) + 2 ^ 139 * (x / 2 ^ 139))

/-- The parameter block of `TATTN` (R361). -/
structure Param where
  v : BitVec 256
  list : Word
  n : Nat
  sigma : W32
  resv : Bool
  deriving DecidableEq, Repr

/-- Its fields from 64 bytes. -/
def Param.of (x : Nat) : Param :=
  ⟨BitVec.ofNat 256 (fld x 0 256), BitVec.ofNat 64 (fld x 256 64), fld x 320 32, BitVec.ofNat 32 (fld x 352 32), fld x 384 128 = 0⟩

/-- Tags of `TEWISE`'s operands (R355). -/
def ewTag (t : Nat) : Bool := floatTag t || t = 6 || t = 7

/-- Whether an XOP is one of its operation. -/
def xopOk (op xop : Nat) : Bool :=
  if op = opEWISE then xop ≤ 4 || (0x10 ≤ xop && xop ≤ 0x19)
  else if op = opRED then xop % 128 ≤ 2
  else xop = 0

/-- Whether `TEWISE`'s operation takes two operands. -/
def binaryOp (t : Tcb) : Bool := t.op = opEWISE && t.xop ≤ 4

/-- Whether the operand pair accumulates in INT32 (R315). -/
def intPair (t : Tcb) : Bool := tagFamily t.a.tag = 7 || (t.a.tag = 0xB && t.b.tag = 0xB)

/-- Whether an operation's shapes agree (R355, R361). -/
def shapesOk (t : Tcb) (p : Param) : Bool :=
  let a := t.a
  let b := t.b
  let c := t.c
  let v := Desc.of p.v
  let alone := t.db = 0
  if t.mm then a.rows = c.rows && a.cols = b.rows && b.cols = c.cols && a.sparse == (t.op == opSPMUL) && !b.sparse && !c.sparse
      && !(a.sparse && (a.trans || a.sphdr % 16 ≠ 0))
  else if a.sparse || b.sparse || c.sparse then false
  else if t.op = opEWISE then a.rows = c.rows && a.cols = c.cols && (if binaryOp t then b.rows = a.rows && b.cols = a.cols else alone)
  else if t.op = opRED then alone && (if 128 ≤ t.xop then c.rows = 1 && c.cols = a.cols else c.cols = 1 && c.rows = a.rows)
  else if t.op = opCOPY then alone && a.rows = c.rows && a.cols = c.cols
  else a.rows = c.rows && a.cols = b.cols && b.rows = v.rows && v.cols = c.cols && !v.sparse && descValid p.v && 1 ≤ p.n && p.n ≤ 4096 && p.resv

/-- The checks of a command block for an executing level (R354). -/
def checkTcb (num level : Nat) (bits : BitVec 1024) (p : Param) : Except Trap Unit := do
  let t := Tcb.of bits
  let ctag := t.c.tag
  needILL (t.op = num % 256 && t.level = level && t.resv && t.ksplit ≠ 3 && (t.mm || t.ksplit = 0) && (rndOf t.rm).isSome && xopOk t.op t.xop
    && (if t.op = opATTN then t.param % 64 = 0 && t.param < 2 ^ 57 else t.param = 0)
    && descValid t.da && descValid t.dc && ((!t.mm && t.op ≠ opATTN && !binaryOp t) || descValid t.db))
  needILL (shapesOk t p && !(t.ovf && (tagBlk ctag || !hasInf (tagFmt ctag))) && !(tagBlk ctag && (t.c.trans || t.c.cols % 32 ≠ 0))
    && !(t.op = opEWISE && 0x10 ≤ t.xop && ctag = 1 && t.rm ≠ 0))
  if t.mm || t.op = opATTN then
    needTagN 0x10 t.a.tag (tagFamily t.a.tag ≠ 0)
    needTagN 0x11 t.b.tag (tagFamily t.b.tag = tagFamily t.a.tag)
    needTagN 0x12 ctag (drainTag ctag)
    needILL (!(t.wide && intPair t))
    if t.op = opATTN then
      let vt := (Desc.of p.v).tag
      needTagN 0x13 vt (vt = 4 || vt = 5)
  else if t.op = opEWISE then
    needTagN 0x10 t.a.tag (ewTag t.a.tag)
    if binaryOp t then needTagN 0x11 t.b.tag (ewTag t.b.tag)
    needTagN 0x12 ctag (ewTag ctag)
  else if t.op = opRED then
    needTagN 0x10 t.a.tag (floatTag t.a.tag)
    needTagN 0x12 ctag (ewTag ctag)
  else
    needTagN 0x10 t.a.tag (cvtSrc t.a.tag)
    needTagN 0x12 ctag (cvtDst ctag)

/-! ## Shares (R356, R357) -/

/-- The first index of child c's share of an extent X in granules g among P children. -/
def shareFirst (X g P c : Nat) : Nat := cdiv X g * c / max 1 P * g

/-- Child c's share of the range lo to hi. -/
def cutRange (lo hi g P c : Nat) : Nat × Nat := (lo + shareFirst (hi - lo) g P c, min hi (lo + shareFirst (hi - lo) g P (c + 1)))

def Share.empty (x : Share) : Bool := x.r1 ≤ x.r0 || x.c1 ≤ x.c0 || x.k1 ≤ x.k0

/-- The whole of an instruction. -/
def wholeShare (t : Tcb) : Share :=
  let of (r c k : Nat) : Share := { r0 := 0, r1 := r, c0 := 0, c1 := c, k0 := 0, k1 := k }
  if t.mm then of t.c.rows t.c.cols t.a.cols
  else if t.op = opRED then (if 128 ≤ t.xop then of 1 t.c.cols t.a.rows else of t.c.rows 1 t.a.cols)
  else of t.c.rows t.c.cols 1

/-- A share cut along rows or columns for child c of P. -/
def Share.cutRows (x : Share) (g P c : Nat) : Share := let (a, b) := cutRange x.r0 x.r1 g P c; { x with r0 := a, r1 := b }
def Share.cutCols (x : Share) (g P c : Nat) : Share := let (a, b) := cutRange x.c0 x.c1 g P c; { x with c0 := a, c1 := b }
def Share.cutK (x : Share) (g P c : Nat) : Share := let (a, b) := cutRange x.k0 x.k1 g P c; { x with k0 := a, k1 := b }

/-- The larger of rows and columns cut, rows on a tie. -/
def Share.cutLarger (x : Share) (gr gc P c : Nat) : Share :=
  if x.c1 - x.c0 ≤ x.r1 - x.r0 then x.cutRows gr P c else x.cutCols gc P c

/-- K parts of a quad's cores (R357). -/
def kParts (ksplit P : Nat) : Nat := if 2 ^ ksplit ≤ P then 2 ^ ksplit else if 2 ≤ P then 2 else 1

/-- The share of child c of P of an executing level; `depth` is the granule of K. -/
def childShare (t : Tcb) (level depth : Nat) (x : Share) (P c : Nat) : Share :=
  if t.mm then
    if level ≠ 3 then x.cutLarger 16 24 P c
    else
      let p := kParts t.ksplit P
      let G := P / p
      if G * p ≤ c then { x with r1 := x.r0 } else (x.cutLarger 16 24 G (c / p)).cutK depth p (c % p)
  else if t.op = opRED then (if 128 ≤ t.xop then x.cutCols 1 P c else x.cutRows 1 P c)
  else if t.op = opATTN then x.cutRows 16 P c
  else x.cutLarger 1 1 P c

/-! ## Reading operands -/

/-- Rows and columns swapped. -/
def flip {α : Type} (d : α) (n : Nat) (rows : List (List α)) : List (List α) := (List.range n).map fun j => rows.map fun r => r.getD j d

/-- The codes of `m` stored elements from column `c` on, in `n` stored rows from row `r` on. -/
def readStored (ag : Ag) (d : Desc) (c m : Nat) : Nat → Nat → State → Except (Nat × Word) (List (List Nat)) × State
  | 0, _, s => (.ok [], s)
  | n + 1, r, s =>
    let lo := c * d.w / 8
    match agRead s ag (BitVec.ofNat 64 (d.addr + r * d.rstride + lo)) (cdiv ((c + m) * d.w) 8 - lo) .copy with
    | (.error e, s) => (.error e, s)
    | (.ok bs, s) =>
      let x := leNat bs / 2 ^ (c * d.w % 8)
      match readStored ag d c m n (r + 1) s with
      | (.error e, s) => (.error e, s)
      | (.ok rows, s) => (.ok ((List.range m).map (eltAt x d.w) :: rows), s)

/-- The codes of matrix rows x0 to x1 and columns y0 to y1. -/
def readCodes (s : State) (ag : Ag) (d : Desc) (x0 x1 y0 y1 : Nat) : Except (Nat × Word) (List (List Nat)) × State :=
  if x1 ≤ x0 || y1 ≤ y0 then (.ok (List.replicate (x1 - x0) []), s)
  else if d.trans then
    match readStored ag d x0 (x1 - x0) (y1 - y0) y0 s with
    | (.error e, s) => (.error e, s)
    | (.ok rows, s) => (.ok (flip 0 (x1 - x0) rows), s)
  else readStored ag d y0 (y1 - y0) (x1 - x0) x0 s

/-- The index of an element's scale entry (R309). -/
def scaleIndex (d : Desc) (kcols : Bool) (x y : Nat) : Nat :=
  if kcols then x * cdiv d.cols 32 + y / 32 else y * cdiv d.rows 32 + x / 32

/-- The values of matrix rows x0 to x1 and columns y0 to y1 of a dense operand. -/
def readVals (s : State) (ag : Ag) (d : Desc) (kcols : Bool) (x0 x1 y0 y1 : Nat) : Except (Nat × Word) (List (List Num)) × State :=
  match readCodes s ag d x0 x1 y0 y1 with
  | (.error e, s) => (.error e, s)
  | (.ok rows, s) =>
    if !tagBlk d.tag then (.ok (rows.map fun r => r.map (readElt (tagFmt d.tag))), s)
    else
      match agRead s ag (BitVec.ofNat 64 d.scale) (d.scaleSpan kcols) .copy with
      | (.error e, s) => (.error e, s)
      | (.ok sc, s) =>
        let z := leNat sc
        (.ok ((List.range rows.length).map fun i => let r := rows.getD i []; (List.range r.length).map fun j =>
          let b := eltAt z (8 * d.bs) (scaleIndex d kcols (x0 + i) (y0 + j))
          blockVal (tagFmt d.tag) (b % 256) (b / 256) (r.getD j 0)), s)

/-- Columns y0 to y1 of an operand, each from row x0 to x1. -/
def readCols (s : State) (ag : Ag) (d : Desc) (kcols : Bool) (x0 x1 y0 y1 : Nat) : Except (Nat × Word) (List (List Num)) × State :=
  match readVals s ag d kcols x0 x1 y0 y1 with
  | (.error e, s) => (.error e, s)
  | (.ok rows, s) => (.ok (flip (.zero false) (y1 - y0) rows), s)

/-- The header checks of a sparse operand that an agent reads (R337, R362): check 7 where the header lies in a scratchpad, and of what lies there. -/
def agHeaderCause (ag : Ag) (x : Nat) (d : Desc) : Nat :=
  let T : SpTile := ⟨d, SpHdr.of x, 0, 0, 0, 0⟩
  let pad (a : Nat) : Option (Nat × Nat) := match locOf ag a with | some (.win k 0 off) => some (k, off) | _ => none
  if headerFields x T ≠ 0 then headerFields x T
  else
    match pad d.sphdr with
    | none => 0
    | some (k, hoff) =>
      let off := match pad d.addr with | some (k', off) => if k' = k then off else padBytes | none => padBytes
      if ({ T with hoff, off } : SpTile).pastEnd then 7 else 0

/-- The lines and groups of a sparse A that a share reads (R332): of its rows and its part of K. -/
def SpTile.part (T : SpTile) (x : Share) : Nat × Nat × Nat × Nat :=
  if T.h.dir then (x.k0, x.k1, (x.r0 - x.a0) / T.h.m, cdiv (x.r1 - x.a0) T.h.m) else (x.r0 - x.a0, x.r1 - x.a0, x.k0 / T.h.m, cdiv x.k1 T.h.m)

/-- Bytes at an offset, as a memory. -/
def bytesAt (off : Nat) (bs : List Byte) : Memory := (List.range bs.length).map fun i => (off + i, bs.getD i 0)

/-- Some lines of a sparse operand read: its header with the cause of its checks, and its bytes laid out as `SpTile` reads them. -/
def readSparse (s : State) (ag : Ag) (d : Desc) (x : Share) : Except (Nat × Word) (Nat × SpTile × Memory) × State :=
  match agRead s ag (BitVec.ofNat 64 d.sphdr) 16 .copy with
  | (.error e, s) => (.error e, s)
  | (.ok hb, s) =>
    let h := leNat hb
    let T : SpTile := ⟨d, SpHdr.of h, 0, 2 ^ 40, 0, 2 ^ 60⟩
    let cause := agHeaderCause ag h d
    if cause ≠ 0 then (.ok (cause, T, []), s)
    else
      let (l0, l1, _, _) := T.part x
      let bits := T.groups * T.h.n * (T.h.iw + 1)
      let i0 := l0 * bits / 8
      match agRead s ag (BitVec.ofNat 64 (d.sphdr + 16 + i0)) (cdiv (l1 * bits) 8 - i0) .copy with
      | (.error e, s) => (.error e, s)
      | (.ok ib, s) =>
        match readStored ag { d with tag := 0xB } 0 (cdiv (T.groups * T.h.n * d.w) 8) (l1 - l0) l0 s with
        | (.error e, s) => (.error e, s)
        | (.ok vs, s) =>
          let vals := (List.range vs.length).flatMap fun i => bytesAt (T.off + (l0 + i) * d.rstride) ((vs.getD i []).map (BitVec.ofNat 8))
          if !tagBlk d.tag then (.ok (0, T, bytesAt (16 + i0) ib ++ vals), s)
          else
            let row := cdiv T.len 32 * d.bs
            match agRead s ag (BitVec.ofNat 64 (d.scale + l0 * row)) ((l1 - l0) * row) .copy with
            | (.error e, s) => (.error e, s)
            | (.ok sc, s) => (.ok (0, T, bytesAt (16 + i0) ib ++ vals ++ bytesAt (T.soff + l0 * row) sc), s)

/-! ## Writing C -/

/-- Codes of a tag written at a bit of a stored row. -/
def writeBits (s : State) (ag : Ag) (row : Word) (bit w : Nat) (cs : List Nat) : Except (Nat × Word) Unit × State :=
  let n := cs.length * w
  let at' := row + BitVec.ofNat 64 (bit / 8)
  if bit % 8 = 0 && n % 8 = 0 then agWrite s ag at' (leBytes (n / 8) (packElts w cs)) .copy
  else
    let len := cdiv (bit % 8 + n) 8
    match agRead s ag at' len .copy with
    | (.error e, s) => (.error e, s)
    | (.ok old, s) =>
      let x := leNat old
      let lo := 2 ^ (bit % 8)
      agWrite s ag at' (leBytes len (x % lo + lo * packElts w cs + lo * 2 ^ n * (x / (lo * 2 ^ n)))) .copy

/-- Stored rows written, the first at row r. -/
def writeStored (ag : Ag) (d : Desc) (c : Nat) : List (List Nat) → Nat → State → Except (Nat × Word) Unit × State
  | [], _, s => (.ok (), s)
  | row :: rows, r, s =>
    match writeBits s ag (BitVec.ofNat 64 (d.addr + r * d.rstride)) (c * d.w) d.w row with
    | (.error e, s) => (.error e, s)
    | (.ok (), s) => writeStored ag d c rows (r + 1) s

/-- Codes written as matrix rows from row x0 and column y0 on. -/
def writeCodes (s : State) (ag : Ag) (d : Desc) (x0 y0 : Nat) (rows : List (List Nat)) : Except (Nat × Word) Unit × State :=
  if d.trans then writeStored ag d x0 (flip 0 (rows.headD []).length rows) y0 s else writeStored ag d y0 rows x0 s

/-- Scale entries of a block-scaled C written, those of row x from its block b on. -/
def writeScales (ag : Ag) (d : Desc) (b : Nat) : List (List QBlock) → Nat → State → Except (Nat × Word) Unit × State
  | [], _, s => (.ok (), s)
  | qs :: rest, x, s =>
    let bytes := qs.flatMap fun q => if d.bs = 2 then leBytes 2 (q.scale + 256 * q.spare) else leBytes 1 q.scale
    match agWrite s ag (BitVec.ofNat 64 (d.scale + (x * cdiv d.cols 32 + b) * d.bs)) bytes .copy with
    | (.error e, s) => (.error e, s)
    | (.ok (), s) => writeScales ag d b rest (x + 1) s

/-- Values rounded into C (R318, R355), from row x0 and column y0 on; whole blocks of a block-scaled C. -/
def writeVals (s : State) (ag : Ag) (d : Desc) (m : Rnd) (ovf : Bool) (x0 y0 : Nat) (rows : List (List Num)) :
    Except (Nat × Word) Unit × State :=
  if tagBlk d.tag then
    let qs := rows.map fun r => (List.range (r.length / 32)).map fun b => quantise (tagFmt d.tag) m ((r.drop (32 * b)).take 32)
    match writeCodes s ag d x0 y0 (qs.map fun r => r.flatMap (·.codes)) with
    | (.error e, s) => (.error e, s)
    | (.ok (), s) => writeScales ag d (y0 / 32) qs x0 s
  else writeCodes s ag d x0 y0 (rows.map fun r => r.map fun v => (convNum (tagFmt d.tag) m ovf v).1)

/-! ## Matrix products (R358) -/

/-- How a core's share ends: done, a trap with the steps performed before it, or a launch-fatal fault. -/
inductive ShareEnd (α : Type) where
  | ok (s : State) (x : α)
  | trap (s : State) (t : Trap) (num steps : Nat)
  | fatal (s : State) (e : Nat × Word)

/-- The accumulator format of a product. -/
def accFmt (t : Tcb) : Nat := if intPair t then 2 else if t.wide then 0xF else 1

/-- The accumulator that a chain's steps round into (R358): to nearest, overflow to infinity. -/
def accSlot (fmt : Nat) : CSlot := ⟨0, 0, 0, 0, fmt, .rne, true, []⟩

/-- A list in pieces of `n`, the last one short. -/
def pieces {α : Type} (n : Nat) : Nat → List α → List (List α)
  | 0, _ => []
  | fuel + 1, xs => if xs.isEmpty then [] else xs.take n :: pieces n fuel (xs.drop n)

/-- A chain of rounded steps of `depth` products each, from an accumulator's code, with the X bits it raises: past the end of K the elements of a step are
+0 (R316). -/
def chain (fmt depth : Nat) (start : Nat) (as bs : List Num) : Nat × Nat :=
  let whole (xs : List Num) : List Num := xs ++ List.replicate (depth - xs.length) (.zero false)
  ((pieces depth as.length as).zip (pieces depth bs.length bs)).foldl
    (fun acc p => let (c, x) := dotStep (accSlot fmt) (accVal fmt acc.1) (whole p.1) (whole p.2); (c, acc.2 ||| x)) (start, 0)

/-- A peer's sum added (R320, R358). -/
def peerAdd (fmt : Nat) (x y : Nat) : Nat := (roundTo fmt .rne true (sumNum .rne [accVal fmt x, accVal fmt y]).1).1

/-- The columns of C that a share's core drains: of a block-scaled C the blocks that begin in the share. -/
def drainCols (t : Tcb) (x : Share) : Nat × Nat := if tagBlk t.c.tag then (roundUp x.c0 32, min t.c.cols (roundUp x.c1 32)) else (x.c0, x.c1)

/-- The first failing group among those that steps of rows r0 to r1 read, step by step: its cause and the steps before it. -/
def badGroup (T : SpTile) (m : Memory) (r0 r1 : Nat) (depth : Nat) (k0 k1 : Nat) : Option (Nat × Nat × Nat) :=
  (List.range (cdiv (k1 - k0) depth)).findSome? fun i =>
    let lo := k0 + i * depth
    let hi := min k1 (lo + depth)
    let lines := if T.h.dir then (List.range (hi - lo)).map (lo + ·) else (List.range (r1 - r0)).map (r0 + ·)
    let g0 := (if T.h.dir then r0 else lo) / T.h.m
    let g1 := ((if T.h.dir then r1 else hi) - 1) / T.h.m
    (lines.findSome? fun x => (List.range (g1 + 1 - g0)).findSome? fun g =>
      let c := groupCause T.h.m (T.slots m x (g0 + g))
      if c = 0 then none else some (c, T.indexAt x (g0 + g))).map fun c => (c.1, c.2, i)

/-- The first failing group of a share, 16 rows after 16 rows. -/
def badShare (T : SpTile) (m : Memory) (x : Share) (depth : Nat) : Option (Nat × Nat × Nat) :=
  (List.range (cdiv (x.r1 - x.r0) 16)).findSome? fun b =>
    badGroup T m (x.r0 + 16 * b) (min x.r1 (x.r0 + 16 * b + 16)) depth x.k0 x.k1

/-- The values of a sparse matrix over a share. -/
def sparseRows (T : SpTile) (m : Memory) (x : Share) : List (List Num) :=
  (List.range (x.r1 - x.r0)).map fun i => (List.range (x.k1 - x.k0)).map fun j =>
    let (l, p) := if T.h.dir then (x.k0 + j, x.r0 + i) else (x.r0 + i, x.k0 + j)
    groupVal (T.slots m l (p / T.h.m)) (p % T.h.m)

/-- Rows of A for a share, with the depth of a step. -/
def rowsA (s : State) (ag : Ag) (t : Tcb) (x : Share) : ShareEnd (List (List Num) × Nat) :=
  let d := t.a
  let k := (stepDepth d.tag).getD 1
  if t.op = opSPMUL then
    match readSparse s ag d x with
    | (.error e, s) => .fatal s e
    | (.ok (cause, T, m), s) =>
      let x := { x with r0 := x.r0 - x.a0, r1 := x.r1 - x.a0 }
      if cause ≠ 0 then .trap s (spmetaHdr T cause) 0x042 0
      else
        let depth := sparseDepth k T.h.n T.h.m
        match badShare T m x depth with
        | some (c, off, i) => .trap s (spmeta T c off) 0x042 i
        | none => .ok s (sparseRows T m x, depth)
  else
    match readVals s ag d true x.r0 x.r1 x.k0 x.k1 with
    | (.error e, s) => .fatal s e
    | (.ok rows, s) => .ok s (rows, k)

/-- C's old values as accumulator codes. -/
def startAcc (s : State) (ag : Ag) (t : Tcb) (fmt : Nat) (x : Share) (c0 c1 : Nat) : Except (Nat × Word) (List (List Nat)) × State :=
  if t.acc then
    match readVals s ag t.c true x.r0 x.r1 c0 c1 with
    | (.error e, s) => (.error e, s)
    | (.ok rows, s) => (.ok (rows.map fun r => r.map fun v => (convNum fmt .rne true v).1), s)
  else (.ok (List.replicate (x.r1 - x.r0) (List.replicate (c1 - c0) 0)), s)

/-- Codes, and the X bits raised. -/
abbrev Sums := List (List Nat) × Nat

/-- The chains of one K part over the rows of a share and columns c0 to c1, from given accumulators. -/
def partSums (s : State) (ag : Ag) (t : Tcb) (fmt : Nat) (x : Share) (c0 c1 : Nat) (start : List (List Nat)) : ShareEnd Sums :=
  match rowsA s ag t x with
  | .trap s e n i => .trap s e n i
  | .fatal s e => .fatal s e
  | .ok s (as, depth) =>
    match readCols s ag t.b false x.k0 x.k1 c0 c1 with
    | (.error e, s) => .fatal s e
    | (.ok bs, s) =>
      let cs := (as.zip start).map fun p => (bs.zip p.2).map fun q => chain fmt depth q.2 p.1 q.1
      .ok s (cs.map fun r => r.map (·.1), cs.foldl (fun n r => r.foldl (fun n c => n ||| c.2) n) 0)

/-- The later parts of a group added in order (R358). -/
def addParts (ag : Ag) (t : Tcb) (fmt c0 c1 : Nat) : List Share → Sums → State → ShareEnd Sums
  | [], sums, s => .ok s sums
  | x :: xs, sums, s =>
    match partSums s ag t fmt x c0 c1 (sums.1.map fun r => r.map fun _ => 0) with
    | .trap s e n i => .trap s e n i
    | .fatal s e => .fatal s e
    | .ok s part => addParts ag t fmt c0 c1 xs (List.zipWith (List.zipWith (peerAdd fmt)) sums.1 part.1, sums.2 ||| part.2) s

/-- What a share's run raised: sticky bits of its context, and the X bits of its tiles' status. -/
structure ShareBits where
  sticky : Word := 0
  x : Nat := 0
  deriving DecidableEq, Repr

/-- The receiving core's share of a product: its own part, the others' parts, and the drain. -/
def productOf (s : State) (ag : Ag) (t : Tcb) (m : Rnd) (x : Share) (others : List Share) : ShareEnd ShareBits :=
  let fmt := accFmt t
  let (c0, c1) := drainCols t x
  match startAcc s ag t fmt x c0 c1 with
  | (.error e, s) => .fatal s e
  | (.ok start, s) =>
    match partSums s ag t fmt x c0 c1 start with
    | .trap s e n i => .trap s e n i
    | .fatal s e => .fatal s e
    | .ok s sums =>
      match addParts ag t fmt c0 c1 others sums s with
      | .trap s e n i => .trap s e n i
      | .fatal s e => .fatal s e
      | .ok s sums =>
        match writeVals s ag t.c m t.ovf x.r0 c0 (sums.1.map fun r => r.map (accVal fmt)) with
        | (.error e, s) => .fatal s e
        | (.ok (), s) => .ok s { x := sums.2 }

/-- The ranges of bytes that an operand's descriptor names: its rows, or a sparse tile's lines, indices and header, and its scale array. -/
def operandRanges (s : State) (ag : Ag) (d : Desc) (kcols : Bool) : List (Word × Nat) :=
  if d.sparse then
    match agRead s ag (BitVec.ofNat 64 d.sphdr) 16 .copy with
    | (.error _, _) => [(BitVec.ofNat 64 d.sphdr, 16)]
    | (.ok hb, _) =>
      let T : SpTile := ⟨d, SpHdr.of (leNat hb), 0, 0, 0, 0⟩
      if T.h.m = 0 then [(BitVec.ofNat 64 d.sphdr, 16)]
      else
        [(BitVec.ofNat 64 d.addr, (T.lines - 1) * d.rstride + cdiv (T.groups * T.h.n * d.w) 8),
         (BitVec.ofNat 64 d.sphdr, 16 + indexBytes T.lines T.groups T.h.n T.h.iw)]
          ++ (if tagBlk d.tag then [(BitVec.ofNat 64 d.scale, T.lines * cdiv T.len 32 * d.bs)] else [])
  else (BitVec.ofNat 64 d.addr, d.span) :: (if tagBlk d.tag then [(BitVec.ofNat 64 d.scale, d.scaleSpan kcols)] else [])

/-! ## Where C is unspecified (R355, R366) -/

/-- Runs of bytes at a stride: address, runs, stride, bytes of each. -/
abbrev Runs := Nat × Nat × Nat × Nat

/-- Whether two sets of runs share a byte. -/
def runsMeet (a b : Runs) : Bool :=
  let (aAddr, aN, aStride, aLen) := a
  let (bAddr, bN, bStride, bLen) := b
  aAddr < bAddr + (bN - 1) * bStride + bLen && bAddr < aAddr + (aN - 1) * aStride + aLen &&
    (List.range aN).any fun i =>
      let lo := aAddr + i * aStride
      let hi := lo + aLen
      bAddr < hi && (let j := if bStride = 0 then 0 else min (bN - 1) ((hi - 1 - bAddr) / bStride)
                     lo < bAddr + j * bStride + bLen)

/-- The bytes that an operand takes in memory. -/
def operandRuns (s : State) (ag : Ag) (d : Desc) (kcols : Bool) : List Runs :=
  if d.sparse then (operandRanges s ag d kcols).map fun r => (r.1.toNat, 1, 0, r.2)
  else (d.addr, d.srows, d.rstride, cdiv (d.scols * d.w) 8) :: (if tagBlk d.tag then [(d.scale, 1, 0, d.scaleSpan kcols)] else [])

/-- Whether an operand is C in place, which `TEWISE` and `TCOPY` allow of A (R355): the same address, stride, shape and tag. -/
def Tcb.isC (t : Tcb) (d : Desc) : Bool :=
  (t.op = opEWISE || t.op = opCOPY) && d.addr = t.c.addr && d.rstride = t.c.rstride && d.rows = t.c.rows && d.cols = t.c.cols && d.tag = t.c.tag

/-- Whether C overlaps A or B, so that it is unspecified, unless C is A in place (R355); a B that is A and C in one is read with it. -/
def overlapsC (s : State) (ag : Ag) (t : Tcb) : Bool :=
  let c := operandRuns s ag t.c true
  let meets (d : Desc) (kcols : Bool) : Bool := (operandRuns s ag d kcols).any fun a => c.any fun b => runsMeet a b
  (!t.isC t.a && meets t.a true)
    || ((t.mm || t.op = opATTN || binaryOp t) && !(t.isC t.a && t.isC t.b && t.b.trans == t.a.trans) && meets t.b (t.op = opATTN))

/-- The columns of C that a share writes. -/
def colsOfC (t : Tcb) (x : Share) : Nat × Nat := if t.op = opATTN then (0, t.c.cols) else drainCols t x

/-- C over a share, unspecified: free codes and free scale entries. -/
def loseC (s : State) (ag : Ag) (t : Tcb) (x : Share) : State :=
  let (c0, c1) := colsOfC t x
  let n := x.r1 - x.r0
  let w := c1 - c0
  let v := fun i => (Config.freeValue (s.fresh + i)).toNat
  let rows := (List.range n).map fun i => (List.range w).map fun j => v (i * w + j) % 2 ^ t.c.w
  let u := (writeCodes { s with fresh := s.fresh + 2 * n * w } ag t.c x.r0 c0 rows).2
  if tagBlk t.c.tag then
    (writeScales ag t.c (c0 / 32) ((List.range n).map fun i => (List.range (w / 32)).map fun b =>
      let y := v (n * w + i * w + b)
      ⟨[], y % 256, y / 256 % 256, []⟩) x.r0 u).2
  else u

/-- Whether C's values over a share are unspecified: C overlaps an operand, or holds A's transpose in place and other cores write the rest (log entry 103). -/
def losesC (t : Tcb) (x : Share) : Bool :=
  x.crossed || (t.isC t.a && t.a.trans != t.c.trans && !(x.r0 = 0 && x.r1 = t.c.rows && x.c0 = 0 && x.c1 = t.c.cols))

/-- A share that has run: where C is unspecified its values are free. -/
def settleC (ag : Ag) (t : Tcb) (x : Share) : ShareEnd ShareBits → ShareEnd ShareBits
  | .ok s bits => .ok (if losesC t x then loseC s ag t x else s) bits
  | e => e

/-- The receiving core's share of a product. -/
def runProduct (s : State) (ag : Ag) (t : Tcb) (m : Rnd) (x : Share) (others : List Share) : ShareEnd ShareBits :=
  settleC ag t x (productOf s ag t m x others)

/-- A core's own part of a product where another core drains it: its reads and its checks; the X bits of its tiles are not followed. -/
def runPart (s : State) (ag : Ag) (t : Tcb) (x : Share) : ShareEnd ShareBits :=
  match rowsA s ag t x with
  | .trap s e n i => .trap s e n i
  | .fatal s e => .fatal s e
  | .ok s _ =>
    match readCols s ag t.b false x.k0 x.k1 x.c0 x.c1 with
    | (.error e, s) => .fatal s e
    | (.ok _, s) => .ok s { x := 0x1E00 }

/-! ## Elementwise operations and copies (R355, R359) -/

/-- The special functions of R285 in their order. -/
def tileFn (n : Nat) : Num → Num × Word :=
  match n with
  | 0 => fnExp | 1 => fnExp2 | 2 => fnLog2 | 3 => fnRcp | 4 => fnRsqrt | 5 => fnSqrt | 6 => fnTanh | 7 => fnSigm | 8 => fnGelu | _ => fnSilu

/-- `TEWISE`'s value of two elements. -/
def ewVal (t : Tcb) (m : Rnd) (a b : Num) : Num × Word :=
  match t.xop with
  | 0 => sumNum m [a, b]
  | 1 => sumNum m [a, b.neg]
  | 2 => mulNum a b
  | 3 => (minNum a b, sigBits [a, b])
  | 4 => (maxNum a b, sigBits [a, b])
  | x => tileFn (x - 0x10) a

/-- An element's code and bits. -/
def ewCode (t : Tcb) (m : Rnd) (a b : Num) : Nat × Word :=
  let (y, w) := ewVal t m a b
  let (c, w') := roundTo (tagFmt t.c.tag) m t.ovf y
  (c, w ||| w')

/-- `TEWISE` over a share: every element is read before one is written (R355). -/
def runEwise (s : State) (ag : Ag) (t : Tcb) (m : Rnd) (x : Share) : ShareEnd ShareBits :=
  match readVals s ag t.a true x.r0 x.r1 x.c0 x.c1 with
  | (.error e, s) => .fatal s e
  | (.ok as, s) =>
    match if binaryOp t then readVals s ag t.b true x.r0 x.r1 x.c0 x.c1 else (.ok [], s) with
    | (.error e, s) => .fatal s e
    | (.ok bs, s) =>
      let cs := (List.range as.length).map fun i =>
        let a := as.getD i []
        let b := bs.getD i []
        (List.range a.length).map fun j => ewCode t m (a.getD j .qnan) (b.getD j (.zero false))
      match writeCodes s ag t.c x.r0 x.c0 (cs.map fun r => r.map (·.1)) with
      | (.error e, s) => .fatal s e
      | (.ok (), s) => .ok s { sticky := cs.foldl (fun w r => r.foldl (fun w c => w ||| c.2) w) 0 }

/-- `TCOPY` over a share (R263). -/
def runTcopy (s : State) (ag : Ag) (t : Tcb) (m : Rnd) (x : Share) : ShareEnd ShareBits :=
  match readCodes s ag t.a x.r0 x.r1 x.c0 x.c1 with
  | (.error e, s) => .fatal s e
  | (.ok as, s) =>
    let cs := as.map fun r => r.map fun c => if t.a.tag = t.c.tag then (c, 0) else convNum t.c.tag m t.ovf (readElt t.a.tag c)
    match writeCodes s ag t.c x.r0 x.c0 (cs.map fun r => r.map (·.1)) with
    | (.error e, s) => .fatal s e
    | (.ok (), s) => .ok s { sticky := cs.foldl (fun w r => r.foldl (fun w c => w ||| c.2) w) 0 }

/-! ## Reductions (R360) -/

/-- The sum of a row: chunks of 64 by the tree of R281, chunk values added in order. -/
def chunkSum (xs : List Num) : Num × Word :=
  let cs := (pieces 64 xs.length xs).map fun c => treeSum 1 ((c ++ List.replicate (64 - c.length) (.zero false)).map fun x => (x, 0))
  match cs with
  | [] => (.zero false, 0)
  | c :: cs => cs.foldl (addIn 1) c

/-- The value of a reduced row or column. -/
def reduce (xop : Nat) (xs : List Num) : Num × Word :=
  if xop % 128 = 0 then
    let (v, b) := chunkSum xs
    (v, b ||| sigBits xs)
  else
    let bits := xs.foldl (fun w x => w ||| keyBits x) 0
    match extreme (xop % 128 = 1) ((List.range xs.length).map fun i => (xs.getD i .qnan, i)) with
    | some (v, _) => (v, bits)
    | none => (.qnan, bits)

/-- `TRED` over a share. -/
def runRed (s : State) (ag : Ag) (t : Tcb) (m : Rnd) (x : Share) : ShareEnd ShareBits :=
  let cols := 128 ≤ t.xop
  match if cols then readCols s ag t.a true x.k0 x.k1 x.c0 x.c1 else readVals s ag t.a true x.r0 x.r1 x.k0 x.k1 with
  | (.error e, s) => .fatal s e
  | (.ok xs, s) =>
    let rs := xs.map fun r => let (v, b) := reduce t.xop r; let (c, b') := roundTo (tagFmt t.c.tag) m t.ovf v; (c, b ||| b')
    let codes := rs.map (·.1)
    match writeCodes s ag t.c x.r0 x.c0 (if cols then [codes] else codes.map fun c => [c]) with
    | (.error e, s) => .fatal s e
    | (.ok (), s) => .ok s { sticky := rs.foldl (fun w x => w ||| x.2) 0 }

/-! ## Attention (R361) -/

/-- The values of 64 rows of each listed block; rows outside the matrix read as zero. -/
def readBlocks (ag : Ag) (d : Desc) (kcols : Bool) : List Nat → State → Except (Nat × Word) (List (List Num)) × State
  | [], s => (.ok [], s)
  | b :: bs, s =>
    let n := min (64 * b + 64) d.rows - min (64 * b) d.rows
    match readVals s ag d kcols (min (64 * b) d.rows) (min (64 * b) d.rows + n) 0 d.cols with
    | (.error e, s) => (.error e, s)
    | (.ok rows, s) =>
      match readBlocks ag d kcols bs s with
      | (.error e, s) => (.error e, s)
      | (.ok rest, s) => (.ok (rows ++ List.replicate (64 - n) (List.replicate d.cols (.zero false)) ++ rest), s)

/-- The sum of weights chained register by register, 128 elements each (R287, R361). -/
def weightChain (ws : List Num) : Num :=
  (pieces 128 ws.length ws).foldl (fun p c => (rne 0xF (sumNum .rne [p, weightSum 128 c])).1) (.zero false)

/-- The softmax weights of scores in a tag (R288). -/
def softWeights (tag : Nat) (ss : List Num) : List Num :=
  let ws := ss.map fun x => (weight x).1
  let S := weightChain ws
  let nan := S.isNan || ws.any Num.isNan
  ws.map fun w => readFp tag (roundTo tag .rne false (if nan then .qnan else divNum w S)).1

/-- One query row of `TATTN`: its output accumulators, and the X bits of its chains. -/
def attnRow (t : Tcb) (p : Param) (q : List Num) (ks : List (List Num)) (vcols : List (List Num)) : List Nat × Nat :=
  let fmt := accFmt t
  let vt := (Desc.of p.v).tag
  let cs := ks.map fun k => chain fmt ((stepDepth t.a.tag).getD 1) 0 q k
  let ws := softWeights vt (cs.map fun c => (rne 1 (mulNum (f32 p.sigma) (accVal fmt c.1))).1)
  let os := vcols.map fun v => chain (if t.wide then 0xF else 1) ((stepDepth vt).getD 1) 0 ws v
  (os.map (·.1), (cs ++ os).foldl (fun n c => n ||| c.2) 0)

/-- `TATTN` over the query rows of a share. -/
def runAttn (s : State) (ag : Ag) (t : Tcb) (p : Param) (m : Rnd) (x : Share) : ShareEnd ShareBits :=
  match agRead s ag p.list (4 * p.n) .copy with
  | (.error e, s) => .fatal s e
  | (.ok lb, s) =>
    let l := leNat lb
    let blocks := (List.range p.n).map fun i => eltAt l 32 i
    match readVals s ag t.a true x.r0 x.r1 0 t.a.cols with
    | (.error e, s) => .fatal s e
    | (.ok qs, s) =>
      match readBlocks ag t.b true blocks s with
      | (.error e, s) => .fatal s e
      | (.ok ks, s) =>
        match readBlocks ag (Desc.of p.v) false blocks s with
        | (.error e, s) => .fatal s e
        | (.ok vs, s) =>
          let vcols := flip (.zero false) (Desc.of p.v).cols vs
          let outs := qs.map fun q => attnRow t p q ks vcols
          match writeVals s ag t.c m t.ovf x.r0 0 (outs.map fun o => o.1.map (accVal (if t.wide then 0xF else 1))) with
          | (.error e, s) => .fatal s e
          | (.ok (), s) => .ok s { x := outs.foldl (fun n o => n ||| o.2) 0 }

/-- A share other than a K part, run whole. -/
def shareOf (s : State) (ag : Ag) (t : Tcb) (p : Param) (m : Rnd) (x : Share) : ShareEnd ShareBits :=
  if t.op = opEWISE then runEwise s ag t m x
  else if t.op = opCOPY then runTcopy s ag t m x
  else if t.op = opRED then runRed s ag t m x
  else if t.op = opATTN then runAttn s ag t p m x
  else productOf s ag t m x []

/-- A share other than a K part. -/
def runShare (s : State) (ag : Ag) (t : Tcb) (p : Param) (m : Rnd) (x : Share) : ShareEnd ShareBits := settleC ag t x (shareOf s ag t p m x)

end Sys2Proof.Machine
end

