-- ==== Sys2Proof/Machine/Tile.lean ====
section
/-! DEFINITION. The tile instruction set (R351 to R371): compute routines on controllers, tile residents and stage residents; staging,
dispatch, waiting and fault reports; completion and discard. -/

namespace Sys2Proof.Machine

/-! ## Children (R356) -/

/-- The packages of a pod launch, in ascending order. -/
def packagesOf (l : Launch) : List Nat := (List.range 64).filter fun i => l.podmask.getLsbD i

/-- The dies and quads of a partition. -/
def diesOf (l : Launch) : List Nat := [0, 1, 2, 3].filter fun d => l.quads.any fun q => q / 32 = d
def quadsOf (l : Launch) (d : Nat) : List Nat := sortNats (l.quads.filter fun q => q / 32 = d)

/-- The children of a node, by number; none is another package of the pod. -/
def childSeats (s : State) (n : Nat) : List (Option Nat) :=
  let id := seatLaunch n
  match s.launch? id with
  | none => []
  | some l =>
    match levelOf n with
    | 6 => (packagesOf l).map fun p => if p = Config.packageNumber.toNat then some (pkgNode id) else none
    | 5 => (diesOf l).map fun d => some (dieNode id d)
    | 4 => (quadsOf l (agentOf n - 513)).map fun q => some (quadNode id q)
    | 3 => (sortNats (l.usable.filter fun k => quadOf k = agentOf n - 517)).map fun k => some (coreNode id k)
    | _ => []

/-- A child's outcome beside an earlier one of the same number: a fault stands, then a cancellation; of two faults the lower place. -/
def worse (a b : ChildState) : ChildState :=
  match a, b with
  | .faulted x, .faulted y => if lowerRec x y then a else b
  | .faulted _, _ => a
  | _, .faulted _ => b
  | .cancelled, _ => a
  | _, b => b

/-- The faulted children of a node, and those cancelled or discarded. -/
def faultedOf (x : Node) : List (Nat × FaultRec) := x.children.filterMap fun e => match e.2 with | .faulted r => some (e.1, r) | _ => none
def cancelledOf (x : Node) : List Nat := (x.children.filter fun e => e.2 = .cancelled).map (·.1)

/-- The record that a parent keeps (R366): the lowest place, with its own COUNT. -/
def keptRecord (x : Node) : FaultRec :=
  match (faultedOf x).map (·.2) with
  | [] => 0
  | r :: rs =>
    let low := rs.foldl (fun a b => if lowerRec a b then a else b) r
    setCount low (rs.length + (r :: rs).foldl (fun n r => n + recCount r) 0)

/-! ## What a child's share needs of its core (R362) -/

/-- The scratchpad claims of a core: each stage resident's share with its spill region, and the stage queues placed there (R38). -/
def padClaims (s : State) (core : Nat) : List (Nat × Nat) :=
  let rs := [1, 2, 3].filterMap fun r =>
    let x := s.res (4 * core + r)
    if x.loaded then some (shareBase x, x.spillb + roundUp (8 * (allocSWD x.alloc - 48)) 4096) else none
  let qs := s.launches.flatMap fun l => l.2.queues.filterMap fun q =>
    if q.home = some core && l.2.live then some (q.base, q.base + q.depth * q.esz) else none
  rs ++ qs

/-- The banks that stage residents hold. -/
def bankClaimed (s : State) (core bank : Nat) : Bool :=
  [1, 2, 3].any fun r => let x := s.res (4 * core + r); x.loaded && x.bank0 ≤ bank && bank < x.bank0 + x.banks

/-- Whether a line of 64 bytes of a scratchpad is claimed. -/
def lineClaimed (cs : List (Nat × Nat)) (ln : Nat) : Bool := cs.any fun c => c.1 < 64 * ln + 64 && 64 * ln < c.2

/-- The bytes of a scratchpad that no stage resident claims. -/
def freePad (s : State) (core : Nat) : Nat :=
  let cs := padClaims s core
  64 * ((List.range 8192).filter fun ln => !lineClaimed cs ln).length

/-- Staged bytes of a dense operand of n by m elements; `kcols` says that its scale blocks run along its columns. -/
def stagedBytes (d : Desc) (kcols : Bool) (n m : Nat) : Nat :=
  n * cdiv (m * d.w) 8 + (if tagBlk d.tag then (if kcols then n * cdiv m 32 else m * cdiv n 32) * d.bs else 0)

/-- Staged bytes of a sparse A of m rows and k columns (R332, R362): packed values, header and indices, and the scale array of the dense length. -/
def stagedSparse (d : Desc) (h : SpHdr) (m k : Nat) : Nat :=
  let lines := if h.dir then k else m
  let len := if h.dir then m else k
  let groups := cdiv len (max 1 h.m)
  lines * cdiv (groups * h.n * d.w) 8 + 16 + indexBytes lines groups h.n h.iw + (if tagBlk d.tag then lines * cdiv len 32 * d.bs else 0)

/-- Whether a child's share fits its core. -/
def shareFits (s : State) (core : Nat) (t : Tcb) (hdr : Option SpHdr) (x : Share) : Bool :=
  let m := x.r1 - x.r0
  let n := x.c1 - x.c0
  let k := x.k1 - x.k0
  let a := match hdr with
    | some h => stagedSparse t.a h m k
    | none => if t.mm then stagedBytes t.a true m k
              else if t.op = opRED then (if 128 ≤ t.xop then stagedBytes t.a true k n else stagedBytes t.a true m k)
              else if t.op = opATTN then stagedBytes t.a true m t.a.cols else stagedBytes t.a true m n
  let b := if t.mm then stagedBytes t.b false k n else if binaryOp t then stagedBytes t.b true m n
           else if t.op = opATTN then stagedBytes t.b true 64 t.b.cols else 0
  roundUp a 4096 + roundUp b 4096 + roundUp (stagedBytes t.c true m n) 4096 ≤ freePad s core && (List.range 32).any fun i => !bankClaimed s core i

/-! ## What a core share leaves unspecified (R352) -/

/-- Free bytes of a range, in canonical form. -/
def freeRange (seed lo n : Nat) : Memory :=
  (List.range n).filterMap fun i => let b : Byte := (Config.freeValue (seed + i)).setWidth 8; if b = unlisted then none else some (lo + i, b)

/-- A range of a memory whose contents are no longer specified. -/
def loseRange (m : Memory) (seed lo n : Nat) : Memory :=
  m.filter (fun c => c.1 < lo) ++ freeRange seed lo n ++ m.filter fun c => lo + n ≤ c.1

/-- Accumulator banks, tile status entries and scratchpad lines that no stage resident holds, after a core share ran: of the X bits of an entry none is set
but those that it held and those of `x`. -/
def loseCore (s : State) (core x : Nat) : State :=
  let c := s.core core
  let banks := (List.range 32).filter fun b => !bankClaimed s core b
  let cs := padClaims s core
  let lines := (List.range 8192).filter fun ln => !lineClaimed cs ln
  let acc := banks.foldl (fun m b => loseRange m (s.fresh + 4096 * b) (4096 * b) 4096) c.acc
  let runs := lines.foldl (fun (rs : List (Nat × Nat)) ln =>
    match rs with
    | (lo, n) :: rest => if lo + n = ln then (lo, n + 1) :: rest else (ln, 1) :: rs
    | [] => [(ln, 1)]) []
  let seed := s.fresh + 2 ^ 17
  let scratch := runs.foldl (fun m r => loseRange m (seed + 64 * r.1) (64 * r.1) (64 * r.2)) c.scratch
  let entry (b : Nat) : TileStat :=
    let v := Config.freeValue (seed + 2 ^ 19 + b)
    let xs : BitVec 13 := (tget ⟨0, 0, 0, 0, 0⟩ c.tstat b).bits ||| BitVec.ofNat 13 x
    ⟨v.setWidth 13 &&& (0x1FF ||| (xs &&& 0x1E00)), v.extractLsb' 16 16, v.extractLsb' 32 16, v.extractLsb' 48 5, v.extractLsb' 53 6⟩
  let tstat := banks.foldl (fun t b => tset t b (entry b)) c.tstat
  { s.setCore core { c with acc, scratch, tstat } with fresh := seed + 2 ^ 19 + 32 }

/-! ## A tile instruction on its node (R351, R363) -/

/-- A fault of a tile instruction after a number of its commit points: the step since the last is open (R181; log entry 101). -/
def tileFaultAt (s : State) (w num commits cause : Nat) (addr : Word) : State :=
  let (upc, s) := entryUpc s commits
  tileFault s w num cause upc addr

/-- The result that a compute routine writes: 0 when it completed OK, 1 when it completed faulted (R353). -/
def tileResult (s : State) (d : BitVec 6) (v : Word) : State := if d = 0 then s else landEff s.cur s (.sreg (s.regs.skey d.toNat) v)

/-- The instruction completes OK. -/
def finishTile (s : State) (n : Nat) (d : BitVec 6) : State := completeTile (tileResult s d 0) n .done

/-- A tile instruction stalled (R369): its frame stands at the stalled step, the same one as before or a later one, whose number the manual does not
give. -/
def stallTile (s : State) (x : Thread) (same : Bool) (num : Nat) : State :=
  if same && !x.stack.isEmpty then beginWait (s.setCthr x) s.cur .blocking 0
  else
    let s := endWait s s.cur
    let step := 1 + (Config.freeValue s.fresh).toNat % 65535
    beginWait ({ s with fresh := s.fresh + 1 }.setCthr (natFrame s num false [] [] 0 step)) s.cur .blocking 0

/-- The stream of a tile instruction as it issues the stalled step again (R369): out of the frame that stood there. -/
def resumeTile (s : State) : State :=
  match s.cthr.stack with
  | f :: _ => s.setCthr { s.cthr with regs := f.caller, stack := [] }
  | [] => s

/-- The other K parts of a core's group, in part order, and whether the core is the one that receives (R357). -/
def groupOf (s : State) (t : Tcb) (x : Node) (depth : Nat) : Bool × List (Nat × Share) :=
  match x.parent with
  | none => (true, [])
  | some p =>
    let y := s.node p
    let P := (childSeats s p).length
    let all := (List.range P).map fun c => (c, childShare t 3 depth y.share P c)
    let mine := all.filter fun e => !e.2.empty && e.2.r0 = x.share.r0 && e.2.r1 = x.share.r1 && e.2.c0 = x.share.c0 && e.2.c1 = x.share.c1
    ((mine.headD (x.child, x.share)).1 = x.child, mine.filter fun e => e.1 ≠ x.child)

/-- Whether every other part of a group is done. -/
def partsDone (s : State) (x : Node) (others : List (Nat × Share)) : Bool :=
  match x.parent with
  | none => true
  | some p => others.all fun e => tget? (s.node p).children e.1 = some .done

/-- The end of a core's share: what it leaves unspecified, and the instruction's completion. -/
def endShare (w n num : Nat) (d : BitVec 6) (e : ShareEnd ShareBits) : State :=
  match e with
  | .ok s b => finishTile (orStatus (loseCore s (nodeOf w) b.x) w b.sticky) n d
  | .fatal s e => tileFaultAt (loseCore s (nodeOf w) 0x1E00) w num 0 e.1 e.2
  | .trap s' tr m steps =>
    let s' := loseCore s' (nodeOf w) 0x1E00
    let addr := if tr.cls = trapILL.cls then 0 else Config.freeValue s'.fresh
    tileFaultAt { s' with fresh := s'.fresh + 1 } w m steps (tr.cls + 256 * tr.detail) addr

/-- A core's share run to its end (R358 to R361): the core that receives does its own part and waits for the other parts of its group. -/
def runCore (s : State) (thr : Thread) (w n num : Nat) (d : BitVec 6) (p : Param) : State :=
  let x := s.node n
  let t := Tcb.of x.tcb
  let ag := strandAg s w
  match rndOf t.rm with
  | none => s
  | some m =>
    if !t.mm then endShare w n num d (runShare s ag t p m x.share)
    else
      let k := (stepDepth t.a.tag).getD 1
      match if t.op = opSPMUL then agRead s ag (BitVec.ofNat 64 t.a.sphdr) 16 .copy else (.ok [], s) with
      | (.error e, s) => tileFaultAt (loseCore s (nodeOf w) 0x1E00) w num 0 e.1 e.2
      | (.ok hb, s) =>
        let h := SpHdr.of (leNat hb)
        let depth := if t.op = opSPMUL then sparseDepth k (max 1 h.n) (max 1 h.m) else k
        let (recv, others) := groupOf s t x depth
        if !recv then endShare w n num d (runPart s ag t x.share)
        else if partsDone s x others then endShare w n num d (runProduct s ag t m x.share (others.map (·.2)))
        else
          match if x.phase = 1 then runPart s ag t x.share else .ok s {} with
          | .ok _ _ => stallTile (s.setNode n { x with phase := 2 }) thr (x.phase = 2) num
          | e => endShare w n num d e

/-- The package that a pod-level child of a number is. -/
def childPkg (s : State) (n c : Nat) : Nat := match s.launch? (seatLaunch n) with | some l => (packagesOf l).getD c 0 | none => 0

/-- A child dispatched to its seat, its entry put into the inbox there, or as a block sent over a link where the child is another package (R422); nothing
while the inbox is full. -/
def sendChild (s : State) (n : Nat) (seat : Option Nat) (c : Nat) (e : InboxEnt) (bits : BitVec 1024) : Option State :=
  let out (s : State) : State :=
    let x := s.node n
    s.setNode n { x with children := tset x.children c .running, dispatched := x.dispatched ++ [c] }
  match seat with
  | none => some (out { s with links := s.links ++ [.tcb (seatLaunch n) (childPkg s n c) bits] })
  | some k =>
    let y := s.node k
    if inboxSize ≤ y.inbox.length then none else some (out (s.setNode k { y with inbox := y.inbox ++ [e] }))

/-- C over a share of an instruction's block, unspecified (R366). -/
def loseShare (s : State) (w : Nat) (tcb : BitVec 1024) (x : Share) : State := loseC s (strandAg s w) (Tcb.of tcb) x

/-- A child marked without a dispatch, beside an earlier outcome of the same number. -/
def markChild (s : State) (n c : Nat) (o : ChildState) : State :=
  let x := s.node n
  s.setNode n { x with children := tset x.children c (match tget? x.children c with | some .running => .running | some y => worse y o | none => o) }

/-! ## Staging (R362) -/

/-- What a share reads of an operand: its rows and columns, and whether its scale blocks run along its columns. -/
structure Part where
  d : BitVec 256
  kcols : Bool
  x0 : Nat
  x1 : Nat
  y0 : Nat
  y1 : Nat

/-- What a share reads of A and of B. -/
def partA (t : Tcb) (x : Share) : Part :=
  if t.mm then ⟨t.da, true, x.r0, x.r1, x.k0, x.k1⟩
  else if t.op = opRED then (if 128 ≤ t.xop then ⟨t.da, true, x.k0, x.k1, x.c0, x.c1⟩ else ⟨t.da, true, x.r0, x.r1, x.k0, x.k1⟩)
  else if t.op = opATTN then ⟨t.da, true, x.r0, x.r1, 0, t.a.cols⟩
  else ⟨t.da, true, x.r0, x.r1, x.c0, x.c1⟩
def partB (t : Tcb) (x : Share) : Option Part :=
  if t.mm then some ⟨t.db, false, x.k0, x.k1, x.c0, max x.c1 (drainCols t x).2⟩
  else if t.op = opATTN then some ⟨t.db, true, 0, t.b.rows, 0, t.b.cols⟩
  else if binaryOp t then some ⟨t.db, true, x.r0, x.r1, x.c0, x.c1⟩
  else none
/-- The whole of V. -/
def partV (v : BitVec 256) : Part := ⟨v, false, 0, (Desc.of v).rows, 0, (Desc.of v).cols⟩

/-- The bytes that a part takes in the stored rows of a dense matrix, from its first byte on, and in its scale array: offset and length. -/
def Part.runs (P : Part) : List (Nat × Nat) :=
  let d := Desc.of P.d
  let (r0, r1, c0, c1) := if d.trans then (P.y0, P.y1, P.x0, P.x1) else (P.x0, P.x1, P.y0, P.y1)
  (List.range (r1 - r0)).map fun i => ((r0 + i) * d.rstride + c0 * d.w / 8, cdiv (c1 * d.w) 8 - c0 * d.w / 8)
def Part.scaleRuns (P : Part) : List (Nat × Nat) :=
  let d := Desc.of P.d
  let row := d.bs * (if P.kcols then cdiv d.cols 32 else cdiv d.rows 32)
  if tagBlk d.tag then [if P.kcols then (P.x0 * row, (P.x1 - P.x0) * row) else (P.y0 * row, (P.y1 - P.y0) * row)] else []

/-- Whether a byte of some runs from an address on lies outside a die's memory. -/
def outsideDie (s : State) (ag : Ag) (die at' : Nat) (rs : List (Nat × Nat)) : Bool :=
  rs.any fun r => match resolve s ag (BitVec.ofNat 64 (at' + r.1)) r.2 .rd .copy with
    | (.ok ps, _) => ps.any fun p => match p with | .phys a => physOwner a ≠ 0 || Config.dieOf a ≠ die | .win .. => true
    | (.error _, _) => false

/-- Bytes put into a staging pool: no value where the pool cannot take them. -/
def poolPut (ag : Ag) (dst : Word) : List (Nat × List Byte) → State → Option State
  | [], s => some s
  | (off, bs) :: rest, s =>
    match agWrite s ag (dst + BitVec.ofNat 64 off) bs .copy with
    | (.error _, _) => none
    | (.ok (), s) => poolPut ag dst rest s

/-- Runs of bytes read from an address on. -/
def readRuns (ag : Ag) (at' : Nat) : List (Nat × Nat) → State → Except (Nat × Word) (List (Nat × List Byte)) × State
  | [], s => (.ok [], s)
  | (off, n) :: rest, s =>
    match agRead s ag (BitVec.ofNat 64 (at' + off)) n .copy with
    | (.error e, s) => (.error e, s)
    | (.ok bs, s) =>
      match readRuns ag at' rest s with
      | (.error e, s) => (.error e, s)
      | (.ok bss, s) => (.ok ((off, bs) :: bss), s)

/-- A field of a number replaced. -/
def putFld (x lo w v : Nat) : Nat := x - fld x lo w * 2 ^ lo + v % 2 ^ w * 2 ^ lo

/-- A descriptor with other addresses of its bytes, its scale array and its header. -/
def movedDesc (b : BitVec 256) (at' scale hdr : Word) : BitVec 256 :=
  let d := Desc.of b
  let x := putFld b.toNat 0 57 at'.toNat
  let x := if d.sparse then putFld x 192 57 hdr.toNat else x
  BitVec.ofNat 256 (if tagBlk d.tag then putFld x 135 57 scale.toNat else x)

/-- The outcome of staging one operand: its descriptor, and the row of the instruction at which the rows of a packed copy begin. -/
inductive Staged where
  | ok (s : State) (d : BitVec 256) (a0 : Nat)
  | trap (t : Trap)
  | fatal (e : Nat × Word)

/-- A dense operand staged for a die: where a byte of the share lies elsewhere, its bytes are copied to the places that they have from a new first byte on. -/
def stageDense (s : State) (ag : Ag) (l die : Nat) (P : Part) : Staged :=
  let d := Desc.of P.d
  if !outsideDie s ag die d.addr P.runs && !outsideDie s ag die d.scale P.scaleRuns then .ok s P.d 0
  else
    let dst := Config.stagingPool l die s.fresh
    let sdst := Config.stagingPool l die (s.fresh + 1)
    match readRuns ag d.addr P.runs { s with fresh := s.fresh + 2 } with
    | (.error e, _) => .fatal e
    | (.ok vs, s) =>
      match readRuns ag d.scale P.scaleRuns s with
      | (.error e, _) => .fatal e
      | (.ok sc, s) => match (poolPut ag dst vs s).bind (poolPut ag sdst sc) with
        | none => .trap trapILL
        | some s => .ok s (movedDesc P.d dst sdst 0) 0

/-- Lines l0 to l1 and groups g0 to g1 of a sparse tile packed as a tile of its own (R362): header, indices, lines and scales. -/
def packTile (T : SpTile) (m : Memory) (l0 l1 g0 g1 : Nat) : SpHdr × List Byte × List (List Byte) × List Byte :=
  let h := T.h
  let ls := (List.range (l1 - l0)).map (l0 + ·)
  let slots := (List.range (g1 - g0)).flatMap fun g => (List.range h.n).map fun t => (g0 + g) * h.n + t
  let len := (g1 - g0) * h.m
  let bits := ls.length * slots.length * (h.iw + 1)
  let idx := ls.flatMap fun x => slots.map fun i => bitsAt m (T.hoff + 16) ((x * T.groups * h.n + i) * (h.iw + 1)) (h.iw + 1)
  let line (x : Nat) : List Byte := leBytes (cdiv (slots.length * T.d.w) 8) (packElts T.d.w (slots.map fun i => bitsAt m (T.off + x * T.d.rstride) (i * T.d.w) T.d.w))
  let scale (x : Nat) : List Byte := rdBytes m (T.soff + (x * cdiv T.len 32 + g0 * h.m / 32) * T.d.bs) (cdiv len 32 * T.d.bs)
  ({ h with rows := if h.dir then len else ls.length, cols := if h.dir then ls.length else len,
            ecyc := expectedCycles ((stepDepth T.d.tag).getD 1) h.n h.m ls.length len 24 },
   leBytes (cdiv bits 8) (packElts (h.iw + 1) idx), ls.map line, if tagBlk T.d.tag then ls.flatMap scale else [])

/-- A sparse A staged for a die: where a byte of the share lies elsewhere, its header is checked and its lines and groups are packed anew. -/
def stageSparse (s : State) (ag : Ag) (l die : Nat) (P : Part) : Staged :=
  let d := Desc.of P.d
  let x : Share := { r0 := P.x0, r1 := P.x1, c0 := 0, c1 := 0, k0 := P.y0, k1 := P.y1 }
  match agRead s ag (BitVec.ofNat 64 d.sphdr) 16 .copy with
  | (.error e, _) => .fatal e
  | (.ok hb, s) =>
    let T : SpTile := ⟨d, SpHdr.of (leNat hb), 0, 0, 0, 0⟩
    let cause := agHeaderCause ag (leNat hb) d
    let (l0, l1, g0, g1) := T.part x
    let g0 := if T.h.dir && tagBlk d.tag then g0 * T.h.m / 32 * 32 / max 1 T.h.m else g0
    let bits := T.groups * T.h.n * (T.h.iw + 1)
    let row := cdiv T.len 32 * d.bs
    let away := outsideDie s ag die d.sphdr [(0, 16)] || (cause = 0 &&
      (outsideDie s ag die (d.sphdr + 16) [(l0 * bits / 8, cdiv (l1 * bits) 8 - l0 * bits / 8)]
        || outsideDie s ag die d.addr ((List.range (l1 - l0)).map fun i => ((l0 + i) * d.rstride, cdiv (T.groups * T.h.n * d.w) 8))
        || (tagBlk d.tag && outsideDie s ag die d.scale [(l0 * row, (l1 - l0) * row)])))
    if !away then .ok s P.d 0
    else if cause ≠ 0 then .trap (trapSPMETA cause 0 0 (BitVec.ofNat 64 d.sphdr))
    else
      match readSparse s ag d x with
      | (.error e, _) => .fatal e
      | (.ok (_, T, m), s) =>
        let (h, idx, lines, scales) := packTile T m l0 l1 g0 g1
        let dst := Config.stagingPool l die s.fresh
        let sdst := Config.stagingPool l die (s.fresh + 1)
        let hdst := Config.stagingPool l die (s.fresh + 2)
        let s := { s with fresh := s.fresh + 3 }
        match ((poolPut ag hdst [(0, h.bytes ++ idx)] s).bind (poolPut ag dst (lines.zipIdx.map fun b => (b.2 * d.rstride, b.1)))).bind
            (poolPut ag sdst [(0, scales)]) with
        | none => .trap trapILL
        | some s =>
          let b := BitVec.ofNat 256 (putFld (putFld (movedDesc P.d dst sdst hdst).toNat 64 16 h.rows) 80 16 h.cols)
          .ok s b (if T.h.dir then g0 * T.h.m else l0)

/-- One operand staged for a die. -/
def stageOperand (s : State) (ag : Ag) (l die : Nat) (P : Part) : Staged :=
  if (Desc.of P.d).sparse then stageSparse s ag l die P else stageDense s ag l die P

/-- A command block with another descriptor A, B or parameter address: the bit at which it stands, its width, its value. -/
def setTcb (b : BitVec 1024) (lo w v : Nat) : BitVec 1024 := BitVec.ofNat 1024 (putFld b.toNat lo w v)

/-- V staged for a die, with a parameter block of the child's own where it is moved. -/
def stageParam (s : State) (ag : Ag) (l die : Nat) (bits : BitVec 1024) : Except (Nat × Word) (Option (BitVec 1024)) × State :=
  let t := Tcb.of bits
  if t.op ≠ opATTN then (.ok (some bits), s)
  else
    match agRead s ag (BitVec.ofNat 64 t.param) 64 .copy with
    | (.error e, s) => (.error e, s)
    | (.ok pb, s) =>
      let v := (Param.of (leNat pb)).v
      match stageOperand s ag l die (partV v) with
      | .fatal e => (.error e, s)
      | .trap _ => (.ok none, s)
      | .ok s v' _ =>
        if v' = v then (.ok (some bits), s)
        else
          let dst := Config.stagingPool l die s.fresh
          match poolPut ag dst [(0, leBytes 32 v'.toNat ++ pb.drop 32)] { s with fresh := s.fresh + 1 } with
          | none => (.ok none, s)
          | some s => (.ok (some (setTcb bits 64 64 dst.toNat)), s)

/-- A die's share staged by a native body of the package level (R351, R362): the child's block and share, or a fault's cause and address. -/
def stageShare (s : State) (ag : Ag) (l die : Nat) (bits : BitVec 1024) (x : Share) : Except (Nat × Word) (BitVec 1024 × Share) × State :=
  let t := Tcb.of bits
  let fault (tr : Trap) : Nat × Word := (tr.cls + 256 * tr.detail, tr.addr)
  match stageOperand s ag l die (partA t x) with
  | .fatal e => (.error e, s)
  | .trap tr => (.error (fault tr), s)
  | .ok s da a0 =>
    let bits := setTcb bits 256 256 da.toNat
    let x := { x with a0 := x.a0 + a0 }
    match match partB t x with | none => Staged.ok s t.db 0 | some P => stageOperand s ag l die P with
    | .fatal e => (.error e, s)
    | .trap tr => (.error (fault tr), s)
    | .ok s db _ =>
      match stageParam s ag l die (setTcb bits 512 256 db.toNat) with
      | (.error e, s) => (.error e, s)
      | (.ok none, s) => (.error (trapILL.cls, 0), s)
      | (.ok (some bits), s) => (.ok (bits, x), s)

/-! ## A controller's body (R363) -/

/-- The block that a child's level receives, a package's with its own number (R354, R363). -/
def blockFor (s : State) (n c : Nat) (seat : Option Nat) (bits : BitVec 1024) : BitVec 1024 :=
  let b := childTcb bits (levelOf n - 1) (match seat with | some k => childPath k | none => 0)
  if levelOf n = 6 then setTcb b 139 6 (childPkg s n c) else b

/-- Children from number c on staged and dispatched (R363): the number at which an inbox was full, or a fault's cause and address. -/
def dispatchFrom (ag : Ag) (n P depth : Nat) (t : Tcb) (hdr : Option SpHdr) (seats : List (Option Nat)) :
    Nat → Nat → State → Except (Nat × Word) Nat × State
  | 0, c, s => (.ok c, s)
  | fuel + 1, c, s =>
    let go (s : State) : Except (Nat × Word) Nat × State := dispatchFrom ag n P depth t hdr seats fuel (c + 1) s
    let level := levelOf n
    let x := s.node n
    let share := childShare t level depth x.share P c
    let seat := seats.getD c none
    let k := seat.getD 0
    if share.empty then go s
    else if x.cancelling then go (markChild (loseShare s (seatCtx n) x.tcb share) n c .cancelled)
    else if seat.isSome && inboxSize ≤ (s.node k).inbox.length then (.ok c, s)
    else if level = 3 && !shareFits s (agentOf k) t hdr share then (.error (trapILL.cls, 0), s)
    else
      match if level = 5 then stageShare s ag (seatLaunch n) (agentOf k - 513) x.tcb share else (.ok (x.tcb, share), s) with
      | (.error e, s) => (.error e, s)
      | (.ok (bits, share), s) =>
        let b := blockFor s n c seat bits
        match sendChild s n seat c ⟨none, b, some share, some n, c⟩ b with
        | some s => go s
        | none => (.ok c, s)

/-- The header of a sparse A where a level needs it: a die checks it as it repacks A (R362), a quad splits K by it (R356). -/
def levelHeader (s : State) (ag : Ag) (t : Tcb) (level : Nat) : Except (Nat × Word) (Option (Nat × SpHdr)) × State :=
  if t.op ≠ opSPMUL || 5 ≤ level then (.ok none, s)
  else
    match agRead s ag (BitVec.ofNat 64 t.a.sphdr) 16 .copy with
    | (.error e, s) => (.error e, s)
    | (.ok hb, s) => (.ok (some (if level = 4 then agHeaderCause ag (leNat hb) t.a else 0, SpHdr.of (leNat hb))), s)

/-- A controller's children dispatched as far as their inboxes have room, and then waited for. -/
def runController (s : State) (thr : Thread) (w n num : Nat) (d : BitVec 6) : State :=
  let x := s.node n
  let t := Tcb.of x.tcb
  let ag := strandAg s w
  let seats := childSeats s n
  let P := seats.length
  if x.phase ≤ P then
    match levelHeader s ag t (levelOf n) with
    | (.error e, s) => tileFaultAt s w num 0 e.1 e.2
    | (.ok h, s) =>
      let cause := match h with | some (c, _) => c | none => 0
      if cause ≠ 0 then tileFaultAt s w num 0 (3 + 256 * cause) (BitVec.ofNat 64 t.a.sphdr)
      else
        let k := (stepDepth t.a.tag).getD 1
        let depth := match h with | some (_, h) => sparseDepth k (max 1 h.n) (max 1 h.m) | none => k
        let c0 := x.phase - 1
        match dispatchFrom ag n P (max 1 depth) t (h.map (·.2)) seats (P - c0) c0 s with
        | (.error e, s) => tileFaultAt s w num 0 e.1 e.2
        | (.ok c, s) => stallTile (s.setNode n { s.node n with phase := c + 1 }) thr (c = c0) num
  else if !x.dispatched.isEmpty then stallTile s thr true num
  else if (faultedOf x).isEmpty then finishTile s n d
  else completeTile s n (.faulted (keptRecord x))

/-- A tile instruction's issue on the node that executes it, out of its frame: the checks of R354 at the first, then its body. -/
def tileBody (s : State) (thr : Thread) (num : Nat) (d : BitVec 6) : State :=
  let w := s.w
  let n := tileSeat s w
  let x := s.node n
  let t := Tcb.of x.tcb
  let ag := strandAg s w
  match if t.op = opATTN then agRead s ag (BitVec.ofNat 64 t.param) 64 .copy else (.ok [], s) with
  | (.error e, s) => tileFault s w num e.1 0 e.2
  | (.ok pb, s) =>
    let p := Param.of (leNat pb)
    let go (s : State) : State := if levelOf n = 2 then runCore s thr w n num d p else runController s thr w n num d
    if x.phase ≠ 0 then go s
    else
      match checkTcb num (levelOf n) x.tcb p with
      | .error tr => tileFault s w num (tr.cls + 256 * tr.detail) 0 0
      | .ok () => go (s.setNode n { x with phase := 1, share := { x.share with crossed := overlapsC s ag t } })

/-- One issue of a tile instruction on the node that executes it; one that completes faulted has result 1 (R353, R363). -/
def runTile (s : State) (num : Nat) (d : BitVec 6) : State :=
  let n := tileSeat s s.w
  if (s.node n).discard then beginWait s (mainOf s.w) .blocking 0
  else
    let t := tileBody (resumeTile s) s.cthr num d
    match (t.node n).outcome with
    | some (.faulted _) => tileResult t d 1
    | _ => t

/-- A node starts an instruction; the block that a native body built has passed the checks of R354 at its parent. -/
def startNode (s : State) (n : Nat) (bits : BitVec 1024) (share : Option Share) (checked : Bool) (parent : Option Nat) (child : Nat) : State :=
  let x := s.node n
  let t := Tcb.of bits
  let s := s.setNode n { x with busy := true, tcb := bits, share := share.getD (wholeShare t), parent, child, phase := if checked then 1 else 0, seq := t.seq,
                                children := [], dispatched := [], cancelling := false, discard := false, outcome := none }
  let q := agentOf n
  if 517 ≤ q && q < 645 then s.setNode q { s.node q with seq := t.seq } else s

/-- The 128 bytes of a command block. -/
def readTcb (s : State) (ag : Ag) (a : Word) : Except (Nat × Word) (BitVec 1024) × State :=
  match agRead s ag a 128 .load with
  | (.error e, s) => (.error e, s)
  | (.ok bs, s) => (.ok (BitVec.ofNat 1024 (leNat bs)), s)

/-- A compute routine that a stage resident runs at core level (R352): `TEWISE` and `TRED` only. -/
def residentTile (num : Nat) (d : BitVec 6) : SrlDef := fun args s => orRun do
  let a := arg args 1
  needILL ((num = 0x0A2 || num = 0x0A3) && isCore (nodeOf s.w) && a.toNat % 128 = 0)
  afterOwn s (
    let ag := strandAg s s.w
    match readTcb s ag a with
    | (.error e, _) => .ok (.fatal e.1 e.2 1)
    | (.ok bits, s) => do
      checkTcb num 2 bits (Param.of 0)
      let t := Tcb.of bits
      needILL ((placeMat (nodeOf s.w) t.a true).isSome && (!binaryOp t || (placeMat (nodeOf s.w) t.b true).isSome))
      match rndOf t.rm with
      | none => .error trapILL
      | some m =>
        match runShare s ag t (Param.of 0) m { wholeShare t with crossed := overlapsC s ag t } with
        | .ok s b => .ok (.ok s (toS s.regs d 0 ++ toSticky b.sticky))
        | .trap s tr _ n => .ok (.step s tr 0 n)
        | .fatal _ e => .ok (.fatal e.1 e.2 1))

/-- A compute routine (R353): the tile instruction of the node where a controller or tile resident executes it, else a resident's call. -/
def tileCall (num : Nat) (q : Bool) (d t : BitVec 6) (s : State) : Done :=
  if isController s.w || isTileRes s.w then
    .next (
      if (s.node (tileSeat s s.w)).busy then runTile s num d
      else if (s.s t).toNat % 128 ≠ 0 then takeTrap s { trapILL with num }
      else
        match readTcb s (strandAg s s.w) (s.s t) with
        | (.error e, s) => fatalStrand s num e.1 e.2
        | (.ok bits, s) => runTile (startNode s (tileSeat s s.w) bits none false none 0) num d)
  else callSrl num false 0 1 q [.s d, .s t] (residentTile num d) s

/-- `TMMUL` (R355). -/
def execTmmul (q : Bool) (d t : BitVec 6) (s : State) : Done := tileCall 0x0A0 q d t s
/-- `TSPMUL` (R355). -/
def execTspmul (q : Bool) (d t : BitVec 6) (s : State) : Done := tileCall 0x0A1 q d t s
/-- `TEWISE` (R355, R359). -/
def execTewise (q : Bool) (d t : BitVec 6) (s : State) : Done := tileCall 0x0A2 q d t s
/-- `TRED` (R360). -/
def execTred (q : Bool) (d t : BitVec 6) (s : State) : Done := tileCall 0x0A3 q d t s
/-- `TCOPY` (R355). -/
def execTcopy (q : Bool) (d t : BitVec 6) (s : State) : Done := tileCall 0x0A4 q d t s
/-- `TATTN` (R361). -/
def execTattn (q : Bool) (d t : BitVec 6) (s : State) : Done := tileCall 0x0A5 q d t s

/-! ## Staging, dispatch, waiting, reports (R352, R362, R363, R366) -/

/-- The four routines of a level's body: of a controller or tile resident as it executes, of the level program through its launch's routine table. -/
def levelCall (num : Nat) (q : Bool) (ops : List Opnd) (run : SrlDef) (s : State) : Done :=
  if isController s.w || isTileRes s.w then .next (runDef s s.cthr num q 0 1 ops (argsOf s ops) run)
  else callSrl num false 0 1 q ops run s

/-- The node whose children a context's level routines name; none where they trap ILL (R352). -/
def levelNode (s : State) : Except Trap Nat :=
  if isController s.w || isTileRes s.w || isLevelProgram s.w then .ok (tileSeat s s.w) else .error trapILL

/-- Operands of a block staged one after the other, each descriptor written back at its address as the operand is moved. -/
def stageAll (ag : Ag) (l die : Nat) : List (Word × Part) → State → RunOut
  | [], s => .ok s []
  | (at', P) :: rest, s =>
    match stageOperand s ag l die P with
    | .trap t => .step s t 0 1
    | .fatal e => .fatal e.1 e.2 1
    | .ok s nd _ =>
      if nd = P.d then stageAll ag l die rest s
      else
        match agWrite s ag at' (leBytes 32 nd.toNat) .store with
        | (.error e, _) => .fatal e.1 e.2 1
        | (.ok (), s) => stageAll ag l die rest s

/-- `TSTAGE`'s definition (R362): a die's copies are made here, and a core's share must fit; what a quad and its cores read is read where it lies as the
core runs (log entry 104). -/
def tstageDef (ch : BitVec 28) : SrlDef := fun args s => orRun do
  let n ← levelNode s
  let a := arg args 0
  let seats := childSeats s n
  needILL (ch.toNat < seats.length && a.toNat % 128 = 0)
  if !s.cctx.memq.isEmpty then .ok (.stall s .blocking 0)
  else
    let ag := strandAg s s.w
    match readTcb s ag a, seats.getD ch.toNat none with
    | (.error e, _), _ => .ok (.fatal e.1 e.2 1)
    | (.ok bits, s), some seat => do
      let t := Tcb.of bits
      let x := wholeShare t
      match levelHeader s ag t (levelOf n) with
      | (.error e, _) => .ok (.fatal e.1 e.2 1)
      | (.ok h, s) => do
        needILL (levelOf n ≠ 3 || shareFits s (agentOf seat) t (h.map (·.2)) x)
        match h with | some (c, _) => (if c ≠ 0 then .error (trapSPMETA c 0 0 (BitVec.ofNat 64 t.a.sphdr)) else pure ()) | none => pure ()
        if levelOf n ≠ 5 then .ok (.ok s [])
        else
          let die := agentOf seat - 513
          let l := seatLaunch n
          let ab := (a + 32, partA t x) :: ((partB t x).map fun P => (a + 64, P)).toList
          if t.op = opATTN then
            match agRead s ag (BitVec.ofNat 64 t.param) 32 .copy with
            | (.error e, _) => .ok (.fatal e.1 e.2 1)
            | (.ok vb, s) => .ok (stageAll ag l die (ab ++ [(BitVec.ofNat 64 t.param, partV (BitVec.ofNat 256 (leNat vb)))]) s)
          else .ok (stageAll ag l die ab s)
    | (.ok _, s), none => .ok (.ok s [])

/-- `TSTAGE`. -/
def execTstage (q : Bool) (t : BitVec 6) (ch : BitVec 28) (s : State) : Done := levelCall 0x0A6 q [.s t, .imm ch] (tstageDef ch) s

/-- The first dispatch after a `TWAIT` opens a new set of children. -/
def openBatch (s : State) (n : Nat) : State :=
  let x := s.node n
  if x.phase = 0 then s.setNode n { x with phase := 1, children := [], dispatched := [], cancelling := false } else s

/-- `TDISP`'s definition (R363, R371): it stalls until its strand's accesses are performed and the inbox has room. -/
def tdispDef (ch : BitVec 28) : SrlDef := fun args s => orRun do
  let n ← levelNode s
  let a := arg args 0
  let seats := childSeats s n
  needILL (ch.toNat < seats.length && a.toNat % 128 = 0)
  if !s.cctx.memq.isEmpty then .ok (.stall s .blocking 0)
  else
    match readTcb s (strandAg s s.w) a with
    | (.error e, _) => .ok (.fatal e.1 e.2 1)
    | (.ok bits, s) => do
      needILL ((Tcb.of bits).level + 1 = levelOf n)
      let s := openBatch s n
      if (s.node n).cancelling then .ok (.ok (markChild (loseShare s s.w bits (wholeShare (Tcb.of bits))) n ch.toNat .cancelled) [])
      else
        match sendChild s n (seats.getD ch.toNat none) ch.toNat ⟨some a, 0, none, some n, ch.toNat⟩ bits with
        | some s => .ok (.ok s [])
        | none => .ok (.stall s .blocking 0)

/-- `TDISP`. -/
def execTdisp (q : Bool) (t : BitVec 6) (ch : BitVec 28) (s : State) : Done := levelCall 0x0A7 q [.s t, .imm ch] (tdispDef ch) s

/-- The word that `TWAIT` writes (R363). -/
def waitWord (x : Node) : Word :=
  let f := (faultedOf x).length
  BitVec.ofNat 64 ((if f = 0 then 0 else 1) + 2 ^ 8 * f + 2 ^ 16 * (cancelledOf x).length)

/-- `TWAIT`'s definition (R363). -/
def twaitDef (d : BitVec 6) : SrlDef := fun _ s => orRun do
  let n ← levelNode s
  let x := s.node n
  if !x.dispatched.isEmpty then .ok (.stall s .blocking 0)
  else
    let x := if x.phase = 0 then { x with children := [] } else x
    .ok (.ok (s.setNode n { x with phase := 0, cancelling := false }) (toS s.regs d (waitWord x)))

/-- `TWAIT`. -/
def execTwait (q : Bool) (d : BitVec 6) (s : State) : Done := levelCall 0x0A8 q [.s d] (twaitDef d) s

/-- A mask of child numbers. -/
def childMask (cs : List Nat) : Nat := (List.range 64).foldl (fun m c => if cs.contains c then m + 2 ^ c else m) 0

/-- `TFAULT`'s definition (R366). -/
def tfaultDef (q : Bool) (d : BitVec 6) : SrlDef := fun args s => orRun do
  let n ← levelNode s
  let a := arg args 1
  needILL (a.toNat % 8 = 0)
  let x := s.node n
  let fs := faultedOf x
  if fs.isEmpty then .ok (.ok s (toS s.regs d 0))
  else if counterMax ≤ s.cctx.nStores then .ok (.stall s .counter 0)
  else
    let ag := strandAg s s.w
    match resolve s ag a 48 .wr .vec with
    | (.error e, _) => .ok (.fatal e.1 e.2 1)
    | (.ok ps, s) =>
      let bs := leBytes 32 (keptRecord x).toNat ++ leBytes 8 (childMask (fs.map (·.1))) ++ leBytes 8 (childMask (cancelledOf x))
      .ok (.ok (enqueue s q (.store bs) ps a) (toS s.regs d (BitVec.ofNat 64 fs.length)))

/-- `TFAULT`. -/
def execTfault (q : Bool) (d a : BitVec 6) (s : State) : Done := levelCall 0x0A9 q [.s d, .s a] (tfaultDef q d) s

/-! ## Events (R363, R366 to R368) -/

/-- Whether a node neither executes an instruction nor holds an outcome. -/
def nodeIdle (s : State) (n : Nat) : Bool := let x := s.node n; !x.busy && x.outcome.isNone

/-- Whether a launch runs. -/
def nodeRuns (s : State) (n : Nat) : Bool := match s.launch? (seatLaunch n) with | some l => l.st = .running | none => false

/-- The first run of banks of a core that no stage resident holds. -/
def freeBanks (s : State) (core : Nat) : Nat × Nat :=
  match (List.range 32).find? fun b => !bankClaimed s core b with
  | none => (0, 0)
  | some lo => (lo, (((List.range 32).drop lo).takeWhile fun b => !bankClaimed s core b).length)

/-- The names of a core's tokens, semaphores or mutexes, that no stage resident's view claims, each under its own number (R352, R370). -/
def freeNames (s : State) (core n : Nat) (view : Res → Tab Nat) : Tab Nat :=
  ((List.range n).filter fun i => !(List.range 4).any fun r => let x := s.res (4 * core + r); r ≠ 0 && x.loaded && (view x).any fun e => e.2 = i).map fun i => (i, i)

/-- The tile resident of a core loaded for an instruction (R16, R17, R40): what no stage resident claims is its own (R352, R370). -/
def loadTileRes (s : State) (n : Nat) : State :=
  let k := agentOf n
  let (bank0, banks) := freeBanks s k
  let x : Res := { Res.reset with
    loaded := true, launch := seatLaunch n, weight := 4, asid := launchAsid s (seatLaunch n), bank0, banks,
    alloc := BitVec.ofNat 64 (64 + 2 ^ 8 * 48 + 2 ^ 20 * padBytes + 2 ^ 40 * banks), spillb := padBytes,
    semMap := freeNames s k 32 (·.semMap), mtxMap := freeNames s k 8 (·.mtxMap) }
  let s := s.setRes (4 * k) x
  [0, 1, 2, 3].foldl (fun s st => (s.setCtx (16 * k + st) { Ctx.reset with run := if st = 0 then .running else .fresh }).setThr
    (mainOf (16 * k + st)) Thread.reset) s

/-- A node's own stream made ready for an instruction. -/
def readyNode (s : State) (n : Nat) : State :=
  if agentOf n < 512 then loadTileRes s n
  else (s.setCtx (seatCtx n) { s.ctx (seatCtx n) with run := .running }).setThr (mainOf (seatCtx n)) Thread.reset

/-- Whether a launch is of a pod whose root is another package (R422). -/
def Launch.member (l : Launch) : Bool := l.podmask ≠ 0 && l.root ≠ Config.packageNumber.toNat

/-- This package's share of a pod-level instruction (R356). -/
def memberShare (l : Launch) (t : Tcb) : Share :=
  let ps := packagesOf l
  childShare t 6 1 (wholeShare t) ps.length (ps.findIdx fun p => p = Config.packageNumber.toNat)

/-- A block from the pod's root, taken by this package's controller (R351, R422). -/
def startMember (s : State) (n : Nat) (bits : BitVec 1024) : State :=
  let x := s.node n
  match s.launch? (seatLaunch n) with
  | none => s
  | some l =>
    if l.single && l.member && n = pkgNode (seatLaunch n) && nodeRuns s n && !x.busy && x.outcome.isNone then
      startNode (readyNode s n) n bits (some (memberShare l (Tcb.of bits))) false none 0
    else s

/-- The first block of a node's inbox, taken when the node is free (R363, R371). -/
def startQueued (s : State) (n : Nat) : State :=
  let x := s.node n
  match x.inbox with
  | [] => s
  | e :: rest =>
    if x.busy || x.outcome.isSome || !nodeRuns s n then s
    else
      let s := readyNode (s.setNode n { x with inbox := rest }) n
      let w := seatCtx n
      match e.addr with
      | none => startNode s n e.tcb e.share true e.parent e.child
      | some a =>
        match readTcb s (strandAg s w) a with
        | (.error f, s) => tileFault (startNode s n 0 e.share false e.parent e.child) w 0x3FFF f.1 0 f.2
        | (.ok bits, s) =>
          let s := startNode s n bits e.share false e.parent e.child
          if a.toNat % 128 ≠ 0 then tileFault s w (0xA0 + (Tcb.of bits).op % 16) 1 0 0 else s

/-- TILE_INSTRUCTION_START (R363, R371, R422): a child takes a block from its inbox, or a member of a pod one that comes over a link. -/
def execTileInstructionStart (x : TileStart) (s : State) : Done :=
  .next (match x with | .inbox n => startQueued s n | .link n bits => startMember s n bits)

/-- QUAD_INBOX_WRITE (R368): a privileged write of a block's address. -/
def execQuadInboxWrite (quad : Nat) (privileged : Bool) (tcb : Word) (s : State) : Done :=
  .next (if privileged then quadInbox s quad privileged tcb else s)

/-- A sibling of a first faulted child (R366): not yet started, it leaves its inbox and is cancelled; running, it is discarded. -/
def discardChild (p : Nat) (seats : List (Option Nat)) (s : State) (c : Nat) : State :=
  match seats.getD c none with
  | none => { s with links := s.links ++ [.discard (seatLaunch p) (childPkg s p c)] }
  | some seat =>
    let y := s.node seat
    let mine (e : InboxEnt) : Bool := e.parent = some p && e.child = c
    if y.inbox.any mine then
      let es := y.inbox.filter mine
      let s := es.foldl (fun s e =>
        match e.addr with
        | none => loseShare s (seatCtx p) e.tcb (e.share.getD (wholeShare (Tcb.of e.tcb)))
        | some a => match readTcb s (strandAg s (seatCtx p)) a with
          | (.ok bits, s) => loseShare s (seatCtx p) bits (wholeShare (Tcb.of bits))
          | (.error _, s) => s) s
      let s := s.setNode seat { y with inbox := y.inbox.filter (fun e => !mine e), discard := y.discard || (y.busy && y.parent = some p) }
      let x := s.node p
      s.setNode p { x with children := tset x.children c (match tget? x.children c with | some .running | none => .cancelled | some z => worse z .cancelled),
                           dispatched := es.foldl (fun ds _ => ds.erase c) x.dispatched }
    else if y.busy && y.parent = some p then s.setNode seat { y with discard := true }
    else s

/-- A parent takes the outcome of its child of a number (R366): with its first faulted child it discards the others. -/
def takeOutcome (s : State) (p c : Nat) (o : ChildState) : State :=
  let x := s.node p
  let o' := match tget? x.children c with | some .running => o | some z => worse z o | none => o
  let rest := x.dispatched.erase c
  let first := (match o with | .faulted _ => true | _ => false) && !x.cancelling
  let s := s.setNode p { x with children := tset x.children c o', dispatched := rest, cancelling := x.cancelling || first }
  if first then rest.eraseDups.foldl (discardChild p (childSeats s p)) s else s

/-- An outcome as a link carries it, and as a parent keeps it. -/
def ChildState.out : ChildState → LinkOutcome
  | .done => .done | .faulted r => .faulted r | _ => .cancelled
def childOutcome : LinkOutcome → ChildState
  | .done => .done | .faulted r => .faulted r | .cancelled => .cancelled

/-- The end of an instruction that no node of this package gave (R366, R367, R422): a member of a pod tells the root, the root tells the members; a
package-level or pod-level instruction that completes faulted ends the launch. -/
def endTop (s : State) (n : Nat) (o : ChildState) : State :=
  let id := seatLaunch n
  let s := match s.launch? id with
    | none => s
    | some l =>
      let ps := if l.single && n = podNode id then (packagesOf l).filter fun p => p ≠ Config.packageNumber.toNat
                else if l.single && l.member && n = pkgNode id then [l.root] else []
      { s with links := s.links ++ ps.map fun p => .outcome id p o.out }
  match o with
  | .faulted r => if levelOf n ≥ 5 then endStruck s id r else s
  | _ => s

/-- An outcome that comes over a link (R363, R366, R422): to the root that of a member, its child; to a member that of the pod's instruction, with which
its launch ends, or a discard. -/
def linkOutcome (s : State) (n c : Nat) (o : LinkOutcome) : State :=
  let id := seatLaunch n
  match s.launch? id with
  | none => s
  | some l =>
    if !l.single || l.podmask = 0 || n ≠ podNode id || l.st ≠ .running then s
    else if !l.member then
      if (childSeats s n).getD c (some n) = none && (s.node n).dispatched.contains c then
        let x := s.node n
        takeOutcome (if o = .done then s else loseShare s (seatCtx n) x.tcb (childShare (Tcb.of x.tcb) 6 1 x.share (packagesOf l).length c)) n c (childOutcome o)
      else s
    else
      match o with
      | .faulted r => endStruck s id r
      | .done => if nodeIdle s (pkgNode id) then endLaunch s id 0 0 0 else s
      | .cancelled =>
        let y := s.node (pkgNode id)
        s.setNode (pkgNode id) { y with discard := y.busy }

/-- A node's outcome given to the one that waits for it (R366, R367). -/
def passOutcome (s : State) (n : Nat) : State :=
  let y := s.node n
  match y.outcome with
  | none => s
  | some o =>
    let s := s.setNode n { y with outcome := none, discard := false }
    match y.parent with
    | none => endTop s n o
    | some p => takeOutcome (if o = .done then s else loseShare s (seatCtx p) y.tcb y.share) p y.child o

/-- CHILD_COMPLETION (R366, R367, R422): the parent takes its child's outcome, or one that comes over a link. -/
def execChildCompletion (x : ChildEnd) (s : State) : Done :=
  .next (match x with | .own n => passOutcome s n | .link n c o => linkOutcome s n c o)

/-- TILE_DISCARD_STOP (R366): a discarded child stops at its commit point, a parent once its own children are complete. -/
def execTileDiscardStop (n : Nat) (s : State) : Done :=
  let x := s.node n
  .next (
    if x.busy && x.discard && x.dispatched.isEmpty then
      completeTile (if isCore (agentOf n) then loseCore s (agentOf n) 0x1E00 else s) n .cancelled
    else s)

end Sys2Proof.Machine
end

