-- ==== Sys2Proof/Machine/Launch.lean ====
section
/-! DEFINITION. Partitions and placement (R33, R44), the start of a launch (R31), its completion (R32), the Sheepdog (R42), and pre-emption,
swap-out and resumption (R44 to R47, R407 to R411, R430). -/

namespace Sys2Proof.Machine

/-! ## Quads (R33, R44, R406) -/

/-- Whether quarantine takes a quad out of new partitions. -/
def quadOut (s : State) (q : Nat) : Bool := s.quadQuar.contains q || [0, 1, 2, 3].all fun c => s.quarantine.contains (4 * q + c)

/-- The free quads, in ascending order. -/
def freeQuads (s : State) : List Nat := (List.range 128).filter fun q => (quadHolder s q).isNone && !quadOut s q

/-- The quads that R33 gives a request, if the free ones suffice. -/
def pickQuads (free : List Nat) (n : Nat) : Option (List Nat) :=
  if n ≤ 32 then
    ([0, 1, 2, 3].map fun d => free.filter fun q => q / 32 = d).findSome? fun qs => if n ≤ qs.length then some (qs.take n) else none
  else if n ≤ free.length then some (free.take n) else none

/-- Whether a new launch comes before another in the order of service (R44). -/
def before (a b : Nat × Launch) : Bool := b.2.cls < a.2.cls || (a.2.cls = b.2.cls && a.1 ≤ b.1)

/-- The quads that a launch of a class may be given: the free ones but those of pre-empted launches, of no lower class, that may come back (R44). -/
def givenQuads (s : State) (cls : Nat) : List Nat :=
  let back := (s.launches.filter fun l => l.2.st = .saved && cls ≤ l.2.cls && l.2.quads.all fun q => (quadHolder s q).isNone).flatMap fun l => l.2.quads
  (freeQuads s).filter fun q => !back.contains q

/-- The new launch to be served next. -/
def nextWaiting (s : State) : Option (Nat × Launch) :=
  (s.launches.filter fun l => l.2.st = .waiting).foldl (fun m l => match m with | none => some l | some x => some (if before l x then l else x)) none

/-- Whether the shadow storage of a launch's cores holds a saved context. -/
def shadowBusy (s : State) (l : Launch) : Bool := (coresOfQuads l.quads).any fun k => (tget? s.shadow k).isSome

/-- Whether a running launch is taken before another for its quads (R44): lower class first, then the later start. -/
def victimBefore (a b : Nat × Launch) : Bool :=
  a.2.cls < b.2.cls || (a.2.cls = b.2.cls && (b.2.start < a.2.start || (a.2.start = b.2.start && b.1 < a.1)))

/-- An element put into a list by an order. -/
def insertBy {α : Type} (lt : α → α → Bool) (x : α) : List α → List α
  | [] => [x]
  | y :: ys => if lt x y then x :: y :: ys else y :: insertBy lt x ys

/-- The launches to pre-empt until a request has its quads; none when they would not suffice. -/
def victimsFrom (n : Nat) : List (Nat × Launch) → List Nat → Option (List Nat)
  | cs, free =>
    match pickQuads free n, cs with
    | some _, _ => some []
    | none, [] => none
    | none, c :: cs => (victimsFrom n cs (sortNats (free ++ c.2.quads))).map (c.1 :: ·)

/-- The launches that must make way for a waiting one (R44): those being halted give their quads in any case. -/
def victims (s : State) (l : Launch) : List Nat :=
  let going := (s.launches.filter fun c => c.2.st = .halting && !c.2.dbg).flatMap fun c => c.2.quads
  let usable (c : Nat × Launch) : Bool := c.2.st = .running && c.2.cls < l.cls && !shadowBusy s c.2
  let cs := (s.launches.filter usable).foldr (insertBy victimBefore) []
  let cs := cs.map fun c => (c.1, { c.2 with quads := c.2.quads.filter fun q => !quadOut s q })
  (victimsFrom l.nquads cs (sortNats (givenQuads s l.cls ++ going.filter fun q => !quadOut s q))).getD []

/-! ## Placement (R18, R33, R38, R299, R310) -/

/-- The rounded allocation word (R37, R38). -/
def roundAlloc (a : Word) : Word :=
  BitVec.ofNat 64 (roundUp (allocVREG a) 8 + 2 ^ 8 * roundUp (allocSWD a) 4 + 2 ^ 20 * roundUp (allocSPB a) 4096 + 2 ^ 40 * allocACB a
    + 2 ^ 48 * roundUp (allocBAN a) 256)

/-- Whether an allocation word keeps its maxima and reserved bits (R37, R38). -/
def allocOk (a : Word) : Bool :=
  allocVREG a ≤ 64 && allocSWD a ≤ 1072 && allocSPB a ≤ 524288 && allocACB a ≤ 32 && allocBAN a ≤ 4096
    && fld a.toNat 7 1 = 0 && fld a.toNat 19 1 = 0 && fld a.toNat 46 2 = 0 && fld a.toNat 61 3 = 0

/-- Check 3 of R30 on a stage table entry: its allocation word, and the reserved bits of R439. -/
def stageHeaderOk (e : Nat) : Bool := allocOk (BitVec.ofNat 64 (fld e 0 64)) && fld e 80 16 = 0 && fld e 384 128 = 0

/-- The bytes of the window-spill region (R38). -/
def spillBytes (a : Word) : Nat := roundUp (8 * (allocSWD a - 48)) 4096

/-- What is left of a core while a launch is placed: residents taken, scratchpad taken from the bottom and, by stage queues, from the top, banks,
semaphores and mutexes taken. -/
structure Room where
  res : Nat
  low : Nat
  high : Nat
  banks : Nat
  sems : Nat
  mtxs : Nat

/-- An empty core. -/
def Room.all : Room := ⟨0, 0, 524288, 0, 0, 0⟩

/-- What a placement has come to: the room of each core, the residents placed, their records, and the homes of the stage queues. -/
structure Plan where
  rooms : Tab Room
  placed : List Placed
  recs : List (Nat × Res)
  queues : List StageQ

/-- The view numbers of a stage's tokens of a kind, ascending. -/
def viewsOf (ts : List Token) (stage : Nat) (mutex : Bool) : List Nat :=
  sortNats ((ts.filter fun t => t.stage = stage && t.mutex == mutex).map (·.view))

/-- A view: each name mapped to the next free physical number (R18). -/
def mapView (views : List Nat) (from' : Nat) : Tab Nat := (views.zip (List.range views.length)).foldl (fun m p => tset m p.1 (from' + p.2)) []

/-- The scratchpad stage queues of a producer stage, placed below the top of its first core (R441). -/
def homeQueues (stage core : Nat) : List StageQ → Nat → List StageQ × Nat
  | [], high => ([], high)
  | q :: rest, high =>
    let (q, high) := if q.prod = stage && !q.dev then ({ q with home := some core, base := high - q.depth * q.esz }, high - q.depth * q.esz) else (q, high)
    let (qs, high) := homeQueues stage core rest high
    (q :: qs, high)

/-- A stage's replicas placed on the first cores that have room (R33); none where they cannot all be. -/
def placeStage (l : Nat) (x : Launch) (cores : List Nat) (stage : Nat) (st : Stage) (p : Plan) : Option Plan :=
  let a := roundAlloc st.alloc
  let need := allocSPB a + spillBytes a
  let sv := viewsOf x.tokens stage false
  let mv := viewsOf x.tokens stage true
  let qb := (p.queues.filter fun q => q.prod = stage && !q.dev).foldl (fun n q => n + q.depth * q.esz) 0
  let go := cores.foldl (fun (acc : Nat × Plan) core =>
    let (got, p) := acc
    let r := tget Room.all p.rooms core
    let extra := if got = 0 then qb else 0
    if got < st.repl && r.res < 3 && r.low + need + extra ≤ r.high && r.banks + allocACB a ≤ 32 && r.sems + sv.length ≤ 32 && r.mtxs + mv.length ≤ 8 then
      let rec' : Res := { Res.reset with
        loaded := true, launch := l, stage, replica := got, replicas := st.repl, alloc := a,
        spillb := r.low + allocSPB a, bank0 := r.banks, banks := allocACB a, semMap := mapView sv r.sems, mtxMap := mapView mv r.mtxs, asid := x.asid }
      let (queues, high) := if got = 0 then homeQueues stage core p.queues r.high else (p.queues, r.high)
      let room : Room := ⟨r.res + 1, r.low + need, high, r.banks + allocACB a, r.sems + sv.length, r.mtxs + mv.length⟩
      (got + 1, { rooms := tset p.rooms core room, placed := p.placed ++ [⟨core, r.res + 1, stage, got⟩],
                  recs := p.recs ++ [(4 * core + r.res + 1, rec')], queues })
    else acc) (0, p)
  if go.1 = st.repl then some go.2 else none

/-- Stages placed in declared order. -/
def placeStages (l : Nat) (x : Launch) (cores : List Nat) : Nat → List Stage → Plan → Option Plan
  | _, [], p => some p
  | i, st :: rest, p => (placeStage l x cores i st p).bind (placeStages l x cores (i + 1) rest)

/-- Writes that wait at a core's port for a saved context go with it as another launch takes the core (R85). -/
def parkWrites (s : State) (core : Nat) : State :=
  let k := s.core core
  match tget? s.shadow core with
  | some v =>
    if k.winq.isEmpty then s
    else { s.setCore core { k with winq := [] } with shadow := tset s.shadow core { v with core := { v.core with winq := v.core.winq ++ k.winq } } }
  | none => s.setCore core { k with winq := [] }

/-- A launch's partition built on given quads and its stages placed (R33): the launch, placed, or none where a resident finds no place. -/
def buildPartition (s : State) (id : Nat) (l : Launch) (quads : List Nat) : Option State :=
  let cores := coresOfQuads (sortNats quads)
  let usable := cores.filter fun k => !s.quarantine.contains k
  let qs := (l.queues.zip (List.range l.queues.length)).map fun (q, i) =>
    if q.dev then { q with base := (Config.sectionPlace 0 id (2048 + i)).toNat / 64 * 64 % 2 ^ 56 } else q
  match placeStages id l usable 0 l.stages ⟨[], [], [], qs⟩ with
  | none => none
  | some p =>
    let s := cores.foldl parkWrites s
    let s := p.recs.foldl (fun s r => s.setRes r.1 r.2) s
    some (s.setLaunch id { l with st := .placed, quads := sortNats quads, usable, placed := p.placed, queues := p.queues })

/-- What serving a waiting launch comes to. -/
inductive Served where
  | placed (s : State)
  | noPlace
  | wait

/-- A waiting launch served if the free quads suffice (R33, R44). -/
def serve (s : State) (id : Nat) (l : Launch) : Served :=
  match pickQuads (givenQuads s l.cls) l.nquads with
  | none => .wait
  | some qs => match buildPartition s id l qs with | some s => .placed s | none => .noPlace

/-! ## Start (R31, R34, R35, R40, R310, R370) -/

/-- The tiles that a replica receives (R35). -/
def tilesFor (t : Template) (replica replicas : Nat) : List Nat :=
  let n := t.args.length
  if t.block then
    let per := cdiv n replicas
    (List.range n).filter fun i => replica * per ≤ i && i < (replica + 1) * per
  else (List.range n).filter fun i => i % replicas = replica

/-- The bytes of a schedule table (R34). -/
def tableBytes (t : Template) (tiles : List Nat) : List Byte :=
  leBytes 16 tiles.length ++ tiles.flatMap fun i => leBytes 8 (i + 2 ^ 40 * t.args.getD i 0)

/-- Where a resident's schedule table lies in this device's memory. -/
def tablePlace (l r : Nat) : Nat := (Config.sectionPlace 0 l (4096 + r)).toNat / 16 * 16 % 2 ^ 56

/-- The scalar registers of a `ctl` context at its start (R31). -/
def startRegs (l : Launch) (p : Placed) (replicas : Nat) : Tab Word :=
  let s := (List.range 8).foldl (fun m i => tset m (i + 1) (l.args.getD i 0)) []
  tset (tset (tset s 9 (BitVec.ofNat 64 p.replica)) 10 (BitVec.ofNat 64 replicas)) 11 (BitVec.ofNat 64 p.core)

/-- A context of a placed resident at the start (R28, R31, R110, R439). -/
def startCtx (s : State) (l : Launch) (p : Placed) (st : Stage) (k : Nat) : State :=
  let w := ctxKey (4 * p.core + p.res) k
  let start := st.starts.getD k 0
  let c : Ctx := { Ctx.reset with
    run := if k = 0 then .running else if start = 0 then .empty else .fresh, start, tvec := st.handlers.getD k 0,
    awake := BitVec.ofNat 8 (2 ^ (allocVREG (roundAlloc st.alloc) / 8) - 1), bantam := (s.ctx w).bantam }
  let regs := { Regs.reset with s := if k = 0 then startRegs l p st.repl else [], pc := start }
  [0, 1, 2, 3].foldl (fun s f => s.setThr (mainOf w + 1 + f) Thread.reset) ((s.setCtx w c).setThr (mainOf w) { Thread.reset with regs })

/-- A placed resident's tokens, banks, table and contexts at the start. A stage without a template (SCHED 0xFF) has no schedule table, and a `TNEXT` of
it finds its work exhausted (log entry 99). -/
def startResident (id : Nat) (l : Launch) (s : State) (p : Placed) : State :=
  match l.stages[p.stage]? with
  | none => s
  | some st =>
    let r := 4 * p.core + p.res
    let x := s.res r
    let k := s.core p.core
    let count (v : Nat) : Nat := match l.tokens.find? fun t => t.stage = p.stage && !t.mutex && t.view = v with | some t => t.count | none => 0
    let sems := x.semMap.foldl (fun m e => tset m e.2 ⟨BitVec.ofNat 16 (count e.1), []⟩) k.sems
    let mtxs := x.mtxMap.foldl (fun m e => tset m e.2 ⟨none, []⟩) k.mtxs
    let inBanks (a : Nat) : Bool := 4096 * x.bank0 ≤ a && a < 4096 * (x.bank0 + x.banks)
    let s := s.setCore p.core { k with sems, mtxs, acc := k.acc.filter fun c => !inBanks c.1 }
    let s := match (if l.counter then none else st.sched).bind fun t => l.templates[t]? with
      | none => s.setRes r { x with table := none }
      | some t =>
        let a := tablePlace id r
        { s.setRes r { x with table := some (BitVec.ofNat 64 a) } with mem := wrBytes s.mem (lpddr a) (tableBytes t (tilesFor t p.replica st.repl)) }
    [0, 1, 2, 3].foldl (fun s k => startCtx s l p st k) s

/-- The context of a launch's level program. -/
def levelCtx (l : Nat) : Nat := 16 * pkgNode l + 4

/-- The level program started (R370): the launch arguments in s1..s8, VREG 0. -/
def startLevel (s : State) (id : Nat) (l : Launch) : State :=
  let w := levelCtx id
  let args := (List.range 8).foldl (fun m i => tset m (i + 1) (l.args.getD i 0)) []
  let s := s.setRes (resKeyOf w) { Res.reset with loaded := true, launch := id, asid := l.asid }
  (s.setCtx w { Ctx.reset with run := .running, start := l.lvl }).setThr (mainOf w) { Thread.reset with regs := { Regs.reset with s := args, pc := l.lvl } }

/-- The node that a single tile instruction is delivered to: the pod's root where it is of a pod launch and the root is this package. -/
def rootNode (id : Nat) (l : Launch) : Option Nat :=
  if l.podmask = 0 then some (pkgNode id) else if l.root = Config.packageNumber.toNat then some (podNode id) else none

/-- A placed launch started (R31): everything in one step. A pod launch whose links are cut has no traffic to start with, and ends at once with UNCORR
(R406, R422). -/
def startLaunch (s : State) (id : Nat) (l : Launch) : State :=
  let s := s.setLaunch id { l with st := .running, start := s.cycle }
  if podCut s l.podmask then fatalLaunch s id (pkgNode id) 0x3FFF clsUncorr 0 0
  else if l.single then
    match rootNode id l with
    | some n => s.setNode n { Node.reset with inbox := [⟨some (l.args.getD 0 0), 0, none, none, 0⟩] }
    | none => s
  else
    let s := l.placed.foldl (startResident id l) s
    if l.lvl = 0 then s else startLevel s id l

/-- LAUNCH_START (R31, R33, R44): a placed launch starts; a waiting one that is next in order is placed first, or refused NOPLACE. -/
def execLaunchStart (l : Nat) (s : State) : Done :=
  .next (
    match s.launch? l with
    | none => s
    | some x =>
      if x.st = .placed then startLaunch s l x
      else if x.st = .waiting && (nextWaiting s).map (·.1) = some l then
        match serve s l x with
        | .placed s => (match s.launch? l with | some x => startLaunch s l x | none => s)
        | .noPlace => endLaunch s l lsNOPLACE 0 0
        | .wait => s
      else s)

/-! ## Completion (R32, R370) -/

/-- Whether a resident has ended and its entries have retired. -/
def residentDone (s : State) (r : Nat) : Bool :=
  let strand (k : Nat) : Bool :=
    let c := s.ctx (ctxKey r k)
    (c.run = .halted || c.run = .empty || c.run = .fresh) && c.memq.isEmpty && c.sigs.isEmpty && c.traps.isEmpty && !c.handler
  [0, 1, 2, 3].all strand && [0, 1, 2, 3].all fun f => (jobsOf ((s.res r).fifo f)).isEmpty

/-- Whether no tile instruction of a launch is under way. -/
def nodesIdle (s : State) (id : Nat) : Bool := s.nodes.all fun n => n.1 < 1024 || seatLaunch n.1 ≠ id || (!n.2.busy && n.2.inbox.isEmpty && n.2.outcome.isNone)

/-- Whether a running launch has completed. -/
def launchDone (s : State) (id : Nat) (l : Launch) : Bool :=
  l.st = .running && nodesIdle s id &&
    (if l.single then (match rootNode id l with | some n => 0 < (s.node n).completed | none => false)
    else
      l.placed.all (fun p => residentDone s (4 * p.core + p.res)) &&
        (l.lvl = 0 || (let c := s.ctx (levelCtx id); c.run = .halted && c.memq.isEmpty)) &&
        (coresOfQuads l.quads).all fun k => (s.core k).tupd.isEmpty)

/-- LAUNCH_COMPLETE (R32, R403): a launch that has met a launch-fatal fault ends faulted; one whose work is done ends well. Its resources are freed and its completion record is posted. -/
def execLaunchComplete (l : Nat) (s : State) : Done :=
  .next (
    match s.launch? l with
    | none => s
    | some x => match x.record with
      | some r => endLaunch s l stFaulted 0 r
      | none => if launchDone s l x then endLaunch s l lsOK 0 0 else s)

/-! ## The Sheepdog (R42) -/

/-- Occupancy in eighths. -/
def StageQ.eighths (q : StageQ) : Nat := 8 * q.occ.length / q.depth

/-- The weight change of a stage. -/
def weightStep (l : Launch) (stage : Nat) : Int :=
  let ins := (l.queues.filter fun q => q.cons = stage).map StageQ.eighths
  let outs := (l.queues.filter fun q => q.prod = stage).map StageQ.eighths
  let oi : Int := match ins with | [] => 4 | x :: xs => (xs.foldl min x : Nat)
  let oo : Int := match outs with | [] => 4 | x :: xs => (xs.foldl max x : Nat)
  let p := oi - oo
  if 4 ≤ p then 2 else if 1 ≤ p then 1 else if p = 0 then 0 else if -3 ≤ p then -1 else -2

/-- A weight moved and kept within 1..15. -/
def clampWeight (w : Nat) (d : Int) : Nat := (max 1 (min 15 ((w : Int) + d))).toNat

/-- The weights of a launch's stage residents recomputed. -/
def newWeights (s : State) (l : Launch) : State :=
  l.placed.foldl (fun s p =>
    let r := 4 * p.core + p.res
    let x := s.res r
    s.setRes r { x with weight := clampWeight x.weight (weightStep l p.stage) }) s

/-- SHEEPDOG_WEIGHT_UPDATE (R42): every stage resident of every running launch. -/
def execSheepdogWeightUpdate (s : State) : Done :=
  .next ((s.launches.filter fun l => l.2.st = .running).foldl (fun s l => newWeights s l.2) s)

/-! ## Halt, swap-out, resumption (R44 to R47, R85, R369, R407, R411, R430) -/

/-- The contexts of a launch: those of its placed residents, of its tile residents, and of its controllers. -/
def launchCtxs (s : State) (id : Nat) (l : Launch) : List Nat :=
  ((coresOfQuads l.quads).flatMap fun k => (List.range 16).map fun i => 16 * k + i)
    ++ (s.ctxs.map (·.1)).filter fun w => 512 ≤ nodeOf w && seatLaunch (nodeOf w) = id

/-- Whether a stream stands where a halt may leave it (R45, R180, R183, R369): outside a frame, or at a commit point of its outermost frame; a stream of
a controller or tile resident stalled too, at whatever step. -/
def atHalt (w : Nat) (x : Thread) : Bool :=
  (match x.stack with | [] => true | [f] => f.kind ≠ 0 && f.step = 0 | _ => false) || ((isController w || isTileRes w) && x.wait.isSome)

/-- Whether a context has halted: every stream of it, with its accesses performed. -/
def ctxStopped (s : State) (w : Nat) : Bool :=
  (s.ctx w).memq.isEmpty && [0, 1, 2, 3, 4].all fun f => atHalt w (s.thr (mainOf w + f))

/-- Whether every context of a launch has halted. -/
def launchStopped (s : State) (id : Nat) (l : Launch) : Bool := (launchCtxs s id l).all (ctxStopped s)

/-- PREEMPTION (R44, R45): a running launch of a class below a waiting one that needs its quads halts. -/
def execPreemption (l : Nat) (s : State) : Done :=
  .next (
    match s.launch? l with
    | none => s
    | some x =>
      let wanted := match nextWaiting s with
        | some w => (match serve s w.1 w.2 with | .wait => (victims s w.2).contains l | _ => false)
        | none => false
      if x.st = .running && !x.struck && wanted then s.setLaunch l { x with st := .halting, haltAt := s.cycle, dbg := false } else s)

/-- The waits of some streams with their beginning replaced. -/
def moveWaits (s : State) (ws : List Nat) (f : Nat → Nat) : State :=
  { s with threads := tmapIf (fun t => ws.contains (ctxOf t)) (fun _ x => { x with wait := x.wait.map fun v => { v with since := f v.since } }) s.threads }

/-- What a core's context saves (R407): the residents, contexts and streams, and the core's own state; translations are dropped. -/
def saveCore (s : State) (id core : Nat) : Saved :=
  let k := s.core core
  { launch := id, core := { k with tlb := [], pred := [] }, residents := s.residents.filter fun e => e.1 / 4 = core,
    ctxs := s.ctxs.filter fun e => nodeOf e.1 = core, threads := s.threads.filter fun e => nodeOf (ctxOf e.1) = core }

/-- A core's context put into its shadow storage; a container that stood there is gone. -/
def storeCore (s : State) (id core : Nat) : State :=
  let v := saveCore s id core
  let s := s.setCore core { s.core core with tlb := [], pred := [], shadowBytes := [], shadowLen := 0 }
  { s with shadow := tset s.shadow core v }

/-- A core left empty by a swap-out: its Bantams keep their bytes. -/
def emptyCore (s : State) (core : Nat) : State :=
  let k := s.core core
  let s := s.setCore core { k with sems := [], mtxs := [], tstat := [], tupd := [], winq := [] }
  { s with residents := s.residents.filter (fun e => e.1 / 4 ≠ core),
           ctxs := tmapIf (fun w => nodeOf w = core) (fun _ c => { Ctx.reset with bantam := c.bantam }) s.ctxs,
           threads := s.threads.filter fun e => nodeOf (ctxOf e.1) ≠ core }

/-- CONTEXT_SWAP_OUT (R45, R407, R430): once its strands have halted, the launch's context goes to shadow storage. After a pre-emption the cores
are free; after a debug stop the partition keeps them, and where another launch's context fills the shadow storage it stops without a dump. -/
def execContextSwapOut (l : Nat) (s : State) : Done :=
  .next (
    match s.launch? l with
    | none => s
    | some x =>
      if x.st = .halting && !x.struck && launchStopped s l x then
        let s := moveWaits s (launchCtxs s l x) fun since => x.haltAt - since
        let cores := coresOfQuads x.quads
        if x.dbg then
          let s := if shadowBusy s x then s else cores.foldl (storeCore · l) s
          { s.setLaunch l { x with st := .stopped } with
            cores := tmapIf (fun k => cores.contains k) (fun _ c => { c with stopped := true }) s.cores }
        else (cores.foldl (fun s k => emptyCore (storeCore s l k) k) s).setLaunch l { x with st := .saved }
      else s)

/-- A core's saved context taken back (R45, R411): the translation cache, the trace and debug registers are the core's own. -/
def restoreCore (s : State) (core : Nat) : State :=
  match tget? s.shadow core with
  | none => s
  | some v =>
    let k := s.core core
    let v := if 0 < k.shadowLen then takeContainer k core v else v
    let s := s.setCore core { k with
      scratch := v.core.scratch, acc := v.core.acc, sems := v.core.sems, mtxs := v.core.mtxs, tstat := v.core.tstat, tupd := v.core.tupd,
      rrIn := v.core.rrIn, rrOut := v.core.rrOut, rrSel := v.core.rrSel, rrSeq := v.core.rrSeq, winq := v.core.winq ++ k.winq, shadowBytes := [], shadowLen := 0, stopped := false }
    { s with
      residents := v.residents.foldl (fun t e => tset t e.1 e.2) (s.residents.filter fun e => e.1 / 4 ≠ core)
      ctxs := v.ctxs.foldl (fun t e => tset t e.1 e.2) (s.ctxs.filter fun e => nodeOf e.1 ≠ core)
      threads := v.threads.foldl (fun t e => tset t e.1 e.2) (s.threads.filter fun e => nodeOf (ctxOf e.1) ≠ core)
      shadow := terase s.shadow core }

/-- The number of the first condition of R411 that refuses a container of a launch's cores. -/
def launchRefusal (s : State) (l : Launch) : Option Nat :=
  (coresOfQuads l.quads).findSome? fun k =>
    if 0 < (s.core k).shadowLen && (tget? s.shadow k).isSome then containerRefusal (s.core k) else none

/-- The routines of a launch bound afresh by the table as it stands (R186, R411). -/
def rebind (s : State) (l : Launch) : Launch := { l with routines := l.routines.map fun r => { r with native := bindsNative s r.depr r.digest } }

/-- A launch that goes on after a halt (R45, R125, R427): window writes held meanwhile land before its first slots, its waits are counted on, and its issue
resumes in one cycle. -/
def goOn (s : State) (id : Nat) (l : Launch) : State :=
  let s := (coresOfQuads l.quads).foldl landHeld s
  (moveWaits s (launchCtxs s id l) fun elapsed => s.cycle - elapsed).setLaunch id { l with st := .running, dbg := false }

/-- A halted launch brought back: its contexts restored, and its issue resumed (R45, R411). -/
def resumeLaunch (s : State) (id : Nat) (l : Launch) : State :=
  match launchRefusal s l with
  | some n => endLaunch s id stCtxRefused n 0
  | none =>
    let supplied := (coresOfQuads l.quads).any fun k => 0 < (s.core k).shadowLen && (tget? s.shadow k).isSome
    let own := (coresOfQuads l.quads).filter fun k => (tget? s.shadow k).any fun v => v.launch = id
    let s := own.foldl restoreCore s
    let s := { s with cores := tmapIf (fun k => (coresOfQuads l.quads).contains k) (fun _ c => { c with stopped := false }) s.cores }
    goOn s id (if supplied then rebind s l else l)

/-- Whether a pre-empted launch may resume (R44): its quads are free, and no waiting launch of higher class would now be given one of them. -/
def mayResume (s : State) (l : Launch) : Bool :=
  l.st = .saved && l.quads.all (fun q => (quadHolder s q).isNone) && s.launches.all fun w =>
    !(w.2.st = .waiting && l.cls < w.2.cls) ||
      (match pickQuads (givenQuads s w.2.cls) w.2.nquads with | some qs => qs.all fun q => !l.quads.contains q | none => true)

/-- LAUNCH_RESUME (R44, R45, R411): a pre-empted launch is swapped back in, or refused by its container. -/
def execLaunchResume (l : Nat) (s : State) : Done :=
  .next (
    match s.launch? l with
    | none => s
    | some x => if mayResume s x then resumeLaunch s l x else s)

end Sys2Proof.Machine
end

