-- ==== Sys2Proof/Machine/Migration.lean ====
section
/-! DEFINITION. Invalidation (R223, R414, R434), page counters and the migration of pages (R230 to R234). -/

namespace Sys2Proof.Machine

/-! ## Invalidation (R223, R414) -/

/-- A range of virtual addresses of an address space: first address, and length. -/
structure VRange where
  asid : Nat
  lo : Nat
  len : Nat

/-- The range that an invalidation block names (R414): to 64 KB both ways; a length of 0 is the whole space. -/
def invRange (g : BitVec 16 × Word × Word) : VRange :=
  if g.2.2 = 0 then ⟨g.1.toNat, 0, 2 ^ 57⟩
  else
    let lo := fld g.2.1.toNat 0 57 / 65536 * 65536
    ⟨g.1.toNat, lo, roundUp g.2.2.toNat 65536⟩

/-- Whether a range overlaps `n` bytes at an address. -/
def VRange.hits (r : VRange) (asid va n : Nat) : Bool := r.asid = asid && va < r.lo + r.len && r.lo < va + n

/-- What GO does (R414): an invalidation of the range as it stands starts, or is refused when the address space is not the function's; ignored while
one is under way. -/
def startInv (s : State) (fn : Nat) : State :=
  let f := s.func fn
  if !f.idone then s
  else if f.iasid.toNat / 256 ≠ fn then s.setFunc fn { f with idone := true, irefused := true }
  else s.setFunc fn { f with idone := false, irefused := false, going := (f.iasid, f.iva, f.ilen) }

/-- INVALIDATION_GO (R414). -/
def execInvalidationGo (fn : Nat) (s : State) : Done := .next (startInv s fn)

/-- Whether a load, store or `AMO` whose address lies in a range is still to be performed. -/
def rangeBusy (s : State) (r : VRange) : Bool :=
  s.ctxs.any fun e => e.2.memq.any fun m => r.hits (strandAg s e.1).asid m.va.toNat (max 1 m.places.length)

/-- The terminating record (R434): KIND 0xFF, every other field zero. -/
def truncRecord : BitVec 128 := 0xFF

/-- Tracing ended at a record boundary (R434): the terminating record, TRUNC, ARM cleared. -/
def truncTrace (k : Core) : Core := { k with tfifo := k.tfifo ++ [(false, [truncRecord])], trunc := true, armed := false }

/-- The address space that a core's trace buffer lies in: that of the launch which holds the core. -/
def traceAsid (s : State) (core : Nat) : Option Nat := (quadHolder s (quadOf core)).map (launchAsid s)

/-- Cached translations of a range dropped, and the traces whose buffers it covers ended. -/
def dropRange (s : State) (r : VRange) : State :=
  { s with cores := s.cores.map fun e =>
      let k := { e.2 with tlb := e.2.tlb.filter fun x => !r.hits x.asid x.va x.size, pred := e.2.pred.filter fun p => !r.hits p.2.2.asid p.2.2.va p.2.2.size }
      (e.1, match traceAsid s e.1 with
        | some a => if k.armed && r.hits a k.tbase.toNat k.tsize.toNat then truncTrace k else k
        | none => k) }

/-- INVALIDATION_COMPLETE (R223): once no access that used an old translation is outstanding, what was cached is gone and DONE is set. -/
def execInvalidationComplete (fn : Nat) (s : State) : Done :=
  let f := s.func fn
  let r := invRange f.going
  .next (
    if f.idone || rangeBusy s r then s
    else
      let s := dropRange s r
      s.setFunc fn { s.func fn with idone := true })

/-! ## Pages (R230, R234, R414) -/

/-- PAGE_COUNTER_QUERY (R414): the four counters and the owner of the page that holds the address. -/
def execPageCounterQuery (s : State) : Done :=
  .next (
    match walk s s.pasid.toNat (fld s.pva.toNat 0 57) with
    | none => { s with pdone := true, pnopage := true, pcnt := 0 }
    | some x =>
      let p := pageRec s (physKey x.owner.toNat x.peer x.frame) x.size none
      { s with pdone := true, pnopage := false,
               pcnt := BitVec.ofNat 64 (p.dev.toNat + 2 ^ 12 * p.host.toNat + 2 ^ 24 * p.peer.toNat + 2 ^ 36 * p.cxl.toNat + 2 ^ 48 * x.owner.toNat) })

/-- The counter of the class that an owner code names; a peer's is of no class that a page moves to. -/
def PageCtr.ofOwner (p : PageCtr) (o : Nat) : Nat := match o with | 0 => p.dev.toNat | 1 => p.host.toNat | 2 => p.cxl.toNat | _ => p.peer.toNat

/-- Whether a page moved too lately to move again (R232, R414 HYST): the move's own epoch counts. -/
def recentMove (s : State) (p : PageCtr) : Bool := p.moved ≠ 0 && s.epochNo + 1 < p.moved + (fld s.hyst.toNat 0 4)

/-- The owner that the policy moves a page towards (R232), if any: the class with the highest counter among those that qualify. -/
def policyTarget (s : State) (p : PageCtr) (owner : Nat) : Option Nat :=
  let own := p.ofOwner owner
  let ok (c : Nat) : Bool := c ≠ owner && fld s.tmove.toNat 0 12 ≤ p.ofOwner c && own + fld s.tmargin.toNat 0 12 ≤ p.ofOwner c
  ([0, 1, 2].filter ok).foldl (fun m c => match m with | none => some c | some d => if p.ofOwner d < p.ofOwner c then some c else m) none

/-- A counter halved at an epoch's end (R230). -/
def PageCtr.halve (p : PageCtr) : PageCtr := { p with dev := p.dev >>> 1, host := p.host >>> 1, peer := p.peer >>> 1, cxl := p.cxl >>> 1 }

/-- The moves that empty stacks under quarantine (R406): one request for each page of theirs, towards this device's other stacks. -/
def stackMoves (s : State) (ns : List Nat) : List Act :=
  if ns.isEmpty then []
  else ((allPages s).filter fun x => x.owner = 0 && ns.contains (Config.stackOf (lpddr x.frame))).map fun x =>
    Act.event (.migrationRequest x.asid (BitVec.ofNat 64 x.va) 0 false)

/-- MIGRATION_EPOCH (R230, R232): firmware asks for the moves that its policy picks, and halves every counter. -/
def execMigrationEpoch (s : State) : Done :=
  let homeOf (e : Nat × PageCtr) : Option (Nat × Nat) := match e.2.home with | some h => some h | none => (pageOf s e.1).map fun x => (x.asid, x.va)
  let asks := s.pages.filterMap fun e =>
    match homeOf e with
    | none => none
    | some (asid, va) =>
      if physOwner e.1 = 3 || recentMove s e.2 then none
      else (policyTarget s e.2 (physOwner e.1)).map fun c => Act.event (.migrationRequest asid (BitVec.ofNat 64 va) (BitVec.ofNat 2 c) false)
  .next { s with agenda := s.agenda ++ asks ++ stackMoves s s.stackQuar, epochNo := s.epochNo + 1, pages := s.pages.map fun e => (e.1, e.2.halve) }

/-- The tables of an address space, each by its address and bytes (R219). -/
def tablesFrom (mem : Memory) : Nat → Nat → Nat → List (Nat × Nat)
  | 0, _, _ => []
  | fuel + 1, lv, t =>
    let n := if lv = 4 then 32 else 512
    (t, 8 * n) :: (List.range n).flatMap fun i =>
      let e := rdNat mem (lpddr (t + 8 * i)) 8
      if bitOf e 0 && !bitOf e 1 && lv < 4 then tablesFrom mem fuel (lv + 1) (fld e 8 48 * 256) else []

/-- The ranges of LPDDR-6 that hold page tables and schedule tables (R34, R234). -/
def pinnedRanges (s : State) : List (Nat × Nat) :=
  let pts := s.roots.flatMap fun r => match rootOf s r.1 with | some t => tablesFrom s.mem 5 0 t | none => []
  let saved := s.shadow.flatMap fun v => v.2.residents
  let sts := (s.residents ++ saved).filterMap fun r => r.2.table.map fun a => (a.toNat, 16 + 8 * rdNat s.mem (lpddr a.toNat) 4)
  pts ++ sts

/-- Whether a page is pinned (R234). -/
def pinned (s : State) (x : Xlat) : Bool :=
  (x.owner = 0 && (pinnedRanges s).any fun r => r.1 < x.frame + x.size && x.frame < r.1 + r.2)
    || s.cores.any fun e => e.2.armed && (match traceAsid s e.1 with
        | some a => a = x.asid && e.2.tbase.toNat < x.va + x.size && x.va < e.2.tbase.toNat + e.2.tsize.toNat | none => false)

/-- The MIG bit of a page's leaf entry written (R220, R231). -/
def writeMig (s : State) (x : Xlat) (b : Bool) : State :=
  match (rootOf s x.asid).bind fun t => leafFrom s.mem x.va 5 0 t with
  | none => s
  | some (a, _) =>
    let e := rdNat s.mem a 8
    { s with mem := wrBytes s.mem a (leBytes 8 (putField e 5 1 (if b then 1 else 0))) }

/-- The cached translations of a page dropped. -/
def dropPage (s : State) (x : Xlat) : State := dropRange s ⟨x.asid, x.va, x.size⟩

/-- The frame that a move takes a page to (R231; log entry 24), aligned to the page. -/
def moveFrame (s : State) (x : Xlat) (cls : BitVec 2) : Nat := (Config.newFrame s.fresh (BitVec.ofNat 64 x.va) cls).toNat % 2 ^ 56 / x.size * x.size

/-- Whether a frame lies in a stack under quarantine (R406). -/
def frameBarred (s : State) (cls : BitVec 2) (frame : Nat) : Bool := cls = 0 && s.stackQuar.contains (Config.stackOf (lpddr frame))

/-- MIGRATION_REQUEST (R231 to R234): the arbiter accepts a request for a page that is not moving, or it loses; a host's request in the same cycle
wins over firmware's; a pinned page's request is put off. -/
def execMigrationRequest (asid : Nat) (va : Word) (cls : BitVec 2) (byHost : Bool) (s : State) : Done :=
  .next (
    match walk s asid va.toNat with
    | none => s
    | some x =>
      let rival (a : Act) : Bool := match a with
        | .event (.migrationRequest i v _ true) => i = asid && x.va ≤ v.toNat && v.toNat < x.va + x.size
        | _ => false
      let p := pageRec s (physKey x.owner.toNat x.peer x.frame) x.size (some (asid, x.va))
      let frame := moveFrame s x cls
      let leaves := x.owner = 0 && frameBarred s 0 x.frame
      if x.mig || x.owner = 3 || cls = 3 || (cls = x.owner && !leaves) || (recentMove s p && !leaves) || (!byHost && s.agenda.any rival) then s
      else if pinned s x then { s with later := s.later ++ [.event (.migrationRequest asid va cls byHost)] }
      else if frameBarred s cls frame then
        { s with fresh := s.fresh + 1, later := s.later ++ [.event (.migrationRequest asid va cls byHost)] }
      else
        let s := dropPage (writeMig s x true) x
        { s with fresh := s.fresh + 1, moves := s.moves ++ [⟨asid, x.va, cls, BitVec.ofNat 64 frame⟩] })

/-- Whether an access to a page's bytes at its present owner is outstanding. -/
def pageBusy (s : State) (x : Xlat) : Bool :=
  let lo := physKey x.owner.toNat x.peer x.frame
  s.ctxs.any fun e => e.2.memq.any fun m => m.places.any fun p => match p with | .phys a => lo ≤ a && a < lo + x.size | .win .. => false

/-- The bytes of a range of memory copied to a new place. -/
def copyRange (m : Memory) (src dst n : Nat) : Memory :=
  let cells := m.filter fun c => src ≤ c.1 && c.1 < src + n
  cells.foldl (fun m c => wrByte m (dst + (c.1 - src)) c.2) (m.filter fun c => !(dst ≤ c.1 && c.1 < dst + n))

/-- MIGRATION_SWITCH (R87, R231): once no forwarded access is in flight, the page's bytes stand at the new owner, its leaf names them, and the
page is invalidated. -/
def execMigrationSwitch (asid : Nat) (va : Word) (s : State) : Done :=
  .next (
    match s.moves.find? fun m => m.asid = asid && m.va = va.toNat, walk s asid va.toNat with
    | some m, some x =>
      if pageBusy s x then s
      else
        let src := physKey x.owner.toNat x.peer x.frame
        let dst := physKey m.cls.toNat 0 m.frame.toNat
        let p := pageRec s src x.size (some (asid, x.va))
        let s := { s with mem := copyRange s.mem src dst x.size, moves := s.moves.filter fun y => !(y.asid = asid && y.va = m.va) }
        match (rootOf s asid).bind fun t => leafFrom s.mem x.va 5 0 t with
        | none => s
        | some (a, _) =>
          let e := rdNat s.mem a 8
          let e := putField (putField (putField (putField e 5 1 0) 6 2 m.cls.toNat) 8 48 (m.frame.toNat / 256)) 56 6 0
          let s := { s with mem := wrBytes s.mem a (leBytes 8 e), pages := tset (terase s.pages src) dst { p with moved := s.epochNo + 1 } }
          dropPage s x
    | _, _ => s)

/-- The move whose page's leaf entry a write of memory takes away: it clears the entry's valid bit (R234). -/
def unmapsMoving (s : State) (a : Nat) (bs : List Byte) : Bool :=
  s.moves.any fun m =>
    match (rootOf s m.asid).bind fun t => leafFrom s.mem m.va 5 0 t with
    | some (e, _) => a ≤ e && e < a + bs.length && !(bs.getD (e - a) 0).getLsbD 0
    | none => false

/-- A move given up (R231): MIG is cleared, and the old owner stays. -/
def cancelMove (s : State) (m : Move) : State :=
  let s := { s with moves := s.moves.filter fun y => !(y.asid = m.asid && y.va = m.va) }
  match walk s m.asid m.va with
  | some x => dropPage (writeMig s x false) x
  | none => s

end Sys2Proof.Machine
end

