-- ==== Sys2Proof/Machine/System.lean ====
section
/-! DEFINITION. System instructions (R36, R110, R112, R168 to R173). -/

namespace Sys2Proof.Machine

/-- Eight view entries of a map, from entry `n` on, as bytes (R112). -/
def mapWord (m : Tab Nat) (n : Nat) : Word :=
  BitVec.ofNat 64 ((List.range 8).foldl (fun v j => v + ((tget? m (n + j)).getD 0xFF) % 256 * 2 ^ (8 * j)) 0)

/-- The clusters that wait for their wake, as a mask. -/
def wakingMask (c : Ctx) : Nat := (c.waking ++ c.heldWaking).foldl (fun v p => v ||| 2 ^ p.1) 0

/-- `IDENT` (R112). -/
def identWord (w : Nat) : Word := BitVec.ofNat 64 (nodeOf w % 512 + 2 ^ 9 * resNoOf w + 2 ^ 11 * strandOf w)

/-- `WCNT` (R112). -/
def wcntWord (c : Ctx) : Word := BitVec.ofNat 64 (c.nLoads + 2 ^ 6 * c.nStores + 2 ^ 12 * c.nCopies + 2 ^ 18 * c.nTiles)

/-- Reference cycles since the context's launch began (R112). -/
def cycleWord (s : State) (w : Nat) : Word :=
  BitVec.ofNat 64 (s.cycle - match s.launch? (launchOf s w) with | some l => l.start | none => 0)

/-- A control and status register's value (R112); none for a number that the table does not have. -/
def csrValue (s : State) (num : Nat) : Option Word :=
  let c := s.cctx
  let r := s.regs
  let x := s.cres
  match num with
  | 0x000 => some c.status
  | 0x001 => some c.cause
  | 0x002 => some c.epc
  | 0x003 => some c.eupc
  | 0x004 => some c.tvec
  | 0x005 => some (r.rrbV.setWidth 64)
  | 0x006 => some (r.rrbP.setWidth 64)
  | 0x008 => some x.alloc
  | 0x009 => some (BitVec.ofNat 64 x.spillb)
  | 0x00A => some (BitVec.ofNat 64 (r.wb % 2 ^ 11 + 2 ^ 11 * r.fs + 2 ^ 17 * r.links.length))
  | 0x00B => some (BitVec.ofNat 64 (c.awake.toNat + 2 ^ 8 * wakingMask c))
  | 0x00C => some (BitVec.ofNat 64 r.loops.length)
  | 0x00D => some (match r.loops with | [] => 0 | e :: _ => BitVec.ofNat 64 e.count)
  | 0x010 => some (wcntWord c)
  | 0x011 => some (BitVec.ofNat 64 c.cursor)
  | 0x012 => some (identWord s.w)
  | 0x014 => some (mapWord x.semMap 0)
  | 0x015 => some (mapWord x.semMap 8)
  | 0x016 => some (mapWord x.semMap 16)
  | 0x017 => some (mapWord x.semMap 24)
  | 0x018 => some (mapWord x.mtxMap 0)
  | 0x020 => some (cycleWord s s.w)
  | 0x021 => some (BitVec.ofNat 64 (c.slots + 1))
  | _ => none

/-- Whether `CSRW` may write a register (R112). -/
def csrWritable (num : Nat) : Bool := num = 0 || num = 2 || num = 3 || num = 5 || num = 6

/-- `CSRR` (R112, R168). -/
def execCsrr (q : Bool) (d : BitVec 6) (n : BitVec 12) (s : State) : Done :=
  .next (settle s q (match csrValue s n.toNat with | some v => .ok 1 (toS s.regs d v) | none => .trap trapILL))

/-- `CSRW` (R112, R113, R168): it lands like any result of latency 1. -/
def execCsrw (q : Bool) (d : BitVec 6) (n : BitVec 12) (s : State) : Done :=
  .next (settle s q (if csrWritable n.toNat then .ok 1 [.csr n.toNat (s.s d)] else .trap trapILL))

/-- `HALT`'s effect (R169): the pending results land, and the strand issues no more. -/
def haltOp (s : State) : State :=
  if !s.cthr.stack.isEmpty || qfOf s.cur ≠ 0 then takeTrap s trapILL
  else
    let s := landAll (endSlot s (s.regs.pc + 4)) s.cur
    noteHalt (s.setCctx { s.cctx with run := .halted }) s.w

/-- `HALT` (R169). -/
def execHalt (q : Bool) (s : State) : Done := ctrlOp s q haltOp

/-- `EVPOP` (R15, R170). -/
def execEvpop (q : Bool) (d : BitVec 6) (s : State) : Done :=
  .next (
    if strandOf s.w ≠ 0 || d = 0 || d = 63 then settle s q (.trap trapILL)
    else
      match s.cres.evq with
      | [] => settle s q (.stall .evpop 0)
      | rec :: rest =>
        settle (s.setCres { s.cres with evq := rest }) q
          (.ok 1 (toS s.regs d (rec.setWidth 64) ++ toS s.regs (d + 1) (rec.extractLsb' 64 64))))

/-- `RPOP` (R15, R170). -/
def execRpop (q : Bool) (d : BitVec 6) (s : State) : Done :=
  .next (
    if strandOf s.w ≠ 0 then settle s q (.trap trapILL)
    else
      match s.cres.rpq with
      | [] => settle s q (.stall .rpop 0)
      | v :: rest => settle (s.setCres { s.cres with rpq := rest }) q (.ok 1 (toS s.regs d v)))

/-- Clusters that `VRFON` may act on (R39, R110). -/
def clusterLimit (s : State) : Nat := allocVREG s.cres.alloc / 8

/-- A cluster gated: its contents are lost (R110). -/
def gateCluster (s : State) (w k : Nat) : State :=
  let c := s.ctx w
  let x := s.thr (mainOf w)
  let s := s.setCtx w
    { c with awake := c.awake &&& ~~~(BitVec.ofNat 8 (2 ^ k)), waking := c.waking.filter fun p => p.1 ≠ k,
             heldWaking := c.heldWaking.filter fun p => p.1 ≠ k }
  s.setThr (mainOf w) (x.setBase (clearCluster x.base k))

/-- A cluster asked to wake (R110): an awake or waking one stays as it is. -/
def wakeAsk (s : State) (w k : Nat) : State :=
  let c := s.ctx w
  if c.awake.getLsbD k || (c.waking ++ c.heldWaking).any fun p => p.1 = k then s
  else s.setCtx w { c with waking := c.waking ++ [(k, 24)] }

/-- `VRFON`'s effect on the clusters (R110). -/
def vrfonOp (s : State) (n : Nat) : State :=
  (List.range (clusterLimit s)).foldl (fun s k => if k < n then wakeAsk s s.w k else gateCluster s s.w k) s

/-- `VRFON` (R110, R171). -/
def execVrfon (q : Bool) (n : BitVec 4) (s : State) : Done :=
  .next (
    if 8 < n.toNat || noVectors s then settle s q (.trap trapILL)
    else settle (if squashed s q then s else vrfonOp s n.toNat) q (.ok 1 []))

/-- The schedule-table entry at a context's cursor (R34, R36). -/
def tableEntry (s : State) : Option Nat :=
  match s.cres.table with
  | none => none
  | some a => if s.cctx.cursor < rdNat s.mem (lpddr a.toNat) 4 then some (rdNat s.mem (lpddr (a.toNat + 16 + 8 * s.cctx.cursor)) 8) else none

/-- `TNEXT` (R36, R172): only stage residents have a schedule table. -/
def execTnext (q : Bool) (d a : BitVec 6) (p : BitVec 4) (s : State) : Done :=
  .next (
    if isTileRes s.w || !isCore (nodeOf s.w) then settle s q (.trap trapILL)
    else
      match pslot s p with
      | .error t => settle s q (.trap t)
      | .ok k =>
        match tableEntry s with
        | some e =>
          settle (s.setCctx { s.cctx with cursor := s.cctx.cursor + 1 }) q
            (.ok 1 (toS s.regs d (BitVec.ofNat 64 (fld e 0 40)) ++ toS s.regs a (BitVec.ofNat 64 (fld e 40 24)) ++ toP k 0))
        | none => settle s q (.ok 1 (toS s.regs d 0 ++ toS s.regs a 0 ++ toP k ones)))

/-- `NOP` (R173). -/
def execNop (q : Bool) (s : State) : Done := .next (settle s q (.ok 1 []))

end Sys2Proof.Machine
end

