-- ==== Sys2Proof/Machine/Debug.lean ====
section
/-! DEFINITION. Stops and dumps, samples and trace buffers (R426, R430 to R434). -/

namespace Sys2Proof.Machine

/-- The live launch whose partition holds a core. -/
def holderOf (s : State) (core : Nat) : Option (Nat × Launch) :=
  match quadHolder s (quadOf core) with
  | some l => (s.launch? l).map fun x => (l, x)
  | none => none

/-- STOPREQ (R430): the partition of the core halts as for a pre-emption; the step CONTEXT_SWAP_OUT ends the halt. -/
def execStopreq (core : Nat) (s : State) : Done :=
  .next (
    match holderOf s core with
    | some (l, x) => if x.st = .running then s.setLaunch l { x with st := .halting, haltAt := s.cycle, dbg := true } else s
    | none => s)

/-- RESUME (R430): a stopped partition resumes as after a pre-emption; one that is still halting for a stop goes on. -/
def execResume (core : Nat) (s : State) : Done :=
  .next (
    match holderOf s core with
    | some (l, x) =>
      if x.st = .stopped then resumeLaunch s l x
      else if x.st = .halting && x.dbg then goOn (moveWaits s (launchCtxs s l x) fun since => x.haltAt - since) l x
      else s
    | none => s)

/-- ARM (R433): tracing into the buffer begins at its first byte; its pages are pinned while ARM is 1 (R234). -/
def execArm (core : Nat) (s : State) : Done :=
  let k := s.core core
  .next (if k.armed then s else s.setCore core { k with armed := true, twptr := 0, trunc := false, full := false })

/-- TFIFO_POP (R426): the oldest unit of the trace FIFO, or what is left of it, is read out. -/
def execTfifoPop (core : Nat) (s : State) : Done :=
  let k := s.core core
  let k' := (tfifoRead k).2
  .next (s.setCore core (if k'.tfifoHalf then (tfifoRead k').2 else k'))

/-- The 144 bytes of a sample as nine units (R431). -/
def sampleUnits (s : State) (core start : Nat) : List (BitVec 128) :=
  let per (i : Nat) : List Byte :=
    let w := 16 * core + i
    leBytes 4 (s.thr (mainOf w)).regs.pc.toNat ++ leBytes 4 (dStat s w).toNat
  let bs := leBytes 8 (s.cycle - start) ++ (List.range 16).flatMap per ++ leBytes 8 0
  (List.range 9).map fun i => BitVec.ofNat 128 (natAt bs (16 * i) 16)

/-- TRACE_SAMPLE (R431): a sample is queued while its partition runs. -/
def execTraceSample (core : Nat) (s : State) : Done :=
  .next (
    match holderOf s core with
    | some (_, x) =>
      if x.st = .running && (s.core core).sampEn then s.setCore core (tracePush (s.core core) false (sampleUnits s core x.start)) else s
    | none => s)

/-- The memory numbers of `n` bytes of a core's trace buffer, when every one of them may be written. -/
def bufferPlaces (s : State) (core va n : Nat) : Option (List Nat) :=
  match traceAsid s core with
  | none => none
  | some asid => (List.range n).mapM fun i => match walk s asid (va + i) with | some x => if x.wr then some (x.place (va + i)) else none | none => none

/-- TRACE_BUFFER_WRITE (R433): the oldest record leaves the FIFO, whole into the buffer, or dropped and counted when the buffer cannot take it. -/
def execTraceBufferWrite (core : Nat) (s : State) : Done :=
  let k := s.core core
  .next (
    match k.tfifo with
    | [] => s
    | (wait, rec) :: rest =>
      if !k.armed || k.tfifoHalf then s
      else
        let n := 16 * rec.length
        let k := { k with tfifo := rest }
        match if k.twptr + n ≤ k.tsize.toNat then bufferPlaces s core (k.tbase.toNat / 4096 * 4096 + k.twptr) n else none with
        | none => s.setCore core (traceDrop { k with full := true } wait)
        | some ps =>
          let bs := rec.flatMap fun u => leBytes 16 u.toNat
          { s.setCore core { k with twptr := k.twptr + n } with mem := (ps.zip bs).foldl (fun m p => wrByte m p.1 p.2) s.mem })

end Sys2Proof.Machine
end

