-- ==== Sys2Proof/Machine/Faults.lean ====
section
/-! DEFINITION. Traps of engine entries and queue frames as their context takes them (R402), launch-fatal faults from outside the streams (R403),
and soft errors, uncorrectable errors and quarantine (R405, R406, R422, R425). -/

namespace Sys2Proof.Machine

/-! ## Traps of engine entries and queue frames (R402) -/

/-- The pending trap of lowest FIFO code. -/
def firstTrap (ts : List EngTrap) : Option EngTrap :=
  ts.foldl (fun m t => match m with | none => some t | some x => if t.fifo < x.fifo then some t else some x) none

/-- Whether a context may take an engine's trap where it stands (R402): not in handler mode, not with a trap or a result of its own in hand, not
inside an inline routine, and inside a blocking one at a commit point or stalled. -/
def mayTakeTrap (s : State) (w : Nat) : Bool :=
  let c := s.ctx w
  let x := s.thr (mainOf w)
  !c.handler && x.landTrap.isNone && !x.granted
    && (match x.stack.getLast? with
        | none => true
        | some f => f.kind ≠ 0 && (x.wait.isSome || (x.stack.length = 1 && f.step = 0)))

/-- The routine number that a pending trap's fault reports: its queue frame's, or its entry's. -/
def trapNum (s : State) (w : Nat) (t : EngTrap) : Nat :=
  match (s.thr (mainOf w + 1 + t.fifo)).stack.getLast? with
  | some f => f.num
  | none => match (s.res (resKeyOf w)).head t.fifo with | some j => j.num | none => 0x3FFF

/-- An engine's trap taken by its context: the stream is held whole, with its halt where it had halted. -/
def takeEngineTrap (s : State) (w : Nat) (t : EngTrap) : State :=
  let tr : Trap := { cls := t.cls, detail := t.detail, arg := t.arg, core := t.core }
  if (s.ctx w).tvec = 0 then
    let c := s.ctx w
    fatalAt (s.setCtx w { c with traps := c.traps.filter fun y => y.fifo ≠ t.fifo }) w (trapNum s w t) (clsNoHandler + 256 * t.cls) t.upc t.addr
  else
    let s := if (s.thr (mainOf w)).wait.isSome then cancelWait (noteWait s (mainOf w) (engineAgent (resKeyOf w) t.fifo)) (mainOf w) else s
    let x := s.thr (mainOf w)
    let c := s.ctx w
    let s := enterHandler s w (causeWord tr (t.upc ≠ 0) true t.fifo) t.site t.upc x.base.pend (some { x with wait := none }) x.base
    let c' := s.ctx w
    s.setCtx w { c' with traps := c.traps.filter (fun y => y.fifo ≠ t.fifo), frameTrap := some t.fifo, run := .running, heldHalt := c.run = .halted }

/-- QUEUE_FRAME_TRAP (R402): the context takes the pending trap of lowest FIFO code. -/
def execQueueFrameTrap (w : Nat) (s : State) : Done :=
  .next (
    match firstTrap (s.ctx w).traps with
    | none => s
    | some t => if launchRuns s w && mayTakeTrap s w then takeEngineTrap s w t else s)

/-! ## Launch-fatal faults (R403, R404) -/

/-- LAUNCH_FATAL_FAULT (R403): a fault of a class of R399 that an agent of a context raises outside an instruction's own step ends its launch. -/
def execLaunchFatalFault (w cls : Nat) (addr : Word) (s : State) : Done :=
  .next (
    match s.launch? (launchOf s w) with
    | none => s
    | some l =>
      if (l.st = .running || l.st = .halting) && clsUnmapped ≤ cls && cls ≤ clsNoHandler then
        let x := s.thr (mainOf w)
        fatalLaunch s (launchOf s w) (nodeOf w) (faultNum x 0x3FFF) cls (upcOf x).toNat addr
      else s)

/-! ## Quarantine (R405, R406) -/

/-- A number put into a list once. -/
def addOnce (x : Nat) (xs : List Nat) : List Nat := if xs.contains x then xs else sortNats (x :: xs)

/-- A failed link port (R422): every pod launch that uses it ends with UNCORR. -/
def failPort (s : State) (port : Nat) : State :=
  let hit := s.launches.filter fun l => (l.2.live || l.2.st = .saved) && l.2.podmask ≠ 0 && Config.portUsed port l.2.podmask
  hit.foldl (fun s l => fatalLaunch s l.1 (pkgNode l.1) 0x3FFF clsUncorr 0 0) { s with ports := tset s.ports port 1 }

/-- A resource with a lasting fault taken out (R406): of a stack the pages are asked to move, a port carries no traffic. -/
def quarantineRes (s : State) (r : Resource) : State :=
  match r with
  | .core k _ => { s with quarantine := addOnce k s.quarantine }
  | .quad q _ => { s with quadQuar := addOnce q s.quadQuar }
  | .stack n => { s with stackQuar := addOnce n s.stackQuar, agenda := s.agenda ++ stackMoves s [n] }
  | .port n => failPort { s with portQuar := addOnce n s.portQuar } n

/-- The corrections within which a lasting fault counts, and their span in milliseconds (R405). -/
def corrLimit : Nat := 16
def corrSpan : Nat := 10000

/-- SOFT_ERROR_CORRECTION (R405): the correction at a time is kept with those of the span before it; the sixteenth is a lasting fault. -/
def execSoftErrorCorrection (r : Resource) (ms : Nat) (s : State) : Done :=
  let cs := (s.corrections.filter fun c => c.1 ≠ r || ms ≤ c.2 + corrSpan) ++ [(r, ms)]
  let s := { s with corrections := cs }
  .next (if corrLimit ≤ (cs.filter fun c => c.1 = r).length then quarantineRes s r else s)

/-- The node that an uncorrectable error of a resource is reported at: its core where that holds the launch, else the package. -/
def errorNode (s : State) (r : Resource) (l : Nat) : Nat :=
  match r with
  | .core k _ => match s.launch? l with | some x => if x.quads.contains (quadOf k) then k else pkgNode l | none => pkgNode l
  | _ => pkgNode l

/-- UNCORRECTABLE_ERROR (R231, R405): the resource is marked at once, the launches whose access met it end with UNCORR, and a move whose copy
met it, by address space and virtual base, is given up. -/
def execUncorrectableError (r : Resource) (hits : List ErrorHit) (addr : Word) (s : State) : Done :=
  let s := quarantineRes s r
  let s := (s.moves.filter fun m => hits.contains (.move m.asid m.va)).foldl cancelMove s
  .next ((hits.filterMap fun h => match h with | .launch l => some l | .move _ _ => none).foldl (fun s l =>
    match s.launch? l with
    | none => s
    | some x => if x.live || x.st = .saved then fatalLaunch s l (errorNode s r l) 0x3FFF clsUncorr 0 addr else s) s)

/-- LINK_PORT_FAILURE (R422). -/
def execLinkPortFailure (port : Nat) (s : State) : Done := .next (failPort s port)

/-- The cores of a quarantine register's set bits: core 64k + j for bit j of register k (R414). -/
def qclrCores (k : Nat) (v : Word) : List Nat := ((List.range 64).filter fun j => v.getLsbD j).map fun j => 64 * k + j

/-- QUARANTINE_CLEAR (R414, R425): the physical function lifts the quarantine of the cores named; a quad comes back with any of its cores. -/
def execQuarantineClear (fn k : Nat) (v : Word) (s : State) : Done :=
  let cs := qclrCores k v
  .next (
    if fn ≠ 0 || 8 ≤ k then s
    else
      let hit (r : Resource) : Bool := match r with | .core c _ => cs.contains c | .quad q _ => cs.any fun c => quadOf c = q | _ => false
      { s with quarantine := s.quarantine.filter (fun c => !cs.contains c), quadQuar := s.quadQuar.filter (fun q => !cs.any fun c => quadOf c = q),
               corrections := s.corrections.filter fun c => !hit c.1 })

end Sys2Proof.Machine
end

