-- ==== Sys2Proof/Machine/Firmware.lean ====
section
/-! DEFINITION. The four instructions of the firmware cores (R419) and the acceptance of a launch (R26, R27, R30, R412, R415, R416, R435). -/

namespace Sys2Proof.Machine

/-! ## The firmware core (log entry 4) -/

/-- A firmware register; x0 reads zero. -/
def fwReg (s : State) (r : BitVec 5) : Word := if r = 0 then 0 else tget 0 s.fw.x r.toNat

/-- An instruction that ends with a result in a register and control at an address; x0 discards the result. -/
def fwGoto (s : State) (d : BitVec 5) (v pc : Word) : State :=
  { s with fw := { s.fw with pc := pc, waiting := false, minstret := s.fw.minstret + 1, x := if d = 0 then s.fw.x else tset s.fw.x d.toNat v } }

/-- The same at the next instruction. -/
def fwNext (s : State) (d : BitVec 5) (v : Word) : State := fwGoto s d v (s.fw.pc + 4)

/-- A field of a control register written. -/
def withField (x : Word) (lo w : Nat) (v : Nat) : Word :=
  (x &&& ~~~(BitVec.ofNat 64 (2 ^ w - 1) <<< lo)) ||| (BitVec.ofNat 64 (v % 2 ^ w) <<< lo)

/-- Where a trap goes: an interrupt to its own vector where the register asks for vectors. -/
def fwVector (tvec : Word) (irq : Bool) (cause : Nat) : Word :=
  (tvec &&& ~~~3) + if irq && tvec.getLsbD 0 then BitVec.ofNat 64 (4 * cause) else 0

/-- A trap or an interrupt taken into machine mode, or into supervisor mode where `toS` says so (log entry 4). -/
def fwEnter (s : State) (toS irq : Bool) (cause : Nat) (tval : Word) : State :=
  let f := s.fw
  let code := BitVec.ofNat 64 (cause + if irq then 2 ^ 63 else 0)
  { s with fw :=
      if toS then
        { f with scause := code, sepc := f.pc, stval := tval, pc := fwVector f.stvec irq cause, mode := 1, waiting := false,
                 mstatus := withField (withField (withField f.mstatus 5 1 (fld f.mstatus.toNat 1 1)) 1 1 0) 8 1 f.mode.toNat }
      else
        { f with mcause := code, mepc := f.pc, mtval := tval, pc := fwVector f.mtvec irq cause, mode := 3, waiting := false,
                 mstatus := withField (withField (withField f.mstatus 7 1 (fld f.mstatus.toNat 3 1)) 3 1 0) 11 2 f.mode.toNat } }

/-- A synchronous trap: below machine mode, into supervisor mode where it is delegated. -/
def fwTrap (s : State) (cause : Nat) (tval : Word := 0) : State :=
  fwEnter s (s.fw.mode ≠ 3 && s.fw.medeleg.getLsbD cause) false cause tval

/-- A firmware instruction in machine mode; in another it is illegal (R419). -/
def fwOp (s : State) (f : State → State) : Done := .next (if s.fw.mode = 3 then f s else fwTrap s 2)

/-! ## Rings (R414, R415) -/

/-- A ring of a function. -/
def ringOf (s : State) (fn ring : Nat) : Ring := tget ⟨0, 0, 0, 0⟩ (s.func fn).rings ring

/-- Whether a ring is configured: its size is a power of two from 2 to 65,536. -/
def Ring.configured (r : Ring) : Bool := [1, 2, 3, 4, 5, 6, 7, 8, 9, 10, 11, 12, 13, 14, 15, 16].any fun k => r.size.toNat = 2 ^ k

/-- The bus address of a ring's entry. -/
def Ring.entryAt (r : Ring) (i : Nat) : Word := (r.base &&& ~~~(127 : Word)) + BitVec.ofNat 64 (128 * i)

/-- Bytes at a bus address. -/
def busRead (s : State) (a : Word) (n : Nat) : List Byte := (List.range n).map fun i => rdByte s.mem (Config.hostBus (a + BitVec.ofNat 64 i))

/-- `RINGF`'s effect. -/
def ringfOp (s : State) (d : BitVec 5) (v at' : Word) : State :=
  let ring := fld v.toNat 0 4
  let fn := fld v.toNat 4 7
  let r := ringOf s fn ring
  if 2 ^ 11 ≤ v.toNat || 64 < fn || !r.configured then fwTrap s 24
  else if at'.toNat % 128 ≠ 0 then fwTrap s 26
  else if r.head = r.tail.toNat then fwNext s d 0
  else if Config.busError (r.entryAt r.head) then fwTrap s 25
  else
    let f := s.func fn
    let bs := busRead s (r.entryAt r.head) 128
    let s := s.setFunc fn { f with rings := tset f.rings ring { r with head := (r.head + 1) % r.size.toNat } }
    fwNext { s with fw := { s.fw with mem := wrBytes s.fw.mem at'.toNat bs, fetched := tset s.fw.fetched at'.toNat (16 * fn + ring) } } d 1

/-- `RINGF` (R419). -/
def execRingf (d a b : BitVec 5) (s : State) : Done := fwOp s fun s => ringfOp s d (fwReg s a) (fwReg s b)

/-- `FBFX` (R419). -/
def execFbfx (d a b : BitVec 5) (s : State) : Done :=
  fwOp s fun s =>
    let v := fwReg s b
    let p := fld v.toNat 0 6
    let w := fld v.toNat 6 6 + 1
    if 64 < p + w || 2 ^ 12 ≤ v.toNat then fwTrap s 27 else fwNext s d (BitVec.ofNat 64 (fld (fwReg s a).toNat p w))

/-- `SIGW` (R418, R419): it waits until a masked bit is set, and then drains the latch in one step. -/
def execSigw (d a : BitVec 5) (s : State) : Done :=
  fwOp s fun s =>
    let m := fwReg s a
    if m = 0 then fwTrap s 28
    else
      let got := s.notify.bitmap &&& m
      if got = 0 then { s with fw := { s.fw with waiting := true } }
      else fwNext { s with notify := ⟨s.notify.bitmap &&& ~~~m, 0⟩ } d got

/-! ## Acceptance (R30) -/

/-- Check 1: the fields of the command entry, and the command block of a single tile instruction. -/
def entryCheck (s : State) (e : Nat) : Except Nat Unit := do
  check lsBADHDR (fld e 82 14 = 0 && fld e 896 128 = 0 && fld e 68 8 ≠ 0)
  if bitOf e 64 then
    let a := fld e 256 64
    let t := natAt ((devRead s (fld e 96 16) a 128).getD []) 0 128
    let level := fld t 8 3
    check lsBADHDR (a % 128 = 0 && 0xA0 ≤ fld t 0 8 && fld t 0 8 ≤ 0xA5 && level = if fld e 768 64 = 0 then 5 else 6)

/-- The stream starts of the command (R416): four for each stage, and the level stream's. -/
def streamsOf (s : State) (asid a stages : Nat) : Option (List (List Word) × Word) :=
  match if a % 8 = 0 then devRead s asid a (8 * (4 * stages + 1)) else none with
  | none => none
  | some bs =>
    let v (i : Nat) : Nat := natAt bs (8 * i) 8
    let ok := (List.range (4 * stages + 1)).all (fun i => v i % 4 = 0) && (List.range stages).all fun i => v (4 * i) ≠ 0
    if ok then some ((List.range stages).map fun i => [v (4 * i), v (4 * i + 1), v (4 * i + 2), v (4 * i + 3)].map (BitVec.ofNat 64), BitVec.ofNat 64 (v (4 * stages)))
    else none

/-- A result, or a refusal where there is none. -/
def need {α : Type} (st : Nat) (x : Option α) : Except Nat α := match x with | some v => .ok v | none => .error st

/-- Check 2: the image as it stands at its device address, whole (R435). -/
def imageCheck (s : State) (asid : Nat) (a : Nat) (id : Nat) : Except Nat (List Sec × List Routine) := do
  let hb ← need lsBADIMG (devRead s asid a 128)
  let h := natAt hb 0 128
  check lsBADIMG (imageHeaderOk h)
  let img ← need lsBADIMG (devRead s asid a (fld h 160 32))
  check lsBADIMG (fld (natAt img 0 128) 192 384 = (sha384 (img.drop 128)).toNat)
  let ss ← need lsBADIMG (sectionsOf img (fld h 144 16))
  let base := BitVec.ofNat 64 a
  check lsBADIMG (relocsWhole (secBytes ss 0x0A) && (relocsOf ss).all (Reloc.ok base id ss))
  let rs ← need lsBADIMG (routinesOf s base id ss)
  .ok (ss, rs)

/-- The initial counts of the tokens, in token order (R415 SYNC, R440): a mutex has none. -/
def countsFrom (bs : List Byte) (ts : List Token) : List Token :=
  (ts.zip (List.range ts.length)).map fun (t, i) => { t with count := if t.mutex then 0 else natAt bs (2 * i) 2 }

/-- Checks 5: the tokens of one stage fit one core. -/
def tokensFit (ts : List Token) (stages : Nat) : Bool :=
  (List.range stages).all fun i => (viewsOf ts i false).length ≤ 32 && (viewsOf ts i true).length ≤ 8

/-- A command entry checked (R30): the launch as it is accepted, with the image's sections, or the status of the first check that fails. -/
def checkEntry (s : State) (fn ring : Nat) (graph : Option Nat) (e : Nat) (id : Nat) : Except Nat (Launch × List Sec) := do
  let asid := fld e 96 16
  let single := bitOf e 64
  entryCheck s e
  check lsBADIMG (asid / 256 = fn)
  let (ss, rs) ← imageCheck s asid (fld e 0 64) id
  let base := BitVec.ofNat 64 (fld e 0 64)
  let templates ← need lsBADIMG (templatesFrom (secBytes ss 6).length (secBytes ss 6))
  let stages ← need lsBADIMG (stagesOf base id ss templates.length)
  check lsBADIMG (single || (1 ≤ stages.length && stages.length ≤ 16))
  let tokens ← need lsBADIMG (tokensOf ss stages.length)
  check lsBADIMG (queuesWhole (secBytes ss 5))
  let (starts, lvl) ← if single then .ok ([], 0) else need lsBADIMG (streamsOf s asid (fld e 192 64) stages.length)
  check lsBADHDR ((stageEntries ss).all stageHeaderOk)
  let queues ← need lsQDEPTH (queuesFrom ss stages.length)
  check lsBADSEM (tokensFit tokens stages.length)
  let counts ← if single || tokens.isEmpty then .ok [] else need lsBADSEM (devRead s asid (fld e 128 64) (2 * tokens.length))
  let nq := fld e 68 8
  check lsNOQUAD (nq ≤ ((List.range 128).filter fun q => !quadOut s q).length)
  let stages := (stages.zip starts).map fun (st, x) => { st with starts := x }
  .ok ({ st := .waiting, fn, ring, tag := BitVec.ofNat 16 (fld e 112 16), cls := fld e 65 2, single, counter := bitOf e 67, nquads := nq,
         root := fld e 76 6, asid, args := (List.range 8).map fun i => BitVec.ofNat 64 (fld e (256 + 64 * i) 64),
         podmask := BitVec.ofNat 64 (fld e 768 64), cpl := BitVec.ofNat 64 (fld e 832 64), quads := [], usable := [], placed := [],
         stages, tokens := if single then [] else countsFrom counts tokens, queues := if single then [] else queues, templates, routines := rs, lvl, start := 0, haltAt := 0, dbg := false,
         podArr := [], graph, record := none }, ss)

/-- The launch as a refusal's completion record needs it. -/
def refusedLaunch (fn ring : Nat) (graph : Option Nat) (e : Nat) : Launch :=
  { st := .waiting, fn, ring, tag := BitVec.ofNat 16 (fld e 112 16), cls := 0, single := false, counter := false, nquads := 0, root := 0,
    asid := fld e 96 16, args := [], podmask := 0, cpl := BitVec.ofNat 64 (fld e 832 64), quads := [], usable := [], placed := [], stages := [],
    tokens := [], queues := [], templates := [], routines := [], lvl := 0, start := 0, haltAt := 0, dbg := false, podArr := [], graph, record := none }

/-- The sections of an accepted image loaded, all but the symbols and the debug section (R437). -/
def loadSections (s : State) (image : Word) (id asid : Nat) (ss : List Sec) : State :=
  (ss.filter fun x => x.type ≠ 9 && x.type ≠ 0x0B).foldl (fun s x => devWrite asid (placeSec image id x) (loadedBytes image id ss x) s) s

/-- A refused launch's completion record, and the next node of a graph that started it. -/
def refuse (s : State) (l : Launch) (st : Nat) : State :=
  let s := postCompletion s l st 0 0
  match l.graph with
  | some g => { s with agenda := s.agenda ++ [.event (.graphNodeComplete g)] }
  | none => s

/-- A command entry taken (R30, R33, R44): refused, or accepted and, when its turn has come, placed to start; else it waits, and the partitions
that must make way for it are pre-empted. -/
def takeEntry (s : State) (fn ring : Nat) (graph : Option Nat) (e : Nat) : State × Nat :=
  let id := s.nextLaunch
  match checkEntry s fn ring graph e id with
  | .error st => (refuse s (refusedLaunch fn ring graph e) st, st)
  | .ok (l, ss) =>
    let s := loadSections s (BitVec.ofNat 64 (fld e 0 64)) id l.asid ss
    let s := { s.setLaunch id l with nextLaunch := id + 1 }
    if (nextWaiting s).map (·.1) = some id then
      match serve s id l with
      | .placed s => ({ s with agenda := s.agenda ++ [.event (.launchStart id)] }, lsOK)
      | .noPlace => (endLaunch s id lsNOPLACE 0 0, lsNOPLACE)
      | .wait => ({ s with agenda := s.agenda ++ (victims s l).map fun v => .event (.preemption v) }, lsOK)
    else (s, lsOK)

/-- `DISP` (R419). -/
def execDisp (d a : BitVec 5) (s : State) : Done :=
  fwOp s fun s =>
    let at' := (fwReg s a).toNat
    if at' % 128 ≠ 0 then fwTrap s 29
    else
      let src := tget 0 s.fw.fetched at'
      let (s, st) := takeEntry s (src / 16) (src % 16) none (rdNat s.fw.mem at' 128)
      fwNext s d (BitVec.ofNat 64 st)

end Sys2Proof.Machine
end

