-- ==== Sys2Proof/Machine/Float.lean ====
section
/-! DEFINITION. Itver scalar floating point (R135 to R140) and exact accumulators (R141 to R143). -/

namespace Sys2Proof.Machine

/-- A scalar's FP32 bits (R126). -/
def State.f (s : State) (n : BitVec 6) : W32 := (s.s n).setWidth 32

/-- An FP32 result in a scalar register (R126) with the bits it raises. -/
def fpOp (s : State) (q : Bool) (lat : Nat) (d : BitVec 6) (r : W32 × Word) : Done :=
  .next (settle s q (raising s lat r.2 (toS s.regs d (r.1.setWidth 64))))

/-- `FADD` (R136). -/
def execFadd (q : Bool) (d a b : BitVec 6) (r : Rnd) (s : State) : Done := fpOp s q 3 d (f32Add r (s.f a) (s.f b))

/-- `FMUL` (R136). -/
def execFmul (q : Bool) (d a b : BitVec 6) (r : Rnd) (s : State) : Done := fpOp s q 3 d (f32Mul r (s.f a) (s.f b))

/-- `FMIN` (R137). -/
def execFmin (q : Bool) (d a b : BitVec 6) (s : State) : Done := fpOp s q 3 d (f32Min (s.f a) (s.f b))

/-- `FMAX` (R137). -/
def execFmax (q : Bool) (d a b : BitVec 6) (s : State) : Done := fpOp s q 3 d (f32Max (s.f a) (s.f b))

/-- `FCMP` (R138). -/
def execFcmp (q : Bool) (d : BitVec 4) (a b : BitVec 6) (c : FCond) (s : State) : Done :=
  let (m, bits) := f32Cmp c (s.f a) (s.f b)
  .next (settle s q (orTrap do .ok (raising s 2 bits (toP (← pslot s d) (boolMask m)))))

/-- `FFMA` (R139). -/
def execFfma (q : Bool) (d a b : BitVec 6) (r : Rnd) (s : State) : Done := fpOp s q 4 d (f32Fma r (s.f a) (s.f b) (s.f d))

/-- `FCVT` (R140). -/
def execFcvt (q : Bool) (d a : BitVec 6) (r : Rnd) (k e : FKind) (s : State) : Done :=
  let (v, bits) := fcvtWord r k e (s.s a)
  .next (settle s q (raising s 2 bits (toS s.regs d v)))

/-! ## Exact accumulators -/

/-- An accumulator with value 0 and no flag (R141). -/
def XAcc.zero : XAcc := ⟨0, false, false, false⟩

/-- Setting both infinity flags also sets the NaN flag (R141). -/
def XAcc.norm (x : XAcc) : XAcc := { x with nan := x.nan || (x.pinf && x.ninf) }

/-- A value added to V: outside [-2^319, 2^319) it leaves V, sets the infinity flag of its sign and raises `OF` (R141). -/
def XAcc.plus (x : XAcc) (k : Int) : XAcc × Word :=
  let v := x.v.toInt + k
  if v < -(2 ^ 639) then ({ x with ninf := true }.norm, bOF)
  else if 2 ^ 639 ≤ v then ({ x with pinf := true }.norm, bOF)
  else ({ x with v := BitVec.ofInt 640 v }, 0)

/-- `XMAC`'s update (R142). -/
def XAcc.mac (x : XAcc) (a b : W32) : XAcc × Word :=
  let (p, bits) := mulNum (f32 a) (f32 b)
  match p with
  | .nan .. => ({ x with nan := true }, bits)
  | .inf neg => (if neg then { x with ninf := true }.norm else { x with pinf := true }.norm, 0)
  | .fin neg m e => x.plus (scaled neg m e (-320))

/-- `XADD`'s update (R142). -/
def XAcc.add (x y : XAcc) : XAcc × Word :=
  let (z, bits) := x.plus y.v.toInt
  ({ z with nan := z.nan || y.nan, pinf := z.pinf || y.pinf, ninf := z.ninf || y.ninf }.norm, bits)

/-- `XRND`'s value and bits (R142). -/
def XAcc.rnd (x : XAcc) (mode : Rnd) : W32 × Word :=
  if x.nan then (0x7FC00000, 0)
  else if x.pinf then (0x7F800000, 0)
  else if x.ninf then (0xFF800000, 0)
  else if x.v = 0 then (0, 0)
  else
    let v := x.v.toInt
    toF32 mode (.fin (decide (v < 0)) v.natAbs (-320), 0)

/-- An accumulator as every update issued so far leaves it (R141, R143). -/
def xIssued (s : State) (n : BitVec 2) : XAcc := tget XAcc.zero s.regs.xi n.toNat

/-- An accumulator as a read sees it: the updates that have landed (R143). -/
def xSeen (s : State) (n : BitVec 2) : XAcc := tget XAcc.zero s.regs.x n.toNat

/-- An update issued: the issued value changes at once, and reads see it `lat` slots later; an enabled condition traps and changes nothing. -/
def xOp (s : State) (q : Bool) (lat : Nat) (d : BitVec 2) (r : XAcc × Word) : Done :=
  match enabledBit s.cctx.status r.2 with
  | some b => .next (settle s q (.trap (trapARITH b)))
  | none =>
    let s' := if squashed s q then s else s.setRegs { s.regs with xi := tset s.regs.xi d.toNat r.1 }
    .next (settle s' q (.ok lat ([.xacc d.toNat r.1] ++ toSticky r.2)))

/-- `XCLR` (R142). -/
def execXclr (q : Bool) (d : BitVec 2) (s : State) : Done :=
  xOp (if squashed s q then s else s.setRegs { s.regs with xclr := s.regs.xclr ||| BitVec.ofNat 4 (2 ^ d.toNat) }) q 1 d (XAcc.zero, 0)

/-- `XMAC` (R142, R143). -/
def execXmac (q : Bool) (d : BitVec 2) (a b : BitVec 6) (s : State) : Done := xOp s q 2 d ((xIssued s d).mac (s.f a) (s.f b))

/-- `XADD` (R142, R143). -/
def execXadd (q : Bool) (d a : BitVec 2) (s : State) : Done := xOp s q 2 d ((xIssued s d).add (xSeen s a))

/-- `XRND` (R142, R143). -/
def execXrnd (q : Bool) (d : BitVec 6) (a : BitVec 2) (r : Rnd) (s : State) : Done := fpOp s q 3 d ((xSeen s a).rnd r)

end Sys2Proof.Machine
end

