-- ==== Sys2Proof/Machine/HostIf.lean ====
section
/-! DEFINITION. What the host and the links do to the device: boot, the notify aperture, the control region, resident graphs, attestation,
islands, window 9, and accesses that arrive from outside (R6, R87, R185, R229, R230, R408, R412 to R424). -/

namespace Sys2Proof.Machine

/-! ## Boot and the latch (R418, R424) -/

/-- BOOT (R424): an image whose signature verifies brings every register to its reset value and starts the firmware; one that fails is refused. -/
def execBoot (imageOk : Bool) (s : State) : Done := .next { State.reset with mem := s.mem, fresh := s.fresh, booted := imageOk }

/-- DOORBELL_WRITE (R418): an 8-byte write at offset 0 is latched, any other dropped. -/
def execDoorbellWrite (off size : Nat) (v : Word) (s : State) : Done :=
  .next (
    if off = 0 && size = 8 then
      { s with notify := ⟨s.notify.bitmap ||| v, BitVec.ofNat 32 (min (s.notify.count.toNat + 1) (2 ^ 32 - 1))⟩ }
    else s)

/-! ## Resident graphs (R420, R421) -/

/-- Graphs that the front end holds, and nodes of a graph (R420). -/
def graphMax : Nat := 64
def graphNodes : Nat := 256

/-- A graph's node entered: a LAUNCH node is taken at once, the end of the last node ends the run, and with PENDING set begins the one that is owed. -/
def enterNode (s : State) (n : Nat) : State :=
  match tget? s.graphs n with
  | none => s
  | some g =>
    match g.nodes[g.pos]? with
    | none =>
      if g.pending then
        { s with graphs := tset s.graphs n { g with pending := false, pos := 0, counts := [], again := true }, agenda := s.agenda ++ [.event (.graphRerun n)] }
      else { s with graphs := tset s.graphs n { g with running := false, pos := 0, counts := [] } }
    | some (.launch entry) => (takeEntry s g.owner 0 (some n) (leNat entry)).1
    | some _ => { s with later := s.later ++ [.event (.graphNodeComplete n)] }

/-- A graph's run begun. -/
def startGraph (s : State) (n : Nat) (g : Graph) : State :=
  enterNode { s with graphs := tset s.graphs n { g with running := true, pending := false, pos := 0, counts := [] } } n

/-- GRAPH_TRIGGER (R420, R421): bit 0 starts an idle graph or marks a running one; a function may trigger only its own. -/
def execGraphTrigger (fn n : Nat) (v : Word) (s : State) : Done :=
  .next (
    match tget? s.graphs n with
    | none => s
    | some g =>
      if !v.getLsbD 0 || !(fn = 0 || fn = g.owner) then s
      else if g.running then { s with graphs := tset s.graphs n { g with pending := true } }
      else startGraph s n g)

/-- GRAPH_RERUN (R421): the run that a trigger of the run before asked for reaches its first node. -/
def execGraphRerun (n : Nat) (s : State) : Done :=
  .next (
    match tget? s.graphs n with
    | none => s
    | some g => if g.again then enterNode { s with graphs := tset s.graphs n { g with again := false } } n else s)

/-- Whether a node of a resident graph keeps its limits (R420). -/
def nodeOk (len : Nat) : GraphNode → Bool
  | .launch entry => entry.length = 128
  | .loop count back => 1 ≤ count && count ≤ 65535 && back < len
  | .cond _ target => target ≤ len
  | _ => true

/-- GRAPH_LOAD (R420): an idle graph's place takes a graph within its limits. -/
def execGraphLoad (n : Nat) (owner : Nat) (nodes : List GraphNode) (s : State) : Done :=
  .next (
    let busy := match tget? s.graphs n with | some g => g.running | none => false
    if graphMax ≤ n || graphNodes < nodes.length || 64 < owner || busy || !(nodes.all (nodeOk nodes.length)) then s
    else { s with graphs := tset s.graphs n ⟨owner, nodes, false, false, 0, [], false⟩ })

/-- Bytes copied within this device's memory, as they stood before. -/
def copyPhys (m : Memory) (dst src len : Nat) : Memory := wrBytes m (lpddr dst) (rdBytes m (lpddr src) len)

/-- GRAPH_NODE_COMPLETE (R420): the current node has done its work, and the graph goes on to the next. -/
def execGraphNodeComplete (n : Nat) (s : State) : Done :=
  .next (
    match tget? s.graphs n with
    | none => s
    | some g =>
      let go (s : State) (pos : Nat) (counts : Tab Nat) : State := enterNode { s with graphs := tset s.graphs n { g with pos, counts } } n
      if !g.running || g.again then s
      else
        match g.nodes[g.pos]? with
        | none => s
        | some (.launch _) =>
          if s.launches.any fun l => l.2.graph = some n && l.2.st ≠ .done then s else go s (g.pos + 1) g.counts
        | some (.copy dst src len) => go { s with mem := copyPhys s.mem dst.toNat src.toNat len } (g.pos + 1) g.counts
        | some (.loop count back) =>
          let k := tget 0 g.counts g.pos + 1
          if k < count then go s back (tset g.counts g.pos k) else go s (g.pos + 1) (terase g.counts g.pos)
        | some (.cond addr target) => if rdWord s.mem (lpddr addr.toNat) = 0 then go s target g.counts else go s (g.pos + 1) g.counts
        | some (.signal bit) =>
          let s := if bit < 64 then { s with notify := ⟨s.notify.bitmap ||| (1 <<< bit), BitVec.ofNat 32 (min (s.notify.count.toNat + 1) (2 ^ 32 - 1))⟩ }
            else { s with msix := s.msix ++ [bit - 64] }
          go s (g.pos + 1) g.counts)

/-! ## Attestation and substitution (R185, R424) -/

/-- The entries of the substitution table in force, ascending. -/
def enabledEntries (s : State) : List Nat := (List.range subEntries).filter (subEnabled s)

/-- Whether a quad holds a core under quarantine, or is itself. -/
def quadMarked (s : State) (q : Nat) : Bool := s.quadQuar.contains q || s.quarantine.any fun k => quadOf k = q

/-- Bytes 0 to 159 of the attestation report (R424). -/
def reportBody (s : State) (nonce : BitVec 384) : List Byte :=
  let es := enabledEntries s
  let qmap := (List.range 128).foldl (fun v q => if quadMarked s q then v + 2 ^ q else v) 0
  leBytes 48 nonce.toNat ++ leBytes 2 devRev ++ leBytes 8 devFeat ++ leBytes 2 srlVer ++ leBytes 4 Config.firmwareVersion.toNat
    ++ leBytes 2 es.length ++ sha384Bytes (es.flatMap fun n => leBytes 48 (entryDigest n).toNat) ++ leBytes 16 qmap ++ leBytes 30 0

/-- The signed report over a nonce and the table as they stand (R424). -/
def signedReport (s : State) (nonce : BitVec 384) : List Byte :=
  let body := reportBody s nonce
  body ++ leBytes 48 (Config.signature body false).toNat ++ leBytes 48 (Config.signature body true).toNat

/-- ATTESTATION_REQUEST (R424): the report, made at the GO under way or else now, can be read. -/
def execAttestationRequest (fn : Nat) (s : State) : Done :=
  let f := s.func fn
  .next (s.setFunc fn { f with adone := true, abusy := false, report := if f.abusy then f.report else signedReport s f.nonce })

/-- SUBSTITUTION_EN_WRITE (R185): a write of an entry's status word; only the physical function may change EN, and only of an entry that is present. -/
def execSubstitutionEnWrite (fn n : Nat) (v : Word) (s : State) : Done :=
  .next (
    if fn ≠ 0 || subEntries ≤ n then s
    else if v.getLsbD 1 then (if entryPresent n then { s with subDis := s.subDis.filter (· ≠ n) } else s)
    else { s with subDis := addOnce n s.subDis })

/-! ## The control region (R6, R412 to R414) -/

/-- A word of a vector replaced. -/
def putWord384 (x : BitVec 384) (i : Nat) (v : Word) : BitVec 384 :=
  (x &&& ~~~((ones.setWidth 384) <<< (64 * i))) ||| (v.setWidth 384 <<< (64 * i))

/-- A write of the ring block (R414): bits that a register does not use are dropped; HEAD is read only. -/
def writeRing (s : State) (fn off : Nat) (v : Word) : State :=
  let f := s.func fn
  let n := off / 32
  let r := tget ⟨0, 0, 0, 0⟩ f.rings n
  let put (r : Ring) : State := s.setFunc fn { f with rings := tset f.rings n r }
  match off % 32 with
  | 0x00 => put { r with base := v &&& ~~~127 }
  | 0x08 => put { r with size := v }
  | 0x18 => put { r with tail := v.setWidth 16 }
  | _ => s

/-- A write of the invalidation block (R414): GO takes effect with the write. -/
def writeInv (s : State) (fn off : Nat) (v : Word) : State :=
  let f := s.func fn
  match off with
  | 0x00 => s.setFunc fn { f with iasid := v.setWidth 16 }
  | 0x08 => s.setFunc fn { f with iva := v &&& 0x1FFFFFFFFFFFFFF }
  | 0x10 => s.setFunc fn { f with ilen := v }
  | 0x18 => if v.getLsbD 0 then startInv s fn else s
  | _ => s

/-- A write of the migration policy (R414): an epoch outside 100 to 1,000,000 microseconds is not taken. -/
def writePolicy (s : State) (off : Nat) (v : Word) : State :=
  match off with
  | 0x00 => if 100 ≤ v.toNat && v.toNat ≤ 1000000 then { s with epoch := v } else s
  | 0x08 => { s with tmove := v &&& 0xFFF }
  | 0x10 => { s with tmargin := v &&& 0xFFF }
  | 0x18 => { s with hyst := v &&& 0xF }
  | _ => s

/-- A write of the page-counter query block (R414). -/
def writeQuery (s : State) (off : Nat) (v : Word) : State :=
  match off with
  | 0x00 => { s with pasid := v.setWidth 16 }
  | 0x08 => { s with pva := v &&& 0x1FFFFFFFFFFFFFF }
  | 0x10 => if v.getLsbD 0 then { s with pdone := false, agenda := s.agenda ++ [.event .pageCounterQuery] } else s
  | _ => s

/-- A write of the attestation mailbox (R414, R424): the report shows the table as it stands at GO. -/
def writeMailbox (s : State) (fn off : Nat) (v : Word) : State :=
  let f := s.func fn
  if off < 0x30 then s.setFunc fn { f with nonce := putWord384 f.nonce (off / 8) v }
  else if off = 0x30 && v.getLsbD 0 && !f.abusy then
    { s.setFunc fn { f with adone := false, abusy := true, report := signedReport s f.nonce } with agenda := s.agenda ++ [.event (.attestationRequest fn)] }
  else s

/-- An 8-byte write of a function's control region (R412 to R414): offsets outside the table, and those the function may not write, ignore it. A GO bit,
a trigger, a clear of quarantine and an EN write are followed by their own steps. -/
def writeControl (s : State) (fn off : Nat) (v : Word) : State :=
  let pf := fn = 0
  let act (e : Ev) : State := { s with agenda := s.agenda ++ [.event e] }
  if 64 < fn || off % 8 ≠ 0 then s
  else if 0x100 ≤ off && off < 0x300 then writeRing s fn (off - 0x100) v
  else if 0x1000 ≤ off && off < 0x2000 then
    (if off % 16 = 0 then { s with roots := tset s.roots (256 * fn + (off - 0x1000) / 16) (v &&& 0x00FFFFFFFFFFF001) } else s)
  else if 0x2000 ≤ off && off < 0x2020 then writeInv s fn (off - 0x2000) v
  else if 0x3000 ≤ off && off < 0x3200 then act (.graphTrigger fn ((off - 0x3000) / 8) v)
  else if 0x4000 ≤ off && off < 0x4020 then (if pf then writePolicy s (off - 0x4000) v else s)
  else if 0x4100 ≤ off && off < 0x4120 then (if pf then writeQuery s (off - 0x4100) v else s)
  else if 0x5040 ≤ off && off < 0x5080 then (if pf then act (.quarantineClear fn ((off - 0x5040) / 8) v) else s)
  else if 0x6000 ≤ off && off < 0x6200 then writeMailbox s fn (off - 0x6000) v
  else if 0x10000 ≤ off && off < 0x20000 && off % 64 = 48 then act (.substitutionEnWrite fn ((off - 0x10000) / 64) v)
  else s

/-- REGISTER_WRITE (R6, R413, R414). -/
def execRegisterWrite (fn off : Nat) (v : Word) (s : State) : Done := .next (writeControl s fn off v)

/-- What `QMAP` shows of 64 cores from core 64k on (R414): a quad under quarantine shows in each of its cores. -/
def qmapWord (s : State) (k : Nat) : Word :=
  BitVec.ofNat 64 ((List.range 64).foldl (fun v j =>
    if s.quarantine.contains (64 * k + j) || s.quadQuar.contains (quadOf (64 * k + j)) then v + 2 ^ j else v) 0)

/-- An 8-byte read of a function's control region (R409, R413, R414). -/
def readControl (s : State) (fn off : Nat) : Word :=
  let f := s.func fn
  let pf := fn = 0
  let bits (b : Bool) (i : Nat) : Word := if b then 1 <<< i else 0
  if 64 < fn || off % 8 ≠ 0 then 0
  else if off = 0 then BitVec.ofNat 64 devRev
  else if off = 8 then BitVec.ofNat 64 devFeat
  else if 0x100 ≤ off && off < 0x300 then
    let r := tget ⟨0, 0, 0, 0⟩ f.rings ((off - 0x100) / 32)
    match (off - 0x100) % 32 with | 0x00 => r.base | 0x08 => r.size | 0x10 => BitVec.ofNat 64 r.head | _ => r.tail.setWidth 64
  else if 0x1000 ≤ off && off < 0x2000 then (if off % 16 = 0 then tget 0 s.roots (256 * fn + (off - 0x1000) / 16) else 0)
  else if off = 0x2000 then f.iasid.setWidth 64
  else if off = 0x2008 then f.iva
  else if off = 0x2010 then f.ilen
  else if off = 0x2018 then bits f.idone 1 ||| bits f.irefused 2
  else if 0x4000 ≤ off && off < 0x4020 then
    (if !pf then 0 else match off - 0x4000 with | 0x00 => s.epoch | 0x08 => s.tmove | 0x10 => s.tmargin | _ => s.hyst)
  else if 0x4100 ≤ off && off < 0x4120 then
    (if !pf then 0 else match off - 0x4100 with | 0x00 => s.pasid.setWidth 64 | 0x08 => s.pva | 0x10 => bits s.pdone 1 ||| bits s.pnopage 2 | _ => s.pcnt)
  else if 0x5000 ≤ off && off < 0x5080 then (if pf then qmapWord s (off / 8 % 8) else 0)
  else if 0x6000 ≤ off && off < 0x6030 then f.nonce.extractLsb' (8 * (off - 0x6000)) 64
  else if off = 0x6030 then bits f.adone 1 ||| bits f.abusy 2
  else if 0x6100 ≤ off && off < 0x6200 then BitVec.ofNat 64 (natAt f.report (off - 0x6100) 8)
  else if 0x10000 ≤ off && off < 0x20000 then
    let n := (off - 0x10000) / 64
    if off % 64 < 48 then (entryDigest n).extractLsb' (8 * (off % 64)) 64
    else if off % 64 = 48 then
      bits (entryPresent n) 0 ||| bits (subEnabled s n) 1 ||| ((Config.nativeUnit n).setWidth 64 <<< 4) ||| (BitVec.ofNat 64 (entryNum n) <<< 16)
    else 0
  else 0

/-! ## The rest of the outside world (R87, R229, R230, R408, R423) -/

/-- ISLAND_CLOCK_CHANGE (R423): wall time only. -/
def execIslandClockChange (island mhz : Nat) (gated : Bool) (s : State) : Done :=
  .next (if island < 256 && 600 ≤ mhz && mhz ≤ 1800 then { s with islands := tset s.islands island (mhz, gated) } else s)

/-- SHADOW_CONTAINER_WRITE (R408): a privileged 8-byte write through window 9. -/
def execShadowContainerWrite (core : Nat) (privileged : Bool) (off : Nat) (v : Word) (s : State) : Done :=
  .next (if privileged then shadowWrite s core off (leBytes 8 v.toNat) else s)

/-- The class that an access from outside counts for (R230). -/
def fwdClass : FwdFrom → Nat | .host => 1 | .peer _ => 2 | .cxl => 3

/-- The bytes that an access from outside touches. -/
def fwdBytes : FwdOp → Nat | .read n => n | .write bs => bs.length | .atomic _ wide _ _ => if wide then 8 else 4

/-- Accesses counted for the page that holds a memory number: the page that a table maps there, or else 64 KB of one not yet known. -/
def countOutside (s : State) (a lines cls : Nat) : State :=
  match pageOf s a with
  | some x => pageCount s (physKey x.owner.toNat x.peer x.frame) x.size (some (x.asid, x.va)) lines cls
  | none =>
    match s.pages.find? fun p => p.1 ≤ a && a < p.1 + p.2.size with
    | some p => pageCount s p.1 p.2.size none lines cls
    | none => pageCount s (a / 65536 * 65536) 65536 none lines cls

/-- Whether the port over which an access from outside would come carries no traffic (R406, R422). -/
def fwdOut (s : State) : FwdFrom → Bool | .peer p => peerOut s p | _ => false

/-- FORWARDED_ACCESS (R87, R147, R229): an access from outside performed at this device's memory, counted by 64-byte lines. One over a port that is out
does not arrive, and the host's unmapping of a page that moves waits for the move (R234). -/
def execForwardedAccess (src : FwdFrom) (addr : Nat) (op : FwdOp) (s : State) : Done :=
  let a := lpddr addr
  let n := fwdBytes op
  let unmaps : Bool := match op with | .write bs => src = .host && unmapsMoving s a bs | _ => false
  .next (
    if fwdOut s src then s
    else if unmaps then { s with later := s.later ++ [.event (.forwardedAccess src addr op)] }
    else
    let s := if n = 0 then s else countOutside s a ((addr + n - 1) / 64 - addr / 64 + 1) (fwdClass src)
    match op with
    | .read _ => s
    | .write bs => { s with mem := wrBytes s.mem a bs }
    | .atomic o wide v e =>
      let k := if wide then 8 else 4
      { s with mem := wrBytes s.mem a (leBytes k (amoNew o k (BitVec.ofNat 64 (rdNat s.mem a k)) v e).toNat) })

end Sys2Proof.Machine
end

