-- ==== Sys2Proof/Machine/VRank.lean ====
section
/-! DEFINITION. Vector routines 0x032 to 0x036: ranking, sorting and merging keys (R292 to R297). -/

namespace Sys2Proof.Machine

/-- Whether a key ranks strictly before another (R292), whatever their indices: NaNs last in both directions. -/
def ranksBefore (desc : Bool) (x y : Num) : Bool :=
  !x.isNan && (y.isNan || cmpNum x y == (if desc then .gt else .lt))

/-- An entry of a ranking: its key, its index, and the value it carries. -/
structure Ranked where
  key : Num
  idx : Nat
  val : Nat
  deriving DecidableEq, Repr

/-- The order of R292: equal keys go to the lower index. -/
def Ranked.before (desc : Bool) (x y : Ranked) : Bool :=
  ranksBefore desc x.key y.key || (!ranksBefore desc y.key x.key && x.idx < y.idx)

/-- An entry put in its place in a ranked list, after its equals. -/
def rankIn (desc : Bool) (x : Ranked) : List Ranked → List Ranked
  | [] => [x]
  | y :: ys => if x.before desc y then x :: y :: ys else y :: rankIn desc x ys

/-- A list ranked. -/
def rank (desc : Bool) (xs : List Ranked) : List Ranked := xs.foldl (fun l x => rankIn desc x l) []

/-- The tag of the values of a ranking (R293). -/
def rankedTag (t : Nat) : Nat := if floatTag t then 1 else t

/-- The elements of a source as entries, element e at index base + e. -/
def rankElts (t : Nat) (v : VReg) (base : Word) : List Ranked :=
  (List.range v.count).map fun e => ⟨v.val e, (base + BitVec.ofNat 64 e).toNat % 2 ^ 32, (keyCode t (v.val e)).toNat⟩

/-- The entries of a list in two registers (R294), empty ones left out, each with its lane. -/
def rankList (t : Nat) (v x : VReg) : List (Option Ranked) :=
  lanes64.map fun i =>
    let c := (lane v i).toNat
    let n := (lane x i).toNat
    if c = 0 && n = 0xFFFFFFFF then none
    else let k := readElt t c; some ⟨k, n, (keyCode t k).toNat⟩

/-- Two vector results formed element by element. -/
def pairOut (s : State) (lat : Nat) (d x : BitVec 6) (v y : VReg) (bits : List Word) : Except Trap RunOut := do
  let _ ← vslot s d
  let _ ← vslot s x
  eltsOut s bits 0 (do .ok ((← vdst s lat d v) ++ (← vdst s lat x y)))

/-- What some keys raise: element 0 of a ranking's result meets them all (log entry 107). -/
def rankBits (ks : List Num) : List Word := [ks.foldl (fun b k => b ||| keyBits k) 0]

/-- The ranked values and their indices as two registers (R293). -/
def rankOut (s : State) (lat : Nat) (d x : BitVec 6) (t k : Nat) (rs : List Ranked) : Except Trap RunOut :=
  let top := rs.take k
  let vals := lanes64.map fun i => match top[i]? with | some r => r.val | none => 0
  let idxs := lanes64.map fun i => match top[i]? with | some r => r.idx | none => 0xFFFFFFFF
  pairOut s lat d x (plainReg (rankedTag t) vals) (plainReg 3 idxs) (rankBits (rs.map (·.key)))

/-- The checks that read no source (R293): fmt, then k. -/
def needRank (f : BitVec 28) (k : Word) : Except Trap Rnd := do
  let m ← needFmt f rankTag false false argZero
  if 1 ≤ k.toNat ∧ k.toNat ≤ 64 then .ok m else .error trapILL

/-- `VTOPK`'s definition (R293). -/
def vtopkDef (d x a : BitVec 6) (f : BitVec 28) : SrlDef := fun args =>
  vdef [a] (needRank f (arg args 3)) (fun _ s => do
    let v ← sameTag s 2 a f
    let es := rankElts (fmtTag f) v (arg args 4)
    rankOut s 8 d x (fmtTag f) (arg args 3).toNat (rank true es)) args

/-- `VTOPK`. -/
def execVtopk (q : Bool) (d x a k b : BitVec 6) (f : BitVec 28) (s : State) : Done :=
  callSrl 0x032 false 0 8 q [.v d, .v x, .v a, .s k, .s b, .fmt f] (vtopkDef d x a f) s

/-- `VTOPKA`'s definition (R294). -/
def vtopkaDef (d x a : BitVec 6) (f : BitVec 28) : SrlDef := fun args =>
  vdef [a, d, x] (needRank f (arg args 3)) (fun _ s => do
    let vd ← vsrc s d
    let vx ← vsrc s x
    needTag 0 (isTag (rankedTag (fmtTag f))) vd
    needTag 1 (isTag 3) vx
    let v ← sameTag s 2 a f
    let ls := rankList (rankedTag (fmtTag f)) vd vx
    let es := rankElts (fmtTag f) v (arg args 4)
    rankOut s 10 d x (fmtTag f) (arg args 3).toNat (rank true (ls.filterMap id ++ es))) args

/-- `VTOPKA`. -/
def execVtopka (q : Bool) (d x a k b : BitVec 6) (f : BitVec 28) (s : State) : Done :=
  callSrl 0x033 false 0 10 q [.v d, .v x, .v a, .s k, .s b, .fmt f] (vtopkaDef d x a f) s

/-- FP32, INT32 or N32 (R295). -/
def sortTag (t : Nat) : Bool := 1 ≤ t && t ≤ 3

/-- `VSORT`'s definition (R295). -/
def vsortDef (d x a : BitVec 6) (f : BitVec 28) : SrlDef :=
  vdef [a] (needFmt f sortTag false false (· < 2)) fun _ s => do
    let v ← sameTag s 2 a f
    let es : List Ranked := lanes64.map fun i => ⟨v.val i, i, v.code i⟩
    let rs := rank (fmtArg f = 1) es
    pairOut s 10 d x (plainReg (fmtTag f) (rs.map (·.val))) (plainReg 3 (rs.map (·.idx))) (rankBits (es.map (·.key)))

/-- `VSORT`. -/
def execVsort (q : Bool) (d x a : BitVec 6) (f : BitVec 28) (s : State) : Done :=
  callSrl 0x034 false 0 10 q [.v d, .v x, .v a, .fmt f] (vsortDef d x a f) s

/-- The steps of R296 from positions i and j on: the code moved, and what the keys that stand there raise. -/
def mergeSteps (a b : Nat → Num × Nat) : Nat → Nat → Nat → List (Nat × Word)
  | 0, _, _ => []
  | n + 1, i, j =>
    let bits := (if i < 64 then keyBits (a i).1 else 0) ||| (if j < 64 then keyBits (b j).1 else 0)
    if j = 64 ∨ (i < 64 ∧ ranksBefore false (b j).1 (a i).1 = false) then ((a i).2, bits) :: mergeSteps a b n (i + 1) j
    else ((b j).2, bits) :: mergeSteps a b n i (j + 1)

/-- A source's element as its value and the code that a key is written as, a NaN's canonical (R292). -/
def VReg.key (v : VReg) (i : Nat) : Num × Nat := (v.val i, if (v.val i).isNan then (keyCode v.tag.toNat (v.val i)).toNat else v.code i)

/-- `VMERGE`'s definition (R296). -/
def vmergeDef (d e a b : BitVec 6) (f : BitVec 28) : SrlDef :=
  vdef [a, b] (needFmt f sortTag false false argZero) fun _ s => do
    let va ← sameTag s 2 a f
    let vb ← sameTag s 3 b f
    let out := mergeSteps va.key vb.key 128 0 0
    let codes := out.map (·.1)
    pairOut s 8 d e (plainReg (fmtTag f) (codes.take 64)) (plainReg (fmtTag f) (codes.drop 64)) (out.map (·.2))

/-- `VMERGE`. -/
def execVmerge (q : Bool) (d e a b : BitVec 6) (f : BitVec 28) (s : State) : Done :=
  callSrl 0x035 false 0 8 q [.v d, .v e, .v a, .v b, .fmt f] (vmergeDef d e a b f) s

/-- The search of R297 between lo and hi, with the bits of the keys it meets. -/
def mergeSplit (a b : Nat → Num) (d : Nat) : Nat → Nat → Nat → Word → Nat × Word
  | 0, lo, _, bits => (lo, bits)
  | n + 1, lo, hi, bits =>
    if lo < hi then
      let mid := (lo + hi) / 2
      let bits := bits ||| keyBits (a mid) ||| keyBits (b (d - mid - 1))
      if ranksBefore false (b (d - mid - 1)) (a mid) then mergeSplit a b d n lo mid bits else mergeSplit a b d n (mid + 1) hi bits
    else (lo, bits)

/-- The lengths and the diagonal of R297. -/
def needSplit (f : BitVec 28) (l g : Word) : Except Trap (Nat × Nat × Nat) := do
  let _ ← needFmt f sortTag false false argZero
  let la := fld l.toNat 0 32
  let lb := fld l.toNat 32 32
  if la ≤ 64 ∧ lb ≤ 64 ∧ g.toNat ≤ la + lb then .ok (la, lb, g.toNat) else .error trapILL

/-- `VMPSRCH`'s definition (R297). -/
def vmpsrchDef (d a b : BitVec 6) (f : BitVec 28) : SrlDef := fun args =>
  vdef [a, b] (needSplit f (arg args 3) (arg args 4)) (fun (la, lb, g) s => do
    let va ← sameTag s 1 a f
    let vb ← sameTag s 2 b f
    let (lo, bits) := mergeSplit va.val vb.val g 64 (g - lb) (min g la) 0
    scalarOut s bits (toS s.regs d (BitVec.ofNat 64 lo))) args

/-- `VMPSRCH`. -/
def execVmpsrch (q : Bool) (d a b l g : BitVec 6) (f : BitVec 28) (s : State) : Done :=
  callSrl 0x036 false 0 6 q [.s d, .v a, .v b, .s l, .s g, .fmt f] (vmpsrchDef d a b f) s

end Sys2Proof.Machine
end

