-- ==== Sys2Proof/Machine/RoutineCall.lean ====
section
/-! DEFINITION. `RCALL` of a routine by its number (R62, R174 to R187): the definitions of the SRL routines by number and operands, for a
binary's routine whose text is one of theirs (R184), and the call itself. -/

namespace Sys2Proof.Machine

/-- The definitions of the vector elementwise block (R63), by number and operands. -/
def srlElem (num : Nat) (ops : List Opnd) : Option SrlDef :=
  match num with
  | 0x000 => match ops with | [.v d, .v a, .fmt f] => some (vcvtDef d a f) | _ => none
  | 0x001 => match ops with | [.v d, .v a, .fmt f] => some (vqntDef d a f) | _ => none
  | 0x002 => match ops with | [.v d, .v a, .fmt f] => some (vdqntDef d a f) | _ => none
  | 0x003 => match ops with | [.v d, .v a, .v b, .fmt f] => some (vf2 3 true d a b f fun m x y => sumNum m [x, y]) | _ => none
  | 0x004 => match ops with | [.v d, .v a, .v b, .fmt f] => some (vf2 3 true d a b f fun m x y => sumNum m [x, y.neg]) | _ => none
  | 0x005 => match ops with | [.v d, .v a, .v b, .fmt f] => some (vf2 3 true d a b f fun _ x y => mulNum x y) | _ => none
  | 0x006 => match ops with | [.v d, .v a, .v b, .fmt f] => some (vffmaDef d a b f) | _ => none
  | 0x007 => match ops with | [.v d, .v a, .v b, .fmt f] => some (vf2 2 false d a b f fun _ x y => (minNum x y, sigBits [x, y])) | _ => none
  | 0x008 => match ops with | [.v d, .v a, .v b, .fmt f] => some (vf2 2 false d a b f fun _ x y => (maxNum x y, sigBits [x, y])) | _ => none
  | 0x009 => match ops with | [.v d, .v a, .fmt f] => some (signDef d a f fun top c => c % top) | _ => none
  | 0x00A => match ops with | [.v d, .v a, .fmt f] => some (signDef d a f fun top c => if c < top then c + top else c - top) | _ => none
  | 0x00B => match ops with | [.v d, .v a, .v b, .v c, .fmt f] => some (vclampDef d a b c f) | _ => none
  | 0x00C => match ops with | [.v d, .v a, .v b, .fmt f] => some (vs2 2 false argZero d a b f fun _ x y => x + y) | _ => none
  | 0x00D => match ops with | [.v d, .v a, .v b, .fmt f] => some (vs2 2 false argZero d a b f fun _ x y => x - y) | _ => none
  | 0x00E => match ops with | [.v d, .v a, .v b, .fmt f] => some (vsmulDef d a b f) | _ => none
  | 0x00F => match ops with | [.v d, .v a, .v b, .fmt f] => some (vidotDef d a b f) | _ => none
  | 0x010 => match ops with | [.v d, .v a, .s _, .fmt f] => some (vscaleDef d a f) | _ => none
  | 0x011 => match ops with | [.v d, .v a, .fmt f] => some (vtagDef d a f) | _ => none
  | 0x012 => match ops with | [.v d, .v a, .fmt f] => some (vpackDef d a f) | _ => none
  | 0x013 => match ops with | [.v d, .v a, .imm f] => some (vunpkDef d a f) | _ => none
  | 0x014 => match ops with | [.v d, .v a, .v b, .imm f] => some (vzipDef d a b f) | _ => none
  | 0x015 => match ops with | [.v d, .v a, .v b, .imm f] => some (vuzpDef d a b f) | _ => none
  | 0x016 => match ops with | [.v d, .v a, .v i, .imm f] => some (vshufDef d a i f) | _ => none
  | 0x017 => match ops with | [.v d, .s c, .v a, .p p] => some (vcomprDef d c a p) | _ => none
  | 0x018 => match ops with | [.v d, .v a, .p p] => some (vexpndDef d a p) | _ => none
  | 0x019 => match ops with | [.v d, .v a, .fmt f] => some (vscanDef d a f) | _ => none
  | 0x01A => match ops with | [.v d, .s _, .s _] => some (viotaDef d) | _ => none
  | _ => none

/-- The definitions of the vector reduction, special and select block (R63), by number and operands. -/
def srlReduce (num : Nat) (ops : List Opnd) : Option SrlDef :=
  match num with
  | 0x020 => match ops with | [.s d, .v a, .p p, .fmt f] => some (rsumDef d a p f (treeSum 1)) | _ => none
  | 0x021 => match ops with | [.s d, .s x, .v a, .p p, .fmt f] => some (extremeDef true d x a p f) | _ => none
  | 0x022 => match ops with | [.s d, .s x, .v a, .p p, .fmt f] => some (extremeDef false d x a p f) | _ => none
  | 0x023 => match ops with | [.s d, .v a, .v b, .p p, .fmt f] => some (vrdotDef d a b p f) | _ => none
  | 0x024 => match ops with | [.v d, .v a, .fmt f] => some (fnDef 5 d a f fnExp) | _ => none
  | 0x025 => match ops with | [.v d, .v a, .fmt f] => some (fnDef 4 d a f fnExp2) | _ => none
  | 0x026 => match ops with | [.v d, .v a, .fmt f] => some (fnDef 5 d a f fnLog2) | _ => none
  | 0x027 => match ops with | [.v d, .v a, .fmt f] => some (fnDef 4 d a f fnRcp) | _ => none
  | 0x028 => match ops with | [.v d, .v a, .fmt f] => some (fnDef 4 d a f fnRsqrt) | _ => none
  | 0x029 => match ops with | [.v d, .v a, .fmt f] => some (fnDef 4 d a f fnSqrt) | _ => none
  | 0x02A => match ops with | [.v d, .v a, .fmt f] => some (fnDef 6 d a f fnTanh) | _ => none
  | 0x02B => match ops with | [.v d, .v a, .fmt f] => some (fnDef 6 d a f fnSigm) | _ => none
  | 0x02C => match ops with | [.v d, .v a, .fmt f] => some (fnDef 7 d a f fnGelu) | _ => none
  | 0x02D => match ops with | [.v d, .v a, .fmt f] => some (fnDef 6 d a f fnSilu) | _ => none
  | 0x02E => match ops with | [.v d, .v a, .s _, .s _, .fmt f] => some (vsoftmxDef d a f) | _ => none
  | 0x02F => match ops with | [.s d, .v a, .s _, .fmt f] => some (vexpsumDef d a f) | _ => none
  | 0x030 => match ops with | [.s d, .s e, .v a, .s _, .fmt f] => some (vnormstDef d e a f) | _ => none
  | 0x031 => match ops with | [.v d, .v a, .s _, .s _, .s _, .s _, .fmt f] => some (vnormapDef d a f) | _ => none
  | 0x032 => match ops with | [.v d, .v x, .v a, .s _, .s _, .fmt f] => some (vtopkDef d x a f) | _ => none
  | 0x033 => match ops with | [.v d, .v x, .v a, .s _, .s _, .fmt f] => some (vtopkaDef d x a f) | _ => none
  | 0x034 => match ops with | [.v d, .v x, .v a, .fmt f] => some (vsortDef d x a f) | _ => none
  | 0x035 => match ops with | [.v d, .v e, .v a, .v b, .fmt f] => some (vmergeDef d e a b f) | _ => none
  | 0x036 => match ops with | [.s d, .v a, .v b, .s _, .s _, .fmt f] => some (vmpsrchDef d a b f) | _ => none
  | 0x03F => match ops with | [.s d, .v a, .p p, .fmt f] => some (rsumDef d a p f (laneSum 1)) | _ => none
  | _ => none

/-- The definitions of the matrix block (R63), by number and operands. -/
def srlMatrix (q : Bool) (num : Nat) (ops : List Opnd) : Option SrlDef :=
  match num with
  | 0x040 => match ops with | [.q d, .s _, .s _, .s _, .s _] => some (mdescDef q d) | _ => none
  | 0x041 => match ops with | [.imm lvl, .s _, .s _, .s _] => some (mnestDef q lvl) | _ => none
  | 0x042 => match ops with | [.q qa, .q qb, .c c, .s _, .imm job, .sem sem] => some (mgoDef qa qb c job sem) | _ => none
  | 0x043 => match ops with | [.c c, .s _, .fmt f] => some (acallocDef q c f) | _ => none
  | 0x044 => match ops with | [.c c] => some (acfreeDef q c) | _ => none
  | 0x045 => match ops with | [.c c, .imm grp, .s _] => some (acownDef q c grp) | _ => none
  | 0x046 => match ops with | [.c c, .s _, .imm job, .sem sem] => some (mzeroDef c job sem) | _ => none
  | 0x047 => match ops with | [.c c, .q qs, .s _, .imm job, .sem sem] => some (mldaccDef c qs job sem) | _ => none
  | 0x048 => match ops with | [.c c, .q qd, .s _, .fmt f, .imm job, .sem sem] => some (mdrainDef c qd f job sem) | _ => none
  | 0x049 => match ops with | [.c c, .s _, .s _, .fmt f, .imm job, .sem sem] => some (mpeerDef c f job sem) | _ => none
  | 0x04A => match ops with | [.s d, .imm k] => some (mstatDef q d k) | _ => none
  | 0x04B => match ops with | [.imm mc] => some (mcastDef q mc) | _ => none
  | 0x04C => match ops with | [.imm mode, .s _] => some (mscaleDef q mode) | _ => none
  | 0x04D => match ops with | [.imm mode, .s _] => some (mbiasDef q mode) | _ => none
  | 0x04E => match ops with | [] => some mqflushDef | _ => none
  | _ => none

/-- The definitions of the sparsity block (R63), by number and operands. -/
def srlSparse (q : Bool) (num : Nat) (ops : List Opnd) : Option SrlDef :=
  match num with
  | 0x060 => match ops with | [.s _, .s _, .s _] => some (sphdrDef q) | _ => none
  | 0x061 => match ops with | [.s d, .q qa] => some (spchkDef d qa) | _ => none
  | 0x062 => match ops with | [.q qd, .q qs, .s _] => some (sppruneDef q qd qs) | _ => none
  | 0x063 => match ops with | [.q qd, .q qs] => some (spxposeDef q qd qs) | _ => none
  | 0x064 => match ops with | [.imm opd, .v i, .s _] => some (spgathDef q opd i) | _ => none
  | 0x065 => match ops with | [.s d, .s _, .s _, .fmt f] => some (spcostDef d f) | _ => none
  | 0x066 => match ops with | [.q qd, .s _] => some (spattachDef q qd) | _ => none
  | _ => none

/-- The definitions of the copy block (R63), by number and operands. -/
def srlCopy (q : Bool) (num : Nat) (ops : List Opnd) : Option SrlDef :=
  match num with
  | 0x070 => match ops with | [.s _, .s _, .s _, .imm job, .sem sem] => some (plainCopyDef 0x070 job sem 3) | _ => none
  | 0x071 => match ops with | [.s _, .s _, .s _, .s _, .s _, .imm job, .sem sem] => some (plainCopyDef 0x071 job sem 5) | _ => none
  | 0x072 => match ops with | [.s _, .s _, .s _, .s _, .s _, .imm job, .sem sem] => some (plainCopyDef 0x072 job sem 5) | _ => none
  | 0x073 => match ops with | [.s _, .s _, .s _, .s _, .s _, .imm job, .sem sem] => some (cpysaDef job sem) | _ => none
  | 0x074 => match ops with | [.s _, .s _, .s _, .imm job, .sem sem] => some (plainCopyDef 0x074 job sem 3) | _ => none
  | 0x075 => match ops with | [.s _, .s _, .s _, .s _, .fmt f, .imm job, .sem sem] => some (cpycDef f job sem) | _ => none
  | 0x076 => match ops with | [.s _, .s _, .s _, .fmt f, .imm job, .sem sem] => some (cpywDef f job sem) | _ => none
  | 0x077 => match ops with | [.imm tag, .imm job, .sem sem] => some (cpyresDef tag job sem) | _ => none
  | 0x078 => match ops with | [.imm mode, .imm a] => some (cpyabtDef mode a) | _ => none
  | 0x079 => match ops with | [.queue k, .s _, .imm job, .sem sem] => some (qpushDef k job sem) | _ => none
  | 0x07A => match ops with | [.s _, .queue k, .imm job, .sem sem] => some (qpopDef k job sem) | _ => none
  | 0x07B => match ops with | [.queue k, .imm job, .sem sem] => some (qflushDef k job sem) | _ => none
  | 0x07C => match ops with | [.imm e, .s _, .s _, .s _] => some (rgmapDef q e) | _ => none
  | 0x07D => match ops with | [.imm e, .imm job, .sem sem] => some (regionDef 0x07D e job sem) | _ => none
  | 0x07E => match ops with | [.imm e, .imm job, .sem sem] => some (regionDef 0x07E e job sem) | _ => none
  | 0x07F => match ops with | [.imm opts] => some (evarmDef q opts) | _ => none
  | 0x08F => match ops with | [.s _, .s _, .s _, .s _, .imm job, .sem sem] => some (plainCopyDef 0x08F job sem 4) | _ => none
  | _ => none

/-- The definitions of the selection block (R63), by number and operands. -/
def srlSelect (q : Bool) (num : Nat) (ops : List Opnd) : Option SrlDef :=
  match num with
  | 0x090 => match ops with | [.s _, .s _] => some (slcfgDef q) | _ => none
  | 0x091 => match ops with | [.v a, .imm layer] => some (slqDef a layer) | _ => none
  | 0x092 => match ops with | [.s _, .s _, .imm job, .sem sem] => some (slsumDef job sem) | _ => none
  | 0x093 => match ops with | [.s _, .s _, .s _, .imm job, .sem sem] => some (slscoreDef job sem) | _ => none
  | 0x094 => match ops with | [.s _, .s _, .imm job, .sem sem] => some (sltopkDef job sem) | _ => none
  | 0x095 => match ops with | [.v a, .s _] => some (slforceDef a) | _ => none
  | 0x096 => match ops with | [.s _, .s _, .s _, .imm job, .sem sem] => some (slfetchDef job sem) | _ => none
  | 0x097 => match ops with | [.imm mode] => some (slresDef mode) | _ => none
  | _ => none

/-- The definitions of the tile block (R63), by number and operands. -/
def srlTile (q : Bool) (num : Nat) (ops : List Opnd) : Option SrlDef :=
  match num with
  | 0x0A0 => match ops with | [.s d, .s _] => some (residentTile 0x0A0 d) | _ => none
  | 0x0A1 => match ops with | [.s d, .s _] => some (residentTile 0x0A1 d) | _ => none
  | 0x0A2 => match ops with | [.s d, .s _] => some (residentTile 0x0A2 d) | _ => none
  | 0x0A3 => match ops with | [.s d, .s _] => some (residentTile 0x0A3 d) | _ => none
  | 0x0A4 => match ops with | [.s d, .s _] => some (residentTile 0x0A4 d) | _ => none
  | 0x0A5 => match ops with | [.s d, .s _] => some (residentTile 0x0A5 d) | _ => none
  | 0x0A6 => match ops with | [.s _, .imm ch] => some (tstageDef ch) | _ => none
  | 0x0A7 => match ops with | [.s _, .imm ch] => some (tdispDef ch) | _ => none
  | 0x0A8 => match ops with | [.s d] => some (twaitDef d) | _ => none
  | 0x0A9 => match ops with | [.s d, .s _] => some (tfaultDef q d) | _ => none
  | _ => none

/-- The definition of an SRL routine, by number and operands. -/
def srlRun (q : Bool) (num : Nat) (ops : List Opnd) : Option SrlDef :=
  if num < 0x20 then srlElem num ops
  else if num < 0x40 then srlReduce num ops
  else if num < 0x60 then srlMatrix q num ops
  else if num < 0x70 then srlSparse q num ops
  else if num < 0x90 then srlCopy q num ops
  else if num < 0xA0 then srlSelect q num ops
  else srlTile q num ops

/-- Whether a call's operands are those of a routine's signature (R62, R176): count and class sequence, an immediate of two words at both. -/
def sigMatches (r : Routine) (ops : List Opnd) : Bool :=
  (byWord ops).map opClass = (r.sigs.take r.nopw).map fun b => fld b.toNat 0 4

/-- The slot distance at which a routine's results land: its latency when inline, 1 otherwise (R118). -/
def latOf (r : Routine) : Nat := if r.kind = 0 then r.lat else 1

/-- `RCALL` of a routine that is not one of the named calls (R62, R118, R174): a routine with the text of an SRL routine acts as that
routine (R184, R187), every other one as its body. -/
def execRcall (q : Bool) (num : BitVec 14) (async : Bool) (ctr : BitVec 2) (ops : List Opnd) (s : State) : Done :=
  .next (callRoutine s num.toNat q async ctr.toNat ops (fun r => sigMatches r ops) latOf fun r =>
    match r.srl with
    | some n => srlRun q n ops
    | none => none)

end Sys2Proof.Machine
end

