-- ==== Sys2Proof/Machine/Scalar.lean ====
section
/-! DEFINITION. Itver integer instructions, compares and predicates (R126 to R134). -/

namespace Sys2Proof.Machine

/-- A scalar result `lat` slots later that raises nothing. -/
def intOp (s : State) (q : Bool) (lat : Nat) (d : BitVec 6) (v : Word) : Done := .next (settle s q (.ok lat (toS s.regs d v)))

/-- A division's result with its condition (R128). -/
def divOp (s : State) (q : Bool) (d : BitVec 6) (v b : Word) : Done := .next (settle s q (raising s 12 (divBits b) (toS s.regs d v)))

/-- A predicate result `lat` slots later. -/
def predOp (s : State) (q : Bool) (lat : Nat) (d : BitVec 4) (m : Except Trap Word) : Done :=
  .next (settle s q (orTrap do .ok (.ok lat (toP (← pslot s d) (← m)))))

/-- `ADD` (R127). -/
def execAdd (q : Bool) (d a b : BitVec 6) (s : State) : Done :=
  intOp s q 1 d (s.s a + s.s b)

/-- `SUB` (R127). -/
def execSub (q : Bool) (d a b : BitVec 6) (s : State) : Done :=
  intOp s q 1 d (s.s a - s.s b)

/-- `MUL` (R127). -/
def execMul (q : Bool) (d a b : BitVec 6) (s : State) : Done :=
  intOp s q 3 d (s.s a * s.s b)

/-- `MULH` (R127). -/
def execMulh (q : Bool) (d a b : BitVec 6) (s : State) : Done :=
  intOp s q 3 d (mulhWord (s.s a) (s.s b))

/-- `DIV` (R127, R128). -/
def execDiv (q : Bool) (d a b : BitVec 6) (s : State) : Done :=
  divOp s q d (divWord (s.s a) (s.s b)) (s.s b)

/-- `REM` (R127, R128). -/
def execRem (q : Bool) (d a b : BitVec 6) (s : State) : Done :=
  divOp s q d (remWord (s.s a) (s.s b)) (s.s b)

/-- `AND` (R127). -/
def execAnd (q : Bool) (d a b : BitVec 6) (s : State) : Done :=
  intOp s q 1 d (s.s a &&& s.s b)

/-- `OR` (R127). -/
def execOr (q : Bool) (d a b : BitVec 6) (s : State) : Done :=
  intOp s q 1 d (s.s a ||| s.s b)

/-- `XOR` (R127). -/
def execXor (q : Bool) (d a b : BitVec 6) (s : State) : Done :=
  intOp s q 1 d (s.s a ^^^ s.s b)

/-- `SHL` (R127). -/
def execShl (q : Bool) (d a b : BitVec 6) (s : State) : Done :=
  intOp s q 1 d (s.s a <<< ((s.s b).toNat % 64))

/-- `SHR` (R127). -/
def execShr (q : Bool) (d a b : BitVec 6) (s : State) : Done :=
  intOp s q 1 d (s.s a >>> ((s.s b).toNat % 64))

/-- `SRA` (R127). -/
def execSra (q : Bool) (d a b : BitVec 6) (s : State) : Done :=
  intOp s q 1 d ((s.s a).sshiftRight ((s.s b).toNat % 64))

/-- `MIN` (R127). -/
def execMin (q : Bool) (d a b : BitVec 6) (s : State) : Done :=
  intOp s q 1 d (minWord (s.s a) (s.s b))

/-- `MAX` (R127). -/
def execMax (q : Bool) (d a b : BitVec 6) (s : State) : Done :=
  intOp s q 1 d (maxWord (s.s a) (s.s b))

/-- `CLZ` (R127). -/
def execClz (q : Bool) (d a : BitVec 6) (s : State) : Done :=
  intOp s q 1 d (clzWord (s.s a))

/-- `POPC` (R127). -/
def execPopc (q : Bool) (d a : BitVec 6) (s : State) : Done :=
  intOp s q 1 d (popcWord (s.s a))

/-- `ADD` with an immediate (R129). -/
def execAddImm (q : Bool) (d a : BitVec 6) (i : BitVec 13) (s : State) : Done :=
  intOp s q 1 d (s.s a + sx i)

/-- `MUL` with an immediate (R129). -/
def execMulImm (q : Bool) (d a : BitVec 6) (i : BitVec 13) (s : State) : Done :=
  intOp s q 3 d (s.s a * sx i)

/-- `AND` with an immediate (R129). -/
def execAndImm (q : Bool) (d a : BitVec 6) (i : BitVec 13) (s : State) : Done :=
  intOp s q 1 d (s.s a &&& sx i)

/-- `OR` with an immediate (R129). -/
def execOrImm (q : Bool) (d a : BitVec 6) (i : BitVec 13) (s : State) : Done :=
  intOp s q 1 d (s.s a ||| sx i)

/-- `XOR` with an immediate (R129). -/
def execXorImm (q : Bool) (d a : BitVec 6) (i : BitVec 13) (s : State) : Done :=
  intOp s q 1 d (s.s a ^^^ sx i)

/-- `SHL` with an immediate (R129). -/
def execShlImm (q : Bool) (d a n : BitVec 6) (s : State) : Done :=
  intOp s q 1 d (s.s a <<< n.toNat)

/-- `SHR` with an immediate (R129). -/
def execShrImm (q : Bool) (d a n : BitVec 6) (s : State) : Done :=
  intOp s q 1 d (s.s a >>> n.toNat)

/-- `SRA` with an immediate (R129). -/
def execSraImm (q : Bool) (d a n : BitVec 6) (s : State) : Done :=
  intOp s q 1 d ((s.s a).sshiftRight n.toNat)

/-- `MIN` with an immediate (R129). -/
def execMinImm (q : Bool) (d a : BitVec 6) (i : BitVec 12) (s : State) : Done :=
  intOp s q 1 d (minWord (s.s a) (sx i))

/-- `MAX` with an immediate (R129). -/
def execMaxImm (q : Bool) (d a : BitVec 6) (i : BitVec 12) (s : State) : Done :=
  intOp s q 1 d (maxWord (s.s a) (sx i))

/-- `LUI` (R130). -/
def execLui (q : Bool) (d : BitVec 6) (i : BitVec 19) (s : State) : Done :=
  intOp s q 1 d ((i ++ 0#13).signExtend 64)

/-- `BFX`'s field (R131): `w` is the width less one. -/
def bfxWord (v : Word) (p w : Nat) (sx : Bool) : Word :=
  let f := (v >>> p) <<< (63 - w)
  if sx then f.sshiftRight (63 - w) else f >>> (63 - w)

/-- `BFI`'s result (R131). -/
def bfiWord (old v : Word) (p w : Nat) : Word :=
  let m : Word := (ones >>> (63 - w)) <<< p
  (old &&& ~~~m) ||| ((v <<< p) &&& m)

/-- `BFX` (R131). -/
def execBfx (q : Bool) (d a p w : BitVec 6) (x : Bool) (s : State) : Done :=
  intOp s q 1 d (bfxWord (s.s a) p.toNat w.toNat x)

/-- `BFI` (R131). -/
def execBfi (q : Bool) (d a p w : BitVec 6) (s : State) : Done :=
  intOp s q 1 d (bfiWord (s.s d) (s.s a) p.toNat w.toNat)

/-- `SEL` (R132). -/
def execSel (q : Bool) (d a b : BitVec 6) (p : BitVec 4) (s : State) : Done :=
  match psrc s p with
  | .ok m => intOp s q 1 d (if m.getLsbD 0 then s.s a else s.s b)
  | .error t => .next (settle s q (.trap t))

/-- `CMP` (R133). -/
def execCmp (q : Bool) (d : BitVec 4) (a b : BitVec 6) (c : Cond) (s : State) : Done :=
  predOp s q 1 d (.ok (boolMask (condHolds c (s.s a) (s.s b))))

/-- `CMP` with an immediate (R133). -/
def execCmpImm (q : Bool) (d : BitVec 4) (a : BitVec 6) (c : Cond) (i : BitVec 10) (s : State) : Done :=
  predOp s q 1 d (.ok (boolMask (condHolds c (s.s a) (sx i))))

/-- The bitwise table of `PLOG` (R134): bit 2A + B of `t`. -/
def plogWord (a b : Word) (t : BitVec 4) : Word :=
  let on (i : Nat) (m : Word) : Word := if t.getLsbD i then m else 0
  on 0 (~~~a &&& ~~~b) ||| on 1 (~~~a &&& b) ||| on 2 (a &&& ~~~b) ||| on 3 (a &&& b)

/-- `PLOG` (R134). -/
def execPlog (q : Bool) (d a b t : BitVec 4) (s : State) : Done :=
  predOp s q 1 d (do .ok (plogWord (← psrc s a) (← psrc s b) t))

end Sys2Proof.Machine
end

