-- ==== Sys2Proof/Machine/Dispatch.lean ====
section
/-! DEFINITION. The one dispatch: each constructor of Instr to its meaning. -/

namespace Sys2Proof.Machine

/-- The meaning of each instruction. -/
def exec (i : Instr) (s : State) : Host.Outcome State Fault Refusal :=
  match i with
  | .add q d a b => Sys2Proof.Machine.execAdd q d a b s
  | .sub q d a b => Sys2Proof.Machine.execSub q d a b s
  | .mul q d a b => Sys2Proof.Machine.execMul q d a b s
  | .mulh q d a b => Sys2Proof.Machine.execMulh q d a b s
  | .div q d a b => Sys2Proof.Machine.execDiv q d a b s
  | .rem q d a b => Sys2Proof.Machine.execRem q d a b s
  | .and q d a b => Sys2Proof.Machine.execAnd q d a b s
  | .or q d a b => Sys2Proof.Machine.execOr q d a b s
  | .xor q d a b => Sys2Proof.Machine.execXor q d a b s
  | .shl q d a b => Sys2Proof.Machine.execShl q d a b s
  | .shr q d a b => Sys2Proof.Machine.execShr q d a b s
  | .sra q d a b => Sys2Proof.Machine.execSra q d a b s
  | .min q d a b => Sys2Proof.Machine.execMin q d a b s
  | .max q d a b => Sys2Proof.Machine.execMax q d a b s
  | .clz q d a => Sys2Proof.Machine.execClz q d a s
  | .popc q d a => Sys2Proof.Machine.execPopc q d a s
  | .addImm q d a im => Sys2Proof.Machine.execAddImm q d a im s
  | .mulImm q d a im => Sys2Proof.Machine.execMulImm q d a im s
  | .andImm q d a im => Sys2Proof.Machine.execAndImm q d a im s
  | .orImm q d a im => Sys2Proof.Machine.execOrImm q d a im s
  | .xorImm q d a im => Sys2Proof.Machine.execXorImm q d a im s
  | .shlImm q d a n => Sys2Proof.Machine.execShlImm q d a n s
  | .shrImm q d a n => Sys2Proof.Machine.execShrImm q d a n s
  | .sraImm q d a n => Sys2Proof.Machine.execSraImm q d a n s
  | .minImm q d a im => Sys2Proof.Machine.execMinImm q d a im s
  | .maxImm q d a im => Sys2Proof.Machine.execMaxImm q d a im s
  | .lui q d im => Sys2Proof.Machine.execLui q d im s
  | .bfx q d a p w x => Sys2Proof.Machine.execBfx q d a p w x s
  | .bfi q d a p w => Sys2Proof.Machine.execBfi q d a p w s
  | .sel q d a b p => Sys2Proof.Machine.execSel q d a b p s
  | .cmp q d a b c => Sys2Proof.Machine.execCmp q d a b c s
  | .cmpImm q d a c im => Sys2Proof.Machine.execCmpImm q d a c im s
  | .plog q d a b t => Sys2Proof.Machine.execPlog q d a b t s
  | .fadd q d a b r => Sys2Proof.Machine.execFadd q d a b r s
  | .fmul q d a b r => Sys2Proof.Machine.execFmul q d a b r s
  | .fmin q d a b => Sys2Proof.Machine.execFmin q d a b s
  | .fmax q d a b => Sys2Proof.Machine.execFmax q d a b s
  | .fcmp q d a b c => Sys2Proof.Machine.execFcmp q d a b c s
  | .ffma q d a b r => Sys2Proof.Machine.execFfma q d a b r s
  | .fcvt q d a r k e => Sys2Proof.Machine.execFcvt q d a r k e s
  | .xclr q d => Sys2Proof.Machine.execXclr q d s
  | .xmac q d a b => Sys2Proof.Machine.execXmac q d a b s
  | .xadd q d a => Sys2Proof.Machine.execXadd q d a s
  | .xrnd q d a r => Sys2Proof.Machine.execXrnd q d a r s
  | .ld q d a o z => Sys2Proof.Machine.execLd q d a o z s
  | .st q d a o z => Sys2Proof.Machine.execSt q d a o z s
  | .amo q d a b o c w => Sys2Proof.Machine.execAmo q d a b o c w s
  | .spl q d a o z => Sys2Proof.Machine.execSpl q d a o z s
  | .sps q d a o z => Sys2Proof.Machine.execSps q d a o z s
  | .mark q => Sys2Proof.Machine.execMark q s
  | .vld q d a o t => Sys2Proof.Machine.execVld q d a o t s
  | .vst q d a o => Sys2Proof.Machine.execVst q d a o s
  | .vadd q d a b t => Sys2Proof.Machine.execVadd q d a b t s
  | .vmul q d a b t => Sys2Proof.Machine.execVmul q d a b t s
  | .vlog q d a b v => Sys2Proof.Machine.execVlog q d a b v s
  | .vshf q d a b v => Sys2Proof.Machine.execVshf q d a b v s
  | .vfma q d a b => Sys2Proof.Machine.execVfma q d a b s
  | .vcmp q d a b t c => Sys2Proof.Machine.execVcmp q d a b t c s
  | .vsel q d a b p => Sys2Proof.Machine.execVsel q d a b p s
  | .vperm q d a b => Sys2Proof.Machine.execVperm q d a b s
  | .vsplat q d a t => Sys2Proof.Machine.execVsplat q d a t s
  | .vext q d a l => Sys2Proof.Machine.execVext q d a l s
  | .vany q d a => Sys2Proof.Machine.execVany q d a s
  | .vall q d a => Sys2Proof.Machine.execVall q d a s
  | .prep q b o => Sys2Proof.Machine.execPrep q b o s
  | .xfer q p v b => Sys2Proof.Machine.execXfer q p v b s
  | .loopImm q n e => Sys2Proof.Machine.execLoopImm q n e s
  | .loopReg q a e => Sys2Proof.Machine.execLoopReg q a e s
  | .loopb q => Sys2Proof.Machine.execLoopb q s
  | .call q b => Sys2Proof.Machine.execCall q b s
  | .ret q => Sys2Proof.Machine.execRet q s
  | .enter q f => Sys2Proof.Machine.execEnter q f s
  | .trap q c => Sys2Proof.Machine.execTrap q c s
  | .rte q => Sys2Proof.Machine.execRte q s
  | .semsig q d a m => Sys2Proof.Machine.execSemsig q d a m s
  | .semwait q d a => Sys2Proof.Machine.execSemwait q d a s
  | .mtxacq q d => Sys2Proof.Machine.execMtxacq q d s
  | .mtxrel q d => Sys2Proof.Machine.execMtxrel q d s
  | .fork q m => Sys2Proof.Machine.execFork q m s
  | .rdv q m => Sys2Proof.Machine.execRdv q m s
  | .waitc q l so c t => Sys2Proof.Machine.execWaitc q l so c t s
  | .join q m => Sys2Proof.Machine.execJoin q m s
  | .qfence q m => Sys2Proof.Machine.execQfence q m s
  | .bar q c => Sys2Proof.Machine.execBar q c s
  | .csrr q d n => Sys2Proof.Machine.execCsrr q d n s
  | .csrw q d n => Sys2Proof.Machine.execCsrw q d n s
  | .halt q => Sys2Proof.Machine.execHalt q s
  | .evpop q d => Sys2Proof.Machine.execEvpop q d s
  | .rpop q d => Sys2Proof.Machine.execRpop q d s
  | .vrfon q n => Sys2Proof.Machine.execVrfon q n s
  | .tnext q d a p => Sys2Proof.Machine.execTnext q d a p s
  | .nop q => Sys2Proof.Machine.execNop q s
  | .rchk q => Sys2Proof.Machine.execRchk q s
  | .rret q => Sys2Proof.Machine.execRret q s
  | .rcall q num async ctr ops => Sys2Proof.Machine.execRcall q num async ctr ops s
  | .vcvt q d a f => Sys2Proof.Machine.execVcvt q d a f s
  | .vqnt q d a f => Sys2Proof.Machine.execVqnt q d a f s
  | .vdqnt q d a f => Sys2Proof.Machine.execVdqnt q d a f s
  | .vfadd q d a b f => Sys2Proof.Machine.execVfadd q d a b f s
  | .vfsub q d a b f => Sys2Proof.Machine.execVfsub q d a b f s
  | .vfmul q d a b f => Sys2Proof.Machine.execVfmul q d a b f s
  | .vffma q d a b f => Sys2Proof.Machine.execVffma q d a b f s
  | .vfmin q d a b f => Sys2Proof.Machine.execVfmin q d a b f s
  | .vfmax q d a b f => Sys2Proof.Machine.execVfmax q d a b f s
  | .vfabs q d a f => Sys2Proof.Machine.execVfabs q d a f s
  | .vfneg q d a f => Sys2Proof.Machine.execVfneg q d a f s
  | .vclamp q d a b c f => Sys2Proof.Machine.execVclamp q d a b c f s
  | .vsadd q d a b f => Sys2Proof.Machine.execVsadd q d a b f s
  | .vssub q d a b f => Sys2Proof.Machine.execVssub q d a b f s
  | .vsmul q d a b f => Sys2Proof.Machine.execVsmul q d a b f s
  | .vidot q d a b f => Sys2Proof.Machine.execVidot q d a b f s
  | .vscale q d a b f => Sys2Proof.Machine.execVscale q d a b f s
  | .vtag q d a f => Sys2Proof.Machine.execVtag q d a f s
  | .vpack q d a f => Sys2Proof.Machine.execVpack q d a f s
  | .vunpk q d a f => Sys2Proof.Machine.execVunpk q d a f s
  | .vzip q d a b f => Sys2Proof.Machine.execVzip q d a b f s
  | .vuzp q d a b f => Sys2Proof.Machine.execVuzp q d a b f s
  | .vshuf q d a im f => Sys2Proof.Machine.execVshuf q d a im f s
  | .vcompr q d c a p => Sys2Proof.Machine.execVcompr q d c a p s
  | .vexpnd q d a p => Sys2Proof.Machine.execVexpnd q d a p s
  | .vscan q d a f => Sys2Proof.Machine.execVscan q d a f s
  | .viota q d a b => Sys2Proof.Machine.execViota q d a b s
  | .vrsum q d a p f => Sys2Proof.Machine.execVrsum q d a p f s
  | .vrmax q d x a p f => Sys2Proof.Machine.execVrmax q d x a p f s
  | .vrmin q d x a p f => Sys2Proof.Machine.execVrmin q d x a p f s
  | .vrdot q d a b p f => Sys2Proof.Machine.execVrdot q d a b p f s
  | .vexp q d a f => Sys2Proof.Machine.execVexp q d a f s
  | .vexp2 q d a f => Sys2Proof.Machine.execVexp2 q d a f s
  | .vlog2 q d a f => Sys2Proof.Machine.execVlog2 q d a f s
  | .vrcp q d a f => Sys2Proof.Machine.execVrcp q d a f s
  | .vrsqrt q d a f => Sys2Proof.Machine.execVrsqrt q d a f s
  | .vsqrt q d a f => Sys2Proof.Machine.execVsqrt q d a f s
  | .vtanh q d a f => Sys2Proof.Machine.execVtanh q d a f s
  | .vsigm q d a f => Sys2Proof.Machine.execVsigm q d a f s
  | .vgelu q d a f => Sys2Proof.Machine.execVgelu q d a f s
  | .vsilu q d a f => Sys2Proof.Machine.execVsilu q d a f s
  | .vsoftmx q d a n so f => Sys2Proof.Machine.execVsoftmx q d a n so f s
  | .vexpsum q d a n f => Sys2Proof.Machine.execVexpsum q d a n f s
  | .vnormst q d e a n f => Sys2Proof.Machine.execVnormst q d e a n f s
  | .vnormap q d a so t n e f => Sys2Proof.Machine.execVnormap q d a so t n e f s
  | .vtopk q d x a k b f => Sys2Proof.Machine.execVtopk q d x a k b f s
  | .vtopka q d x a k b f => Sys2Proof.Machine.execVtopka q d x a k b f s
  | .vsort q d x a f => Sys2Proof.Machine.execVsort q d x a f s
  | .vmerge q d e a b f => Sys2Proof.Machine.execVmerge q d e a b f s
  | .vmpsrch q d a b l g f => Sys2Proof.Machine.execVmpsrch q d a b l g f s
  | .vrsums q d a p f => Sys2Proof.Machine.execVrsums q d a p f s
  | .mdesc q d w0 w1 w2 w3 => Sys2Proof.Machine.execMdesc q d w0 w1 w2 w3 s
  | .mnest q lvl cnt ab c => Sys2Proof.Machine.execMnest q lvl cnt ab c s
  | .mgo q qa qb c org job sem => Sys2Proof.Machine.execMgo q qa qb c org job sem s
  | .acalloc q c g f => Sys2Proof.Machine.execAcalloc q c g f s
  | .acfree q c => Sys2Proof.Machine.execAcfree q c s
  | .acown q c grp band => Sys2Proof.Machine.execAcown q c grp band s
  | .mzero q c reg job sem => Sys2Proof.Machine.execMzero q c reg job sem s
  | .mldacc q c qs reg job sem => Sys2Proof.Machine.execMldacc q c qs reg job sem s
  | .mdrain q c qd reg f job sem => Sys2Proof.Machine.execMdrain q c qd reg f job sem s
  | .mpeer q c dst reg f job sem => Sys2Proof.Machine.execMpeer q c dst reg f job sem s
  | .mstat q d k => Sys2Proof.Machine.execMstat q d k s
  | .mcast q mc => Sys2Proof.Machine.execMcast q mc s
  | .mscale q mode v => Sys2Proof.Machine.execMscale q mode v s
  | .mbias q mode v => Sys2Proof.Machine.execMbias q mode v s
  | .mqflush q => Sys2Proof.Machine.execMqflush q s
  | .sphdr q a lo hi => Sys2Proof.Machine.execSphdr q a lo hi s
  | .spchk q d qa => Sys2Proof.Machine.execSpchk q d qa s
  | .spprune q qd qs opt => Sys2Proof.Machine.execSpprune q qd qs opt s
  | .spxpose q qd qs => Sys2Proof.Machine.execSpxpose q qd qs s
  | .spgath q opd im n => Sys2Proof.Machine.execSpgath q opd im n s
  | .spcost q d nm dim f => Sys2Proof.Machine.execSpcost q d nm dim f s
  | .spattach q qd hdr => Sys2Proof.Machine.execSpattach q qd hdr s
  | .cpy q dst src shape job sem => Sys2Proof.Machine.execCpy q dst src shape job sem s
  | .cpyg q dst src idx cnt shape job sem => Sys2Proof.Machine.execCpyg q dst src idx cnt shape job sem s
  | .cpys q dst src idx cnt shape job sem => Sys2Proof.Machine.execCpys q dst src idx cnt shape job sem s
  | .cpysa q dst src idx cnt shape job sem => Sys2Proof.Machine.execCpysa q dst src idx cnt shape job sem s
  | .cpyf q dst pat shape job sem => Sys2Proof.Machine.execCpyf q dst pat shape job sem s
  | .cpyc q dst src shape side f job sem => Sys2Proof.Machine.execCpyc q dst src shape side f job sem s
  | .cpyw q dst src len f job sem => Sys2Proof.Machine.execCpyw q dst src len f job sem s
  | .cpyres q tag job sem => Sys2Proof.Machine.execCpyres q tag job sem s
  | .cpyabt q mode arg => Sys2Proof.Machine.execCpyabt q mode arg s
  | .qpush q k src job sem => Sys2Proof.Machine.execQpush q k src job sem s
  | .qpop q dst k job sem => Sys2Proof.Machine.execQpop q dst k job sem s
  | .qflush q k job sem => Sys2Proof.Machine.execQflush q k job sem s
  | .rgmap q e sp va len => Sys2Proof.Machine.execRgmap q e sp va len s
  | .rgflush q e job sem => Sys2Proof.Machine.execRgflush q e job sem s
  | .rgdrop q e job sem => Sys2Proof.Machine.execRgdrop q e job sem s
  | .evarm q opts => Sys2Proof.Machine.execEvarm q opts s
  | .cpy2d q dst src geom strides job sem => Sys2Proof.Machine.execCpy2d q dst src geom strides job sem s
  | .slcfg q a n => Sys2Proof.Machine.execSlcfg q a n s
  | .slq q a layer => Sys2Proof.Machine.execSlq q a layer s
  | .slsum q first count job sem => Sys2Proof.Machine.execSlsum q first count job sem s
  | .slscore q first count out job sem => Sys2Proof.Machine.execSlscore q first count out job sem s
  | .sltopk q dst k job sem => Sys2Proof.Machine.execSltopk q dst k job sem s
  | .slforce q a n => Sys2Proof.Machine.execSlforce q a n s
  | .slfetch q dk dv opt job sem => Sys2Proof.Machine.execSlfetch q dk dv opt job sem s
  | .slres q mode => Sys2Proof.Machine.execSlres q mode s
  | .tmmul q d t => Sys2Proof.Machine.execTmmul q d t s
  | .tspmul q d t => Sys2Proof.Machine.execTspmul q d t s
  | .tewise q d t => Sys2Proof.Machine.execTewise q d t s
  | .tred q d t => Sys2Proof.Machine.execTred q d t s
  | .tcopy q d t => Sys2Proof.Machine.execTcopy q d t s
  | .tattn q d t => Sys2Proof.Machine.execTattn q d t s
  | .tstage q t ch => Sys2Proof.Machine.execTstage q t ch s
  | .tdisp q t ch => Sys2Proof.Machine.execTdisp q t ch s
  | .twait q d => Sys2Proof.Machine.execTwait q d s
  | .tfault q d a => Sys2Proof.Machine.execTfault q d a s
  | .ringf d a b => Sys2Proof.Machine.execRingf d a b s
  | .fbfx d a b => Sys2Proof.Machine.execFbfx d a b s
  | .sigw d a => Sys2Proof.Machine.execSigw d a s
  | .disp d a => Sys2Proof.Machine.execDisp d a s
  | .pendingResultLands w => Sys2Proof.Machine.execPendingResultLands w s
  | .asyncLoadPerformed w => Sys2Proof.Machine.execAsyncLoadPerformed w s
  | .storePerformed w => Sys2Proof.Machine.execStorePerformed w s
  | .registerWindowWriteLands core => Sys2Proof.Machine.execRegisterWindowWriteLands core s
  | .semaphoreWordStore core off v => Sys2Proof.Machine.execSemaphoreWordStore core off v s
  | .mutexWordCas agent core off e v => Sys2Proof.Machine.execMutexWordCas agent core off e v s
  | .mutexWordRelease agent core off => Sys2Proof.Machine.execMutexWordRelease agent core off s
  | .semsigIncrementPerformed w => Sys2Proof.Machine.execSemsigIncrementPerformed w s
  | .clusterWakeComplete w k => Sys2Proof.Machine.execClusterWakeComplete w k s
  | .queueFrameOpen core res fifo => Sys2Proof.Machine.execQueueFrameOpen core res fifo s
  | .queueFrameTrap w => Sys2Proof.Machine.execQueueFrameTrap w s
  | .mgoEntryRun core res => Sys2Proof.Machine.execMgoEntryRun core res s
  | .mzeroEntryRun core res => Sys2Proof.Machine.execMzeroEntryRun core res s
  | .mldaccEntryRun core res => Sys2Proof.Machine.execMldaccEntryRun core res s
  | .mdrainEntryRun core res => Sys2Proof.Machine.execMdrainEntryRun core res s
  | .mpeerEntryRun core res => Sys2Proof.Machine.execMpeerEntryRun core res s
  | .tileStatusVisible core => Sys2Proof.Machine.execTileStatusVisible core s
  | .cpyJobRun core res fifo => Sys2Proof.Machine.execCpyJobRun core res fifo s
  | .cpygJobRun core res fifo => Sys2Proof.Machine.execCpygJobRun core res fifo s
  | .cpysJobRun core res fifo => Sys2Proof.Machine.execCpysJobRun core res fifo s
  | .cpysaJobRun core res fifo => Sys2Proof.Machine.execCpysaJobRun core res fifo s
  | .cpyfJobRun core res fifo => Sys2Proof.Machine.execCpyfJobRun core res fifo s
  | .cpycJobRun core res fifo => Sys2Proof.Machine.execCpycJobRun core res fifo s
  | .cpywJobRun core res fifo => Sys2Proof.Machine.execCpywJobRun core res fifo s
  | .cpyresJobRun core res fifo => Sys2Proof.Machine.execCpyresJobRun core res fifo s
  | .qpushJobRun core res fifo => Sys2Proof.Machine.execQpushJobRun core res fifo s
  | .qpopJobRun core res fifo => Sys2Proof.Machine.execQpopJobRun core res fifo s
  | .qflushJobRun core res fifo => Sys2Proof.Machine.execQflushJobRun core res fifo s
  | .rgflushJobRun core res fifo => Sys2Proof.Machine.execRgflushJobRun core res fifo s
  | .rgdropJobRun core res fifo => Sys2Proof.Machine.execRgdropJobRun core res fifo s
  | .fetchJobRun core res => Sys2Proof.Machine.execFetchJobRun core res s
  | .slqEntryRun core res => Sys2Proof.Machine.execSlqEntryRun core res s
  | .slsumEntryRun core res => Sys2Proof.Machine.execSlsumEntryRun core res s
  | .slscoreEntryRun core res => Sys2Proof.Machine.execSlscoreEntryRun core res s
  | .sltopkEntryRun core res => Sys2Proof.Machine.execSltopkEntryRun core res s
  | .slforceEntryRun core res => Sys2Proof.Machine.execSlforceEntryRun core res s
  | .slfetchEntryRun core res => Sys2Proof.Machine.execSlfetchEntryRun core res s
  | .slresEntryRun core res => Sys2Proof.Machine.execSlresEntryRun core res s
  | .launchStart l => Sys2Proof.Machine.execLaunchStart l s
  | .launchComplete l => Sys2Proof.Machine.execLaunchComplete l s
  | .sheepdogWeightUpdate => Sys2Proof.Machine.execSheepdogWeightUpdate s
  | .preemption l => Sys2Proof.Machine.execPreemption l s
  | .contextSwapOut l => Sys2Proof.Machine.execContextSwapOut l s
  | .launchResume l => Sys2Proof.Machine.execLaunchResume l s
  | .launchFatalFault w cls addr => Sys2Proof.Machine.execLaunchFatalFault w cls addr s
  | .softErrorCorrection r ms => Sys2Proof.Machine.execSoftErrorCorrection r ms s
  | .uncorrectableError r hits addr => Sys2Proof.Machine.execUncorrectableError r hits addr s
  | .pageWalkComplete res asid va => Sys2Proof.Machine.execPageWalkComplete res asid va s
  | .firstTouchFill core res chunk => Sys2Proof.Machine.execFirstTouchFill core res chunk s
  | .invalidationGo fn => Sys2Proof.Machine.execInvalidationGo fn s
  | .invalidationComplete fn => Sys2Proof.Machine.execInvalidationComplete fn s
  | .migrationEpoch => Sys2Proof.Machine.execMigrationEpoch s
  | .migrationRequest asid va cls byHost => Sys2Proof.Machine.execMigrationRequest asid va cls byHost s
  | .migrationSwitch asid va => Sys2Proof.Machine.execMigrationSwitch asid va s
  | .pageCounterQuery => Sys2Proof.Machine.execPageCounterQuery s
  | .tileInstructionStart x => Sys2Proof.Machine.execTileInstructionStart x s
  | .quadInboxWrite quad privileged tcb => Sys2Proof.Machine.execQuadInboxWrite quad privileged tcb s
  | .childCompletion x => Sys2Proof.Machine.execChildCompletion x s
  | .tileDiscardStop node => Sys2Proof.Machine.execTileDiscardStop node s
  | .doorbellWrite off size v => Sys2Proof.Machine.execDoorbellWrite off size v s
  | .graphTrigger fn n v => Sys2Proof.Machine.execGraphTrigger fn n v s
  | .graphRerun n => Sys2Proof.Machine.execGraphRerun n s
  | .attestationRequest fn => Sys2Proof.Machine.execAttestationRequest fn s
  | .quarantineClear fn k v => Sys2Proof.Machine.execQuarantineClear fn k v s
  | .substitutionEnWrite fn n v => Sys2Proof.Machine.execSubstitutionEnWrite fn n v s
  | .islandClockChange island mhz gated => Sys2Proof.Machine.execIslandClockChange island mhz gated s
  | .linkPortFailure port => Sys2Proof.Machine.execLinkPortFailure port s
  | .shadowContainerWrite core privileged off v => Sys2Proof.Machine.execShadowContainerWrite core privileged off v s
  | .stopreq core => Sys2Proof.Machine.execStopreq core s
  | .resume core => Sys2Proof.Machine.execResume core s
  | .arm core => Sys2Proof.Machine.execArm core s
  | .tfifoPop core => Sys2Proof.Machine.execTfifoPop core s
  | .traceSample core => Sys2Proof.Machine.execTraceSample core s
  | .traceBufferWrite core => Sys2Proof.Machine.execTraceBufferWrite core s
  | .registerWrite fn off v => Sys2Proof.Machine.execRegisterWrite fn off v s
  | .reservedEncoding w => Sys2Proof.Machine.execReservedEncoding w s
  | .forwardedAccess src addr op => Sys2Proof.Machine.execForwardedAccess src addr op s
  | .barPodArrival l seat => Sys2Proof.Machine.execBarPodArrival l seat s
  | .boot imageOk => Sys2Proof.Machine.execBoot imageOk s
  | .graphLoad n owner nodes => Sys2Proof.Machine.execGraphLoad n owner nodes s
  | .graphNodeComplete n => Sys2Proof.Machine.execGraphNodeComplete n s

end Sys2Proof.Machine
end

