-- ==== Sys2Proof/Machine/Rv64.lean ====
section
/-! DEFINITION. The RV64 of the firmware cores (R419): the integer base, the control and status registers, the traps and the interrupts of machine,
supervisor and user mode. The manual names the architecture and the modes only, so all of this is the RISC-V architecture's (log entry 4). -/

namespace Sys2Proof.Machine

/-! ## Words -/

/-- The register fields of a word: the destination and the two sources. -/
def rvRd (w : W32) : BitVec 5 := w.extractLsb' 7 5
def rvRs1 (w : W32) : BitVec 5 := w.extractLsb' 15 5
def rvRs2 (w : W32) : BitVec 5 := w.extractLsb' 20 5

/-- The function fields. -/
def rvF3 (w : W32) : Nat := (w.extractLsb' 12 3).toNat
def rvF7 (w : W32) : Nat := (w.extractLsb' 25 7).toNat

/-- The immediates of the formats I, S, B, U and J. -/
def rvImmI (w : W32) : Word := (w.extractLsb' 20 12).signExtend 64
def rvImmS (w : W32) : Word := (w.extractLsb' 25 7 ++ w.extractLsb' 7 5).signExtend 64
def rvImmB (w : W32) : Word := (w.extractLsb' 31 1 ++ w.extractLsb' 7 1 ++ w.extractLsb' 25 6 ++ w.extractLsb' 8 4 ++ 0#1).signExtend 64
def rvImmU (w : W32) : Word := (w.extractLsb' 12 20 ++ 0#12).signExtend 64
def rvImmJ (w : W32) : Word := (w.extractLsb' 31 1 ++ w.extractLsb' 12 8 ++ w.extractLsb' 20 1 ++ w.extractLsb' 21 10 ++ 0#1).signExtend 64

/-! ## Arithmetic -/

/-- The operation of function `f3` on 64 bits; `alt` is the subtraction or the arithmetic shift. -/
def rvAlu (f3 : Nat) (alt : Bool) (a b : Word) : Word :=
  match f3 with
  | 0 => if alt then a - b else a + b
  | 1 => a <<< (b.toNat % 64)
  | 2 => if a.slt b then 1 else 0
  | 3 => if a.ult b then 1 else 0
  | 4 => a ^^^ b
  | 5 => if alt then a.sshiftRight (b.toNat % 64) else a >>> (b.toNat % 64)
  | 6 => a ||| b
  | _ => a &&& b

/-- The operation on the low 32 bits, its result extended by its sign; there is one for three functions. -/
def rvAluW (f3 : Nat) (alt : Bool) (a b : Word) : Option Word :=
  let x := a.setWidth 32
  let y := b.setWidth 32
  let n := b.toNat % 32
  let put (v : BitVec 32) : Option Word := some (v.signExtend 64)
  match f3 with
  | 0 => put (if alt then x - y else x + y)
  | 1 => if alt then none else put (x <<< n)
  | 5 => put (if alt then x.sshiftRight n else x >>> n)
  | _ => none

/-- Whether a branch of function `f3` is taken. -/
def rvTaken (f3 : Nat) (a b : Word) : Option Bool :=
  match f3 with
  | 0 => some (a == b)
  | 1 => some (a != b)
  | 4 => some (a.slt b)
  | 5 => some (!a.slt b)
  | 6 => some (a.ult b)
  | 7 => some (!a.ult b)
  | _ => none

/-! ## Memory: the core's own below the on-chip map, and the windows of the cores (R19, R21) -/

/-- The firmware core's own memory lies below the on-chip map. -/
def rvOwn (a : Word) : Bool := a.toNat < 2 ^ 56

/-- A load of `n` bytes. -/
def rvLoad (s : State) (a : Word) (n : Nat) : Option (List Byte) × State :=
  if rvOwn a then (some ((List.range n).map fun i => rdByte s.fw.mem (addrAt a i)), s)
  else match agRead s (firmwareAg 0) a n .load with | (.ok bs, s) => (some bs, s) | (.error _, s) => (none, s)

/-- A store of bytes. -/
def rvStore (s : State) (a : Word) (bs : List Byte) : Bool × State :=
  if rvOwn a then (true, { s with fw := { s.fw with mem := (bs.zipIdx).foldl (fun m x => wrByte m (addrAt a x.2) x.1) s.fw.mem } })
  else match agWrite s (firmwareAg 0) a bs .store with | (.ok (), s) => (true, s) | (.error _, s) => (false, s)

/-! ## Control and status registers -/

/-- The bits of a trap status that supervisor mode sees, and all that there are. -/
def sstatusBits : Word := 0xC0122
def mstatusBits : Word := 0x7E19AA

/-- The interrupts that can be delegated, and so those that software can make pending. -/
def sInterrupts : Word := 0x222

/-- Every interrupt. -/
def rvInterrupts : Word := 0xAAA

/-- The pending interrupts: what software set, and the core's lines. -/
def mipNow (s : State) : Word := (s.fw.mip &&& sInterrupts) ||| (Config.firmwareLines s.cycle &&& (rvInterrupts &&& ~~~sInterrupts))

/-- Whether a counter may be read in the core's mode. -/
def counterOpen (s : State) (n : Nat) : Bool :=
  s.fw.mode = 3 || (s.fw.mcounteren.getLsbD n && (s.fw.mode = 1 || s.fw.scounteren.getLsbD n))

/-- The cycle counter. -/
def rvCycle (s : State) : Word := BitVec.ofNat 64 s.cycle + s.fw.mcycle

/-- The value of a control register that is there and may be read as it stands. -/
def rvCsr (s : State) (n : Nat) : Option Word :=
  let f := s.fw
  match n with
  | 0x100 => some ((f.mstatus &&& sstatusBits) ||| 0x200000000)
  | 0x104 => some (f.mie &&& f.mideleg)
  | 0x105 => some f.stvec
  | 0x106 => some (f.scounteren.setWidth 64)
  | 0x10A => some 0
  | 0x140 => some f.sscratch
  | 0x141 => some f.sepc
  | 0x142 => some f.scause
  | 0x143 => some f.stval
  | 0x144 => some (mipNow s &&& f.mideleg)
  | 0x180 => if f.mode = 1 && f.mstatus.getLsbD 20 then none else some 0
  | 0x300 => some ((f.mstatus &&& mstatusBits) ||| 0xA00000000)
  | 0x301 => some 0x8000000000140100
  | 0x302 => some f.medeleg
  | 0x303 => some f.mideleg
  | 0x304 => some f.mie
  | 0x305 => some f.mtvec
  | 0x306 => some (f.mcounteren.setWidth 64)
  | 0x30A => some 0
  | 0x320 => some 0
  | 0x340 => some f.mscratch
  | 0x341 => some f.mepc
  | 0x342 => some f.mcause
  | 0x343 => some f.mtval
  | 0x344 => some (mipNow s)
  | 0xB00 => some (rvCycle s)
  | 0xB02 => some f.minstret
  | 0xC00 => if counterOpen s 0 then some (rvCycle s) else none
  | 0xC02 => if counterOpen s 2 then some f.minstret else none
  | 0xF11 | 0xF12 | 0xF13 | 0xF14 | 0xF15 => some 0
  | _ => if (0x323 ≤ n && n < 0x340) || (0xB03 ≤ n && n < 0xB20) then some 0 else none

/-- The bits of `old` outside a mask, and those of `v` inside. -/
def maskedIn (old v mask : Word) : Word := (old &&& ~~~mask) ||| (v &&& mask)

/-- A trap status written: a previous mode that is none keeps the old one. -/
def mstatusWith (old v : Word) : Word :=
  let x := v &&& mstatusBits
  if fld x.toNat 11 2 = 2 then withField x 11 2 (fld old.toNat 11 2) else x

/-- A control register written; those that hold nothing ignore it. -/
def rvCsrWrite (f : Firmware) (cycle n : Nat) (v : Word) : Firmware :=
  match n with
  | 0x100 => { f with mstatus := maskedIn f.mstatus v sstatusBits }
  | 0x104 => { f with mie := maskedIn f.mie v (f.mideleg &&& sInterrupts) }
  | 0x105 => { f with stvec := v &&& ~~~2 }
  | 0x106 => { f with scounteren := v.setWidth 32 }
  | 0x140 => { f with sscratch := v }
  | 0x141 => { f with sepc := v &&& ~~~3 }
  | 0x142 => { f with scause := v }
  | 0x143 => { f with stval := v }
  | 0x144 => { f with mip := maskedIn f.mip v (f.mideleg &&& 2) }
  | 0x300 => { f with mstatus := mstatusWith f.mstatus v }
  | 0x302 => { f with medeleg := v &&& 0xB3FF }
  | 0x303 => { f with mideleg := v &&& sInterrupts }
  | 0x304 => { f with mie := v &&& rvInterrupts }
  | 0x305 => { f with mtvec := v &&& ~~~2 }
  | 0x306 => { f with mcounteren := v.setWidth 32 }
  | 0x340 => { f with mscratch := v }
  | 0x341 => { f with mepc := v &&& ~~~3 }
  | 0x342 => { f with mcause := v }
  | 0x343 => { f with mtval := v }
  | 0x344 => { f with mip := v &&& sInterrupts }
  | 0xB00 => { f with mcycle := v - BitVec.ofNat 64 cycle }
  | 0xB02 => { f with minstret := v }
  | _ => f

/-- A control-register instruction: the old value into a register and a new one, unless it writes none; a register that is not there, a mode too low and
a write of one that is read only are illegal. -/
def rvCsrOp (w : W32) (s : State) : State :=
  let n := (w.extractLsb' 20 12).toNat
  let x := if 4 ≤ rvF3 w then (rvRs1 w).setWidth 64 else fwReg s (rvRs1 w)
  let swap := rvF3 w % 4 = 1
  let writes := swap || rvRs1 w ≠ 0
  match rvCsr s n with
  | none => fwTrap s 2
  | some old =>
    if s.fw.mode.toNat < fld n 8 2 || (writes && fld n 10 2 = 3) then fwTrap s 2
    else
      let new := if swap then x else if rvF3 w % 4 = 2 then old ||| x else old &&& ~~~x
      let s' := fwNext s (rvRd w) old
      if writes then { s' with fw := rvCsrWrite s'.fw s.cycle n new } else s'

/-! ## Interrupts and returns -/

/-- The interrupt that the core takes before its next instruction, if any, and whether into supervisor mode. -/
def rvInterrupt (s : State) : Option (Nat × Bool) :=
  let f := s.fw
  let m := if f.mode ≠ 3 || f.mstatus.getLsbD 3 then f.mie &&& ~~~f.mideleg else 0
  let v := if f.mode = 0 || (f.mode = 1 && f.mstatus.getLsbD 1) then f.mie &&& f.mideleg else 0
  if m = 0 && v = 0 then none
  else
    let p := mipNow s
    match [11, 3, 7, 9, 1, 5].find? fun k => (p &&& m).getLsbD k with
    | some k => some (k, false)
    | none => ([9, 1, 5].find? fun k => (p &&& v).getLsbD k).map (·, true)

/-- `MRET`: the mode and the interrupt enable that the trap saved; a mode below the machine's clears MPRV. -/
def rvMret (s : State) : State :=
  let f := s.fw
  let mpp := fld f.mstatus.toNat 11 2
  let st := withField (withField (withField f.mstatus 3 1 (fld f.mstatus.toNat 7 1)) 7 1 1) 11 2 0
  { s with fw := { f with mode := BitVec.ofNat 2 mpp, pc := f.mepc, minstret := f.minstret + 1, mstatus := if mpp = 3 then st else withField st 17 1 0 } }

/-- `SRET`. -/
def rvSret (s : State) : State :=
  let f := s.fw
  let st := withField (withField (withField f.mstatus 1 1 (fld f.mstatus.toNat 5 1)) 5 1 1) 8 1 0
  { s with fw := { f with mode := BitVec.ofNat 2 (fld f.mstatus.toNat 8 1), pc := f.sepc, minstret := f.minstret + 1, mstatus := withField st 17 1 0 } }

/-! ## Execution -/

/-- A jump or a taken branch; a target that is no multiple of 4 traps at the jump. -/
def rvJump (s : State) (d : BitVec 5) (t : Word) : State :=
  if t.toNat % 4 ≠ 0 then fwTrap s 0 t else fwGoto s d (s.fw.pc + 4) t

/-- The words of the system major with function 0: calls, breakpoints, returns, `WFI` and `SFENCE.VMA`. -/
def rvSystem (w : W32) (s : State) : State :=
  let st := s.fw.mstatus
  let mode := s.fw.mode
  if w = 0x00000073 then fwTrap s (8 + mode.toNat)
  else if w = 0x00100073 then fwTrap s 3 s.fw.pc
  else if w = 0x30200073 && mode = 3 then rvMret s
  else if w = 0x10200073 && (mode = 3 || (mode = 1 && !st.getLsbD 22)) then rvSret s
  else if w = 0x10500073 && (mode = 3 || (mode = 1 && !st.getLsbD 21)) then fwNext s 0 0
  else if rvF7 w = 9 && rvRd w = 0 && (mode = 3 || (mode = 1 && !st.getLsbD 20)) then fwNext s 0 0
  else fwTrap s 2

/-- The effect of a word that is none of the core's own four (R419): an RV64 instruction, or an illegal instruction. -/
def rvExec (w : W32) (s : State) : State :=
  let f3 := rvF3 w
  let f7 := rvF7 w
  let d := rvRd w
  let a := fwReg s (rvRs1 w)
  let b := fwReg s (rvRs2 w)
  let alt := f7 = 0x20
  let bad := fwTrap s 2
  let put (v : Option Word) : State := match v with | some v => fwNext s d v | none => bad
  match (w.extractLsb' 0 7).toNat with
  | 0x37 => fwNext s d (rvImmU w)
  | 0x17 => fwNext s d (s.fw.pc + rvImmU w)
  | 0x6F => rvJump s d (s.fw.pc + rvImmJ w)
  | 0x67 => if f3 = 0 then rvJump s d ((a + rvImmI w) &&& ~~~1) else bad
  | 0x63 =>
    match rvTaken f3 a b with
    | none => bad
    | some t => if t then rvJump s 0 (s.fw.pc + rvImmB w) else fwNext s 0 0
  | 0x03 =>
    if f3 = 7 then bad
    else
      let n := 2 ^ (f3 % 4)
      let va := a + rvImmI w
      match rvLoad s va n with
      | (some bs, s) => fwNext s d (extendTo n (f3 < 4) bs)
      | (none, s) => fwTrap s 5 va
  | 0x23 =>
    if 4 ≤ f3 then bad
    else
      let va := a + rvImmS w
      match rvStore s va (leBytes (2 ^ f3) b.toNat) with
      | (true, s) => fwNext s 0 0
      | (false, s) => fwTrap s 7 va
  | 0x13 =>
    let n := f7 / 2
    if f3 = 1 then (if n = 0 then fwNext s d (rvAlu 1 false a (rvImmI w)) else bad)
    else if f3 = 5 then (if n = 0 || n = 0x10 then fwNext s d (rvAlu 5 (n = 0x10) a (rvImmI w)) else bad)
    else fwNext s d (rvAlu f3 false a (rvImmI w))
  | 0x1B => if f3 = 0 then put (rvAluW 0 false a (rvImmI w)) else if f7 = 0 || (alt && f3 = 5) then put (rvAluW f3 alt a (rvImmI w)) else bad
  | 0x33 => if f7 = 0 || (alt && (f3 = 0 || f3 = 5)) then fwNext s d (rvAlu f3 alt a b) else bad
  | 0x3B => if f7 = 0 || alt then put (rvAluW f3 alt a b) else bad
  | 0x0F => if f3 ≤ 1 then fwNext s 0 0 else bad
  | 0x73 => if f3 = 0 then rvSystem w s else if f3 = 4 then bad else rvCsrOp w s
  | _ => bad

end Sys2Proof.Machine
end

