-- ==== Sys2Proof/Machine/Sched.lean ====
section
/-! DEFINITION. Which step comes next (log entry 1): fetching an instruction (R19, R48, R221), the grant of issue slots (R41), the steps of the
device that are due, and the end of a cycle. The meaning of an instruction is a parameter here. -/

namespace Sys2Proof.Machine

/-! ## Steps of the device -/

/-- The meaning of a step of the device or of the outside world. -/
def runEv (e : Ev) (s : State) : Done :=
  match e with
  | .pendingResultLands w => execPendingResultLands w s
  | .asyncLoadPerformed w => execAsyncLoadPerformed w s
  | .storePerformed w => execStorePerformed w s
  | .registerWindowWriteLands core => execRegisterWindowWriteLands core s
  | .semaphoreWordStore core off v => execSemaphoreWordStore core off v s
  | .mutexWordCas agent core off e v => execMutexWordCas agent core off e v s
  | .mutexWordRelease agent core off => execMutexWordRelease agent core off s
  | .semsigIncrementPerformed w => execSemsigIncrementPerformed w s
  | .clusterWakeComplete w k => execClusterWakeComplete w k s
  | .queueFrameOpen core res fifo => execQueueFrameOpen core res fifo s
  | .queueFrameTrap w => execQueueFrameTrap w s
  | .mgoEntryRun core res => execMgoEntryRun core res s
  | .mzeroEntryRun core res => execMzeroEntryRun core res s
  | .mldaccEntryRun core res => execMldaccEntryRun core res s
  | .mdrainEntryRun core res => execMdrainEntryRun core res s
  | .mpeerEntryRun core res => execMpeerEntryRun core res s
  | .tileStatusVisible core => execTileStatusVisible core s
  | .cpyJobRun core res fifo => execCpyJobRun core res fifo s
  | .cpygJobRun core res fifo => execCpygJobRun core res fifo s
  | .cpysJobRun core res fifo => execCpysJobRun core res fifo s
  | .cpysaJobRun core res fifo => execCpysaJobRun core res fifo s
  | .cpyfJobRun core res fifo => execCpyfJobRun core res fifo s
  | .cpycJobRun core res fifo => execCpycJobRun core res fifo s
  | .cpywJobRun core res fifo => execCpywJobRun core res fifo s
  | .cpyresJobRun core res fifo => execCpyresJobRun core res fifo s
  | .qpushJobRun core res fifo => execQpushJobRun core res fifo s
  | .qpopJobRun core res fifo => execQpopJobRun core res fifo s
  | .qflushJobRun core res fifo => execQflushJobRun core res fifo s
  | .rgflushJobRun core res fifo => execRgflushJobRun core res fifo s
  | .rgdropJobRun core res fifo => execRgdropJobRun core res fifo s
  | .fetchJobRun core res => execFetchJobRun core res s
  | .slqEntryRun core res => execSlqEntryRun core res s
  | .slsumEntryRun core res => execSlsumEntryRun core res s
  | .slscoreEntryRun core res => execSlscoreEntryRun core res s
  | .sltopkEntryRun core res => execSltopkEntryRun core res s
  | .slforceEntryRun core res => execSlforceEntryRun core res s
  | .slfetchEntryRun core res => execSlfetchEntryRun core res s
  | .slresEntryRun core res => execSlresEntryRun core res s
  | .launchStart l => execLaunchStart l s
  | .launchComplete l => execLaunchComplete l s
  | .sheepdogWeightUpdate => execSheepdogWeightUpdate s
  | .preemption l => execPreemption l s
  | .contextSwapOut l => execContextSwapOut l s
  | .launchResume l => execLaunchResume l s
  | .launchFatalFault w cls addr => execLaunchFatalFault w cls addr s
  | .softErrorCorrection r ms => execSoftErrorCorrection r ms s
  | .uncorrectableError r hits addr => execUncorrectableError r hits addr s
  | .pageWalkComplete res asid va => execPageWalkComplete res asid va s
  | .firstTouchFill core res chunk => execFirstTouchFill core res chunk s
  | .invalidationGo fn => execInvalidationGo fn s
  | .invalidationComplete fn => execInvalidationComplete fn s
  | .migrationEpoch => execMigrationEpoch s
  | .migrationRequest asid va cls byHost => execMigrationRequest asid va cls byHost s
  | .migrationSwitch asid va => execMigrationSwitch asid va s
  | .pageCounterQuery => execPageCounterQuery s
  | .tileInstructionStart node => execTileInstructionStart (.inbox node) s
  | .quadInboxWrite quad privileged tcb => execQuadInboxWrite quad privileged tcb s
  | .childCompletion node => execChildCompletion (.own node) s
  | .tileDiscardStop node => execTileDiscardStop node s
  | .doorbellWrite off size v => execDoorbellWrite off size v s
  | .graphTrigger fn n v => execGraphTrigger fn n v s
  | .graphRerun n => execGraphRerun n s
  | .attestationRequest fn => execAttestationRequest fn s
  | .quarantineClear fn k v => execQuarantineClear fn k v s
  | .substitutionEnWrite fn n v => execSubstitutionEnWrite fn n v s
  | .islandClockChange island mhz gated => execIslandClockChange island mhz gated s
  | .linkPortFailure port => execLinkPortFailure port s
  | .shadowContainerWrite core privileged off v => execShadowContainerWrite core privileged off v s
  | .stopreq core => execStopreq core s
  | .resume core => execResume core s
  | .arm core => execArm core s
  | .tfifoPop core => execTfifoPop core s
  | .traceSample core => execTraceSample core s
  | .traceBufferWrite core => execTraceBufferWrite core s
  | .registerWrite fn off v => execRegisterWrite fn off v s
  | .forwardedAccess src addr op => execForwardedAccess src addr op s
  | .barPodArrival l seat => execBarPodArrival l seat s
  | .boot imageOk => execBoot imageOk s
  | .graphLoad n owner nodes => execGraphLoad n owner nodes s
  | .graphNodeComplete n => execGraphNodeComplete n s

/-! ## Fetching (R19, R48, R60, R221) -/

/-- What a fetch comes to. -/
inductive Fetched where
  | ok (i : Instr)
  | reserved (w : W32)
  | fault (cls : Nat) (addr : Word)

/-- The word at an instruction address: only from a translated address whose leaf grants EX. -/
def codeWord (s : State) (ag : Ag) (a : Word) : Except (Nat × Word) W32 × State :=
  if 2 ^ 56 ≤ a.toNat then (.error (clsUnmapped, a), s)
  else
    match translate s ag.core ag.res ag.asid a.toNat .ex with
    | (none, s) => (.error (clsUnmapped, a), s)
    | (some x, s) =>
      if x.grants .ex then (.ok (BitVec.ofNat 32 (rdNat s.mem (x.place a.toNat) 4)), s) else (.error (clsProt, a), s)

/-- `n` words from an instruction address on. -/
def codeWords (ag : Ag) : Nat → Word → State → Except (Nat × Word) (List W32) × State
  | 0, _, s => (.ok [], s)
  | n + 1, a, s =>
    match codeWord s ag a with
    | (.error e, s) => (.error e, s)
    | (.ok w, s) =>
      match codeWords ag n (a + 4) s with
      | (.error e, s) => (.error e, s)
      | (.ok ws, s) => (.ok (w :: ws), s)

/-- The instruction at the program counter of the current stream: its first word, and an `RCALL`'s operand words where that word is no reserved
encoding, which traps ILL and raises no other fault (R65). -/
def fetch (s : State) : Fetched × State :=
  let ag := strandAg s s.w
  let a := s.regs.pc &&& ~~~3
  match codeWord s ag a with
  | (.error e, s) => (.fault e.1 e.2, s)
  | (.ok w, s) =>
    if badCall w then (.reserved w, s)
    else match codeWords ag (wordCount w - 1) (a + 4) s with
    | (.error e, s) => (.fault e.1 e.2, s)
    | (.ok ws, s) => (match decodeWords (w :: ws) with | .ok i => .ok i | .error _ => .reserved w, s)

/-! ## Issuing -/

/-- The tile instruction that a node executes, issued by its context with the operands of a delivered call: s17 and s16 (R363). -/
def issueTile (ex : Instr → State → Done) (s : State) : Done :=
  let op := (Tcb.of (s.node (tileSeat s s.w)).tcb).op
  if op = opMMUL then ex (.tmmul false 17 16) s
  else if op = opSPMUL then ex (.tspmul false 17 16) s
  else if op = opEWISE then ex (.tewise false 17 16) s
  else if op = opRED then ex (.tred false 17 16) s
  else if op = opCOPY then ex (.tcopy false 17 16) s
  else if op = opATTN then ex (.tattn false 17 16) s
  else .next (tileFault s s.w op 1 0 0)

/-- A fetched instruction performed. -/
def perform (ex : Instr → State → Done) (f : Fetched × State) : Done :=
  match f with
  | (.ok i, s) => ex i s
  | (.reserved w, s) => execReservedEncoding w s
  | (.fault cls a, s) => .next (fatalStrand s 0x3FFF cls a)

/-- A stream issues: a trap of a dropped landing comes first (R111). -/
def issue (ex : Instr → State → Done) (t : Nat) (s : State) : Done :=
  let s := { s with cur := t }
  match s.cthr.landTrap with
  | some p =>
    let s := s.setCthr { s.cthr with landTrap := none }
    .next (takeTrap (if s.cthr.wait.isSome then cancelWait s t else s) (trapCOLD p))
  | none => if isController s.w || isTileRes s.w then issueTile ex s else perform ex (fetch s)

/-- The firmware core takes an interrupt or executes an instruction (R419): one of its own four, or one of RV64. -/
def issueFirmware (ex : Instr → State → Done) (s : State) : Done :=
  let a := s.fw.pc.toNat
  match rvInterrupt s with
  | some (k, toS) => .next (fwEnter s toS true k 0)
  | none =>
    if 2 ^ 64 < a + 4 then .fault .firmwareFetch
    else
      let w := BitVec.ofNat 32 (rdNat s.fw.mem a 4)
      match decodeFirmware w with
      | some i => ex i s
      | none => .next (rvExec w s)

/-! ## The grant of a sequencer (R41, R177) -/

/-- Whether what a strand started by `FORK` waits for before its first issue has come (R164): the cycle after the `FORK`, and the stores of `ctl`
before it performed, those into register windows landed. -/
def gateOpen (s : State) (w : Nat) : Bool :=
  match (s.ctx w).gate with
  | none => true
  | some (id, cycle) =>
    cycle < s.cycle && (s.ctx (w - strandOf w)).memq.all (fun m => m.isLoad || id ≤ m.id) && (s.core (nodeOf w)).winq.isEmpty

/-- Whether a stream of a context may issue as far as its launch, its strand and its FIFO go (R45, R164, R169, R177, R181). -/
def streamRuns (s : State) (w qf : Nat) : Bool :=
  let x := s.thr (mainOf w + qf)
  (match s.launch? (launchOf s w) with
    | some l => l.st = .running || (l.st = .halting && !x.stack.isEmpty && !atHalt w x)
    | none => false)
  && (if qf = 0 then (s.ctx w).run = .running && gateOpen s w && (!(isController w || isTileRes w) || (s.node (tileSeat s w)).busy)
      else !x.stack.isEmpty && !fifoHeld s (resKeyOf w) (qf - 1))

/-- The streams of a context that may issue, in the order in which this cycle takes them. -/
def liveStreams (s : State) (w : Nat) : List Nat :=
  (((List.range 5).map fun i => (i + s.cycle) % 5).filter (streamRuns s w)).map (mainOf w + ·)

/-- Whether a stream stalls at its next instruction. -/
def stalls (ex : Instr → State → Done) (s : State) (t : Nat) : Bool :=
  match issue ex t s with
  | .next s' => (s'.thr t).wait.isSome
  | _ => false

/-- A context at its sequencer's grant: the streams that come to a stall, and the stream that it would issue from. -/
structure Offer where
  w : Nat
  reach : List Nat
  ready : Option Nat

/-- What a context offers. -/
def offer (ex : Instr → State → Done) (s : State) (w : Nat) : Offer :=
  let ts := liveStreams s w
  let (st, rd) := ts.partition (stalls ex s)
  ⟨w, st.filter fun t => (s.thr t).wait.isNone, rd.head?⟩

/-- A context past the gate of its `FORK`, once that is open. -/
def pastGate (s : State) (w : Nat) : Ctx := if gateOpen s w then { s.ctx w with gate := none } else s.ctx w

/-- A context's credit in a cycle in which it is eligible. -/
def credited (c : Ctx) (weight : Nat) : Ctx :=
  { c with credit := (if c.starve = 0 then 0 else c.credit) + weight, starve := max 1 c.starve + 1 }

/-- The context picked among those eligible: one that has waited 63 cycles, or the largest credit; ties to the lower resident. -/
def pick (s : State) (es : List Nat) : Option Nat :=
  match es.find? fun w => 65 ≤ (s.ctx w).starve with
  | some w => some w
  | none => es.foldl (fun m w => match m with | none => some w | some v => some (if (s.ctx v).credit < (s.ctx w).credit then w else v)) none

/-- A sequencer's grant (R41): stalls begin, credits move, and at most one context issues. A context whose launch is halted keeps its credit and its
count of cycles (R45). -/
def grantSlot (ex : Instr → State → Done) (s : State) (node strand : Nat) : State :=
  let ws := ((List.range 4).map fun r => 16 * node + 4 * r + strand).filter fun w => (tget? s.ctxs w).isSome
  let os := ws.map (offer ex s)
  let es := os.filter fun o => o.ready.isSome
  let weight (w : Nat) : Nat := (s.res (resKeyOf w)).weight
  let total := es.foldl (fun n o => n + weight o.w) 0
  let s := os.foldl (fun s o =>
    if o.ready.isSome then s.setCtx o.w (credited (pastGate s o.w) (weight o.w))
    else if launchRuns s o.w then s.setCtx o.w { pastGate s o.w with starve := 0 } else s) s
  let reach := os.flatMap fun o => o.reach.map Act.issue
  match pick s (es.map (·.w)) with
  | none => { s with agenda := reach }
  | some w =>
    let c := s.ctx w
    let s := s.setCtx w { c with credit := c.credit - total, starve := 1 }
    let s := if isCore node then s.setCore node { s.core node with issued := true } else s
    { s with agenda := reach ++ (match es.find? fun o => o.w = w with | some o => o.ready.toList.map Act.issue | none => []) }

/-- The next sequencer in this cycle with a context that may issue, or one that was eligible before and is no longer (R41). -/
def nextSeq (s : State) : Option Nat :=
  let due (e : Nat × Ctx) : Bool := (List.range 5).any (streamRuns s e.1) || (e.2.starve ≠ 0 && launchRuns s e.1)
  let ks := (s.ctxs.filter due).map fun e => 4 * nodeOf e.1 + strandOf e.1
  (ks.filter (s.turn ≤ ·)).foldl (fun m k => match m with | none => some k | some n => some (min n k)) none

/-! ## The steps of the device that are due -/

/-- The step that an entry of `mq` takes. -/
def mqStep (core res num : Nat) : Option Ev :=
  match num with
  | 0x042 => some (.mgoEntryRun core res)
  | 0x046 => some (.mzeroEntryRun core res)
  | 0x047 => some (.mldaccEntryRun core res)
  | 0x048 => some (.mdrainEntryRun core res)
  | 0x049 => some (.mpeerEntryRun core res)
  | _ => none

/-- The step that an entry of `cq.in` or `cq.out` takes. -/
def copyStep (core res fifo num : Nat) : Option Ev :=
  match num with
  | 0x070 | 0x08F => some (.cpyJobRun core res fifo)
  | 0x071 => some (.cpygJobRun core res fifo)
  | 0x072 => some (.cpysJobRun core res fifo)
  | 0x073 => some (.cpysaJobRun core res fifo)
  | 0x074 => some (.cpyfJobRun core res fifo)
  | 0x075 => some (.cpycJobRun core res fifo)
  | 0x076 => some (.cpywJobRun core res fifo)
  | 0x077 => some (.cpyresJobRun core res fifo)
  | 0x079 => some (.qpushJobRun core res fifo)
  | 0x07A => some (.qpopJobRun core res fifo)
  | 0x07B => some (.qflushJobRun core res fifo)
  | 0x07D => some (.rgflushJobRun core res fifo)
  | 0x07E => some (.rgdropJobRun core res fifo)
  | 0x096 => some (.fetchJobRun core res)
  | _ => none

/-- The step that an entry of `zq` takes. -/
def selStep (core res num : Nat) : Option Ev :=
  match num with
  | 0x091 => some (.slqEntryRun core res)
  | 0x092 => some (.slsumEntryRun core res)
  | 0x093 => some (.slscoreEntryRun core res)
  | 0x094 => some (.sltopkEntryRun core res)
  | 0x095 => some (.slforceEntryRun core res)
  | 0x096 => some (.slfetchEntryRun core res)
  | 0x097 => some (.slresEntryRun core res)
  | _ => none

/-- The residents of a core after the last one served, in turn. -/
def rotation (last : Nat) : List Nat := (List.range 4).map fun i => (last + 1 + i) % 4

/-- The `mq` heads of a core that one of the two matrix units holds (R325): `MGO` the Ox, the others the drain path. -/
def unitHeads (s : State) (core : Nat) (ox : Bool) : List (Nat × Job) :=
  (List.range 4).filterMap fun r =>
    match engineHead s (4 * core + r) 0 with
    | some j => if (j.num = 0x042) = (ox = true) then some (r, j) else none
    | none => none

/-- What a matrix unit does in a cycle (R325): the least virtual time among the heads not started, and the heads that are to finish or go on. -/
def unitSteps (s : State) (core : Nat) (ox : Bool) : List Ev :=
  let hs := unitHeads s core ox
  let fresh := hs.filter fun h => !h.2.started
  let vt (h : Nat × Job) : Nat := (s.res (4 * core + h.1)).vt
  let first := fresh.foldl (fun m h => match m with | none => some h | some x => some (if vt h < vt x then h else x)) none
  (hs.filter (fun h => h.2.started) ++ first.toList).filterMap fun h => mqStep core h.1 h.2.num

/-- The engine steps of a core. -/
def engineSteps (s : State) (core : Nat) : List Ev :=
  let k := s.core core
  let heads (f last : Nat) (step : Nat → Nat → Option Ev) : List Ev := (rotation last).filterMap fun r =>
    (engineHead s (4 * core + r) f).bind fun j => step r j.num
  let opens := (List.range 4).flatMap fun r => (List.range 4).filterMap fun f =>
    match (s.res (4 * core + r)).head f with
    | some j => if j.itver && !j.started && (s.res (4 * core + r)).loaded && launchRuns s (ctxKey (4 * core + r) j.strand) then some (Ev.queueFrameOpen core r f) else none
    | none => none
  let fills := (List.range 4).flatMap fun r => (s.res (4 * core + r)).fills.map fun c => Ev.firstTouchFill core r c
  opens ++ fills ++ unitSteps s core true ++ unitSteps s core false ++ heads 1 k.rrIn (copyStep core · 1) ++ heads 2 k.rrOut (copyStep core · 2)
    ++ heads 3 k.rrSel (selStep core)

/-- The steps of a core apart from its engines. -/
def coreSteps (s : State) (core : Nat) : List Ev :=
  let k := s.core core
  let on (b : Bool) (e : Ev) : List Ev := if b then [e] else []
  on (!k.winq.isEmpty && !portHeld s core) (.registerWindowWriteLands core)
    ++ on (k.tupd.any fun u => u.due ≤ s.cycle) (.tileStatusVisible core)
    ++ on (k.sampEn && s.cycle % 2 ^ k.sampLog2 = 0) (.traceSample core)
    ++ on (k.armed && !k.tfifo.isEmpty) (.traceBufferWrite core)

/-- The steps of a context apart from its issue: an access, an increment, a trap of an engine. -/
def ctxSteps (s : State) (w : Nat) : List Ev :=
  let c := s.ctx w
  let on (b : Bool) (e : Ev) : List Ev := if b then [e] else []
  on ((s.thr (mainOf w)).regs.pend.any fun p => p.left = 0) (.pendingResultLands w)
    ++ ((c.waking.filter fun p => p.2 = 0).map fun p => .clusterWakeComplete w p.1)
    ++ on (firstLoad [] c.memq).isSome (.asyncLoadPerformed w)
    ++ on (firstStore [] c.memq).isSome (.storePerformed w)
    ++ on (firstSig s w [] c.sigs).isSome (.semsigIncrementPerformed w)
    ++ on (!c.traps.isEmpty && launchRuns s w && mayTakeTrap s w) (.queueFrameTrap w)

/-- The steps of a controller or of a core's tile side. -/
def nodeSteps (s : State) (n : Nat) : List Ev :=
  let x := s.node n
  (if !x.inbox.isEmpty && !x.busy && x.outcome.isNone && nodeRuns s n then [.tileInstructionStart n] else [])
    ++ (if x.busy && x.discard && x.dispatched.isEmpty then [.tileDiscardStop n] else [])

/-- The steps of a launch (R31, R32, R44, R45). -/
def launchSteps (s : State) (id : Nat) (l : Launch) : List Ev :=
  if l.struck then []
  else match l.st with
  | .placed => [.launchStart id]
  | .running => if launchDone s id l then [.launchComplete id] else []
  | .halting => if launchStopped s id l then [.contextSwapOut id] else []
  | .saved => if mayResume s l then [.launchResume id] else []
  | .waiting =>
    match nextWaiting s with
    | some (n, x) =>
      if n ≠ id then []
      else match serve s id x with
        | .wait => (victims s x).map .preemption
        | _ => [.launchStart id]
    | none => []
  | _ => []

/-- The steps of the front end and the firmware. -/
def frontSteps (s : State) : List Ev :=
  let on (b : Bool) (e : Ev) : List Ev := if b then [e] else []
  (s.funcs.filterMap fun f => if !f.2.idone && !rangeBusy s (invRange f.2.going) then some (.invalidationComplete f.1) else none)
    ++ (s.moves.filterMap fun m => match walk s m.asid m.va with
        | some x => if pageBusy s x then none else some (.migrationSwitch m.asid (BitVec.ofNat 64 m.va))
        | none => none)
    ++ on (s.epoch ≠ 0 && s.cycle % (1500 * s.epoch.toNat) = 0) .migrationEpoch
    ++ on (s.cycle % 1024 = 0) .sheepdogWeightUpdate

/-- Every core that some part of the state lists. -/
def listedCores (s : State) : List Nat :=
  let own := s.cores.map fun e => e.1
  let held := s.residents.map fun e => e.1 / 4
  (own ++ held.filter (· < 512)).foldl (fun ks k => if ks.contains k then ks else ks ++ [k]) []

/-- Every step of the device that is due: first the end of each launch that has met a launch-fatal fault (R403). -/
def dueSteps (s : State) : List Ev :=
  (s.launches.filterMap fun l => if l.2.struck then some (.launchComplete l.1) else none) ++ (listedCores s).flatMap (coreSteps s) ++ (s.ctxs.flatMap fun e => ctxSteps s e.1) ++ (listedCores s).flatMap (engineSteps s)
    ++ ((s.nodes.filter fun e => 1024 ≤ e.1).flatMap fun e => nodeSteps s e.1) ++ (s.launches.flatMap fun l => launchSteps s l.1 l.2) ++ frontSteps s

/-! ## The end of a cycle, and the step -/

/-- Counter 6 of R432: a cycle without an issue on any sequencer of a core of a running launch. -/
def countIdle (s : State) : State :=
  let cores := (s.launches.filter fun l => l.2.st = .running).flatMap fun l => coresOfQuads l.2.quads
  let s := cores.foldl (fun s k => if (s.core k).issued then s else s.setCore k (countUp (s.core k) 6)) s
  { s with cores := s.cores.map fun e => (e.1, { e.2 with issued := false }) }

/-- The charge of an `MGO` with a sparse A read as it has become the head of its FIFO (R349). -/
def chargeHead (s : State) (k : Nat) : State :=
  match (s.res k).head 0 with
  | some j =>
    let d := Desc.of (j.descs.headD 0)
    if j.num = 0x042 && !j.itver && j.charge.isNone && d.sparse then setJob s k 0 { j with charge := some (sparseCharge s k d) } else s
  | none => s

/-- The end of a cycle: the acts put off come next, then the firmware core's instruction, then the steps that are due. -/
def endCycle (s : State) : State :=
  let s := s.residents.foldl (fun s e => chargeHead s e.1) (countIdle { s with cycle := s.cycle + 1, turn := 0 })
  { s with agenda := s.later ++ (if s.booted then [.firmware] else []) ++ (dueSteps s).map .event, later := [] }

/-- What comes with nothing on the agenda: the next sequencer's grant, or the end of the cycle. -/
def advance (ex : Instr → State → Done) (s : State) : State :=
  match nextSeq s with
  | some k => grantSlot ex { s with turn := k + 1 } (k / 4) (k % 4)
  | none => endCycle s

/-- One step of the package. -/
def stepWith (ex : Instr → State → Done) (s : State) : Done :=
  match s.agenda with
  | [] => .next (advance ex s)
  | .issue t :: rest => issue ex t { s with agenda := rest }
  | .firmware :: rest => issueFirmware ex { s with agenda := rest }
  | .event e :: rest => runEv e { s with agenda := rest }

end Sys2Proof.Machine
end

