-- ==== Sys2Proof/Machine/Step.lean ====
section
/-! DEFINITION. One step of the package, and the state in which a given instruction is the next to run (log entry 6). -/

namespace Sys2Proof.Machine

/-- One step: the first act of the agenda, or what the schedule puts on it. -/
def step (s : State) : Host.Outcome State Fault Refusal := stepWith exec s

/-! ## A program in place -/

/-- The launch, resident and address space that stand for a loaded program, and the address of its code. -/
def loadLaunch : Nat := 1
def loadCode : Nat := 0x10000

/-- The page table that maps the first gigabyte of virtual addresses to that of this device's memory with RD, WR and EX: its three entries. -/
def loadTables (m : Memory) : Memory :=
  let m := wrBytes m (lpddr 0x1000) (leBytes 8 (1 + 2 ^ 8 * (0x2000 / 256)))
  let m := wrBytes m (lpddr 0x2000) (leBytes 8 (1 + 2 ^ 8 * (0x3000 / 256)))
  wrBytes m (lpddr 0x3000) (leBytes 8 0x1F)

/-- The entry of an SRL routine in a routine table, whose definition runs as a whole. -/
def loadRoutine (num : Nat) : Routine :=
  let h := (srlHeaderKnown num).getD 0
  { num, kind := fld h 14 2, ord := bitOf h 16, depr := bitOf h 17, smask := BitVec.ofNat 4 (fld h 20 4), ctr := fld h 24 2, lat := fld h 26 6,
    nopw := fld h 32 3, frm := 0, vscr := 0, sigs := (List.range 7).map fun k => BitVec.ofNat 8 (sigAt h k), blen := 1, ncp := 0, clen := 0,
    body := 0, consts := 0, native := false, srl := some num, digest := none }

/-- The running launch: quad 0, one stage on core 0, every SRL routine in its table. -/
def loadedLaunch : Launch where
  st := .running
  fn := 0
  ring := 0
  tag := 0
  cls := 0
  single := false
  counter := false
  nquads := 1
  root := 0
  asid := 1
  args := []
  podmask := 0
  cpl := 0
  quads := [0]
  usable := [0, 1, 2, 3]
  placed := [⟨0, 1, 0, 0⟩]
  stages := []
  tokens := []
  queues := []
  templates := []
  routines := srlNumbers.map loadRoutine
  lvl := 0
  start := 0
  haltAt := 0
  dbg := false
  podArr := []
  graph := none
  record := none

/-- Its resident, with a full allocation (R37): 64 vector registers, 48 windowed ones, 256 KB, 32 banks, 4 KB of Bantam, every semaphore and mutex. -/
def loadedRes : Res :=
  { Res.reset with
    loaded := true, launch := loadLaunch, replicas := 1, asid := 1,
    alloc := BitVec.ofNat 64 (64 + 2 ^ 8 * 48 + 2 ^ 20 * 0x40000 + 2 ^ 40 * 32 + 2 ^ 48 * 4096), spillb := 0x40000, banks := 32,
    semMap := (List.range 32).map fun n => (n, n), mtxMap := (List.range 8).map fun n => (n, n) }

/-- The strand that issues an instruction, by its first word: the lowest that may call the routine, `ctl` otherwise. -/
def loadStrand (w : W32) : Nat :=
  if isCall w then ([0, 1, 2, 3].find? fun k => (srlSmask (numOf w).toNat).testBit k).getD 0 else 0

/-- The state with strand code in place at `loadCode` and its stream the next to issue. -/
def State.withCode (s : State) (ws : List W32) : State :=
  let w := ctxKey 1 (loadStrand (ws.headD 0))
  { s with
    mem := wrBytes (loadTables s.mem) (lpddr loadCode) (ws.flatMap bytesOfWord)
    roots := tset s.roots 1 (BitVec.ofNat 64 0x1001)
    launches := tset s.launches loadLaunch loadedLaunch
    residents := tset s.residents 1 loadedRes
    ctxs := tset s.ctxs w { Ctx.reset with run := .running, start := BitVec.ofNat 64 loadCode, awake := 0xFF }
    threads := tset s.threads (mainOf w) { Thread.reset with regs := { Regs.reset with pc := BitVec.ofNat 64 loadCode } }
    agenda := [.issue (mainOf w)] }

/-- The state with an instruction stored where the next step fetches: a strand's at the code of a loaded program, a firmware core's at its
program counter. -/
def State.withFetchWord (s : State) (nbits w : Nat) : State :=
  match decodeBytes ((tableWords nbits w).flatMap bytesOfWord) with
  | .ok _ => s.withCode (tableWords nbits w)
  | .error _ =>
    { s with booted := true, agenda := [.firmware],
             fw := { s.fw with mem := wrBytes s.fw.mem s.fw.pc.toNat (bytesOfWord (BitVec.ofNat 32 (w % 2 ^ nbits))) } }

end Sys2Proof.Machine
end

