-- ==== Sys2Proof/WellFormed.lean ====
section
/-! DEFINITION. Well-formed instructions: the operand ranges that the encoding tables admit and the types of the syntax do not
already enforce (R55 to R64). A row without an encoding has no range to break. -/

namespace Sys2Proof

/-- Whether an instruction has words: every row but the steps of the device and the acts of the outside world. -/
def Instr.hasWords (i : Instr) : Bool := !(encode i).isEmpty

/-- The first field of the instruction that is out of range, by name; none when it is well formed. -/
def Instr.illFormed : Instr → Option String
  | .bfx _ _ _ p w _ => if p.toNat + w.toNat + 1 ≤ 64 then none else some "bfx field"
  | .bfi _ _ _ p w => if p.toNat + w.toNat + 1 ≤ 64 then none else some "bfi field"
  | .fcvt _ _ _ r k e =>
    if k = e then some "fcvt kinds"
    else if k = .f32 || e = .f32 || r = .rne then none else some "fcvt rounding"
  | .vcmp _ _ _ _ t c => if t = .f32 && (c = .ltn || c = .gen) then some "vcmp condition" else none
  | .loopImm _ _ e => if e = 0 then some "loop end" else none
  | .loopReg _ _ e => if e = 0 then some "loop end" else none
  | .enter _ f => if f.toNat ≤ 12 then none else some "enter frame"
  | .semwait _ _ a => if a = 0 then some "semwait amount" else none
  | .evpop _ d => if d = 0 || d = 63 then some "evpop destination" else none
  | .vrfon _ n => if n.toNat ≤ 8 then none else some "vrfon clusters"
  | .fork _ m => if m = 0 || m.getLsbD 0 then some "fork mask" else none
  | .rdv _ m => if m = 0 then some "rdv mask" else none
  | .join _ m => if m = 0 then some "join mask" else none
  | .qfence _ m => if m = 0 then some "qfence mask" else none
  | .rcall q num async ctr ops =>
    if 8 ≤ (ops.flatMap encodeOpnd).length then some "rcall operand words"
    else if mkCall q num async ctr ops = .rcall q num async ctr ops then none else some "rcall of a named routine"
  | _ => none

/-- Every field of the instruction is in the range its encoding admits. -/
abbrev Instr.WellFormed (i : Instr) : Prop := i.illFormed = none

end Sys2Proof
end

