-- ==== Sys2Proof/Safety.lean ====
section
/-! DEFINITION. What a safe step is, and the words in which the statements speak: an instruction issued, a slot skipped, what a stream may do,
and when a call of an SRL routine runs its definition. -/

namespace Sys2Proof

/-- The step answers a next state. -/
def SafeStep (s : Machine.State) : Prop := ∃ t, Machine.step s = .next t

/-- The four instructions of a firmware core (R419). -/
def Instr.isFirmware : Instr → Bool
  | .ringf .. | .fbfx .. | .sigw .. | .disp .. => true
  | _ => false

namespace Machine

/-- The state in which the current stream has issued `len` bytes whose results land `lat` slots later, and its slot has ended (R114, R121). -/
def issued (s : State) (q : Bool) (lat len : Nat) (effs : List Effect) : State :=
  endSlot (s.setRegs (pushPend s.regs q lat effs)) (s.regs.pc + BitVec.ofNat 64 len)

/-- The state in which the current stream has taken a slot and done nothing (R122, R173). -/
def skipped (s : State) (len : Nat) : State := endSlot s (s.regs.pc + BitVec.ofNat 64 len)

/-- `k` slots taken in which nothing is done. -/
def idle : Nat → State → State
  | 0, s => s
  | k + 1, s => idle k (skipped s 4)

/-- The stream may be issued from as an instruction that is no branch needs it: unsquashed (R122). -/
abbrev Live (s : State) (q : Bool) : Prop := squashed s q = false

/-- No delay slot of a taken or an untaken `XFER` (R121, R157). -/
abbrev NoShadow (s : State) : Prop := inDelay s = false

/-- No arithmetic trap and no trap on a dropped cluster write is enabled (R113): bits 22..16 of `STATUS` are zero. -/
abbrev NoTraps (s : State) : Prop := s.cctx.status.extractLsb' 16 7 = 0

/-- The context's own stream, outside every routine frame. -/
abbrev OwnStream (s : State) : Prop := s.cthr.stack = [] ∧ qfOf s.cur = 0

/-- An effect that writes a register of the stream or sets sticky bits, its scalar position inside the window (R105, R107, R109). -/
def Effect.plain (r : Regs) : Effect → Prop
  | .sreg key _ => key < 16 ∨ (r.wb + 16 ≤ key ∧ key < r.wb + 64)
  | .csr _ _ => False
  | _ => True

/-- No write of a control register is in flight. -/
abbrev NoCsrPending (s : State) : Prop := ∀ p ∈ s.regs.pend, p.eff.plain s.regs

/-- The slots of the scalar, predicate and vector names of a context's own stream (R105, R106). -/
abbrev ownP (s : State) (n : BitVec 4) : Nat := pphys s.regs.rrbP n.toNat
abbrev ownV (s : State) (n : BitVec 6) : Nat := vphys s.regs.rrbV n.toNat

/-- A predicate of the context's own stream; p0 reads all ones (R105). -/
def ownMask (s : State) (n : BitVec 4) : Word := if ownP s n = 0 then BitVec.allOnes 64 else tget 0 s.regs.p (ownP s n)

/-- A vector register of the context's own stream that lies in an awake cluster. -/
def ownVec (s : State) (n : BitVec 6) : VReg := tget VReg.cold s.regs.v (ownV s n)
abbrev Awake (s : State) (n : BitVec 6) : Prop := s.cctx.isAwake (ownV s n) = true

/-- Where a vector instruction may compute: unsquashed, in the context's own stream, with vector registers and no trap enabled (R113, R149). -/
abbrev VectorReady (s : State) (q : Bool) : Prop := Live s q ∧ OwnStream s ∧ noVectors s = false ∧ NoTraps s

/-- A vector instruction issues: after `lat` slots lane i of its destination holds the first part of `f i`, the tag is the one given and the side-file zero, and
a sticky bit is set when some lane raises it. -/
def WritesLanes (o : Done) (s : State) (q : Bool) (lat : Nat) (d : BitVec 6) (tag : BitVec 5) (f : Nat → W32 × Word) : Prop :=
  ∃ (r : VReg) (bits : Word), o = .next (issued s q lat 4 (.vreg (ownV s d) r :: toSticky bits))
    ∧ r.tag = tag ∧ r.side = 0 ∧ (∀ i < 64, r.data.extractLsb' (32 * i) 32 = (f i).1)
    ∧ ∀ j, bits.getLsbD j = true ↔ ∃ i < 64, (f i).2.getLsbD j = true

/-- Lane i of a register's data (R149). -/
abbrev laneOf (v : VReg) (i : Nat) : W32 := v.data.extractLsb' (32 * i) 32

/-- The places of `n` bytes of memory, and of a core's scratchpad, from an address on. -/
def physRun (a n : Nat) : List Place := (List.range n).map fun i => .phys (a + i)
def scratchRun (core off n : Nat) : List Place := (List.range n).map fun i => .win core 0 (off + i)

/-- The state of a context that may take a trap of its own to its handler (R400): it has one, is not in it, and neither executes a tile instruction for a parent nor is the level program. -/
abbrev HandlerReady (s : State) : Prop :=
  OwnStream s ∧ s.cctx.handler = false ∧ s.cctx.tvec ≠ 0 ∧ runsTile s s.w = false ∧ isLevelProgram s.w = false

/-- Every FIFO of a resident is empty or has a job at its head: no marker or fence there has still to be taken away (R78, R79). -/
abbrev FifosSettled (x : Res) : Prop := ∀ f < 4, x.fifo f = [] ∨ ∃ j q, x.fifo f = .job j :: q

/-- A call that passes the checks of R62 and runs the definition of SRL routine `num`: the strand has its operands' register files, a format operand sets
only mode bits that the routine defines (R61), the launch's table holds the routine with the text of that SRL routine (R184), and kind, counter, strand mask
and nesting allow it. -/
def Callable (s : State) (num : Nat) (async : Bool) (ctr : Nat) (ops : List Opnd) : Prop :=
  ops.all (hasFile (strandOf s.w)) = true ∧ ops.all (modeOk (srlModes num)) = true ∧ ∃ r, routineOf s num = some r ∧ r.srl = some num ∧ callAllowed s r async ctr true = true

/-- Where the current stream executes a call of SRL routine `num` with operand values `vals`: at the call itself (`n` is 0), or at commit point `n` of its
definition, the frame open with what it keeps behind the values (R180). `u` is the state as the definition sees it. -/
def CallAt (s u : State) (num : Nat) (ops : List Opnd) (vals : List Word) (n : Nat) (keep : List Word) : Prop :=
  OwnStream u ∧ n < 2 ^ 64 ∧
    if n = 0 then u = s ∧ Callable s num false 0 ops ∧ vals = argsOf s ops ∧ keep = []
    else ∃ f r, s.cthr.stack = [f] ∧ f.nat = true ∧ f.num = num ∧ f.restart.s.map (·.2) = vals ++ [BitVec.ofNat 64 n] ++ keep ∧ vals.length = ops.length
      ∧ u = s.setCthr { s.cthr with regs := f.caller, stack := [] } ∧ routineOf s num = some r ∧ r.srl = some num

/-! ## Routines of the vector blocks -/

/-- A fmt operand by its fields (R260): tag, rounding mode, overflow mode, `ARG`. -/
def fmtOf (tag : Nat) (m : Rnd) (inf : Bool) (a : Nat) : BitVec 28 := BitVec.ofNat 28 (tag + 32 * m.code.toNat + 256 * inf.toNat + 512 * a)

/-- Where a call of vector routine `num` runs its definition (R62, R259). -/
abbrev VecCall (s : State) (q : Bool) (num : Nat) (ops : List Opnd) : Prop := VectorReady s q ∧ Callable s num false 0 ops

/-- A vector routine issues: `lat` slots later element i of its destination holds the first part of `f i`, cut to the format's width; the register has the tag given and
a zero side-file, and a sticky bit is set when some element raises it. -/
def WritesElts (o : Done) (s : State) (q : Bool) (lat len : Nat) (d : BitVec 6) (tag : Nat) (f : Nat → Nat × Word) : Prop :=
  ∃ (r : VReg) (bits : Word), o = .next (issued s q lat len (.vreg (ownV s d) r :: toSticky bits))
    ∧ r.tag.toNat = tag ∧ r.side = 0 ∧ (∀ i < eltCount tag, r.code i = (f i).1 % 2 ^ fmtWidth (tagFmt tag))
    ∧ ∀ j, bits.getLsbD j = true ↔ ∃ i < eltCount tag, (f i).2.getLsbD j = true

/-- The elements that R262 places, for a source of `ns` elements and a target of `nd`: element i is `conv` of the source element it takes; one past the source is zero;
outside the part of a wide target the old code stays, or is zero for `PART` 0. -/
def placed (ns nd part : Nat) (conv old : Nat → Nat × Word) (i : Nat) : Nat × Word :=
  if nd ≤ ns then (if part * nd + i < ns then conv (part * nd + i) else (0, 0))
  else if part * ns ≤ i ∧ i < part * ns + ns then conv (i - part * ns)
  else if part = 0 then (0, 0) else old i

/-- Whether `PART` may be used (R262): it is one of the parts, and a later part of a wide target finds the target's tag there. -/
def PartOk (s : State) (d : BitVec 6) (ns nd tag part : Nat) : Prop :=
  if nd ≤ ns then part * nd < ns else part * ns < nd ∧ (part ≠ 0 → Awake s d ∧ (ownVec s d).tag.toNat = tag)

/-- A ranking routine issues (R292, R293): the first `k` of the entries, no entry before its predecessor in the order, stand in lanes 0 to k − 1 of v[d] with
their indices in v[x], zeros and all ones behind them; a sticky bit is set when some key raises it. -/
def WritesRanking (o : Done) (s : State) (q : Bool) (lat len : Nat) (d x : BitVec 6) (tag k : Nat) (desc : Bool) (entries : List Ranked) : Prop :=
  ∃ (rs : List Ranked) (rd rx : VReg) (bits : Word), rs.Perm entries
    ∧ (∀ i a b, rs[i]? = some a → rs[i + 1]? = some b → Ranked.before desc b a = false)
    ∧ o = .next (issued s q lat len (.vreg (ownV s d) rd :: .vreg (ownV s x) rx :: toSticky bits))
    ∧ rd.tag.toNat = tag ∧ rx.tag.toNat = 3 ∧ rd.side = 0 ∧ rx.side = 0
    ∧ (∀ i < 64, ∀ e, i < k → rs[i]? = some e → rd.code i = e.val % 2 ^ 32 ∧ rx.code i = e.idx % 2 ^ 32)
    ∧ (∀ i < 64, k ≤ i ∨ rs.length ≤ i → rd.code i = 0 ∧ rx.code i = 0xFFFFFFFF)
    ∧ ∀ j, bits.getLsbD j = true ↔ ∃ e ∈ entries, (keyBits e.key).getLsbD j = true

/-! ## Queued routines -/

/-- Where a queued routine issues: a call that R62 allows, its FIFO with room and its counter below its limit (R14, R120, R174). -/
abbrev MayQueue (s : State) (q : Bool) (num ctr f : Nat) (ops : List Opnd) : Prop :=
  Live s q ∧ OwnStream s ∧ Callable s num true ctr ops ∧ s.cres.full f = false ∧ s.cctx.counter ctr < 63

/-- A queued routine issues: with `s1` the state that its checks and captures leave, an entry of it joins FIFO f, `fields` says what the entry carries, and control goes on behind the call. -/
def Queues (o : Done) (s s1 : State) (q : Bool) (len num ctr f : Nat) (fields : Job → Prop) : Prop :=
  ∃ j : Job, o = .next (issued (enqueueJob s1 (resKeyOf s.w) f j) q 1 len []) ∧ fields j ∧ j.num = num ∧ j.ctr = ctr ∧ j.strand = strandOf s.w
    ∧ j.site = s.regs.pc ∧ j.started = false ∧ j.itver = false

/-! ## Acts -/

/-- The row of the opcode table that an act of the device or of the outside is. -/
def Ev.StandsFor : Ev → Instr → Prop
  | .pendingResultLands w, i => i = .pendingResultLands w
  | .asyncLoadPerformed w, i => i = .asyncLoadPerformed w
  | .storePerformed w, i => i = .storePerformed w
  | .registerWindowWriteLands core, i => i = .registerWindowWriteLands core
  | .semaphoreWordStore core off v, i => i = .semaphoreWordStore core off v
  | .mutexWordCas agent core off e v, i => i = .mutexWordCas agent core off e v
  | .mutexWordRelease agent core off, i => i = .mutexWordRelease agent core off
  | .semsigIncrementPerformed w, i => i = .semsigIncrementPerformed w
  | .clusterWakeComplete w k, i => i = .clusterWakeComplete w k
  | .queueFrameOpen core res fifo, i => i = .queueFrameOpen core res fifo
  | .queueFrameTrap w, i => i = .queueFrameTrap w
  | .mgoEntryRun core res, i => i = .mgoEntryRun core res
  | .mzeroEntryRun core res, i => i = .mzeroEntryRun core res
  | .mldaccEntryRun core res, i => i = .mldaccEntryRun core res
  | .mdrainEntryRun core res, i => i = .mdrainEntryRun core res
  | .mpeerEntryRun core res, i => i = .mpeerEntryRun core res
  | .tileStatusVisible core, i => i = .tileStatusVisible core
  | .cpyJobRun core res fifo, i => i = .cpyJobRun core res fifo
  | .cpygJobRun core res fifo, i => i = .cpygJobRun core res fifo
  | .cpysJobRun core res fifo, i => i = .cpysJobRun core res fifo
  | .cpysaJobRun core res fifo, i => i = .cpysaJobRun core res fifo
  | .cpyfJobRun core res fifo, i => i = .cpyfJobRun core res fifo
  | .cpycJobRun core res fifo, i => i = .cpycJobRun core res fifo
  | .cpywJobRun core res fifo, i => i = .cpywJobRun core res fifo
  | .cpyresJobRun core res fifo, i => i = .cpyresJobRun core res fifo
  | .qpushJobRun core res fifo, i => i = .qpushJobRun core res fifo
  | .qpopJobRun core res fifo, i => i = .qpopJobRun core res fifo
  | .qflushJobRun core res fifo, i => i = .qflushJobRun core res fifo
  | .rgflushJobRun core res fifo, i => i = .rgflushJobRun core res fifo
  | .rgdropJobRun core res fifo, i => i = .rgdropJobRun core res fifo
  | .fetchJobRun core res, i => i = .fetchJobRun core res
  | .slqEntryRun core res, i => i = .slqEntryRun core res
  | .slsumEntryRun core res, i => i = .slsumEntryRun core res
  | .slscoreEntryRun core res, i => i = .slscoreEntryRun core res
  | .sltopkEntryRun core res, i => i = .sltopkEntryRun core res
  | .slforceEntryRun core res, i => i = .slforceEntryRun core res
  | .slfetchEntryRun core res, i => i = .slfetchEntryRun core res
  | .slresEntryRun core res, i => i = .slresEntryRun core res
  | .launchStart l, i => i = .launchStart l
  | .launchComplete l, i => i = .launchComplete l
  | .sheepdogWeightUpdate, i => i = .sheepdogWeightUpdate
  | .preemption l, i => i = .preemption l
  | .contextSwapOut l, i => i = .contextSwapOut l
  | .launchResume l, i => i = .launchResume l
  | .launchFatalFault w cls addr, i => i = .launchFatalFault w cls addr
  | .softErrorCorrection r ms, i => i = .softErrorCorrection r ms
  | .uncorrectableError r hits addr, i => i = .uncorrectableError r hits addr
  | .pageWalkComplete res asid va, i => i = .pageWalkComplete res asid va
  | .firstTouchFill core res chunk, i => i = .firstTouchFill core res chunk
  | .invalidationGo fn, i => i = .invalidationGo fn
  | .invalidationComplete fn, i => i = .invalidationComplete fn
  | .migrationEpoch, i => i = .migrationEpoch
  | .migrationRequest asid va cls byHost, i => i = .migrationRequest asid va cls byHost
  | .migrationSwitch asid va, i => i = .migrationSwitch asid va
  | .pageCounterQuery, i => i = .pageCounterQuery
  | .tileInstructionStart node, i => i = .tileInstructionStart (.inbox node)
  | .quadInboxWrite quad privileged tcb, i => i = .quadInboxWrite quad privileged tcb
  | .childCompletion node, i => i = .childCompletion (.own node)
  | .tileDiscardStop node, i => i = .tileDiscardStop node
  | .doorbellWrite off size v, i => i = .doorbellWrite off size v
  | .graphTrigger fn n v, i => i = .graphTrigger fn n v
  | .graphRerun n, i => i = .graphRerun n
  | .attestationRequest fn, i => i = .attestationRequest fn
  | .quarantineClear fn k v, i => i = .quarantineClear fn k v
  | .substitutionEnWrite fn n v, i => i = .substitutionEnWrite fn n v
  | .islandClockChange island mhz gated, i => i = .islandClockChange island mhz gated
  | .linkPortFailure port, i => i = .linkPortFailure port
  | .shadowContainerWrite core privileged off v, i => i = .shadowContainerWrite core privileged off v
  | .stopreq core, i => i = .stopreq core
  | .resume core, i => i = .resume core
  | .arm core, i => i = .arm core
  | .tfifoPop core, i => i = .tfifoPop core
  | .traceSample core, i => i = .traceSample core
  | .traceBufferWrite core, i => i = .traceBufferWrite core
  | .registerWrite fn off v, i => i = .registerWrite fn off v
  | .forwardedAccess src addr op, i => i = .forwardedAccess src addr op
  | .barPodArrival l seat, i => i = .barPodArrival l seat
  | .boot imageOk, i => i = .boot imageOk
  | .graphLoad n owner nodes, i => i = .graphLoad n owner nodes
  | .graphNodeComplete n, i => i = .graphNodeComplete n

end Machine

end Sys2Proof
end

