-- ==== Sys2Proof/Certificates/Slice0/Obligations.lean ====
section
/-! DEFINITION. The statements for the provers, from the numbered rules of the manual. `issued s q lat len effs` is the state in which the
current stream has issued an instruction of `len` bytes whose results `effs` land `lat` slots later; the statements ResultsLandAtTheirSlots,
SlotEnds and IssueFrame say what that comes to. -/

section

open Sys2Proof Sys2Proof.Machine

/-! ## Integer instructions -/

/-- R127: the sixteen register forms. Every unsquashed one issues, and its result, with the latency of R116, is what the table gives for the 64-bit
values of its sources; the words of the rule's examples decode to their instructions, and a `CLZ` or `POPC` word with a b field does not decode. -/
def Obligations.IntegerRegisterForms : Prop :=
  (∀ (s : State) (q : Bool) (d a b : BitVec 6), Live s q →
    let x := s.s a
    let y := s.s b
    let sh := (y.extractLsb' 0 6).toNat
    exec (.add q d a b) s = .next (issued s q 1 4 (toS s.regs d (x + y)))
    ∧ exec (.sub q d a b) s = .next (issued s q 1 4 (toS s.regs d (x - y)))
    ∧ exec (.mul q d a b) s = .next (issued s q 3 4 (toS s.regs d (x * y)))
    ∧ exec (.mulh q d a b) s = .next (issued s q 3 4 (toS s.regs d (BitVec.ofInt 64 (x.toInt * y.toInt / 2 ^ 64))))
    ∧ (y ≠ 0 → exec (.div q d a b) s = .next (issued s q 12 4 (toS s.regs d (BitVec.ofInt 64 (x.toInt.tdiv y.toInt)))))
    ∧ (y ≠ 0 → exec (.rem q d a b) s = .next (issued s q 12 4 (toS s.regs d (BitVec.ofInt 64 (x.toInt.tmod y.toInt)))))
    ∧ exec (.and q d a b) s = .next (issued s q 1 4 (toS s.regs d (x &&& y)))
    ∧ exec (.or q d a b) s = .next (issued s q 1 4 (toS s.regs d (x ||| y)))
    ∧ exec (.xor q d a b) s = .next (issued s q 1 4 (toS s.regs d (x ^^^ y)))
    ∧ exec (.shl q d a b) s = .next (issued s q 1 4 (toS s.regs d (BitVec.ofNat 64 (x.toNat * 2 ^ sh))))
    ∧ exec (.shr q d a b) s = .next (issued s q 1 4 (toS s.regs d (BitVec.ofNat 64 (x.toNat / 2 ^ sh))))
    ∧ exec (.sra q d a b) s = .next (issued s q 1 4 (toS s.regs d (BitVec.ofInt 64 (x.toInt / 2 ^ sh))))
    ∧ exec (.min q d a b) s = .next (issued s q 1 4 (toS s.regs d (if x.toInt ≤ y.toInt then x else y)))
    ∧ exec (.max q d a b) s = .next (issued s q 1 4 (toS s.regs d (if x.toInt ≤ y.toInt then y else x)))
    ∧ (∃ n : Nat, exec (.clz q d a) s = .next (issued s q 1 4 (toS s.regs d (BitVec.ofNat 64 n)))
        ∧ n ≤ 64 ∧ (∀ i, 64 - n ≤ i → x.getLsbD i = false) ∧ (n < 64 → x.getLsbD (63 - n) = true))
    ∧ exec (.popc q d a) s = .next (issued s q 1 4 (toS s.regs d (BitVec.ofNat 64 ((List.range 64).countP fun i => x.getLsbD i)))))
  ∧ decodeWord 0x04A2AB00 = .ok (.add false 20 21 22) ∧ decodeWord 0x04A2AB04 = .ok (.div false 20 21 22)
  ∧ ∀ (q : Bool) (d a b : BitVec 6), b ≠ 0 →
      (∃ e, decodeWord (pack 0x01 q (fmtA d a b 0x0E)) = .error e) ∧ (∃ e, decodeWord (pack 0x01 q (fmtA d a b 0x0F)) = .error e)

/-- R128: a zero divisor gives all ones and the dividend and sets `IDZ` with the result; where `IDZE` is set it traps ARITH at the instruction
and puts nothing in flight. -2^63 over -1 gives -2^63 and 0 and sets nothing. Every other pair is a quotient and a remainder. -/
def Obligations.DivisionBorders : Prop :=
  ∀ (s : State) (q : Bool) (d a b : BitVec 6), Live s q →
    (s.s b = 0 → s.cctx.status.getLsbD 21 = false →
      exec (.div q d a b) s = .next (issued s q 12 4 (toS s.regs d 0xFFFFFFFFFFFFFFFF ++ [.sticky 0x100]))
      ∧ exec (.rem q d a b) s = .next (issued s q 12 4 (toS s.regs d (s.s a) ++ [.sticky 0x100])))
    ∧ (s.s b = 0 → s.cctx.status.getLsbD 21 = true →
      exec (.div q d a b) s = .next (takeTrap s { cls := 7, detail := 8 }) ∧ exec (.rem q d a b) s = .next (takeTrap s { cls := 7, detail := 8 }))
    ∧ (s.s a = 0x8000000000000000 → s.s b = 0xFFFFFFFFFFFFFFFF →
      exec (.div q d a b) s = .next (issued s q 12 4 (toS s.regs d 0x8000000000000000))
      ∧ exec (.rem q d a b) s = .next (issued s q 12 4 (toS s.regs d 0)))
    ∧ (s.s b ≠ 0 → ∃ x y : Word,
      exec (.div q d a b) s = .next (issued s q 12 4 (toS s.regs d x)) ∧ exec (.rem q d a b) s = .next (issued s q 12 4 (toS s.regs d y))
      ∧ s.s a = x * s.s b + y ∧ y.toInt.natAbs < (s.s b).toInt.natAbs)

/-- R129: the immediate forms compute as the register forms with the sign-extended immediate for b and the shift immediate for sh; shift kind 3 and
a nonzero bit in 10..6 of a shift-immediate word do not decode. -/
def Obligations.IntegerImmediateForms : Prop :=
  (∀ (s : State) (q : Bool) (d a n : BitVec 6) (i : BitVec 13) (j : BitVec 12), Live s q →
    let x := s.s a
    let k : Word := BitVec.ofInt 64 i.toInt
    exec (.addImm q d a i) s = .next (issued s q 1 4 (toS s.regs d (x + k)))
    ∧ exec (.mulImm q d a i) s = .next (issued s q 3 4 (toS s.regs d (x * k)))
    ∧ exec (.andImm q d a i) s = .next (issued s q 1 4 (toS s.regs d (x &&& k)))
    ∧ exec (.orImm q d a i) s = .next (issued s q 1 4 (toS s.regs d (x ||| k)))
    ∧ exec (.xorImm q d a i) s = .next (issued s q 1 4 (toS s.regs d (x ^^^ k)))
    ∧ exec (.shlImm q d a n) s = .next (issued s q 1 4 (toS s.regs d (BitVec.ofNat 64 (x.toNat * 2 ^ n.toNat))))
    ∧ exec (.shrImm q d a n) s = .next (issued s q 1 4 (toS s.regs d (BitVec.ofNat 64 (x.toNat / 2 ^ n.toNat))))
    ∧ exec (.sraImm q d a n) s = .next (issued s q 1 4 (toS s.regs d (BitVec.ofInt 64 (x.toInt / 2 ^ n.toNat))))
    ∧ exec (.minImm q d a j) s = .next (issued s q 1 4 (toS s.regs d (BitVec.ofInt 64 (min x.toInt j.toInt))))
    ∧ exec (.maxImm q d a j) s = .next (issued s q 1 4 (toS s.regs d (BitVec.ofInt 64 (max x.toInt j.toInt)))))
  ∧ decodeWord 0x1CA2B007 = .ok (.sraImm false 20 21 7) ∧ decodeWord 0x20A2BFFB = .ok (.maxImm false 20 21 0xFFB)
  ∧ ∀ (q : Bool) (d a : BitVec 6) (i : BitVec 13), (i.extractLsb' 11 2 = 3 ∨ i.extractLsb' 6 5 ≠ 0) →
      ∃ e, decodeWord (pack 0x07 q (fmtI d a i)) = .error e

/-- R130 to R132: `LUI` puts its immediate into bits 31..13 and copies bit 31 upwards; `BFX` gives the field as an unsigned or a signed number; `BFI` replaces
the field's bits and no other; `SEL` chooses by bit 0 of its predicate, p0 reading all ones. -/
def Obligations.FieldsAndSelection : Prop :=
  (∀ (s : State) (q : Bool) (d a b p w : BitVec 6) (i : BitVec 19) (x : Bool), Live s q →
    exec (.lui q d i) s = .next (issued s q 1 4 (toS s.regs d (BitVec.ofInt 64 (i.toInt * 2 ^ 13))))
    ∧ (p.toNat + w.toNat + 1 ≤ 64 →
      let n := w.toNat + 1
      let f := (s.s a).toNat / 2 ^ p.toNat % 2 ^ n
      exec (.bfx q d a p w x) s =
          .next (issued s q 1 4 (toS s.regs d (BitVec.ofInt 64 (if x ∧ 2 ^ (n - 1) ≤ f then (f : Int) - 2 ^ n else f))))
      ∧ ∃ r : Word, exec (.bfi q d a p w) s = .next (issued s q 1 4 (toS s.regs d r))
        ∧ ∀ j < 64, r.getLsbD j = if p.toNat ≤ j ∧ j < p.toNat + n then (s.s a).getLsbD (j - p.toNat) else (s.s d).getLsbD j)
    ∧ ∀ (k : BitVec 4) (m : Nat), OwnStream s → m = pphys s.regs.rrbP k.toNat →
      exec (.sel q d a b k) s = .next (issued s q 1 4 (toS s.regs d (if m = 0 ∨ (tget 0 s.regs.p m).getLsbD 0 then s.s a else s.s b))))
  ∧ decodeWord 0x24A20000 = .ok (.lui false 20 0x20000) ∧ decodeWord 0x28A2A417 = .ok (.bfx false 20 21 8 11 true)
  ∧ decodeWord 0x2CA2A80E = .ok (.bfi false 20 21 16 7) ∧ decodeWord 0x30A2AB03 = .ok (.sel false 20 21 22 3)
  ∧ bfxWord 0x00ABC000 8 11 true = 0xFFFFFFFFFFFFFBC0
  ∧ ∀ (q : Bool) (d a p : BitVec 6) (w : BitVec 7), (64 < p.toNat + w.toNat / 2 + 1 → ∃ e, decodeWord (pack 0x0A q (fmtA d a p w)) = .error e)
      ∧ (64 < p.toNat + w.toNat / 2 + 1 ∨ w.getLsbD 0 = true → ∃ e, decodeWord (pack 0x0B q (fmtA d a p w)) = .error e)

/-- R133 and R134: `CMP` writes all ones where its condition holds of the two 64-bit values, and zero elsewhere, the unsigned conditions reading the sign-extended
immediate as unsigned; `PLOG` looks each bit pair up in its table. The destination p0 discards. -/
def Obligations.ComparesAndPredicates : Prop :=
  (∀ (s : State) (q : Bool) (d k l t : BitVec 4) (a b : BitVec 6) (i : BitVec 10), Live s q → OwnStream s →
    let x := s.s a
    let y := s.s b
    let z : Word := BitVec.ofInt 64 i.toInt
    let put := fun (h : Prop) [Decidable h] => toP (pphys s.regs.rrbP d.toNat) (if h then (0xFFFFFFFFFFFFFFFF : Word) else 0)
    let p := fun n : BitVec 4 => pAt s (pphys s.regs.rrbP n.toNat)
    exec (.cmp q d a b .eq) s = .next (issued s q 1 4 (put (x = y)))
    ∧ exec (.cmp q d a b .ne) s = .next (issued s q 1 4 (put (x ≠ y)))
    ∧ exec (.cmp q d a b .lt) s = .next (issued s q 1 4 (put (x.toInt < y.toInt)))
    ∧ exec (.cmp q d a b .ge) s = .next (issued s q 1 4 (put (y.toInt ≤ x.toInt)))
    ∧ exec (.cmp q d a b .ltn) s = .next (issued s q 1 4 (put (x.toNat < y.toNat)))
    ∧ exec (.cmp q d a b .gen) s = .next (issued s q 1 4 (put (y.toNat ≤ x.toNat)))
    ∧ exec (.cmpImm q d a .eq i) s = .next (issued s q 1 4 (put (x = z)))
    ∧ exec (.cmpImm q d a .ne i) s = .next (issued s q 1 4 (put (x ≠ z)))
    ∧ exec (.cmpImm q d a .lt i) s = .next (issued s q 1 4 (put (x.toInt < z.toInt)))
    ∧ exec (.cmpImm q d a .ge i) s = .next (issued s q 1 4 (put (z.toInt ≤ x.toInt)))
    ∧ exec (.cmpImm q d a .ltn i) s = .next (issued s q 1 4 (put (x.toNat < z.toNat)))
    ∧ exec (.cmpImm q d a .gen i) s = .next (issued s q 1 4 (put (z.toNat ≤ x.toNat)))
    ∧ ∃ r : Word, exec (.plog q d k l t) s = .next (issued s q 1 4 (toP (pphys s.regs.rrbP d.toNat) r))
        ∧ ∀ j < 64, r.getLsbD j = t.getLsbD (2 * ((p k).getLsbD j).toNat + ((p l).getLsbD j).toNat))
  ∧ decodeWord 0x3412AB02 = .ok (.cmp false 2 21 22 .lt) ∧ decodeWord 0x3C182108 = .ok (.plog false 3 1 2 8)
  ∧ ∀ (q : Bool) (d a b : BitVec 6) (f : BitVec 7) (i : BitVec 13), (15 < d.toNat ∨ 6 ≤ f.toNat % 8) → (15 < d.toNat ∨ 6 ≤ i.toNat / 2 ^ 10) →
      (∃ e, decodeWord (pack 0x0D q (fmtA d a b f)) = .error e) ∧ (∃ e, decodeWord (pack 0x0E q (fmtI d a i)) = .error e)

/-! ## Slots and landing -/

/-- R114: an instruction issued in slot t with latency L makes its result visible from slot t + L, and slots t + 1 to t + L - 1 read what stood before,
where no other result to the register is in flight. The slots between are idle.
R115: of two results for one register, each lands in its own slot and the later landing overwrites; of two that land in one slot the later issued wins. -/
def Obligations.ResultsLandAtTheirSlots : Prop :=
  (∀ (s : State) (q : Bool) (d : BitVec 6) (v : Word) (L k : Nat), d ≠ 0 → 1 ≤ L →
    (∀ p ∈ s.regs.pend, ∀ x, p.eff ≠ .sreg (s.regs.skey d.toNat) x) →
    (idle k (issued s q L 4 (toS s.regs d v))).regs.sread d = if k + 1 < L then s.regs.sread d else v)
  ∧ (∀ (s : State) (q q' : Bool) (d : BitVec 6) (v v' : Word) (L L' k : Nat), d ≠ 0 → 2 ≤ L → 1 ≤ L' → s.regs.pend = [] →
    let t := issued s q L 4 (toS s.regs d v)
    (idle k (issued t q' L' 4 (toS t.regs d v'))).regs.sread d =
      if k + 2 < L then (if k + 1 < L' then s.regs.sread d else v')
      else if k + 1 < L' then v
      else if L ≤ L' + 1 then v' else v)

/-- R48, R112, R114, R121: the slot of an issue counts once, in the stream and in `SLOTS`, and control goes on behind the instruction unless a transfer is due. -/
def Obligations.SlotEnds : Prop :=
  ∀ (s : State) (q : Bool) (lat len : Nat) (effs : List Effect),
    let t := issued s q lat len effs
    t.regs.slot = s.regs.slot + 1 ∧ t.cctx.slots = s.cctx.slots + 1
    ∧ (s.regs.xfer = none → t.regs.pc = s.regs.pc + BitVec.ofNat 64 len ∧ t.regs.xfer = none)
    ∧ (∀ a n, s.regs.xfer = some (a, n) → 2 ≤ n → t.regs.pc = s.regs.pc + BitVec.ofNat 64 len ∧ t.regs.xfer = some (a, n - 1))
    ∧ (∀ a, s.regs.xfer = some (a, 1) → t.regs.pc = a ∧ t.regs.xfer = none)

/-- What an issue leaves as it is: with nothing else in flight, no wait and no cluster waking, an instruction that only has register results changes nothing of the
package but its own stream and its own context; there it writes no register but those of its results, no memory, no accumulator, no control register. -/
def Obligations.IssueFrame : Prop :=
  ∀ (s : State) (q : Bool) (lat len : Nat) (effs : List Effect), (∀ e ∈ effs, e.plain s.regs) → s.regs.pend = [] → s.cthr.wait = none → s.cctx.waking = [] →
    let t := issued s q lat len effs
    t = { s with threads := t.threads, ctxs := t.ctxs }
    ∧ (∀ j, j ≠ s.cur → j ≠ mainOf s.w → t.thr j = s.thr j) ∧ (∀ w, w ≠ s.w → t.ctx w = s.ctx w)
    ∧ (s.cur ≠ mainOf s.w →
        let x := s.thr (mainOf s.w)
        let y := t.thr (mainOf s.w)
        y = x.setBase { x.base with v := y.base.v, p := y.base.p })
    ∧ t.cctx = { s.cctx with slots := t.cctx.slots, status := t.cctx.status }
    ∧ ((∀ b, Effect.sticky b ∉ effs) → (∀ n r, Effect.vreg n r ∉ effs) → t.cctx.status = s.cctx.status ∧ t.cthr.landTrap = s.cthr.landTrap)
    ∧ (∀ k d, (∀ v, Effect.sreg k v ∉ effs) → tget d t.regs.s k = tget d s.regs.s k)
    ∧ (∀ k d, (∀ n v, Effect.vreg n v ∈ effs → n % 64 ≠ k) → tget d t.regs.v k = tget d s.regs.v k)
    ∧ (∀ k d, (∀ n v, Effect.preg n v ∈ effs → n % 16 ≠ k) → tget d t.regs.p k = tget d s.regs.p k)
    ∧ (∀ k d, (∀ v, Effect.breg k v ∉ effs) → tget d t.regs.b k = tget d s.regs.b k)
    ∧ (∀ k d, (∀ v, Effect.xacc k v ∉ effs) → tget d t.regs.x k = tget d s.regs.x k)
    ∧ t.regs.xi = s.regs.xi ∧ t.regs.xclr = s.regs.xclr ∧ t.regs.wb = s.regs.wb ∧ t.regs.fs = s.regs.fs ∧ t.regs.rrbV = s.regs.rrbV ∧ t.regs.rrbP = s.regs.rrbP
    ∧ t.regs.loops = s.regs.loops ∧ t.regs.links = s.regs.links ∧ t.regs.base = s.regs.base

/-- R122: a squashed instruction writes no register and sets no status bit, drops its fault, and takes its slot; a squashed control instruction has none of
its effect. One instruction stands for each kind of outcome: a plain result, a division by zero that would trap, a load whose access would fault, a vector instruction, a
write of a control register, and every control instruction. -/
def Obligations.SquashedInstruction : Prop :=
  ∀ (s : State) (d a b : BitVec 6) (b3 : BitVec 3) (p : BitVec 4) (v : Bool) (n : BitVec 16) (e : BitVec 8) (c : BitVec 12), s.regs.xfer.isSome = true →
    exec (.add true d a b) s = .next (skipped s 4) ∧ exec (.div true d a b) s = .next (skipped s 4) ∧ exec (.fadd true d a b .rne) s = .next (skipped s 4)
    ∧ exec (.spl true d a 0 .d) s = .next (skipped s 4) ∧ exec (.vadd true d a b .f32) s = .next (skipped s 4)
    ∧ exec (.csrw true d c) s = .next (skipped s 4)
    ∧ exec (.xfer true p v b3) s = .next (skipped s 4) ∧ exec (.loopImm true n e) s = .next (skipped s 4)
    ∧ exec (.loopReg true a e) s = .next (skipped s 4) ∧ exec (.loopb true) s = .next (skipped s 4) ∧ exec (.call true b3) s = .next (skipped s 4)
    ∧ exec (.ret true) s = .next (skipped s 4) ∧ exec (.enter true d) s = .next (skipped s 4) ∧ exec (.trap true c) s = .next (skipped s 4)
    ∧ exec (.rte true) s = .next (skipped s 4) ∧ exec (.halt true) s = .next (skipped s 4)

/-! ## Scalar floating point and exact accumulators -/

/-- R126, R135 to R140: with no trap enabled every scalar floating-point instruction issues; its result stands in bits 31..0 with zeros above, and its sticky bits go with it. -/
def Obligations.ScalarFloat : Prop :=
  ∀ (s : State) (q : Bool) (d a b : BitVec 6) (p : BitVec 4) (r : Rnd) (c : FCond) (k e : FKind), Live s q → NoTraps s →
    let x := s.f a
    let y := s.f b
    let fp := fun (lat : Nat) (z : W32 × Word) => issued s q lat 4 (toS s.regs d (z.1.setWidth 64) ++ toSticky z.2)
    exec (.fadd q d a b r) s = .next (fp 3 (f32Add r x y)) ∧ exec (.fmul q d a b r) s = .next (fp 3 (f32Mul r x y))
    ∧ exec (.fmin q d a b) s = .next (fp 3 (f32Min x y)) ∧ exec (.fmax q d a b) s = .next (fp 3 (f32Max x y))
    ∧ exec (.ffma q d a b r) s = .next (fp 4 (f32Fma r x y (s.f d)))
    ∧ exec (.fcvt q d a r k e) s = .next (issued s q 2 4 (toS s.regs d (fcvtWord r k e (s.s a)).1 ++ toSticky (fcvtWord r k e (s.s a)).2))
    ∧ (OwnStream s → exec (.fcmp q p a b c) s =
        .next (issued s q 2 4 (toP (pphys s.regs.rrbP p.toNat) (if (f32Cmp c x y).1 then 0xFFFFFFFFFFFFFFFF else 0) ++ toSticky (f32Cmp c x y).2)))

/-- R113, R135: where a raised condition is enabled the instruction traps ARITH with the lowest such condition and puts nothing in flight. -/
def Obligations.ArithmeticTraps : Prop :=
  ∀ (s : State) (q : Bool) (d a b : BitVec 6) (x : BitVec 2) (r : Rnd) (n : Nat), Live s q →
    let trap : Host.Outcome State Fault Refusal := .next (takeTrap s { cls := 7, detail := n })
    let on := fun bits : Word => 3 ≤ n ∧ n ≤ 8 ∧ bits.getLsbD n = true ∧ s.cctx.status.getLsbD (n + 13) = true
      ∧ ∀ m, 3 ≤ m → m < n → ¬(bits.getLsbD m = true ∧ s.cctx.status.getLsbD (m + 13) = true)
    (on (f32Add r (s.f a) (s.f b)).2 → exec (.fadd q d a b r) s = trap) ∧ (on (f32Mul r (s.f a) (s.f b)).2 → exec (.fmul q d a b r) s = trap)
    ∧ (on (f32Min (s.f a) (s.f b)).2 → exec (.fmin q d a b) s = trap) ∧ (on (f32Fma r (s.f a) (s.f b) (s.f d)).2 → exec (.ffma q d a b r) s = trap)
    ∧ (on ((xIssued s x).mac (s.f a) (s.f b)).2 → exec (.xmac q x a b) s = trap) ∧ (on ((xIssued s x).add (xSeen s x)).2 → exec (.xadd q x x) s = trap)

/-- R135, R136: a NaN operand gives the canonical NaN, a signalling one raises `NV` too; opposite infinities and zero times an infinity are invalid; the sum of R136's table under
the five modes, with `NX` each time. -/
def Obligations.FloatSpecials : Prop :=
  (∀ (r : Rnd) (a b c : W32), 0x7F800000 < (a &&& 0x7FFFFFFF).toNat →
    (f32Add r a b).1 = 0x7FC00000 ∧ (f32Add r b a).1 = 0x7FC00000 ∧ (f32Mul r a b).1 = 0x7FC00000 ∧ (f32Mul r b a).1 = 0x7FC00000
    ∧ (f32Fma r a b c).1 = 0x7FC00000 ∧ (f32Fma r b c a).1 = 0x7FC00000
    ∧ (a.getLsbD 22 = false → (f32Add r a b).2 = 8 ∧ (f32Mul r a b).2 = 8 ∧ (f32Fma r a b c).2 = 8))
  ∧ (∀ r : Rnd, f32Add r 0x7F800000 0xFF800000 = (0x7FC00000, 8) ∧ f32Mul r 0 0xFF800000 = (0x7FC00000, 8) ∧ f32Fma r 0x7F800000 0 0x7FC00000 = (0x7FC00000, 8))
  ∧ f32Add .rne 0x3F800000 0x33800000 = (0x3F800000, 0x80) ∧ f32Add .rtz 0x3F800000 0x33800000 = (0x3F800000, 0x80)
  ∧ f32Add .rup 0x3F800000 0x33800000 = (0x3F800001, 0x80) ∧ f32Add .rdn 0x3F800000 0x33800000 = (0x3F800000, 0x80)
  ∧ f32Add .rna 0x3F800000 0x33800000 = (0x3F800001, 0x80)

/-- R141 to R143: an update of an exact accumulator counts at once for later updates and is seen by reads at its latency; finite products add exactly, an update outside the range keeps the
value, sets the infinity flag of its sign and `OF`. -/
def Obligations.ExactAccumulators : Prop :=
  (∀ (s : State) (q : Bool) (x y : BitVec 2) (d a b : BitVec 6) (r : Rnd), Live s q → NoTraps s →
    let put := fun (lat : Nat) (z : XAcc × Word) =>
      issued (s.setRegs { s.regs with xi := tset s.regs.xi x.toNat z.1 }) q lat 4 (.xacc x.toNat z.1 :: toSticky z.2)
    exec (.xclr q x) s = .next (issued (s.setRegs { s.regs with xi := tset s.regs.xi x.toNat XAcc.zero, xclr := s.regs.xclr ||| BitVec.ofNat 4 (2 ^ x.toNat) })
        q 1 4 [.xacc x.toNat XAcc.zero])
    ∧ exec (.xmac q x a b) s = .next (put 2 ((xIssued s x).mac (s.f a) (s.f b)))
    ∧ exec (.xadd q x y) s = .next (put 2 ((xIssued s x).add (xSeen s y)))
    ∧ exec (.xrnd q d x r) s = .next (issued s q 3 4 (toS s.regs d (((xSeen s x).rnd r).1.setWidth 64) ++ toSticky ((xSeen s x).rnd r).2)))
  ∧ (∀ (x : XAcc) (a b : W32) (na nb : Bool) (m n : Nat) (e f : Int), f32 a = .fin na m e → f32 b = .fin nb n f →
      let p : Int := (if na = nb then 1 else -1) * (m * n * 2 ^ (e + f + 320).toNat : Nat)
      let v := x.v.toInt + p
      0 ≤ e + f + 298
      ∧ (-(2 ^ 639) ≤ v → v < 2 ^ 639 → (x.mac a b).1.v.toInt = v ∧ (x.mac a b).1 = { x with v := (x.mac a b).1.v } ∧ (x.mac a b).2 = 0)
      ∧ (2 ^ 639 ≤ v → (x.mac a b).1.v = x.v ∧ (x.mac a b).1.pinf = true ∧ (x.mac a b).2 = 0x20)
      ∧ (v < -(2 ^ 639) → (x.mac a b).1.v = x.v ∧ (x.mac a b).1.ninf = true ∧ (x.mac a b).2 = 0x20))
  ∧ (∀ (x : XAcc) (r : Rnd), (x.nan → x.rnd r = (0x7FC00000, 0)) ∧ (¬x.nan → x.pinf → x.rnd r = (0x7F800000, 0))
      ∧ (¬x.nan → ¬x.pinf → x.ninf → x.rnd r = (0xFF800000, 0)) ∧ (¬x.nan → ¬x.pinf → ¬x.ninf → x.v = 0 → x.rnd r = (0, 0)))

/-! ## Memory -/

/-- R144, R145, R150: a load's address is its base plus the offset times the size; a load whose bytes lie in window 0 of the issuing core issues with latency 3
(256 bytes: 4), its value fixed at once behind the strand's own queued stores, the loads and AMOs of the strand before it performed; any other is queued and counted, up to 63; an
access that faults ends the launch. `s'` is the state after the translation. -/
def Obligations.LoadsIssue : Prop :=
  ∀ (s s' : State) (q : Bool) (d a : BitVec 6) (o : BitVec 10) (z : LdSize) (tg : CoreTag) (n : Nat) (ps : List Place),
    let ag := strandAg s s.w
    let va := s.s a + BitVec.ofInt 64 (o.toInt * n)
    let far := fun (dest : Dest) => issued (enqueue s' q (.load dest) ps va) q 1 4 []
    let s2 := settleLoads s'
    let bytes := ps.map (forwarded s2 s2.cctx.memq)
    (n = LdSize.bytes z → resolve s ag va n .rd .load = (.ok ps, s') → unfilled s' ag ps = none → Live s' q →
      (allLocal ag ps = true → Live s2 q → exec (.ld q d a o z) s = .next (issued s2 q 3 4 (toS s.regs d (extendTo n (LdSize.sx z) bytes))))
      ∧ (allLocal ag ps = false → s'.cctx.nLoads < 63 →
        exec (.ld q d a o z) s = .next (far (if d = 0 then .none else .sreg (s.regs.skey d.toNat) n (LdSize.sx z)))))
    ∧ (n = 256 → resolve s ag va n .rd .vec = (.ok ps, s') → unfilled s' ag ps = none → Live s' q → VectorReady s q →
      (allLocal ag ps = true → Live s2 q →
        exec (.vld q d a o tg) s = .next (issued s2 q 4 4 [.vreg (ownV s d) ⟨BitVec.ofNat 2048 (leNat bytes), 0, coreTag tg⟩]))
      ∧ (allLocal ag ps = false → s'.cctx.nLoads < 63 → exec (.vld q d a o tg) s = .next (far (.vreg (ownV s d) (coreTag tg)))))
    ∧ (∀ c x, n = LdSize.bytes z → resolve s ag va n .rd .load = (.error (c, x), s') → Live s' q → exec (.ld q d a o z) s = .next (fatalStrand s' 0x3FFF c x))

/-- R145: a loaded value is the little-endian number of its bytes, zero-extended or sign-extended. -/
def Obligations.LoadedValue : Prop :=
  ∀ (bs : List Byte) (n : Nat), bs.length = n → n ≤ 8 →
    extendTo n false bs = BitVec.ofNat 64 (leNat bs)
    ∧ (1 ≤ n → extendTo n true bs = BitVec.ofInt 64 (if 2 ^ (8 * n - 1) ≤ leNat bs then (leNat bs : Int) - 2 ^ (8 * n) else leNat bs))
    ∧ leNat bs = ((List.range n).map fun i => (bs.getD i 0).toNat * 256 ^ i).sum

/-- R120, R144, R146, R150: a store takes its data at issue, is queued and raises the store counter, up to 63; a fault of its access ends the launch. -/
def Obligations.StoresIssue : Prop :=
  ∀ (s s' : State) (q : Bool) (d a : BitVec 6) (o : BitVec 10) (z : StSize) (n : Nat) (ps : List Place),
    let ag := strandAg s s.w
    let va := s.s a + BitVec.ofInt 64 (o.toInt * n)
    let queued := fun (bs : List Byte) => issued (enqueue s' q (.store bs) ps va) q 1 4 []
    (n = StSize.bytes z → resolve s ag va n .wr .store = (.ok ps, s') → unfilled s' ag ps = none → Live s' q → s'.cctx.nStores < 63 →
      exec (.st q d a o z) s = .next (queued (leBytes n (s.s d).toNat)))
    ∧ (n = 256 → resolve s ag va n .wr .vec = (.ok ps, s') → unfilled s' ag ps = none → Live s' q → VectorReady s q → Awake s d → s'.cctx.nStores < 63 →
      exec (.vst q d a o) s = .next (queued (leBytes 256 (ownVec s d).data.toNat)))
    ∧ (∀ c x, n = StSize.bytes z → resolve s ag va n .wr .store = (.error (c, x), s') → Live s' q →
      exec (.st q d a o z) s = .next (fatalStrand s' 0x3FFF c x))

/-- R120, R147: an `AMO` at an aligned address is queued on the store counter with both operands taken at issue; a misaligned one is launch-fatal.
R19, R144: an access of an address with any of bits 63..57 set is launch-fatal as an unmapped address, at that address. -/
def Obligations.AmoIssuesAndHighAddressesFault : Prop :=
  (∀ (s s' : State) (q : Bool) (d a b : BitVec 6) (o : AmoOp) (c : Scope) (w : Bool) (n : Nat) (ps : List Place), n = (if w then 4 else 8) →
    ((s.s a).toNat % n = 0 → resolve s (strandAg s s.w) (s.s a) n .amo (if o = .cas then .amoCas else .amo) = (.ok ps, s') →
      unfilled s' (strandAg s s.w) ps = none → Live s q → Live s' q → s'.cctx.nStores < 63 →
      exec (.amo q d a b o c w) s = .next (issued (enqueue s' q
        (.amo o n (s.s b) (s.s d) c none (if d = 0 then .none else .sreg (s.regs.skey d.toNat) n false)) ps (s.s a)) q 1 4 []))
    ∧ ((s.s a).toNat % n ≠ 0 → Live s q → exec (.amo q d a b o c w) s = .next (fatalStrand s 0x3FFF 0x10 (s.s a))))
  ∧ (∀ (s : State) (q : Bool) (d a : BitVec 6) (o : BitVec 10) (z : LdSize) (y : StSize), Live s q →
    (2 ^ 57 ≤ (s.s a + BitVec.ofInt 64 (o.toInt * LdSize.bytes z)).toNat →
      exec (.ld q d a o z) s = .next (fatalStrand s 0x3FFF 0x10 (s.s a + BitVec.ofInt 64 (o.toInt * LdSize.bytes z))))
    ∧ (2 ^ 57 ≤ (s.s a + BitVec.ofInt 64 (o.toInt * StSize.bytes y)).toNat →
      exec (.st q d a o y) s = .next (fatalStrand s 0x3FFF 0x10 (s.s a + BitVec.ofInt 64 (o.toInt * StSize.bytes y)))))

/-- What an entry of the memory queue is: it stands at the end, and its counter is one higher (R73, R120). -/
def Obligations.QueuedAccess : Prop :=
  ∀ (s : State) (q : Bool) (k : MemKind) (ps : List Place) (va : Word), ∃ m : MemOp,
    m.kind = k ∧ m.places = ps ∧ m.va = va ∧ m.sq = q ∧ m.kill = none ∧ m.held = false ∧ m.thr = s.cur ∧ m.depth = s.cthr.stack.length
    ∧ (enqueue s q k ps va).cctx = { s.cctx with
        memq := s.cctx.memq ++ [m], memId := s.cctx.memId + 1,
        nLoads := s.cctx.nLoads + (match k with | .load _ => 1 | _ => 0), nStores := s.cctx.nStores + (match k with | .load _ => 0 | _ => 1) }
    ∧ enqueue s q k ps va = { s with ctxs := (enqueue s q k ps va).ctxs } ∧ ∀ w, w ≠ s.w → (enqueue s q k ps va).ctx w = s.ctx w

/-- R73, R77, R117: STORE_PERFORMED on a store at the head of its queue writes its bytes at its place and nowhere else, in memory as in a scratchpad, and takes it
out of the queue and off the counter. -/
def Obligations.StorePerformed : Prop :=
  ∀ (s : State) (w a core : Nat) (bs : List Byte) (m : MemOp) (rest : List MemOp), (s.ctx w).memq = m :: rest → m.kind = .store bs →
    (m.places = physRun a bs.length → 1 ≤ bs.length → (a < triggerBase ∨ triggerBase + 512 ≤ a) →
      ∃ t, exec (.storePerformed w) s = .next t
        ∧ (∀ b, rdByte t.mem b = if a ≤ b ∧ b < a + bs.length then bs.getD (b - a) 0 else rdByte s.mem b)
        ∧ (∀ k b, rdByte (t.core k).scratch b = rdByte (s.core k).scratch b)
        ∧ (t.ctx w).memq = rest ∧ (t.ctx w).nStores = (s.ctx w).nStores - 1 ∧ (t.ctx w).nLoads = (s.ctx w).nLoads
        ∧ ∀ j, (t.thr j).regs = (s.thr j).regs)
    ∧ (m.places = scratchRun core a bs.length → 1 ≤ bs.length →
      ∃ t, exec (.storePerformed w) s = .next t ∧ (∀ b, rdByte t.mem b = rdByte s.mem b)
        ∧ (∀ k b, rdByte (t.core k).scratch b = if k = core ∧ a ≤ b ∧ b < a + bs.length then bs.getD (b - a) 0 else rdByte (s.core k).scratch b)
        ∧ (t.ctx w).memq = rest ∧ (t.ctx w).nStores = (s.ctx w).nStores - 1)

/-- R73, R77, R117, R145: ASYNC_LOAD_PERFORMED on a load at the head of its queue reads memory as it stands, writes the extended value to the register named at issue, and takes it out
of the queue and off the counter; memory stays as it is. -/
def Obligations.LoadPerformed : Prop :=
  ∀ (s : State) (w a n key : Nat) (sx : Bool) (m : MemOp) (rest : List MemOp), (s.ctx w).memq = m :: rest → m.kind = .load (.sreg key n sx) →
    m.places = physRun a n → m.kill = none → m.held = false → m.thr = mainOf w → m.depth = 0 → (s.thr (mainOf w)).stack = [] →
    (key < 16 ∨ ((s.thr (mainOf w)).regs.wb + 16 ≤ key ∧ key < (s.thr (mainOf w)).regs.wb + 64)) →
    ∃ t, exec (.asyncLoadPerformed w) s = .next t
      ∧ tget 0 (t.thr (mainOf w)).regs.s key = extendTo n sx (rdBytes s.mem a n)
      ∧ (∀ k, k ≠ key → tget 0 (t.thr (mainOf w)).regs.s k = tget 0 (s.thr (mainOf w)).regs.s k)
      ∧ t.mem = s.mem ∧ t.cores = s.cores ∧ (t.ctx w).memq = rest ∧ (t.ctx w).nLoads = (s.ctx w).nLoads - 1

/-- R23, R73, R77, R82, R147: an `AMO` at the head of its queue, performed, leaves in memory the value its operation makes of the old one, and delivers the old one zero-extended;
a compare-and-swap that fails leaves memory as it is. The old value is what memory holds, where the AMO is atomic with every other at its place and none of these has begun, or
what the AMO has read already, where it has (`got`). -/
def Obligations.AmoPerformed : Prop :=
  ∀ (s : State) (w a n key : Nat) (op : AmoOp) (v e : Word) (sc : Scope) (got : Option (List Byte)) (m : MemOp) (rest : List MemOp), (s.ctx w).memq = m :: rest →
    m.kind = .amo op n v e sc got (.sreg key n false) → (got = none → ∀ r ∈ amoRivals s w m.places, r.2.2 = false ∧ amoAtomic w sc r = true) →
    (∀ bs, got = some bs → bs.length = n) → (n = 4 ∨ n = 8) → m.places = physRun a n → (a + n ≤ triggerBase ∨ triggerBase + 512 ≤ a) →
    m.kill = none → m.held = false → m.thr = mainOf w → m.depth = 0 → (s.thr (mainOf w)).stack = [] →
    (key < 16 ∨ ((s.thr (mainOf w)).regs.wb + 16 ≤ key ∧ key < (s.thr (mainOf w)).regs.wb + 64)) →
    let old := match got with | none => rdNat s.mem a n | some bs => leNat bs
    let x := v.toNat % 2 ^ (8 * n)
    let lt := fun i j : Nat => sextNat i (8 * n) < sextNat j (8 * n)
    let new := match op with
      | .add => (old + x) % 2 ^ (8 * n) | .min => if lt x old then x else old | .max => if lt old x then x else old
      | .and => old &&& x | .or => old ||| x | .xor => old ^^^ x | .swap => x
      | .cas => if old = e.toNat % 2 ^ (8 * n) then x else rdNat s.mem a n
    ∃ t, exec (.storePerformed w) s = .next t ∧ rdNat t.mem a n = new
      ∧ (∀ b, (b < a ∨ a + n ≤ b) → rdByte t.mem b = rdByte s.mem b)
      ∧ tget 0 (t.thr (mainOf w)).regs.s key = BitVec.ofNat 64 old ∧ (t.ctx w).memq = rest ∧ (t.ctx w).nStores = (s.ctx w).nStores - 1

/-- R37, R39, R74, R105, R148: `SPL` reads and `SPS` writes 4 or 8 aligned bytes of the Bantam below its rounded size, and trap ILL elsewhere; a `SPS` changes no other byte
of it; `MARK` issues with nothing outstanding and stalls otherwise. -/
def Obligations.BantamAndMark : Prop :=
  ∀ (s : State) (q : Bool) (d a : BitVec 6) (o : BitVec 10) (z : SplSize) (y : SpsSize), Live s q →
    let at_ := fun n : Nat => (s.s a + BitVec.ofInt 64 (o.toInt * n)).toNat
    let ok := fun n : Nat => at_ n + n ≤ (s.cres.alloc.extractLsb' 48 13).toNat ∧ at_ n % n = 0
    let n := SplSize.bytes z
    let k := SpsSize.bytes y
    (ok n → exec (.spl q d a o z) s = .next (issued s q 1 4 (toS s.regs d (extendTo n (z = .sw) (rdBytes s.cctx.bantam (at_ n) n)))))
    ∧ (¬ok n → exec (.spl q d a o z) s = .next (takeTrap s { cls := 1 }))
    ∧ (ok k → ∃ (c : Ctx) (u : State), c = { s.cctx with bantam := c.bantam } ∧ u = { s.setCctx c with cores := u.cores, agenda := u.agenda }
        ∧ exec (.sps q d a o y) s = .next (issued u q 1 4 [])
        ∧ ((∀ x ∈ (s.core (nodeOf s.w)).watch, x.2.mode = 0) → u.cores = s.cores ∧ u.agenda = s.agenda)
        ∧ (∀ i, (u.core i).scratch = (s.core i).scratch ∧ (u.core i).acc = (s.core i).acc)
        ∧ ∀ b, rdByte c.bantam b = if at_ k ≤ b ∧ b < at_ k + k then BitVec.ofNat 8 ((s.s d).toNat / 256 ^ (b - at_ k)) else rdByte s.cctx.bantam b)
    ∧ (¬ok k → exec (.sps q d a o y) s = .next (takeTrap s { cls := 1 }))
    ∧ (s.cctx.memq = [] → exec (.mark q) s = .next (issued s q 1 4 []))
    ∧ (s.cctx.memq ≠ [] → exec (.mark q) s = .next (beginWait s s.cur .mark 0))

/-! ## Core vector instructions -/

/-- R113, R149, R151: the arithmetic group lane by lane, with the tags its sources must carry and the tag it writes; a source of another tag traps TAG with its number and tag, and puts nothing
in flight. -/
def Obligations.VectorArithmetic : Prop :=
  ∀ (s : State) (q : Bool) (d a b : BitVec 6) (l : VLogOp) (h : VShfOp), VectorReady s q → Awake s a → Awake s b →
    let va := ownVec s a
    let vb := ownVec s b
    let fp := fun (v : VReg) => v.tag = 1
    let int := fun (v : VReg) => v.tag = 2 ∨ v.tag = 3
    let any := fun (v : VReg) => v.tag.toNat < 4
    let both : BitVec 5 := if va.tag = 2 ∨ vb.tag = 2 then 2 else 3
    (fp va → fp vb → WritesLanes (exec (.vadd q d a b .f32) s) s q 2 d 1 fun i => f32Add .rne (laneOf va i) (laneOf vb i))
    ∧ (int va → int vb → WritesLanes (exec (.vadd q d a b .i32) s) s q 2 d both fun i => (laneOf va i + laneOf vb i, 0))
    ∧ (fp va → fp vb → WritesLanes (exec (.vmul q d a b .f32) s) s q 4 d 1 fun i => f32Mul .rne (laneOf va i) (laneOf vb i))
    ∧ (int va → int vb → WritesLanes (exec (.vmul q d a b .i32) s) s q 4 d both fun i => (laneOf va i * laneOf vb i, 0))
    ∧ (fp va → fp vb → fp (ownVec s d) → Awake s d →
        WritesLanes (exec (.vfma q d a b) s) s q 4 d 1 fun i => f32Fma .rne (laneOf va i) (laneOf vb i) (laneOf (ownVec s d) i))
    ∧ (any va → any vb → WritesLanes (exec (.vlog q d a b l) s) s q 2 d va.tag fun i =>
        (match l with
          | .and => laneOf va i &&& laneOf vb i | .or => laneOf va i ||| laneOf vb i
          | .xor => laneOf va i ^^^ laneOf vb i | .andn => laneOf va i &&& ~~~laneOf vb i, 0))
    ∧ (any va → any vb → WritesLanes (exec (.vshf q d a b h) s) s q 2 d va.tag fun i =>
        (let n := ((laneOf vb i).extractLsb' 0 5).toNat
         match h with
          | .shl => BitVec.ofNat 32 ((laneOf va i).toNat * 2 ^ n) | .shr => BitVec.ofNat 32 ((laneOf va i).toNat / 2 ^ n)
          | .sra => BitVec.ofInt 32 ((laneOf va i).toInt / 2 ^ n), 0))
    ∧ (¬fp va → exec (.vadd q d a b .f32) s = .next (takeTrap s { cls := 2, detail := 0, arg := va.tag.toNat }))
    ∧ (int va → ¬int vb → exec (.vmul q d a b .i32) s = .next (takeTrap s { cls := 2, detail := 1, arg := vb.tag.toNat }))

/-- R152 to R155: compares into lane masks, lane selection and permutation, splat and extraction, and the folds of a mask. -/
def Obligations.VectorMovement : Prop :=
  ∀ (s : State) (q : Bool) (d a b l : BitVec 6) (k p : BitVec 4) (c : Cond) (t : CoreTag), VectorReady s q →
    let va := ownVec s a
    let vb := ownVec s b
    let valid := fun v : VReg => v.tag.toNat < 10 ∨ (11 ≤ v.tag.toNat ∧ v.tag.toNat < 15)
    let ones : Word := 0xFFFFFFFFFFFFFFFF
    (Awake s a → Awake s b →
      (va.tag = 1 → vb.tag = 1 → c ≠ .ltn → c ≠ .gen → ∃ m bits : Word,
        exec (.vcmp q k a b .f32 c) s = .next (issued s q 2 4 (toP (ownP s k) m ++ toSticky bits))
        ∧ (let cc : FCond := match c with | .eq => .eq | .ne => .ne | .lt => .lt | _ => .ge
           (∀ i < 64, m.getLsbD i = (f32Cmp cc (laneOf va i) (laneOf vb i)).1)
            ∧ ∀ j, bits.getLsbD j = true ↔ ∃ i < 64, (f32Cmp cc (laneOf va i) (laneOf vb i)).2.getLsbD j = true))
      ∧ ((va.tag = 2 ∨ va.tag = 3) → (vb.tag = 2 ∨ vb.tag = 3) → ∃ m : Word,
        exec (.vcmp q k a b .i32 c) s = .next (issued s q 2 4 (toP (ownP s k) m))
        ∧ ∀ i < 64, m.getLsbD i = (let x := laneOf va i
                                   let y := laneOf vb i
                                   match c with
                                   | .eq => decide (x = y) | .ne => decide (x ≠ y) | .lt => decide (x.toInt < y.toInt) | .ge => decide (y.toInt ≤ x.toInt)
                                   | .ltn => decide (x.toNat < y.toNat) | .gen => decide (y.toNat ≤ x.toNat)))
      ∧ (valid va → vb.tag = va.tag →
        WritesLanes (exec (.vsel q d a b p) s) s q 2 d va.tag fun i => (if (ownMask s p).getLsbD i then laneOf va i else laneOf vb i, 0))
      ∧ (valid va → (vb.tag = 2 ∨ vb.tag = 3) →
        WritesLanes (exec (.vperm q d a b) s) s q 3 d va.tag fun i => (laneOf va ((laneOf vb i).extractLsb' 0 6).toNat, 0)))
    ∧ WritesLanes (exec (.vsplat q d a t) s) s q 1 d (match t with | .raw => 0 | .f32 => 1 | .i32 => 2 | .n32 => 3) (fun _ => ((s.s a).extractLsb' 0 32, 0))
    ∧ (Awake s a → exec (.vext q d a l) s =
        .next (issued s q 2 4 (toS s.regs d (if va.tag = 2 then BitVec.ofInt 64 (laneOf va l.toNat).toInt else BitVec.ofNat 64 (laneOf va l.toNat).toNat))))
    ∧ exec (.vany q k p) s = .next (issued s q 2 4 (toP (ownP s k) (if ownMask s p = 0 then 0 else ones)))
    ∧ exec (.vall q k p) s = .next (issued s q 2 4 (toP (ownP s k) (if ownMask s p = ones then ones else 0)))

/-! ## Branches, loops and calls -/

/-- R121, R124, R156, R157: `PREP` makes its target usable two slots later; a taken `XFER` drops the loops that do not hold its target, and after two more
slots control is at the target; one not taken goes on, and its two slots are delay slots all the same. -/
def Obligations.Transfers : Prop :=
  ∀ (s : State) (q v : Bool) (b : BitVec 3) (o : BitVec 22) (p : BitVec 4), Live s q →
    exec (.prep q b o) s = .next (issued s q 2 4 [.breg b.toNat (s.regs.pc + BitVec.ofInt 64 (4 * o.toInt))])
    ∧ (NoShadow s → OwnStream s → prepNear s.regs b = false →
      ((ownMask s p).getLsbD 0 ≠ v → ∃ t, exec (.xfer q p v b) s = .next t
        ∧ t.regs.loops = s.regs.loops.dropWhile (fun e => !decide (e.start.toNat ≤ (tget 0 s.regs.b b.toNat).toNat ∧ (tget 0 s.regs.b b.toNat).toNat ≤ e.stop.toNat))
        ∧ t.regs.pc = s.regs.pc + 4 ∧ inDelay t = true ∧ (idle 1 t).regs.pc = s.regs.pc + 8 ∧ inDelay (idle 1 t) = true
        ∧ (idle 2 t).regs.pc = tget 0 s.regs.b b.toNat ∧ inDelay (idle 2 t) = false)
      ∧ ((ownMask s p).getLsbD 0 = v → ∃ t, exec (.xfer q p v b) s = .next t ∧ t.regs.loops = s.regs.loops
        ∧ t.regs.pc = s.regs.pc + 4 ∧ inDelay t = true ∧ (idle 1 t).regs.pc = s.regs.pc + 8 ∧ inDelay (idle 1 t) = true
        ∧ (idle 2 t).regs.pc = s.regs.pc + 12 ∧ inDelay (idle 2 t) = false))

/-- R121: the control instructions trap ILL in a delay slot, of a taken `XFER` or of one not taken (R157); so do an `XFER` and a `CALL` whose target a `PREP` of the slot before
still has under way. -/
def Obligations.DelaySlotTraps : Prop :=
  ∀ (s : State) (q v : Bool) (b : BitVec 3) (p : BitVec 4) (n : BitVec 16) (e : BitVec 8) (a : BitVec 6) (c : BitVec 12), Live s q →
    let ill : Host.Outcome State Fault Refusal := .next (takeTrap s { cls := 1 })
    (inDelay s = true → exec (.xfer q p v b) s = ill ∧ exec (.call q b) s = ill ∧ exec (.ret q) s = ill ∧ exec (.loopImm q n e) s = ill
      ∧ exec (.loopReg q a e) s = ill ∧ exec (.loopb q) s = ill ∧ exec (.trap q c) s = ill ∧ exec (.rte q) s = ill ∧ exec (.halt q) s = ill)
    ∧ ((∃ r ∈ s.regs.pend, ∃ x, r.eff = .breg b.toNat x) → exec (.xfer q p v b) s = ill ∧ exec (.call q b) s = ill)

/-- R59, R123, R158: every `LOOP` and `LOOPB` that executes normally, and when they trap. With fewer than four loops and a `LOOPB` at the end offset both forms of `LOOP` complete: the entry is pushed and control is at the next word,
or with a count of 0 behind the `LOOPB`; the register form takes the low 48 bits of its register. A fifth loop traps ILL, and so does an end word that is no `LOOPB`. `LOOPB` at the end of the innermost loop completes: it rotates both
bases and goes to the start, the count one lower, or leaves the loop; without its own loop on top it traps ILL. Each takes one slot. -/
def Obligations.HardwareLoops : Prop :=
  ∀ (s : State) (q : Bool) (n : BitVec 16) (a : BitVec 6) (e : BitVec 8), Live s q → NoShadow s →
    let stop := s.regs.pc + BitVec.ofNat 64 (4 * e.toNat)
    let start := s.regs.pc + 4
    let closed := ∃ w x, peekCode s stop = some w ∧ decodeWord w = .ok (.loopb x)
    let enter := fun count : Nat =>
      if count = 0 then endSlot s (stop + 4) else endSlot (s.setRegs { s.regs with loops := ⟨start, stop, count⟩ :: s.regs.loops }) start
    let turn := fun (ls : List LoopEnt) (next : Word) => endSlot (s.setRegs { s.regs with rrbV := s.regs.rrbV - 1, rrbP := s.regs.rrbP - 1, loops := ls }) next
    let ill : Host.Outcome State Fault Refusal := .next (takeTrap s { cls := 1 })
    (s.regs.loops.length < 4 → closed → exec (.loopImm q n e) s = .next (enter n.toNat) ∧ exec (.loopReg q a e) s = .next (enter ((s.s a).toNat % 2 ^ 48)))
    ∧ (4 ≤ s.regs.loops.length ∨ ¬closed → exec (.loopImm q n e) s = ill ∧ exec (.loopReg q a e) s = ill)
    ∧ (s.regs.loops = [] → exec (.loopb q) s = ill)
    ∧ ∀ top rest, s.regs.loops = top :: rest →
      (top.stop ≠ s.regs.pc → exec (.loopb q) s = ill)
      ∧ (top.stop = s.regs.pc → exec (.loopb q) s = .next (if 1 < top.count then turn ({ top with count := top.count - 1 } :: rest) top.start else turn rest start))

/-- R107, R159: `CALL` pushes the return address and the frame size, moves the window up by the frame and stores the frame at its spill slots, changing no other byte of the scratchpad;
a full link stack or a window past the spill region traps ILL. `RET` takes it back and fills the caller's frame from the slots; an empty link stack traps ILL. `ENTER` sets the frame size. -/
def Obligations.CallsAndWindows : Prop :=
  ∀ (s : State) (q : Bool) (b : BitVec 3) (f : BitVec 6), Live s q → OwnStream s → s.regs.base = 0 →
    let limit := (s.cres.alloc.extractLsb' 8 11).toNat - 48
    let slot := fun p : Nat => s.cres.spillb + 8 * p
    let scratch := fun t : State => (t.core (nodeOf s.w)).scratch
    (NoShadow s → prepNear s.regs b = false → s.regs.pend = [] →
      ((s.regs.links.length = 16 ∨ limit < s.regs.wb + s.regs.fs) → exec (.call q b) s = .next (takeTrap s { cls := 1 }))
      ∧ (s.regs.links.length ≠ 16 → s.regs.wb + s.regs.fs ≤ limit → ∃ t, exec (.call q b) s = .next t
        ∧ t.regs.pc = tget 0 s.regs.b b.toNat ∧ t.regs.links = ⟨s.regs.pc + 4, s.regs.fs⟩ :: s.regs.links
        ∧ t.regs.wb = s.regs.wb + s.regs.fs ∧ t.regs.fs = s.regs.fs ∧ t.regs.loops = s.regs.loops ∧ t.regs.s = s.regs.s
        ∧ (∀ p, s.regs.wb ≤ p → p < s.regs.wb + s.regs.fs → rdWord (scratch t) (slot p) = tget 0 s.regs.s (16 + p))
        ∧ ∀ x, (x < slot s.regs.wb ∨ slot (s.regs.wb + s.regs.fs) ≤ x) → rdByte (scratch t) x = rdByte (scratch s) x))
    ∧ (NoShadow s → s.regs.pend = [] → (s.regs.links = [] → exec (.ret q) s = .next (takeTrap s { cls := 1 }))
      ∧ ∀ top rest, s.regs.links = top :: rest → ∃ t, exec (.ret q) s = .next t ∧ t.regs.pc = top.ret ∧ t.regs.links = rest
        ∧ t.regs.wb = s.regs.wb - top.fs ∧ t.regs.fs = top.fs ∧ scratch t = scratch s ∧ t.mem = s.mem
        ∧ (∀ p, s.regs.wb - top.fs ≤ p → p < s.regs.wb - top.fs + top.fs → tget 0 t.regs.s (16 + p) = rdWord (scratch s) (slot p))
        ∧ ∀ k, (k < 16 + (s.regs.wb - top.fs) ∨ 16 + (s.regs.wb - top.fs) + top.fs ≤ k) → tget 0 t.regs.s k = tget 0 s.regs.s k)
    ∧ (12 < f.toNat → exec (.enter q f) s = .next (takeTrap s { cls := 1 }))
    ∧ (f.toNat ≤ 12 → ∃ t, exec (.enter q f) s = .next t ∧ t.regs.fs = 4 * f.toNat ∧ t.regs.wb = s.regs.wb ∧ (s.regs.xfer = none → t.regs.pc = s.regs.pc + 4))

/-! ## Traps -/

/-- R119, R160, R398, R400: a `TRAP` enters the handler. `CAUSE` holds class 8 and the code, `EPC` the word behind it, `EUPC` zero; control is at `TVEC` with no result in flight; the results
that were are held with one slot less; the registers stand.
R398 to R400: a trap of an instruction itself enters the handler with its class, detail and argument in `CAUSE` and its own address in `EPC`.
R181, R400: a trap inside a routine enters the handler with the call's address in `EPC` and in `EUPC` the commit points passed and the step, and the caller's registers. -/
def Obligations.TrapsEnterHandler : Prop :=
  (∀ (s : State) (q : Bool) (c : BitVec 12), Live s q → NoShadow s → HandlerReady s →
      ∃ t, exec (.trap q c) s = .next t ∧ t.cctx.cause = BitVec.ofNat 64 (8 + 2 ^ 16 * c.toNat) ∧ t.cctx.epc = s.regs.pc + 4 ∧ t.cctx.eupc = 0
        ∧ t.cctx.handler = true ∧ t.regs.pc = s.cctx.tvec ∧ t.regs.pend = [] ∧ t.cctx.held = s.regs.pend.map (fun p => { p with left := p.left - 1 })
        ∧ t.regs.s = s.regs.s ∧ t.regs.v = s.regs.v ∧ t.regs.p = s.regs.p ∧ t.regs.loops = s.regs.loops ∧ t.regs.links = s.regs.links ∧ t.regs.wb = s.regs.wb
        ∧ t.cctx.status = s.cctx.status ∧ t.mem = s.mem ∧ (s.cthr.wait = none → t.cores = s.cores) ∧ t.residents = s.residents ∧ ∀ j, j ≠ s.cur → t.thr j = s.thr j)
  ∧ (∀ (s : State) (tr : Trap), HandlerReady s → tr.cls < 256 → tr.detail < 256 → tr.code < 4096 → tr.arg < 2 ^ 19 → tr.core < 4 →
    let t := takeTrap s tr
    t.cctx.cause.extractLsb' 0 8 = BitVec.ofNat 8 tr.cls ∧ t.cctx.cause.extractLsb' 8 8 = BitVec.ofNat 8 tr.detail
    ∧ t.cctx.cause.extractLsb' 16 12 = BitVec.ofNat 12 tr.code ∧ t.cctx.cause.extractLsb' 28 2 = 0
    ∧ t.cctx.cause.extractLsb' 32 19 = BitVec.ofNat 19 tr.arg ∧ t.cctx.cause.extractLsb' 51 2 = BitVec.ofNat 2 tr.core
    ∧ t.cctx.epc = s.regs.pc ∧ t.cctx.eupc = 0 ∧ t.cctx.handler = true ∧ t.regs.pc = s.cctx.tvec
    ∧ t.cctx.status = s.cctx.status ||| (if tr.cls = 4 then 1 else 0) ∧ t.mem = s.mem ∧ (s.cthr.wait = none → t.cores = s.cores) ∧ t.regs.s = s.regs.s)
  ∧ (∀ (s : State) (tr : Trap) (f : Frame), s.cthr.stack = [f] → qfOf s.cur = 0 → f.dead = false → s.cctx.handler = false → s.cctx.tvec ≠ 0 →
    runsTile s s.w = false → isLevelProgram s.w = false →
    let t := takeTrap s tr
    t.cctx.epc = f.site ∧ t.cctx.eupc = BitVec.ofNat 64 (2 ^ 16 * (f.commit % 2 ^ 16) + min (f.step + 1) 65535)
    ∧ t.cctx.handler = true ∧ t.regs.pc = s.cctx.tvec ∧ t.cthr.stack = [] ∧ t.regs.s = f.caller.s ∧ t.cctx.cause.extractLsb' 28 1 = 1
    ∧ t.cctx.held = f.caller.pend)

/-- R48, R119, R160, R401: `RTE` in handler mode, at the depths of the entry, leaves it: control is at `EPC`, its two low bits clear, the held results are in flight again behind those of the
handler, and a transfer in progress goes on. Elsewhere it traps ILL. What a held accumulator result then lands is the model's choice (log entry 94). -/
def Obligations.RteReturns : Prop :=
  ∀ (s : State) (q : Bool), Live s q → NoShadow s → OwnStream s →
    (s.cctx.handler = true → s.regs.loops.length = s.cctx.hLoops → s.regs.links.length = s.cctx.hLinks → s.regs.wb = s.cctx.hWb → s.regs.fs = s.cctx.hFs →
      s.cctx.heldThread = none → NoCsrPending s → (∀ p ∈ s.cctx.held, 1 ≤ p.left) →
      ∃ (t : State) (ps : List Pend), exec (.rte q) s = .next t ∧ t.cctx.handler = false ∧ t.regs.pc = s.cctx.epc &&& ~~~3 ∧ t.regs.xfer = s.cctx.heldXfer
        ∧ t.regs.pend = ((s.regs.pend.map fun p => { p with left := p.left - 1 }).filter fun p => p.left ≠ 0) ++ ps ∧ ps.length = s.cctx.held.length
        ∧ (∀ (i : Nat) (p : Pend), s.cctx.held[i]? = some p → ps[i]? = some p ∨ ∃ n a b, p.eff = .xacc n a ∧ ps[i]? = some { p with eff := .xacc n b })
        ∧ ((∀ p ∈ s.cctx.held, ∀ n a, p.eff ≠ .xacc n a) → ps = s.cctx.held)
        ∧ t.cctx.held = [] ∧ t.regs.loops = s.regs.loops ∧ t.regs.links = s.regs.links ∧ t.mem = s.mem)
    ∧ ((s.cctx.handler = false ∨ s.regs.loops.length ≠ s.cctx.hLoops ∨ s.regs.links.length ≠ s.cctx.hLinks ∨ s.regs.wb ≠ s.cctx.hWb ∨ s.regs.fs ≠ s.cctx.hFs) →
      exec (.rte q) s = .next (takeTrap s { cls := 1 }))

/-! ## Synchronisation -/

/-- R18, R80, R161, R454: `SEMSIG` on a semaphore of the view completes: it holds its increment with its release conditions, every earlier access of the context and the entries now in the FIFOs of its mask, and ends in one slot. A name that the
view does not map traps SYNC with the name. -/
def Obligations.SignalsAreHeld : Prop :=
  ∀ (s : State) (q : Bool) (d : BitVec 5) (a : BitVec 6) (m : BitVec 4), Live s q → OwnStream s →
    let heads := ((List.range 4).filter fun k => m.getLsbD k).map fun k => (k, tget 0 s.cres.retired k + (jobsOf (s.cres.fifo k)).length)
    (∀ n, tget? s.cres.semMap d.toNat = some n →
      exec (.semsig q d a m) s = .next (issued (s.setCctx { s.cctx with sigs := s.cctx.sigs ++ [{ sem := n, amount := a.toNat, afterMem := s.cctx.memId, heads := heads }] }) q 1 4 []))
    ∧ (tget? s.cres.semMap d.toNat = none → exec (.semsig q d a m) s = .next (takeTrap s { cls := 9, arg := d.toNat }))

/-- R18, R162, R163, R454: `SEMWAIT` takes its amount at once where no waiter is ahead and the count suffices, and else joins the queue's end and waits; granted, it issues. `MTXACQ` takes a free mutex,
waits in the queue for one held by another, and traps SYNC on its own; `MTXREL` frees its own, whose oldest waiter takes it, and traps SYNC on another's. -/
def Obligations.SemaphoresAndMutexes : Prop :=
  ∀ (s : State) (q : Bool) (d : BitVec 5) (e : BitVec 3) (a : BitVec 6), Live s q → OwnStream s →
    let k := nodeOf s.w
    let sync : Host.Outcome State Fault Refusal := .next (takeTrap s { cls := 9, arg := e.toNat })
    (a ≠ 0 → s.cthr.granted = true → exec (.semwait q d a) s = .next (issued s q 1 4 []))
    ∧ (s.cthr.granted = true → exec (.mtxacq q e) s = .next (issued s q 1 4 []))
    ∧ (∀ n, a ≠ 0 → s.cthr.granted = false → s.cthr.wait = none → tget? s.cres.semMap d.toNat = some n →
      let x := tget ⟨0, []⟩ (s.core k).sems n
      let put := fun y : Sem => s.setCore k { s.core k with sems := tset (s.core k).sems n y }
      (x.queue = [] → a.toNat ≤ x.count.toNat →
        exec (.semwait q d a) s = .next (issued (put ⟨x.count - a.setWidth 16, []⟩) q 1 4 []))
      ∧ (x.queue ≠ [] ∨ x.count.toNat < a.toNat → ∃ t, exec (.semwait q d a) s = .next t
          ∧ (tget ⟨0, []⟩ (t.core k).sems n) = ⟨x.count, x.queue ++ [(s.cur, a.toNat)]⟩ ∧ t.cthr.wait = some { kind := .semwait, flag := n, since := s.cycle } ∧ t.regs = s.regs))
    ∧ (a ≠ 0 → s.cthr.granted = false → s.cthr.wait = none → tget? s.cres.semMap d.toNat = none →
        exec (.semwait q d a) s = .next (takeTrap s { cls := 9, arg := d.toNat }))
    ∧ (tget? s.cres.mtxMap e.toNat = none → (s.cthr.granted = false → s.cthr.wait = none → exec (.mtxacq q e) s = sync) ∧ exec (.mtxrel q e) s = sync)
    ∧ (a = 0 → exec (.semwait q d a) s = .next (takeTrap s { cls := 1 }))
    ∧ (∀ n, s.cthr.granted = false → s.cthr.wait = none → tget? s.cres.mtxMap e.toNat = some n →
      let x := tget ⟨none, []⟩ (s.core k).mtxs n
      let put := fun y : Mtx => s.setCore k { s.core k with mtxs := tset (s.core k).mtxs n y }
      (x.holder = none → exec (.mtxacq q e) s = .next (issued (put ⟨some s.w, x.queue⟩) q 1 4 []))
      ∧ (x.holder = some s.w → exec (.mtxacq q e) s = sync)
      ∧ (∀ h, x.holder = some h → h ≠ s.w → ∃ t, exec (.mtxacq q e) s = .next t
          ∧ tget ⟨none, []⟩ (t.core k).mtxs n = ⟨some h, x.queue ++ [s.cur]⟩ ∧ t.cthr.wait = some { kind := .mtxacq, flag := n, since := s.cycle })
      ∧ (x.holder ≠ some s.w → exec (.mtxrel q e) s = sync)
      ∧ (x.holder = some s.w → (∀ m ∈ s.cctx.memq, m.isLoad = true) → x.queue = [] →
          exec (.mtxrel q e) s = .next (issued (put ⟨none, []⟩) q 1 4 []))
      ∧ (∀ j rest, x.holder = some s.w → (∀ m ∈ s.cctx.memq, m.isLoad = true) → x.queue = j :: rest →
          exec (.mtxrel q e) s = .next (issued (grant (put ⟨some (ctxOf j), rest⟩) j (strandAgent s.w)) q 1 4 [])))

/-- R120, R164 to R166, R169: `WAITC` issues with every counter within its limit, 63 never waiting, and stalls otherwise. `FORK` belongs to `ctl`, starts a fresh strand at its stream's start and a halted one behind its `HALT`, and
traps SYNC where one of them runs. `RDV` that names its own strand waits for the others of its mask. -/
def Obligations.StrandsMeet : Prop :=
  ∀ (s : State) (q : Bool) (l st c t : BitVec 6) (m : BitVec 4), Live s q → OwnStream s →
    let in_ := fun (n : Nat) (x : BitVec 6) => x.toNat = 63 ∨ n ≤ x.toNat
    let all := in_ s.cctx.nLoads l ∧ in_ s.cctx.nStores st ∧ in_ s.cctx.nCopies c ∧ in_ s.cctx.nTiles t
    let r := resKeyOf s.w
    let named := (List.range 4).filter fun k => m.getLsbD k
    (all → exec (.waitc q l st c t) s = .next (issued s q 1 4 []))
    ∧ (¬all → exec (.waitc q l st c t) s = .next (beginWait s s.cur .waitc (256 * limitsOf l st c t)))
    ∧ ((m = 0 ∨ m.getLsbD 0 = true ∨ strandOf s.w ≠ 0) → exec (.fork q m) s = .next (takeTrap s { cls := 1 }))
    ∧ (m ≠ 0 → m.getLsbD 0 = false → strandOf s.w = 0 →
      ((∃ k ∈ named, (s.ctx (ctxKey r k)).run = .running) → exec (.fork q m) s = .next (takeTrap s { cls := 9 }))
      ∧ ((∀ k ∈ named, (s.ctx (ctxKey r k)).run ≠ .running) → ∃ u, exec (.fork q m) s = .next u ∧ ∀ k ∈ named,
          let w := ctxKey r k
          ((s.ctx w).run = .fresh → (u.ctx w).run = .running ∧ (u.thr (mainOf w)).regs.pc = (s.ctx w).start ∧ (u.ctx w).gate = some (s.cctx.memId, s.cycle))
          ∧ ((s.ctx w).run = .halted → (u.ctx w).run = .running ∧ (u.thr (mainOf w)).regs = (s.thr (mainOf w)).regs ∧ (u.ctx w).gate = some (s.cctx.memId, s.cycle))
          ∧ ((s.ctx w).run = .empty → (u.ctx w).run = .empty)))
    ∧ (m.getLsbD (strandOf s.w) = false → exec (.rdv q m) s = .next (takeTrap s { cls := 1 }))
    ∧ (m.getLsbD (strandOf s.w) = true → s.cthr.granted = false → s.cthr.wait = none → s.cctx.memq = [] →
      ((∀ k ∈ named, ctxKey r k ≠ s.w → (s.ctx (ctxKey r k)).run ≠ .running) → ∃ u, exec (.rdv q m) s = .next u ∧ u.cctx.rdv = none ∧ u.cthr.wait = none
        ∧ u.regs.slot = s.regs.slot + 1)
      ∧ ((∃ k ∈ named, ctxKey r k ≠ s.w ∧ (s.ctx (ctxKey r k)).run = .running ∧ (s.ctx (ctxKey r k)).rdv ≠ some m) → ∃ u, exec (.rdv q m) s = .next u
        ∧ u.cctx.rdv = some m ∧ u.cthr.wait = some { kind := .rdv, flag := m.toNat, since := s.cycle, rel := strandAgent s.w } ∧ u.regs = s.regs))

/-- R78, R79: `JOIN` puts its marker behind the entries of each named FIFO, issues when none is ahead of any, and waits otherwise; `QFENCE` puts its fence into all of them in one step, where it
stays until it is at the head of each. A mask of 0 traps ILL.
R83, R167: a `BAR` below pod scope counts its arrival, goes on when every other participant has halted or has arrived as often, with its accesses performed, and waits while one that runs has
not arrived or one that has halted still has accesses under way. -/
def Obligations.JoinsFencesAndBarriers : Prop :=
  (∀ (s : State) (q : Bool) (m : BitVec 4), Live s q → OwnStream s →
      let x := s.cres
      let named := fun f : Nat => f < 4 ∧ m.getLsbD f = true
      (m = 0 → exec (.join q m) s = .next (takeTrap s { cls := 1 }) ∧ exec (.qfence q m) s = .next (takeTrap s { cls := 1 }))
      ∧ (m ≠ 0 → FifosSettled x → s.cthr.marks = none → s.cthr.wait = none →
        ((∀ f, named f → x.fifo f = []) → ∃ t, exec (.join q m) s = .next t ∧ t.regs.slot = s.regs.slot + 1 ∧ t.cthr.wait = none ∧ ∀ f < 4, t.cres.fifo f = x.fifo f)
        ∧ ((∃ f, named f ∧ x.fifo f ≠ []) → ∃ t, exec (.join q m) s = .next t ∧ t.cthr.wait = some { kind := .join, flag := m.toNat, since := s.cycle } ∧ t.regs = s.regs
            ∧ ∀ f < 4, t.cres.fifo f = x.fifo f ++ (if m.getLsbD f ∧ x.fifo f ≠ [] then [.marker s.cur] else [])))
      ∧ (m ≠ 0 → FifosSettled x → (∀ f < 4, .fence x.fenceId ∉ x.fifo f) →
        ∃ t, exec (.qfence q m) s = .next t ∧ t.regs.slot = s.regs.slot + 1 ∧ t.cres.fenceId = x.fenceId + 1
          ∧ ((∀ f, named f → x.fifo f = []) → ∀ f < 4, t.cres.fifo f = x.fifo f)
          ∧ ((∃ f, named f ∧ x.fifo f ≠ []) → ∀ f < 4, t.cres.fifo f = x.fifo f ++ (if m.getLsbD f then [.fence x.fenceId] else []))))
  ∧ ∀ (s : State) (q : Bool) (c : Scope), Live s q → OwnStream s → c ≠ .pod → s.cthr.granted = false → s.cthr.wait = none → s.cctx.barIn = none → s.cctx.memq = [] →
    let n := s.cctx.bars c + 1
    ((∀ w ∈ barSet s s.w c, w ≠ s.w → ((s.ctx w).run = .halted ∨ n ≤ (s.ctx w).bars c) ∧ (s.ctx w).memq = []) →
      ∃ t, exec (.bar q c) s = .next t ∧ t.regs.slot = s.regs.slot + 1 ∧ t.cctx.bars c = n ∧ t.cctx.barIn = none ∧ t.cthr.wait = none)
    ∧ ((∃ w ∈ barSet s s.w c, w ≠ s.w ∧ (if (s.ctx w).run = .halted then (s.ctx w).memq ≠ [] else (s.ctx w).bars c < n)) →
      ∃ t, exec (.bar q c) s = .next t ∧ t.regs = s.regs ∧ t.cctx.bars c = n ∧ t.cthr.wait = some { kind := .bar, flag := scopeCode c, since := s.cycle, rel := strandAgent s.w })

/-! ## System instructions -/

/-- R112, R168: the control and status registers as `CSRR` reads them; a number that the table does not have traps ILL, and so does a `CSRW` to anything but `STATUS`, `EPC`, `EUPC`,
`RRB_V` and `RRB_P`.
R112, R113: what a landing `CSRW` leaves: in `STATUS` the enables take the value, a one clears a sticky bit and a zero leaves it, and every other bit is zero; `EUPC` and the rotating bases
keep the bits they have. -/
def Obligations.ControlRegisters : Prop :=
  (∀ (s : State) (q : Bool) (d : BitVec 6) (n : BitVec 12), Live s q →
    let c := s.cctx
    let r := s.regs
    let x := s.cres
    let reads := fun (k : BitVec 12) (v : Word) => n = k → exec (.csrr q d n) s = .next (issued s q 1 4 (toS r d v))
    let num := BitVec.ofNat 64
    let known := [0x000, 0x001, 0x002, 0x003, 0x004, 0x005, 0x006, 0x008, 0x009, 0x00A, 0x00B, 0x00C, 0x00D, 0x010, 0x011, 0x012, 0x014, 0x015, 0x016, 0x017, 0x018, 0x020, 0x021]
    reads 0x000 c.status ∧ reads 0x001 c.cause ∧ reads 0x002 c.epc ∧ reads 0x003 c.eupc ∧ reads 0x004 c.tvec
    ∧ reads 0x005 (r.rrbV.setWidth 64) ∧ reads 0x006 (r.rrbP.setWidth 64) ∧ reads 0x008 x.alloc ∧ reads 0x009 (num x.spillb)
    ∧ (r.wb < 2048 → r.fs < 64 → reads 0x00A (num (r.wb + 2 ^ 11 * r.fs + 2 ^ 17 * r.links.length)))
    ∧ (n = 0x00B → ∃ v : Word, exec (.csrr q d n) s = .next (issued s q 1 4 (toS r d v)) ∧ v.extractLsb' 0 8 = c.awake)
    ∧ reads 0x00C (num r.loops.length) ∧ (∀ e es, r.loops = e :: es → reads 0x00D (num e.count)) ∧ (r.loops = [] → reads 0x00D 0)
    ∧ reads 0x010 (num (c.nLoads + 64 * c.nStores + 4096 * c.nCopies + 262144 * c.nTiles)) ∧ reads 0x011 (num c.cursor)
    ∧ reads 0x012 (num (nodeOf s.w % 512 + 512 * resNoOf s.w + 2048 * strandOf s.w)) ∧ reads 0x021 (num (c.slots + 1))
    ∧ (∀ k < 4, n.toNat = 0x014 + k → ∃ v : Word, exec (.csrr q d n) s = .next (issued s q 1 4 (toS r d v))
        ∧ ∀ j < 8, (v.extractLsb' (8 * j) 8).toNat = ((tget? x.semMap (8 * k + j)).getD 0xFF) % 256)
    ∧ (n = 0x018 → ∃ v : Word, exec (.csrr q d n) s = .next (issued s q 1 4 (toS r d v))
        ∧ ∀ j < 8, (v.extractLsb' (8 * j) 8).toNat = ((tget? x.mtxMap j).getD 0xFF) % 256)
    ∧ (∀ l, s.launch? (launchOf s s.w) = some l → reads 0x020 (num (s.cycle - l.start)))
    ∧ (n.toNat ∉ known → exec (.csrr q d n) s = .next (takeTrap s { cls := 1 }))
    ∧ (n.toNat ∈ [0, 2, 3, 5, 6] → exec (.csrw q d n) s = .next (issued s q 1 4 [.csr n.toNat (s.s d)]))
    ∧ (n.toNat ∉ [0, 2, 3, 5, 6] → exec (.csrw q d n) s = .next (takeTrap s { cls := 1 })))
  ∧ (∀ (s : State) (q : Bool) (v : Word), s.regs.pend = [] → OwnStream s →
    let after := fun n : Nat => issued s q 1 4 [.csr n v]
    (∀ j < 64, (after 0).cctx.status.getLsbD j =
      if j < 9 then s.cctx.status.getLsbD j && !v.getLsbD j else if 16 ≤ j ∧ j < 23 then v.getLsbD j else false)
    ∧ (after 2).cctx.epc = v ∧ (after 3).cctx.eupc = BitVec.ofNat 64 (v.toNat % 2 ^ 32)
    ∧ (after 5).regs.rrbV = BitVec.ofNat 5 v.toNat ∧ (after 6).regs.rrbP = BitVec.ofNat 3 v.toNat)

/-- R15, R169, R170, R173: `HALT` lands what is in flight and stops the strand; inside a routine it traps ILL. `EVPOP` and `RPOP` belong to `ctl`, take the oldest record or reply and wait for one
where there is none. `NOP` takes its slot. -/
def Obligations.HaltsAndPops : Prop :=
  ∀ (s : State) (q : Bool) (d : BitVec 6), Live s q →
    let ill : Host.Outcome State Fault Refusal := .next (takeTrap s { cls := 1 })
    (NoShadow s → OwnStream s → ∃ t, exec (.halt q) s = .next t ∧ t.cctx.run = .halted ∧ t.regs.pend = [] ∧ t.regs.pc = s.regs.pc + 4
      ∧ ∀ p key v, s.regs.pend = [p] → p.eff = .sreg key v → p.eff.plain s.regs → tget 0 t.regs.s key = v)
    ∧ (NoShadow s → s.cthr.stack ≠ [] → exec (.halt q) s = ill)
    ∧ (strandOf s.w ≠ 0 → exec (.evpop q d) s = ill ∧ exec (.rpop q d) s = ill)
    ∧ ((d = 0 ∨ d = 63) → exec (.evpop q d) s = ill)
    ∧ (strandOf s.w = 0 → d ≠ 0 → d ≠ 63 →
      (∀ r rest, s.cres.evq = r :: rest → exec (.evpop q d) s =
        .next (issued (s.setCres { s.cres with evq := rest }) q 1 4 (toS s.regs d (r.extractLsb' 0 64) ++ toS s.regs (d + 1) (r.extractLsb' 64 64))))
      ∧ (s.cres.evq = [] → exec (.evpop q d) s = .next (beginWait s s.cur .evpop 0)))
    ∧ (strandOf s.w = 0 →
      (∀ r rest, s.cres.rpq = r :: rest → exec (.rpop q d) s = .next (issued (s.setCres { s.cres with rpq := rest }) q 1 4 (toS s.regs d r)))
      ∧ (s.cres.rpq = [] → exec (.rpop q d) s = .next (beginWait s s.cur .rpop 0)))
    ∧ exec (.nop q) s = .next (issued s q 1 4 [])

/-- R34, R36, R39, R110, R171, R172: `VRFON` gates the clusters from n on with their contents lost, asks the gated ones below n to wake in 24 slots, and touches none that the allocation keeps gated.
`TNEXT` takes the entry at the cursor and moves on; past the end it gives zeros and sets its predicate; a tile resident has no table and traps ILL. -/
def Obligations.ClustersAndTable : Prop :=
  ∀ (s : State) (q : Bool) (n : BitVec 4) (d a : BitVec 6) (p : BitVec 4), Live s q → OwnStream s →
    let limit := (s.cres.alloc.extractLsb' 0 7).toNat / 8
    let was := fun (c : Ctx) (k : Nat) => (c.waking ++ c.heldWaking).any fun e => e.1 = k
    ((8 < n.toNat ∨ noVectors s = true) → exec (.vrfon q n) s = .next (takeTrap s { cls := 1 }))
    ∧ (n.toNat ≤ 8 → noVectors s = false → ∃ u, exec (.vrfon q n) s = .next (issued u q 1 4 []) ∧ ∀ k < 8,
        (limit ≤ k → u.cctx.awake.getLsbD k = s.cctx.awake.getLsbD k ∧ was u.cctx k = was s.cctx k)
        ∧ (k < n.toNat → k < limit → u.cctx.awake.getLsbD k = s.cctx.awake.getLsbD k
            ∧ (s.cctx.awake.getLsbD k = true ∨ was s.cctx k = true → was u.cctx k = was s.cctx k)
            ∧ (s.cctx.awake.getLsbD k = false → was s.cctx k = false → (k, 24) ∈ u.cctx.waking))
        ∧ (n.toNat ≤ k → k < limit → u.cctx.awake.getLsbD k = false ∧ was u.cctx k = false ∧ ∀ j < 8, tget? u.regs.v (8 * k + j) = none))
    ∧ ((isTileRes s.w = true ∨ isCore (nodeOf s.w) = false) → exec (.tnext q d a p) s = .next (takeTrap s { cls := 1 }))
    ∧ (isTileRes s.w = false → isCore (nodeOf s.w) = true →
      (∀ base, s.cres.table = some base → s.cctx.cursor < rdNat s.mem (lpddr base.toNat) 4 →
        let e := rdNat s.mem (lpddr (base.toNat + 16 + 8 * s.cctx.cursor)) 8
        exec (.tnext q d a p) s = .next (issued (s.setCctx { s.cctx with cursor := s.cctx.cursor + 1 }) q 1 4
          (toS s.regs d (BitVec.ofNat 64 (e % 2 ^ 40)) ++ toS s.regs a (BitVec.ofNat 64 (e / 2 ^ 40 % 2 ^ 24)) ++ toP (ownP s p) 0)))
      ∧ ((s.cres.table = none ∨ ∃ base, s.cres.table = some base ∧ rdNat s.mem (lpddr base.toNat) 4 ≤ s.cctx.cursor) →
        exec (.tnext q d a p) s = .next (issued s q 1 4 (toS s.regs d 0 ++ toS s.regs a 0 ++ toP (ownP s p) 0xFFFFFFFFFFFFFFFF))))

/-! ## Routines -/

/-- R62, R177, R178: a call of a routine that the launch does not have traps RNOTDEF with its number; one that its strand, kind or nesting does not allow traps ILL; a blocking one with an Itver body opens a frame: control
at the body, the call's operands bound from s16 on, the caller's registers kept. -/
def Obligations.RoutineCalls : Prop :=
  ∀ (s : State) (q async : Bool) (num : BitVec 14) (ctr : BitVec 2) (a b : BitVec 6), Live s q → OwnStream s →
    let ops := [Opnd.s a, Opnd.s b]
    let call := exec (.rcall q num async ctr ops) s
    (routineOf s num.toNat = none → call = .next (takeTrap s { cls := 6, arg := num.toNat, num := num.toNat }))
    ∧ ∀ r, routineOf s num.toNat = some r →
      (callAllowed s r async ctr.toNat (sigMatches r ops) = false → call = .next (takeTrap s { cls := 1, num := num.toNat }))
      ∧ (callAllowed s r async ctr.toNat (sigMatches r ops) = true → r.srl = none → r.num = num.toNat → r.kind ≠ 2 → windowFull s = false →
        ∃ t f, call = .next t ∧ t.cthr.stack = [f] ∧ f.caller = s.regs ∧ f.num = num.toNat ∧ f.site = s.regs.pc ∧ f.commit = 0 ∧ f.step = 0 ∧ f.restart = t.regs
          ∧ t.regs.pc = r.body ∧ t.regs.wb = 0 ∧ t.regs.fs = r.nopw + 4 * r.frm ∧ t.regs.pend = [] ∧ t.regs.loops = [] ∧ t.regs.links = []
          ∧ t.regs.base = s.regs.base + s.regs.wb + s.regs.fs
          ∧ (∀ k v, [s.s a, s.s b][k]? = some v → fld (r.sigs.getD k 0).toNat 4 2 ≠ 1 → k < r.sigs.length → tget 0 t.regs.s (16 + k) = v)
          ∧ t.mem = s.mem ∧ t.cctx.slots = s.cctx.slots + 1)

/-- R118, R175, R178 to R180: `RCHK` in a frame with nothing outstanding is a commit point: the registers become the restart state, and of the caller's registers only vectors and predicates,
which the body sees as its own, can have changed. `RRET` ends the frame: control goes behind the call, and each scalar operand of direction out or
in-out is put in flight to the caller's register. Outside a frame both trap ILL. -/
def Obligations.RoutineFrames : Prop :=
  ∀ (s : State) (q : Bool), Live s q →
    (s.cthr.stack = [] → exec (.rchk q) s = .next (takeTrap s { cls := 1 }) ∧ exec (.rret q) s = .next (takeTrap s { cls := 1 }))
    ∧ ∀ f, s.cthr.stack = [f] → s.cctx.memq = [] →
      (NoCsrPending s → ∃ t f', exec (.rchk q) s = .next t ∧ t.cthr.stack = [f'] ∧ f'.commit = f.commit + 1 ∧ f'.step = 0 ∧ f'.restart = t.regs ∧ f'.caller = { f.caller with v := f'.caller.v, p := f'.caller.p }
        ∧ t.regs.pend = [] ∧ (s.regs.xfer = none → t.regs.pc = s.regs.pc + 4))
      ∧ (s.regs.pend = [] → qfOf s.cur = 0 → f.dead = false → f.caller.pend = [] → f.caller.xfer = none → f.kind = 1 → ∃ t, exec (.rret q) s = .next t ∧ t.cthr.stack = []
        ∧ t.regs.pc = f.site + BitVec.ofNat 64 (4 + 4 * f.ops.length) ∧ t.regs.wb = f.caller.wb ∧ t.regs.fs = f.caller.fs ∧ t.regs.loops = f.caller.loops ∧ t.regs.links = f.caller.links
        ∧ ∀ k key, f.ops[k]? = some (.s key) → f.dirs.getD k 0 ≠ 0 → key ≠ 0 → (key < 16 ∨ (f.caller.wb + 16 ≤ key ∧ key < f.caller.wb + 64)) →
            (∀ j n, f.ops[j]? = some (.s n) → j ≠ k → n ≠ key) → tget 0 t.regs.s key = tget 0 s.regs.s (16 + k))

/-- R258 to R266: the routines that convert and quantise. With a fmt operand and source tags that R263 to R266 accept, each issues with its latency; the elements go where R262 puts them. -/
def Obligations.VectorConversions : Prop :=
  ∀ (s : State) (q : Bool) (d a : BitVec 6) (m : Rnd) (t part : Nat), Awake s a → part < 8 →
    let va := ownVec s a
    let ta := va.tag.toNat
    let ns := eltCount ta
    let old := fun i => ((ownVec s d).code i, (0 : Word))
    let ops := fun f : BitVec 28 => [Opnd.v d, Opnd.v a, Opnd.fmt f]
    let put := fun conv => placed ns (eltCount t) part conv old
    (∀ inf, VecCall s q 0x000 (ops (fmtOf t m inf part)) → ta ∈ [1, 2, 3, 4, 5, 6, 7, 8, 9, 11, 12, 13, 14] → t ∈ [1, 2, 3, 4, 5, 6, 7, 8, 9, 11, 12, 13] →
      (inf = true → t ∈ [1, 4, 5, 7]) → PartOk s d ns (eltCount t) t part →
      WritesElts (exec (.vcvt q d a (fmtOf t m inf part)) s) s q 3 16 d t (put fun j => if ta = t then (va.code j, 0) else convNum t m inf (va.val j)))
    ∧ (∀ inf, VecCall s q 0x002 (ops (fmtOf t m inf part)) → 0x16 ≤ ta → ta ≤ 0x1B → t ∈ [1, 4, 5] → PartOk s d ns (eltCount t) t part →
      WritesElts (exec (.vdqnt q d a (fmtOf t m inf part)) s) s q 3 16 d t (put fun j => convNum t m inf (va.val j)))
    ∧ (VecCall s q 0x012 (ops (fmtOf t .rne false part)) → ta ∈ [0, 2, 3] → t ∈ [4, 5, 6, 7, 8, 9, 11, 12, 13, 14] → PartOk s d ns (eltCount t) t part →
      WritesElts (exec (.vpack q d a (fmtOf t .rne false part)) s) s q 2 16 d t (put fun j => (va.code j, 0)))
    ∧ (VecCall s q 0x001 (ops (fmtOf t m false part)) → ta ∈ [1, 4, 5] → 0x16 ≤ t → t ≤ 0x1B → PartOk s d ns (eltCount t) t part →
      let nb := min ns (eltCount t - part * ns) / 32
      let block := fun b => quantise (tagFmt t) m ((List.range 32).map fun i => va.val (32 * b + i))
      ∃ (r : VReg) (bits : Word), exec (.vqnt q d a (fmtOf t m false part)) s = .next (issued s q 6 16 (.vreg (ownV s d) r :: toSticky bits))
        ∧ r.tag.toNat = t
        ∧ (∀ b < nb, ∀ i < 32, r.code (part * ns + 32 * b + i) = (block b).codes.getD i 0 % 2 ^ fmtWidth (tagFmt t))
        ∧ (∀ b < nb, eltAt r.side.toNat 16 (part * ns / 32 + b) = ((block b).scale + 256 * (block b).spare) % 2 ^ 16)
        ∧ (part ≠ 0 → ∀ i < part * ns, r.code i = (ownVec s d).code i)
        ∧ ∀ j, bits.getLsbD j = true ↔ ∃ b < nb, ∃ w ∈ (block b).bits, w.getLsbD j = true)
    ∧ (∀ sx : Bool, VecCall s q 0x013 [.v d, .v a, .imm (BitVec.ofNat 28 (part + 8 * sx.toNat))] → ta ∈ [4, 5, 6, 7, 8, 9, 11, 12, 13, 14] → 64 * part < ns →
      WritesElts (exec (.vunpk q d a (BitVec.ofNat 28 (part + 8 * sx.toNat))) s) s q 2 16 d (if sx then 2 else 3) fun i =>
        (if 64 * part + i < ns then
          (if sx then (sextNat (va.code (64 * part + i)) (fmtWidth ta) % 2 ^ 32).toNat else va.code (64 * part + i)) else 0, 0))

/-- R258 to R260, R267 to R270: elementwise arithmetic. Sources of the tag of the fmt operand give, element by element, the rounded floating-point result, the changed sign bit, or the saturated
integer with `NV` where it was out of range; `VIDOT` adds the products of a lane's elements to it. Every `VSCALE` exponent beyond 1000 in magnitude scales as 1000 does. A source of another tag traps TAG. -/
def Obligations.VectorRoutineArithmetic : Prop :=
  ∀ (s : State) (q : Bool) (d a b c : BitVec 6) (m : Rnd) (t : Nat) (inf : Bool), Awake s a → Awake s b → Awake s c →
    let va := ownVec s a
    let vb := ownVec s b
    let vc := ownVec s c
    let vd := ownVec s d
    let f := fmtOf t m inf 0
    let g := fmtOf t .rne false 0
    let fp := fun (v : VReg) => v.tag.toNat = t ∧ t ∈ [1, 4, 5]
    let int := fun (v : VReg) => v.tag.toNat = t ∧ t ∈ [2, 3, 11, 12, 13]
    let rnd := fun (x : Machine.Num × Word) => let r := roundTo t m inf x.1; (r.1, x.2 ||| r.2)
    let near := fun (x : Machine.Num × Word) => let r := roundTo t .rne false x.1; (r.1, x.2 ||| r.2)
    let sat := fun (u : Nat) (x : Int) =>
      let lo := (intRange u).1
      let hi := (intRange u).2
      ((max lo (min hi x) % 2 ^ fmtWidth u).toNat, if x < lo ∨ hi < x then (8 : Word) else 0)
    let x := fun (v : VReg) (i : Nat) => readInt t (v.code i)
    let three := fun n (w : BitVec 28) => VecCall s q n [.v d, .v a, .v b, .fmt w]
    let two := fun n (w : BitVec 28) => VecCall s q n [.v d, .v a, .fmt w]
    let top := 2 ^ (fmtWidth t - 1)
    (fp va → fp vb →
      (three 3 f → WritesElts (exec (.vfadd q d a b f) s) s q 3 20 d t fun i => rnd (sumNum m [va.val i, vb.val i]))
      ∧ (three 4 f → WritesElts (exec (.vfsub q d a b f) s) s q 3 20 d t fun i => rnd (sumNum m [va.val i, (vb.val i).neg]))
      ∧ (three 5 f → WritesElts (exec (.vfmul q d a b f) s) s q 3 20 d t fun i => rnd (mulNum (va.val i) (vb.val i)))
      ∧ (three 6 f → fp vd → Awake s d → WritesElts (exec (.vffma q d a b f) s) s q 4 20 d t fun i => rnd (fmaNum m (va.val i) (vb.val i) (vd.val i)))
      ∧ (three 7 g → WritesElts (exec (.vfmin q d a b g) s) s q 2 20 d t fun i => near (minNum (va.val i) (vb.val i), sigBits [va.val i, vb.val i]))
      ∧ (three 8 g → WritesElts (exec (.vfmax q d a b g) s) s q 2 20 d t fun i => near (maxNum (va.val i) (vb.val i), sigBits [va.val i, vb.val i]))
      ∧ (fp vc → VecCall s q 11 [.v d, .v a, .v b, .v c, .fmt g] → WritesElts (exec (.vclamp q d a b c g) s) s q 2 24 d t fun i =>
          near (if (va.val i).isNan then .qnan else minNum (maxNum (va.val i) (vb.val i)) (vc.val i), sigBits [va.val i, vb.val i, vc.val i])))
    ∧ (fp va →
      (two 9 g → WritesElts (exec (.vfabs q d a g) s) s q 1 16 d t fun i => (va.code i % top, 0))
      ∧ (two 10 g → WritesElts (exec (.vfneg q d a g) s) s q 1 16 d t fun i => ((va.code i + top) % (2 * top), 0))
      ∧ (∀ e, VecCall s q 16 [.v d, .v a, .s e, .fmt f] → WritesElts (exec (.vscale q d a e f) s) s q 3 20 d t fun i =>
          rnd (scaleNum (va.val i) (max (-1000) (min 1000 ((s.s e).extractLsb' 0 32).toInt)), sigBits [va.val i])))
    ∧ (int va → int vb →
      (three 12 g → WritesElts (exec (.vsadd q d a b g) s) s q 2 20 d t fun i => sat t (x va i + x vb i))
      ∧ (three 13 g → WritesElts (exec (.vssub q d a b g) s) s q 2 20 d t fun i => sat t (x va i - x vb i))
      ∧ (∀ k < 32, three 14 (fmtOf t .rdn false k) →
          WritesElts (exec (.vsmul q d a b (fmtOf t .rdn false k)) s) s q 3 20 d t fun i => sat t (x va i * x vb i / 2 ^ k))
      ∧ (∀ k < 32, three 14 (fmtOf t m false k) → WritesElts (exec (.vsmul q d a b (fmtOf t m false k)) s) s q 3 20 d t fun i =>
          let p := x va i * x vb i
          sat t (roundInt m (decide (p < 0)) p.natAbs (-(k : Int))).1))
    ∧ (∀ (u : Nat) (sb : Bool), t ∈ [11, 12, 13] → va.tag.toNat = t → (t = 13 → sb = false) → u = (if sb then 23 - t else t) → vb.tag.toNat = u → vd.tag.toNat = 2 → Awake s d →
      three 15 (fmtOf t .rne false sb.toNat) →
      WritesElts (exec (.vidot q d a b (fmtOf t .rne false sb.toNat)) s) s q 4 20 d 2 fun i =>
        let n := eltCount t / 64
        sat 2 (readInt 2 (vd.code i) + ((List.range n).map fun j => readInt t (va.code (n * i + j)) * readInt u (vb.code (n * i + j))).sum))
    ∧ (t ∈ [1, 4, 5] → va.tag.toNat ≠ t → three 3 f → exec (.vfadd q d a b f) s = .next (takeTrap s { cls := 2, detail := 1, arg := va.tag.toNat, num := 3 }))

/-- R271 to R276: the routines that retag, rearrange, compress, expand, scan and count. -/
def Obligations.VectorRearrangement : Prop :=
  ∀ (s : State) (q : Bool) (d a b c : BitVec 6) (p : BitVec 4) (t : Nat) (h : Bool), Awake s a → Awake s b →
    let va := ownVec s a
    let vb := ownVec s b
    let ta := va.tag.toNat
    let n := eltCount ta
    let g := fmtOf t .rne false 0
    let w := BitVec.ofNat 28 h.toNat
    let pair := fun k => VecCall s q k [.v d, .v a, .v b, .imm w]
    let same : Prop := (ta < 10 ∨ (11 ≤ ta ∧ ta < 15)) ∧ vb.tag = va.tag
    let half := if h then n / 2 else 0
    let below := fun i => (List.range i).countP fun j => (ownMask s p).getLsbD j
    (VecCall s q 0x011 [.v d, .v a, .fmt g] → (t < 10 ∨ (11 ≤ t ∧ t < 15) ∨ (22 ≤ t ∧ t < 28)) → (ta < 10 ∨ (11 ≤ ta ∧ ta < 15) ∨ (22 ≤ ta ∧ ta < 28)) →
      ∃ r : VReg, exec (.vtag q d a g) s = .next (issued s q 1 16 [.vreg (ownV s d) r]) ∧ r.tag.toNat = t
        ∧ (∀ j < 2048, r.data.getLsbD j = if j < 1920 ∨ t % 16 ∉ [8, 9] then va.data.getLsbD j else false)
        ∧ r.side = if 16 ≤ t ∧ 16 ≤ ta then va.side else 0)
    ∧ (pair 0x014 → same → WritesElts (exec (.vzip q d a b w) s) s q 2 20 d ta fun i =>
        (if i % 2 = 0 then va.code (half + i / 2) else vb.code (half + i / 2), 0))
    ∧ (pair 0x015 → same → WritesElts (exec (.vuzp q d a b w) s) s q 2 20 d ta fun i =>
        (if i < n / 2 then va.code (2 * i + h.toNat) else vb.code (2 * (i - n / 2) + h.toNat), 0))
    ∧ (pair 0x016 → ta ∈ [0, 1, 2, 3, 4, 5, 6, 7, 11, 12, 14] → vb.tag.toNat = 12 → WritesElts (exec (.vshuf q d a b w) s) s q 3 20 d ta fun i =>
        (if vb.code i < n then va.code (vb.code i) else if h then 0 else va.code (vb.code i % n), 0))
    ∧ (VecCall s q 0x018 [.v d, .v a, .p p] → ta < 4 → WritesElts (exec (.vexpnd q d a p) s) s q 3 16 d ta fun i =>
        (if (ownMask s p).getLsbD i then va.code (below i) else 0, 0))
    ∧ (VecCall s q 0x017 [.v d, .s c, .v a, .p p] → ta < 4 → ∃ r : VReg,
        exec (.vcompr q d c a p) s = .next (issued s q 3 20 (.vreg (ownV s d) r :: toS s.regs c (BitVec.ofNat 64 (below 64)))) ∧ r.tag = va.tag
        ∧ (∀ j < 64, (ownMask s p).getLsbD j = true → r.code (below j) = va.code j) ∧ ∀ i < 64, below 64 ≤ i → r.code i = 0)
    ∧ (∀ (m : Rnd) (inf : Bool) (y : Nat → Nat × Word), VecCall s q 0x019 [.v d, .v a, .fmt (fmtOf ta m inf h.toNat)] → 1 ≤ ta → ta ≤ 3 → (ta ≠ 1 → m = .rne ∧ inf = false) →
      y 0 = (va.code 0, 0) →
      (∀ i, y (i + 1) = if ta = 1 then (let z := sumNum m [readFp 1 (y i).1, va.val (i + 1)]
                                        let r := roundTo 1 m inf z.1
                                        (r.1, z.2 ||| r.2))
                        else (((y i).1 + va.code (i + 1)) % 2 ^ 32, 0)) →
      WritesElts (exec (.vscan q d a (fmtOf ta m inf h.toNat)) s) s q 6 16 d ta fun i =>
        (if h then (if i = 0 then 0 else (y (i - 1)).1) else (y i).1, (y i).2))
    ∧ ∀ x y : BitVec 6, VecCall s q 0x01A [.v d, .s x, .s y] → WritesElts (exec (.viota q d x y) s) s q 2 16 d 2 fun i =>
        (((s.s x).toNat + i * (s.s y).toNat) % 2 ^ 32, 0)

/-- R257, R278 to R283, R289: the reductions. `VRSUM` and `VRDOT` add their 64 leaves in the tree of R257, `VRSUMS` in lane order, every sum rounded to FP32; `VRMAX` and `VRMIN` give the first of the extreme
elements with its index, and the named values where none qualifies; `VNORMST` gives the rounded exact sum and sum of squares. -/
def Obligations.VectorReductions : Prop :=
  ∀ (s : State) (q : Bool) (d e a b c : BitVec 6) (p : BitVec 4) (t : Nat), Awake s a → Awake s b → (ownVec s a).tag.toNat = t →
    let va := ownVec s a
    let vb := ownVec s b
    let g := fmtOf t .rne false 0
    let n := eltCount t
    let in_ := fun j : Nat => (ownMask s p).getLsbD (j / (n / 64)) = true
    let r32 := fun (x : Machine.Num × Word) => let r := roundTo 1 .rne true x.1; (readFp 1 r.1, x.2 ||| r.2)
    let plus := fun (x y : Machine.Num × Word) => let r := r32 (sumNum .rne [x.1, y.1]); (r.1, x.2 ||| y.2 ||| r.2)
    let f32w := fun (x : Machine.Num) => (BitVec.ofNat 64 (roundTo 1 .rne true x).1).setWidth 32 |>.setWidth 64
    let elt := fun j => if (ownMask s p).getLsbD (j / (n / 64)) then va.val j else Machine.Num.fin false 0 0
    let leaf := fun i => if n = 64 then (elt i, (0 : Word)) else r32 (sumNum .rne [elt (2 * i), elt (2 * i + 1)])
    let prod := fun j => if (ownMask s p).getLsbD (j / (n / 64)) then mulNum (va.val j) (vb.val j) else (Machine.Num.fin false 0 0, (0 : Word))
    let dleaf := fun i => if n = 64 then r32 (prod i) else r32 (sumNum .rne [(prod (2 * i)).1, (prod (2 * i + 1)).1])
    let tree := fun (lf : Nat → Machine.Num × Word) (y : Machine.Num × Word) => ∃ u : Nat → Nat → Machine.Num × Word,
      (∀ i, u 0 i = lf i) ∧ (∀ k i, u (k + 1) i = plus (u k (2 * i)) (u k (2 * i + 1))) ∧ u 6 0 = y
    let out := fun lat len (effs : List Effect) (bits : Word) => (.next (issued s q lat len (effs ++ toSticky bits)) : Done)
    (t ∈ [1, 4, 5] →
      (∀ y, tree leaf y → VecCall s q 0x020 [.s d, .v a, .p p, .fmt g] → exec (.vrsum q d a p g) s = out 6 20 (toS s.regs d (f32w y.1)) y.2)
      ∧ (∀ u : Nat → Machine.Num × Word, u 0 = leaf 0 → (∀ i, u (i + 1) = plus (u i) (leaf (i + 1))) → VecCall s q 0x03F [.s d, .v a, .p p, .fmt g] →
          exec (.vrsums q d a p g) s = out 12 20 (toS s.regs d (f32w (u 63).1)) (u 63).2)
      ∧ (∀ y, tree dleaf y → vb.tag = va.tag → VecCall s q 0x023 [.s d, .v a, .v b, .p p, .fmt g] →
          exec (.vrdot q d a b p g) s = out 7 24 (toS s.regs d (f32w y.1)) ((List.range n).foldl (fun w j => w ||| (prod j).2) 0 ||| y.2))
      ∧ (VecCall s q 0x030 [.s d, .s e, .v a, .s c, .fmt g] → 1 ≤ (s.s c).toNat → (s.s c).toNat ≤ n →
          let xs := (List.range (s.s c).toNat).map va.val
          let x := toF32 .rne (sumNum .rne xs)
          let y := toF32 .rne (sumNum .rne (xs.map fun x => (mulNum x x).1))
          exec (.vnormst q d e a c g) s = out 6 24 (toS s.regs d (x.1.setWidth 64) ++ toS s.regs e (y.1.setWidth 64)) (x.2 ||| y.2)))
    ∧ (t ∈ [1, 2, 3, 4, 5] →
      let raised := ((List.range n).filter fun j => (ownMask s p).getLsbD (j / (n / 64))).foldl (fun w j => w ||| keyBits (va.val j)) 0
      let wins := fun (o : Ordering) j => j < n ∧ in_ j ∧ (va.val j).isNan = false
        ∧ ∀ i < n, in_ i → (va.val i).isNan = false → cmpNum (va.val i) (va.val j) ≠ o ∧ (i < j → cmpNum (va.val i) (va.val j) ≠ .eq)
      let value := fun (x : Machine.Num) => if t = 2 then BitVec.ofInt 64 (match x with | .fin neg m _ => if neg then -(m : Int) else m | _ => 0)
        else if t = 3 then BitVec.ofNat 64 (match x with | .fin _ m _ => m | _ => 0) else f32w x
      let call := fun k => VecCall s q k [.s d, .s e, .v a, .p p, .fmt g]
      let put := fun (x : Word) (j : Nat) => out 5 24 (toS s.regs d x ++ toS s.regs e (BitVec.ofNat 64 j)) raised
      (∀ j, call 0x021 → wins .gt j → exec (.vrmax q d e a p g) s = put (value (va.val j)) j)
      ∧ (∀ j, call 0x022 → wins .lt j → exec (.vrmin q d e a p g) s = put (value (va.val j)) j)
      ∧ ((∀ j < n, in_ j → (va.val j).isNan = true) →
          (call 0x021 → exec (.vrmax q d e a p g) s = put (match t with | 2 => 0xFFFFFFFF80000000 | 3 => 0 | _ => 0x7FC00000) 0xFFFFFFFF)
          ∧ (call 0x022 → exec (.vrmin q d e a p g) s = put (match t with | 2 => 0x7FFFFFFF | 3 => 0xFFFFFFFF | _ => 0x7FC00000) 0xFFFFFFFF)))

/-- R284 to R288, R290: the ten special functions, softmax and its sum, and the application of a normalisation: each element is its function's value rounded once into the target format, placed as R262 places it.
The functions' values at zeros, infinities and NaNs are those of R286. -/
def Obligations.SpecialFunctions : Prop :=
  (∀ (s : State) (q : Bool) (d a : BitVec 6) (m : Rnd) (inf : Bool) (t part : Nat), Awake s a → part < 8 → (ownVec s a).tag.toNat ∈ [1, 4, 5] →
    let va := ownVec s a
    let ns := eltCount va.tag.toNat
    let f := fmtOf t m inf part
    let old := fun i => ((ownVec s d).code i, (0 : Word))
    let put := fun conv => placed ns (eltCount t) part conv old
    let rnd := fun (x : Machine.Num × Word) => let r := roundTo t m inf x.1; (r.1, x.2 ||| r.2)
    let fn := fun (i : Instr) (num lat : Nat) (h : Machine.Num → Machine.Num × Word) => VecCall s q num [.v d, .v a, .fmt f] →
      WritesElts (exec i s) s q lat 16 d t (put fun j => rnd (h (va.val j)))
    PartOk s d ns (eltCount t) t part →
    (t ∈ [1, 4, 5, 6, 7] → (t = 6 → inf = false) → (t = 1 → m = .rne) →
      fn (.vexp q d a f) 0x024 5 fnExp ∧ fn (.vexp2 q d a f) 0x025 4 fnExp2 ∧ fn (.vlog2 q d a f) 0x026 5 fnLog2 ∧ fn (.vrcp q d a f) 0x027 4 fnRcp
      ∧ fn (.vrsqrt q d a f) 0x028 4 fnRsqrt ∧ fn (.vsqrt q d a f) 0x029 4 fnSqrt ∧ fn (.vtanh q d a f) 0x02A 6 fnTanh ∧ fn (.vsigm q d a f) 0x02B 6 fnSigm
      ∧ fn (.vgelu q d a f) 0x02C 7 fnGelu ∧ fn (.vsilu q d a f) 0x02D 6 fnSilu)
    ∧ (t ∈ [1, 4, 5] → ∀ x y n e : BitVec 6, 1 ≤ (s.s n).toNat → (s.s n).toNat ≤ ns →
      let k := (s.s n).toNat
      let w := fun j => weight (va.val j)
      let raised := (List.range k).foldl (fun b j => b ||| (w j).2) 0
      let total := weightSum ns ((List.range k).map fun j => (w j).1)
      (VecCall s q 0x02E [.v d, .v a, .s n, .s y, .fmt f] → ∃ (r : VReg) (b : Word),
        let z := if (s.s y).toNat % 2 ^ 39 = 0 then total else readFp 0xF ((s.s y).toNat % 2 ^ 39)
        let res := put fun j =>
          if k ≤ j then (0, 0) else if z.isNan = true ∨ ∃ j < k, (w j).1.isNan = true then rnd (.qnan, 0) else rnd (divNum (w j).1 z, if z.isZero then 16 else 0)
        exec (.vsoftmx q d a n y f) s = .next (issued s q 10 24 (.vreg (ownV s d) r :: toSticky b)) ∧ r.tag.toNat = t ∧ r.side = 0
        ∧ (∀ i < eltCount t, r.code i = (res i).1 % 2 ^ fmtWidth t)
        ∧ ∀ j, b.getLsbD j = true ↔ raised.getLsbD j = true ∨ ∃ i < eltCount t, (res i).2.getLsbD j = true)
      ∧ (f = fmtOf t .rne false 0 → va.tag.toNat = t → VecCall s q 0x02F [.s x, .v a, .s n, .fmt f] → exec (.vexpsum q x a n f) s =
          .next (issued s q 8 20 (toS s.regs x (BitVec.ofNat 64 (roundTo 0xF .rne true (sumNum .rne [readFp 0xF ((s.s x).toNat % 2 ^ 39), total]).1).1) ++ toSticky raised)))
      ∧ (VecCall s q 0x031 [.v d, .v a, .s x, .s y, .s n, .s e, .fmt f] →
        let g := fun i : BitVec 6 => f32 (s.f i)
        let st := normStats (g x) (g y) (g e) k
        WritesElts (exec (.vnormap q d a x y n e f) s) s q 6 32 d t (put fun j =>
          if k ≤ j then (0, 0) else rnd ((mulNum (sumNum m [va.val j, st.1.neg]).1 st.2).1, sigBits [va.val j])))))
  ∧ (∀ (neg : Bool) (e : Int), let zero := Machine.Num.fin neg 0 e
      (fnExp zero).1 = .fin false 1 0 ∧ (fnExp2 zero).1 = .fin false 1 0 ∧ fnLog2 zero = (.inf true, 0x10) ∧ fnRcp zero = (.inf neg, 0x10) ∧ fnRsqrt zero = (.inf neg, 0x10)
      ∧ fnSqrt zero = (.fin neg 0 0, 0) ∧ fnTanh zero = (.fin neg 0 0, 0) ∧ (fnSigm zero).1 = .fin false 1 (-1) ∧ fnGelu zero = (.fin neg 0 0, 0) ∧ fnSilu zero = (.fin neg 0 0, 0))
  ∧ (fnExp (.inf false)).1 = .inf false ∧ (fnExp (.inf true)).1 = .fin false 0 0 ∧ (fnLog2 (.inf false)).1 = .inf false ∧ fnLog2 (.inf true) = (.qnan, 8)
  ∧ (fnRcp (.inf true)).1 = .fin true 0 0 ∧ fnRsqrt (.inf true) = (.qnan, 8) ∧ fnSqrt (.inf true) = (.qnan, 8) ∧ (fnTanh (.inf true)).1 = .fin true 1 0
  ∧ (fnSigm (.inf true)).1 = .fin false 0 0 ∧ (fnGelu (.inf true)).1 = .fin true 0 0 ∧ (fnSilu (.inf true)).1 = .fin true 0 0
  ∧ ∀ (m : Nat) (e : Int), m ≠ 0 → fnLog2 (.fin true m e) = (.qnan, 8) ∧ fnRsqrt (.fin true m e) = (.qnan, 8) ∧ fnSqrt (.fin true m e) = (.qnan, 8)

/-- R292 to R297: ranking, sorting, merging and the search of a merge's split. -/
def Obligations.RankingRoutines : Prop :=
  ∀ (s : State) (q : Bool) (d x a b k l : BitVec 6) (t : Nat) (desc : Bool), Awake s a → Awake s b → (ownVec s a).tag.toNat = t →
    let va := ownVec s a
    let vb := ownVec s b
    let vd := ownVec s d
    let vx := ownVec s x
    let g := fmtOf t .rne false 0
    let tag := if t = 4 ∨ t = 5 then 1 else t
    let key := fun i : Nat => ((s.s l).toNat + i) % 2 ^ 32
    let elts := (List.range (eltCount t)).map fun i => Ranked.mk (va.val i) (key i) (keyCode t (va.val i)).toNat
    let held := (List.range 64).filterMap fun i =>
      if vd.code i = 0 ∧ vx.code i = 0xFFFFFFFF then none else some (Ranked.mk (readElt tag (vd.code i)) (vx.code i) (keyCode tag (readElt tag (vd.code i))).toNat)
    (t ∈ [1, 2, 3, 4, 5] → 1 ≤ (s.s k).toNat → (s.s k).toNat ≤ 64 →
      (VecCall s q 0x032 [.v d, .v x, .v a, .s k, .s l, .fmt g] → WritesRanking (exec (.vtopk q d x a k l g) s) s q 8 28 d x tag (s.s k).toNat true elts)
      ∧ (VecCall s q 0x033 [.v d, .v x, .v a, .s k, .s l, .fmt g] → Awake s d → Awake s x → vd.tag.toNat = tag → vx.tag.toNat = 3 →
          WritesRanking (exec (.vtopka q d x a k l g) s) s q 10 28 d x tag (s.s k).toNat true (held ++ elts)))
    ∧ (t ∈ [1, 2, 3] →
      (VecCall s q 0x034 [.v d, .v x, .v a, .fmt (fmtOf t .rne false desc.toNat)] →
        WritesRanking (exec (.vsort q d x a (fmtOf t .rne false desc.toNat)) s) s q 10 20 d x t 64 desc ((List.range 64).map fun i => Ranked.mk (va.val i) i (va.code i)))
      ∧ (vb.tag = va.tag → VecCall s q 0x035 [.v d, .v x, .v a, .v b, .fmt g] → ∃ (lo hi : VReg) (bits : Word) (ia ib : Nat → Nat),
        exec (.vmerge q d x a b g) s = .next (issued s q 8 24 (.vreg (ownV s d) lo :: .vreg (ownV s x) hi :: toSticky bits)) ∧ lo.tag = va.tag ∧ hi.tag = va.tag
        ∧ ia 0 = 0 ∧ ib 0 = 0 ∧
        let moved := fun (v : VReg) (n : Nat) => if (v.val n).isNan then 0x7FC00000 else v.code n
        ∀ i < 128,
          let out := if i < 64 then lo.code i else hi.code (i - 64)
          if ib i = 64 ∨ (ia i < 64 ∧ ranksBefore false (vb.val (ib i)) (va.val (ia i)) = false)
          then out = moved va (ia i) ∧ ia (i + 1) = ia i + 1 ∧ ib (i + 1) = ib i else out = moved vb (ib i) ∧ ia (i + 1) = ia i ∧ ib (i + 1) = ib i + 1)
      ∧ (vb.tag = va.tag → VecCall s q 0x036 [.s d, .v a, .v b, .s k, .s l, .fmt g] →
        let la := (s.s k).toNat % 2 ^ 32
        let lb := (s.s k).toNat / 2 ^ 32
        let dg := (s.s l).toNat
        la ≤ 64 → lb ≤ 64 → dg ≤ la + lb → exec (.vmpsrch q d a b k l g) s = .next (issued s q 6 28
          (let r := mergeSplit va.val vb.val dg 64 (dg - lb) (min dg la) 0
           toS s.regs d (BitVec.ofNat 64 r.1) ++ toSticky r.2))))

/-- R174, R194 to R214, R304, R315 to R320, R378 to R390: the queued routines. Each, with the operands that its rules accept, puts one entry of itself with its captured operands at the tail of its FIFO, adds 1 to its counter,
and control goes on behind the call; a full FIFO or a counter at 63 stalls it. A call that names another counter counts on that one. -/
def Obligations.QueuedRoutines : Prop :=
  (∀ (s : State) (r f : Nat) (j : Job), resKeyOf s.w = r → j.strand = strandOf s.w → j.ctr < 4 →
    let t := enqueueJob s r f j
    t.cres.fifo f = s.cres.fifo f ++ [.job j] ∧ (∀ g, g ≠ f → t.cres.fifo g = s.cres.fifo g) ∧ t.cctx.counter j.ctr = s.cctx.counter j.ctr + 1
    ∧ t.regs = s.regs ∧ t.mem = s.mem ∧ t.cores = s.cores)
  ∧ (∀ (s : State) (q : Bool) (sem : BitVec 5) (qa qb : BitVec 4) (c : BitVec 5) (x y : BitVec 6) (g job : BitVec 28) (t : CSlot),
    let desc := fun n : BitVec 4 => tget 0 s.cctx.qd n.toNat
    let d := Desc.of (desc qa)
    let e := Desc.of (desc qb)
    let core := nodeOf s.w
    let tl := fun xs : List Opnd => xs ++ [.imm job, .sem sem]
    let r := TileReg.of (s.s y)
    let inside := 1 ≤ r.rows ∧ 1 ≤ r.cols ∧ r.row0 + r.rows ≤ t.rows ∧ r.col0 + r.cols ≤ t.cols
    let holds := fun (args : List Word) (j : Job) => j.slot = c.toNat ∧ j.tile = some t ∧ j.word = job ∧ j.sem = sem.toNat ∧ j.args = args
    tget? s.cres.slots c.toNat = some t → job.toNat < 2 ^ 19 → job.toNat / 2 ^ 16 % 4 ≤ 1 → (job.toNat / 2 ^ 16 % 4 = 1 → (tget? s.cres.semMap sem.toNat).isSome = true) →
    (MayQueue s q 0x042 3 0 (tl [.q qa, .q qb, .c c, .s x]) → (s.s x).toNat < 2 ^ 32 → e.sparse = false →
      (d.sparse = false → (placeMat core d true).isSome = true ∧ gatherOk s.cres.gathA d.srows = true) →
      (d.sparse = true → d.trans = false ∧ d.sphdr % 16 = 0 ∧ (placeSparse core d).isSome = true ∧ sparseScaleOk s core d = true) →
      (placeMat core e false).isSome = true → gatherOk s.cres.gathB e.srows = true → tagFamily d.tag ≠ 0 → tagFamily e.tag = tagFamily d.tag →
      tileSuits d.tag e.tag t.fmt = true →
      Queues (exec (.mgo q qa qb c x job sem) s) s (s.setCres { s.cres with nest := [], gathA := none, gathB := none }) q 28 0x042 3 0 fun j =>
        holds [s.s x] j ∧ j.descs = [desc qa, desc qb] ∧ j.nest = s.cres.nest ∧ j.gathA = s.cres.gathA ∧ j.gathB = s.cres.gathB ∧ j.mcast = s.cres.mcast)
    ∧ (MayQueue s q 0x046 3 0 (tl [.c c, .s y]) → inside → Queues (exec (.mzero q c y job sem) s) s s q 20 0x046 3 0 (holds [s.s y]))
    ∧ (MayQueue s q 0x047 3 0 (tl [.c c, .q qa, .s y]) → inside → d.sparse = false → r.rows ≤ d.rows → r.cols ≤ d.cols → (placeMat core d true).isSome = true →
      (if t.fmt = 2 then d.tag = 2 else d.tag ∈ [1, 4, 5]) → Queues (exec (.mldacc q c qa y job sem) s) s s q 24 0x047 3 0 fun j => holds [s.s y] j ∧ j.descs = [desc qa])
    ∧ (∀ (m : Rnd) (inf sc bi : Bool) (group : BitVec 2), g = BitVec.ofNat 28 (d.tag + 32 * m.code.toNat + 256 * inf.toNat + 512 * group.toNat + 2048 * sc.toNat + 4096 * bi.toNat) →
      MayQueue s q 0x048 3 0 (tl [.c c, .q qa, .s y, .fmt g]) → inside → d.sparse = false → r.rows ≤ d.rows → r.cols ≤ d.cols → drainTag d.tag = true →
      (inf = true → d.tag < 16 ∧ hasInf d.tag = true) → (16 ≤ d.tag → d.trans = false ∧ r.cols % 32 = 0) → (placeMat core d true).isSome = true →
      (sc = true → drainArrayOk core s.cres.dscale r = true) → (bi = true → drainArrayOk core s.cres.dbias r = true) →
      Queues (exec (.mdrain q c qa y g job sem) s) s s q 28 0x048 3 0 fun j =>
        holds [s.s y] j ∧ j.descs = [desc qa] ∧ j.fmt = g ∧ j.dscale = s.cres.dscale ∧ j.dbias = s.cres.dbias)
    ∧ (∀ k off dcols (group : BitVec 2), accLoc core (s.s x).toNat = some (k, off) → 1 ≤ dcols → dcols < 2 ^ 16 → off % accSize t.fmt = 0 →
      off + ((r.rows - 1) * dcols + r.cols) * accSize t.fmt ≤ 2 ^ 17 → t.fmt ∈ [1, 2, 15] → g = BitVec.ofNat 28 (t.fmt + 512 * group.toNat + 2048 * dcols) →
      MayQueue s q 0x049 3 0 (tl [.c c, .s x, .s y, .fmt g]) → inside →
      Queues (exec (.mpeer q c x y g job sem) s) s s q 28 0x049 3 0 fun j => holds [s.s y, s.s x] j ∧ j.fmt = g))
  ∧ (∀ (s : State) (q : Bool) (sem : BitVec 5) (a b c d e : BitVec 6) (g job : BitVec 28) (i : BitVec 12) (l : Launch) (x : StageQ),
    let f := if job.toNat / 2 ^ 20 % 2 = 1 then 2 else 1
    let tl := fun xs : List Opnd => xs ++ [.imm job, .sem sem]
    let may := fun num (ops : List Opnd) => MayQueue s q num 2 f (tl ops)
    let holds := fun (args : List Word) (j : Job) => j.word = job ∧ j.sem = sem.toNat ∧ j.evarm = s.cctx.evarm ∧ j.args = args
    let put := fun (i : Instr) len num (args : List Word) => Queues (exec i s) s s q len num 2 f (holds args)
    job.toNat < 2 ^ 25 → job.toNat / 2 ^ 16 % 4 ≠ 3 → (job.toNat / 2 ^ 16 % 4 ≠ 0 → (tget? s.cres.semMap sem.toNat).isSome = true) →
    (may 0x070 [.s a, .s b, .s c] → put (.cpy q a b c job sem) 24 0x070 [s.s a, s.s b, s.s c])
    ∧ (∀ (ctr : BitVec 2) (r : Routine), let ops := tl [.s a, .s b, .s c]
        routineOf s 0x070 = some r → sigMatches r ops = true → MayQueue s q 0x070 ctr.toNat f ops →
        Queues (exec (.rcall q 0x070 true ctr ops) s) s s q 24 0x070 ctr.toNat f (holds [s.s a, s.s b, s.s c]))
    ∧ (may 0x074 [.s a, .s b, .s c] → put (.cpyf q a b c job sem) 24 0x074 [s.s a, s.s b, s.s c])
    ∧ (may 0x08F [.s a, .s b, .s c, .s d] → put (.cpy2d q a b c d job sem) 28 0x08F [s.s a, s.s b, s.s c, s.s d])
    ∧ (may 0x071 [.s a, .s b, .s c, .s d, .s e] → put (.cpyg q a b c d e job sem) 32 0x071 [s.s a, s.s b, s.s c, s.s d, s.s e])
    ∧ (may 0x072 [.s a, .s b, .s c, .s d, .s e] → put (.cpys q a b c d e job sem) 32 0x072 [s.s a, s.s b, s.s c, s.s d, s.s e])
    ∧ (f = 2 → may 0x073 [.s a, .s b, .s c, .s d, .s e] → put (.cpysa q a b c d e job sem) 32 0x073 [s.s a, s.s b, s.s c, s.s d, s.s e])
    ∧ (may 0x075 [.s a, .s b, .s c, .s d, .fmt g] → cpycFmtOk g = true → Queues (exec (.cpyc q a b c d g job sem) s) s s q 32 0x075 2 f fun j =>
        holds [s.s a, s.s b, s.s c, s.s d] j ∧ j.fmt = g)
    ∧ (may 0x076 [.s a, .s b, .s c, .fmt g] → g.toNat < 2 ^ 10 → (g.toNat < 2 ^ 9 → g = 0) → Queues (exec (.cpyw q a b c g job sem) s) s s q 28 0x076 2 f fun j =>
        holds [s.s a, s.s b, s.s c] j ∧ j.fmt = g)
    ∧ (may 0x077 [.imm g] → put (.cpyres q g job sem) 16 0x077 [g.setWidth 64])
    ∧ (s.launch? (launchOf s s.w) = some l → l.queues[i.toNat]? = some x →
      (x.prod = s.cres.stage → may 0x079 [.queue (.stage i), .s a] → put (.qpush q (.stage i) a job sem) 20 0x079 [s.s a, BitVec.ofNat 64 i.toNat])
      ∧ (x.cons = s.cres.stage → may 0x07A [.s a, .queue (.stage i)] → put (.qpop q a (.stage i) job sem) 20 0x07A [s.s a, BitVec.ofNat 64 i.toNat])
      ∧ (may 0x07B [.queue (.stage i)] → put (.qflush q (.stage i) job sem) 16 0x07B [0, BitVec.ofNat 64 i.toNat]))
    ∧ (g.toNat < 16 → (may 0x07D [.imm g] → put (.rgflush q g job sem) 16 0x07D [g.setWidth 64]) ∧ (may 0x07E [.imm g] → put (.rgdrop q g job sem) 16 0x07E [g.setWidth 64])))
  ∧ (∀ (s : State) (q : Bool) (sem : BitVec 5) (a b c : BitVec 6) (g job : BitVec 28),
    let tl := fun xs : List Opnd => xs ++ [.imm job, .sem sem]
    let may := fun num (ops : List Opnd) => MayQueue s q num 2 3 ops
    let put := fun (i : Instr) len num (fields : Job → Prop) => Queues (exec i s) s s q len num 2 3 fields
    let range := (s.s a).toNat < 2 ^ 24 ∧ 1 ≤ (s.s b).toNat ∧ (s.s b).toNat < 2 ^ 16
    let holds := fun (args : List Word) (j : Job) => j.word = job ∧ j.sem = sem.toNat ∧ j.args = args
    (noVectors s = false → Awake s a → may 0x091 [.v a, .imm g] → g.toNat < s.cctx.sel.layers.length → (ownVec s a).tag = 4 →
      put (.slq q a g) 12 0x091 fun j => j.vec = (ownVec s a).data ∧ j.args = [g.setWidth 64])
    ∧ (noVectors s = false → Awake s a → may 0x095 [.v a, .s b] → (s.s b).toNat ≤ 16 → (∀ i < (s.s b).toNat, (laneOf (ownVec s a) i).toNat < 2 ^ 24) →
      ((ownVec s a).tag = 2 ∨ (ownVec s a).tag = 3) → put (.slforce q a b) 12 0x095 fun j =>
        j.lanes.Nodup ∧ ∀ n, n ∈ j.lanes ↔ ∃ i < (s.s b).toNat, (laneOf (ownVec s a) i).toNat = n)
    ∧ (may 0x097 [.imm g] → g.toNat ≤ 1 → put (.slres q g) 8 0x097 fun j => j.args = [g.setWidth 64])
    ∧ (job.toNat < 2 ^ 17 → (2 ^ 16 ≤ job.toNat → (tget? s.cres.semMap sem.toNat).isSome = true) →
      (may 0x092 (tl [.s a, .s b]) → range → put (.slsum q a b job sem) 20 0x092 (holds [s.s a, s.s b]))
      ∧ (may 0x093 (tl [.s a, .s b, .s c]) → range → (s.s c).toNat % 4 = 0 → put (.slscore q a b c job sem) 24 0x093 (holds [s.s a, s.s b, s.s c]))
      ∧ (may 0x094 (tl [.s a, .s b]) → (s.s b).toNat ≤ 256 → (listAt (nodeOf s.w) (s.s a).toNat).isSome = true →
          put (.sltopk q a b job sem) 20 0x094 (holds [s.s a, s.s b])))
    ∧ (job.toNat < 2 ^ 25 → job.toNat / 2 ^ 16 % 4 ≠ 3 → job.toNat / 2 ^ 20 % 2 = 0 → (job.toNat / 2 ^ 16 % 4 ≠ 0 → (tget? s.cres.semMap sem.toNat).isSome = true) →
      may 0x096 (tl [.s a, .s b, .s c]) → (s.s c).toNat ≤ 1 → put (.slfetch q a b c job sem) 24 0x096 fun j =>
        holds [s.s a, s.s b, s.s c] j ∧ j.evarm = s.cctx.evarm))
  ∧ ∀ (s : State) (q : Bool) (a b c : BitVec 6) (job : BitVec 28) (sem : BitVec 5), Live s q → OwnStream s → Callable s 0x070 true 2 [.s a, .s b, .s c, .imm job, .sem sem] →
      job.toNat < 2 ^ 16 → s.cthr.wait = none →
      (s.cres.full 1 = true → exec (.cpy q a b c job sem) s = .next (beginWait s s.cur .full 256))
      ∧ (s.cres.full 1 = false → 63 ≤ s.cctx.nCopies → exec (.cpy q a b c job sem) s = .next (beginWait s s.cur .counter 0))

/-- R204, R209, R213, R307, R310 to R314, R319, R322 to R324, R381: the routines that act in their own slot on what the resident holds: descriptors, the staging registers, accumulator slots and their status, the event options, region maps,
layer entries, and the flushes, which take the queued entries away and put one reply, for which they wait where there is no room. -/
def Obligations.SettingRoutines : Prop :=
  ∀ (s : State) (q : Bool), Live s q → OwnStream s →
    let sync := fun num (ops : List Opnd) => Callable s num false 0 ops
    let at_ := fun len (u : State) => (.next (issued u q 1 len []) : Done)
    let ill := fun num => (.next (takeTrap s { cls := 1, num := num }) : Done)
    let x := s.cres
    let core := nodeOf s.w
    let stall : Done := .next (beginWait s s.cur .blocking 0)
    (∀ (n : BitVec 4) (w0 w1 w2 w3 : BitVec 6), sync 0x040 [.q n, .s w0, .s w1, .s w2, .s w3] →
      let b : BitVec 256 := s.s w3 ++ s.s w2 ++ s.s w1 ++ s.s w0
      (descValid b = true → exec (.mdesc q n w0 w1 w2 w3) s = at_ 24 (s.setCctx { s.cctx with qd := tset s.cctx.qd n.toNat b }))
      ∧ (descValid b = false → exec (.mdesc q n w0 w1 w2 w3) s = ill 0x040))
    ∧ (∀ (lvl : BitVec 28) (a b c : BitVec 6), sync 0x041 [.imm lvl, .s a, .s b, .s c] → lvl.toNat ≤ 5 → (s.s a).toNat < 2 ^ 16 → (s.s c).toNat < 2 ^ 32 →
      let half := fun (y k : Nat) => let h : Nat := y / 2 ^ (16 * k) % 2 ^ 16; (if 2 ^ 15 ≤ h then (h : Int) - 2 ^ 16 else h : Int)
      exec (.mnest q lvl a b c) s = at_ 20 (s.setCres { x with nest := tset x.nest lvl.toNat ⟨(s.s a).toNat, (half (s.s b).toNat 0, half (s.s b).toNat 1),
        (half (s.s b).toNat 2, half (s.s b).toNat 3), (half (s.s c).toNat 0, half (s.s c).toNat 1)⟩ }))
    ∧ (∀ (c : BitVec 5) (g : BitVec 6) (fmt nb b : Nat) (m : Rnd) (inf : Bool), sync 0x043 [.c c, .s g, .fmt (fmtOf fmt m inf 0)] → fmt ∈ [1, 2, 15] → (fmt = 2 → inf = false) →
      let y := (s.s g).toNat
      let free := fun b => ∀ i < nb, x.bank0 ≤ b + i ∧ b + i < x.bank0 + x.banks ∧ ∀ e ∈ x.slots, ¬(e.2.bank ≤ b + i ∧ b + i < e.2.bank + e.2.nb)
      y % 2 ^ 16 ≠ 0 → y / 2 ^ 16 % 2 ^ 16 ≠ 0 → y / 2 ^ 32 = nb → 1 ≤ nb → nb ≤ 32 →
      (tget? x.slots c.toNat = none → b + nb ≤ 32 → free b → (∀ a < b, ¬free a) →
        let u := s.setCres { x with slots := tset x.slots c.toNat ⟨b, nb, y % 2 ^ 16, y / 2 ^ 16 % 2 ^ 16, fmt, m, inf, []⟩ }
        exec (.acalloc q c g (fmtOf fmt m inf 0)) s = at_ 16 (u.setCore core { u.core core with
          tstat := tset (u.core core).tstat b ⟨0, 0, 0, BitVec.ofNat 5 b, BitVec.ofNat 6 nb⟩ }))
      ∧ ((tget? x.slots c.toNat ≠ none ∨ ∀ b, b + nb ≤ 32 → ¬free b) → exec (.acalloc q c g (fmtOf fmt m inf 0)) s = ill 0x043))
    ∧ (∀ (c : BitVec 5) (t : CSlot), tget? x.slots c.toNat = some t →
      (sync 0x044 [.c c] →
        (slotBusy x c.toNat = true → s.cthr.wait = none → exec (.acfree q c) s = stall)
        ∧ (slotBusy x c.toNat = false → ∃ u, exec (.acfree q c) s = at_ 8 u ∧ tget? u.cres.slots c.toNat = none
            ∧ (∀ k, k ≠ c.toNat → tget? u.cres.slots k = tget? x.slots k) ∧ tget? (u.core core).tstat t.bank = none
            ∧ (∀ k, k ≠ t.bank → tget? (u.core core).tstat k = tget? (s.core core).tstat k) ∧ u.mem = s.mem ∧ (u.core core).acc = (s.core core).acc))
      ∧ (∀ (grp : BitVec 28) (r : BitVec 6), sync 0x045 [.c c, .imm grp, .s r] → grp.toNat ≤ 3 → (s.s r).toNat < 2 ^ 32 →
          let lo := (s.s r).toNat % 2 ^ 16
          let n := (s.s r).toNat / 2 ^ 16
          1 ≤ n → lo + n ≤ t.rows → ∃ t' : CSlot, exec (.acown q c grp r) s = at_ 16 (s.setCres { x with slots := tset x.slots c.toNat t' })
            ∧ t' = { t with bands := t'.bands } ∧ ∀ i d, tget d t'.bands i = if lo ≤ i ∧ i < lo + n then grp.toNat else tget d t.bands i)
      ∧ (∀ (d : BitVec 6) (k : BitVec 28), sync 0x04A [.s d, .imm k] → k.toNat % 32 = c.toNat → k.toNat < 64 →
          (∀ y, tget? (s.core core).tstat t.bank = some y → exec (.mstat q d k) s = .next (issued
            (if 32 ≤ k.toNat then s.setCore core { s.core core with tstat := tset (s.core core).tstat t.bank { y with bits := 0 } } else s) q 2 12
            (toS s.regs d (BitVec.ofNat 64 (y.bits.toNat + 2 ^ 16 * y.dseq.toNat + 2 ^ 32 * y.gseq.toNat + 2 ^ 48 * y.base.toNat + 2 ^ 53 * y.nb.toNat)))))))
    ∧ (∀ (d : BitVec 6) (k : BitVec 28), sync 0x04A [.s d, .imm k] → k.toNat < 64 → tget? x.slots (k.toNat % 32) = none →
        exec (.mstat q d k) s = .next (issued s q 2 12 (toS s.regs d 0)))
    ∧ (∀ mc : BitVec 28, sync 0x04B [.imm mc] → mc.toNat < 2 ^ 12 → exec (.mcast q mc) s = at_ 8 (s.setCres { x with mcast := BitVec.ofNat 12 mc.toNat }))
    ∧ (∀ (mode : BitVec 28) (v : BitVec 6) (d : DrainSet), drainSet core mode (s.s v) = .ok d →
      (sync 0x04C [.imm mode, .s v] → exec (.mscale q mode v) s = at_ 12 (s.setCres { x with dscale := d }))
      ∧ (sync 0x04D [.imm mode, .s v] → exec (.mbias q mode v) s = at_ 12 (s.setCres { x with dbias := d })))
    ∧ (∀ v : Word, drainSet core 0 v = .ok ⟨0, v &&& 0xFFFFFFFF⟩)
    ∧ (∀ e : BitVec 28, sync 0x07F [.imm e] → e.toNat < 4 → exec (.evarm q e) s = at_ 8 (s.setCctx { s.cctx with evarm := BitVec.ofNat 2 e.toNat }))
    ∧ (let waiting := fun f => ((jobsOf (x.fifo f)).filter fun j => !j.started).length
      let flushed := fun (u : State) f num => u.cres.rpq = x.rpq ++ [BitVec.ofNat 64 (waiting f % 2 ^ 32 + 2 ^ 32 * num)]
        ∧ jobsOf (u.cres.fifo f) = (jobsOf (x.fifo f)).filter (fun j => j.started) ∧ ∀ g, g ≠ f → jobsOf (u.cres.fifo g) = jobsOf (x.fifo g)
      (sync 0x04E [] → (replyRoom s (resKeyOf s.w) = true → ∃ u, exec (.mqflush q) s = at_ 4 u ∧ flushed u 0 0x4E)
        ∧ (replyRoom s (resKeyOf s.w) = false → ∃ u f, exec (.mqflush q) s = .next u ∧ u.cres.rpq = x.rpq ∧ u.cthr.stack = [f] ∧ f.num = 0x4E ∧ f.commit = 1 ∧ f.site = s.regs.pc
            ∧ jobsOf (u.cres.fifo 0) = (jobsOf (x.fifo 0)).filter fun j => j.started))
      ∧ (∀ a : BitVec 28, a.toNat ≤ 1 → sync 0x078 [.imm 0, .imm a] → replyRoom s (resKeyOf s.w) = true →
          ∃ u, exec (.cpyabt q 0 a) s = at_ 12 u ∧ flushed u (1 + a.toNat) 0x78)
      ∧ (sync 0x078 [.imm 2, .imm 0] → replyRoom s (resKeyOf s.w) = true → x.evq.length + x.susp.length ≤ 64 → ∃ u recs, exec (.cpyabt q 2 0) s = at_ 12 u
          ∧ u.cres.susp = [] ∧ u.cres.rpq = x.rpq ++ [BitVec.ofNat 64 (x.susp.length % 2 ^ 32 + 2 ^ 32 * 0x78)] ∧ u.cres.evq = x.evq ++ recs
          ∧ recs = (x.susp.filter fun j => recWanted j 3).map fun j => copyRecord j j.num 3)
      ∧ (∀ tag : BitVec 28, sync 0x078 [.imm 1, .imm tag] → tag.toNat < 2 ^ 16 → replyRoom s (resKeyOf s.w) = true → x.evq.length < 64 →
        ∃ u, exec (.cpyabt q 1 tag) s = at_ 12 u
          ∧ (∀ j, x.susp.find? (fun j => copyTag j.word = tag.toNat) = some j → u.cres.susp = x.susp.erase j ∧ u.cres.rpq = x.rpq ++ [0x7800000001]
              ∧ u.cres.evq = x.evq ++ if recWanted j 3 then [copyRecord j j.num 3] else [])
          ∧ ((∀ j ∈ x.susp, copyTag j.word ≠ tag.toNat) → u.cres.susp = x.susp ∧ u.cres.rpq = x.rpq ++ [0x7800000000] ∧ u.cres.evq = x.evq)))
    ∧ (∀ (e : BitVec 28) (a b c : BitVec 6), sync 0x07C [.imm e, .s a, .s b, .s c] → e.toNat < 16 →
      let sp := (s.s a).toNat
      let len := (s.s c).toNat
      sp % 4096 = 0 → (s.s b).toNat % 4096 = 0 → len % 4096 = 0 → 1 ≤ len → sp + len ≤ (x.alloc.extractLsb' 20 20).toNat → (s.s b).toNat < 2 ^ 57 →
      (∀ r ∈ x.regions, r.1 ≠ e.toNat → sp + len ≤ r.2.sp ∨ r.2.sp + r.2.len ≤ sp) →
      ((∀ r, tget? x.regions e.toNat = some r → r.dirty = []) →
        exec (.rgmap q e a b c) s = at_ 20 (s.setCres { x with regions := tset x.regions e.toNat ⟨sp, s.s b, len, [], []⟩ }))
      ∧ ((∃ r, tget? x.regions e.toNat = some r ∧ r.dirty ≠ []) →
        exec (.rgmap q e a b c) s = .next (takeTrap s { cls := 9, arg := e.toNat, num := 0x07C })))
    ∧ (∀ (a n : BitVec 6) (ls : List (BitVec 512)) (u : State), sync 0x090 [.s a, .s n] → (s.s a).toNat % 64 = 0 → 1 ≤ (s.s n).toNat → (s.s n).toNat ≤ 256 →
      (fifoIdle x 3 = false ∨ s.cctx.memq ≠ [] → s.cthr.wait = none → exec (.slcfg q a n) s = stall)
      ∧ (fifoIdle x 3 = true → s.cctx.memq = [] → loadLayers (strandAg s s.w) (s.s a) (s.s n).toNat 0 s = (.ok ls, u) → u.threads = s.threads → u.cur = s.cur →
        (∀ b ∈ ls, layerValid b = true) → ∃ t, exec (.slcfg q a n) s = .next (issued t q 1 12 []) ∧ t.cctx.sel.layers = ls ∧ t.cctx.sel.cur = none
          ∧ t.cctx.sel.cands = [] ∧ t.cctx.sel.query = 0 ∧ t.cctx.sel.forced = u.cctx.sel.forced ∧ t.mem = u.mem))

/-- R180, R333 to R349: the sparsity routines, where the strand's accesses are performed and no region map is set. `SPHDR` queues the two halves of a header with its checksum; `SPATTACH`
marks its descriptor sparse; `SPCHK` checks line after line, a commit point after each, and gives the cause, stamp and group of the first failing check; `SPPRUNE` and `SPXPOSE` queue the
lines of the tile they form, a commit point after each line or block, and its header last; `SPGATH` captures indices; `SPCOST` gives the expected cycles. -/
def Obligations.SparsityRoutines : Prop :=
  (∀ (u : State) (q : Bool) (num : Nat) (ops : List Opnd) (args keep : List Word) (bits : Word), Live u q → OwnStream u →
    let t := commitCall u num q ops args bits keep
    let n := (args.getD ops.length 0).toNat + 1
    ∃ f, t.cthr.stack = [f] ∧ f.nat = true ∧ f.num = num ∧ f.caller = u.regs ∧ f.site = u.regs.pc ∧ f.commit = n ∧ f.step = 0
      ∧ f.restart.s.map (·.2) = ((List.range ops.length).map fun k => args.getD k 0) ++ [BitVec.ofNat 64 n] ++ keep
      ∧ t.regs.pc = u.regs.pc ∧ t.mem = u.mem ∧ t.cctx.memq = u.cctx.memq ∧ t.cctx.status = u.cctx.status ||| bits ∧ t.cctx.slots = u.cctx.slots + 1)
  ∧ (∀ (s u : State) (q : Bool) (n k : BitVec 4) (vals keep : List Word) (i x : Nat), Live u q → u.cctx.memq = [] → u.cres.regions = [] →
    let desc := fun n : BitVec 4 => Desc.of (tget 0 u.cctx.qd n.toNat)
    let core := nodeOf u.w
    let dd := desc n
    let ds := desc k
    let at_ := vals ++ [BitVec.ofNat 64 i]
    let kept := fun m hoff => if i = 0 then x = rdNat m hoff 16 else x < 2 ^ 128 ∧ keep = hdrWords x
    (∀ (d : BitVec 6) (core' off hoff soff : Nat), CallAt s u 0x061 [.s d, .q n] vals i keep → dd.sparse = true → placeSparse core dd = some (core', off, hoff, soff) →
      let m := (u.core core').scratch
      kept m hoff →
      let T : SpTile := ⟨dd, SpHdr.of x, core', off, hoff, soff⟩
      let c := headerCause x T
      let put := fun (c st g : Nat) => (.next (issued u q 1 12 (toS u.regs d (BitVec.ofNat 64 (c + 2 ^ 16 * st + 2 ^ 32 * (g % 2 ^ 32))))) : Done)
      let stamp := x / 2 ^ 96 % 2 ^ 16
      ((c = 1 ∨ c = 2) → exec (.spchk q d n) s = put c 0 0) ∧ (3 ≤ c → exec (.spchk q d n) s = put c stamp 0)
      ∧ (c = 0 → i < T.lines →
          (∀ e g, scanGroups T m T.groups (i * T.groups) = some (e, g) → exec (.spchk q d n) s = put e stamp g)
          ∧ (scanGroups T m T.groups (i * T.groups) = none → exec (.spchk q d n) s = .next (commitCall u 0x061 q [.s d, .q n] at_ 0 (hdrWords x))))
      ∧ (c = 0 → T.lines ≤ i →
          ((T.h.tp = true → patternCause T m = none) → exec (.spchk q d n) s = put 0 stamp 0)
          ∧ (T.h.tp = true → ∀ g, patternCause T m = some g → exec (.spchk q d n) s = put 0xA stamp g)))
    ∧ (∀ (o : BitVec 6) (T : SpTile) (M : Mat), CallAt s u 0x062 [.q n, .q k, .s o] vals i keep →
      let opt := vals.getD 2 0
      pruneOk dd ds opt.toNat = true → pruneTile core dd opt.toNat = some T → placeMat core ds (!opt.getLsbD 10) = some M → pruneMeets T M = false →
      (stepDepth dd.tag).isSome = true → ds.tag = dd.tag →
      let m := (u.core M.core).scratch
      let l := i * T.stepLines
      (l < T.lines → exec (.spprune q n k o) s = .next (commitCall
        (queuePad q T.core ((List.range T.stepLines).flatMap fun j => lineStores T (pruneOf T M m) (lineScales M m T) (l + j)) u) 0x062 q [.q n, .q k, .s o] at_
        (if anyNan M m (lineElts M T.h.dir l T.stepLines) then 4 else 0) []))
      ∧ (T.lines ≤ l → exec (.spprune q n k o) s = .next (issued (queuePad q T.core [(T.hoff, T.h.bytes)] u) q 1 16 [])))
    ∧ (∀ (a b c e off hoff soff toCore : Nat), CallAt s u 0x063 [.q n, .q k] vals i keep →
      dd.sparse = true → ds.sparse = true → dd.trans = false → ds.trans = false → dd.rows = ds.rows → dd.cols = ds.cols → plainValid dd.tag = true → ds.tag = dd.tag →
      placeSparse core dd = some (toCore, off, hoff, soff) → placeSparse core ds = some (a, b, c, e) →
      let m := (u.core a).scratch
      let T : SpTile := ⟨ds, SpHdr.of x, a, b, c, e⟩
      kept m c → headerCause x T = 0 → T.lines % T.h.m = 0 →
      ∀ D v, crossTile u T dd toCore off hoff soff = (D, v) → hoff + 16 + indexBytes D.lines D.groups D.h.n D.h.iw ≤ 2 ^ 19 →
      off + (D.lines - 1) * dd.rstride + cdiv (D.groups * D.h.n * dd.w) 8 ≤ 2 ^ 19 → (i = 0 → tileCause T m true = none) →
      let l := i * D.stepLines
      (l < D.lines → exec (.spxpose q n k) s = .next (commitCall
        (queuePad q D.core ((List.range D.stepLines).flatMap fun j => lineStores D (crossOf T m) (fun _ => []) (l + j)) v) 0x063 q [.q n, .q k] at_ 0 (hdrWords x)))
      ∧ (D.lines ≤ l → exec (.spxpose q n k) s = .next (issued (queuePad q D.core [(D.hoff, D.h.bytes)] v) q 1 12 []))))
  ∧ ∀ (s : State) (q : Bool), Live s q → OwnStream s →
    let sync := fun num (ops : List Opnd) => Callable s num false 0 ops
    let desc := fun n : BitVec 4 => tget 0 s.cctx.qd n.toNat
    let core := nodeOf s.w
    let ag := strandAg s s.w
    (∀ (a lo hi : BitVec 6) (ps ps' : List Place) (u u' : State), sync 0x060 [.s a, .s lo, .s hi] → (s.s a).toNat % 8 = 0 → storeUnfilled s (s.s a) = none → s.cctx.nStores + 2 ≤ 63 →
      let x := (s.s lo).toNat
      let y := (s.s hi).toNat % 2 ^ 48
      let sum := ((List.range 14).map fun i => (x + 2 ^ 64 * y) / 256 ^ i % 256).sum % 2 ^ 16
      let t := enqueue u q (.store (leBytes 8 x)) ps (s.s a)
      resolve s ag (s.s a) 8 .wr .store = (.ok ps, u) → resolve t (strandAg t t.w) (s.s a + 8) 8 .wr .store = (.ok ps', u') → u'.cur = s.cur → u'.regs = s.regs → u'.cthr.stack = [] →
      exec (.sphdr q a lo hi) s = .next (issued (enqueue u' q (.store (leBytes 8 (2 ^ 48 * sum + y))) ps' (s.s a + 8)) q 1 16 []))
    ∧ (∀ (n : BitVec 4) (a : BitVec 6) (k off hoff soff : Nat), sync 0x066 [.q n, .s a] → s.cctx.memq = [] → s.cres.regions = [] → (Desc.of (desc n)).sparse = false → (s.s a).toNat % 16 = 0 →
      (s.s a).toNat < 2 ^ 57 →
      let d := { Desc.of (desc n) with sparse := true, sphdr := (s.s a).toNat }
      placeSparse core d = some (k, off, hoff, soff) →
      let x := rdNat (s.core k).scratch hoff 16
      headerCause x ⟨d, SpHdr.of x, k, off, hoff, soff⟩ = 0 → ∃ b : BitVec 256, Desc.of b = d
        ∧ exec (.spattach q n a) s = .next (issued (s.setCctx { s.cctx with qd := tset s.cctx.qd n.toNat b }) q 1 12 []))
    ∧ (∀ (opd : BitVec 28) (i n : BitVec 6), noVectors s = false → NoTraps s → Awake s i → sync 0x064 [.imm opd, .v i, .s n] → ((ownVec s i).tag = 2 ∨ (ownVec s i).tag = 3) → (s.s n).toNat ≤ 64 →
      let g := if s.s n = 0 then none else some ((List.range (s.s n).toNat).map fun l => (laneOf (ownVec s i) l).toNat)
      (opd = 0 → exec (.spgath q opd i n) s = .next (issued (s.setCres { s.cres with gathA := g }) q 1 16 []))
      ∧ (opd = 1 → exec (.spgath q opd i n) s = .next (issued (s.setCres { s.cres with gathB := g }) q 1 16 [])))
    ∧ (∀ (d x y : BitVec 6) (n m lines len cols t k : Nat) (r : Rnd) (ovf : Bool), sync 0x065 [.s d, .s x, .s y, .fmt (fmtOf t r ovf 0)] →
      (s.s x).toNat = n + 16 * m → (s.s y).toNat = lines + 2 ^ 16 * len + 2 ^ 32 * cols → 1 ≤ n → n ≤ m → n ≤ 8 → m ∈ [2, 4, 8, 16] →
      1 ≤ lines → lines < 2 ^ 16 → 1 ≤ len → len < 2 ^ 16 → 1 ≤ cols → cols < 2 ^ 16 →
      ((k = 24 ∧ t ∈ [4, 5]) ∨ (k = 48 ∧ t ∈ [6, 7, 11, 0x16, 0x17, 0x1B]) ∨ (k = 64 ∧ t ∈ [8, 9, 0x18, 0x19]) ∨ (k = 96 ∧ t ∈ [13, 0x1A])) →
      let dk := m * min (k / n) (4 * k / m)
      exec (.spcost q d x y (fmtOf t r ovf 0)) s = .next (issued s q 2 20 (toS s.regs d
        (BitVec.ofNat 64 (min (2 ^ 24 - 1) ((lines + 15) / 16 * ((len + dk - 1) / dk) * ((cols + 23) / 24)))))))

/-- R352 to R367: a node on which a core runs its share, or all of whose children are done, completes the instruction: it is no longer busy, its outcome is done and its parent hears of it; one with a faulted child completes faulted
with the record kept, and its result is 1. A stage resident runs `TEWISE` and `TRED` itself. `TSTAGE`, `TDISP`, `TWAIT` and `TFAULT` act for the node whose level they run at; a child that is another package is sent its block. The shares'
values are those of R357 to R361, here `runShare` and `runProduct`. -/
def Obligations.TileInstructions : Prop :=
  (∀ (s : State) (q : Bool) (d a : BitVec 6) (u : State) (pb : List Byte),
    let n := tileSeat s s.w
    let x := s.node n
    let t := Tcb.of x.tcb
    let p := Param.of (leNat pb)
    let ag := strandAg s s.w
    let s0 := resumeTile s
    let calls := [(Instr.tmmul q d a, 0xA0), (.tspmul q d a, 0xA1), (.tewise q d a, 0xA2), (.tred q d a, 0xA3), (.tcopy q d a, 0xA4), (.tattn q d a, 0xA5)]
    (isController s.w = true ∨ isTileRes s.w = true) → x.busy = true → x.discard = false →
    (if t.op = 0xA5 then agRead s0 ag (BitVec.ofNat 64 t.param) 64 .copy else (.ok [], s0)) = (.ok pb, u) → u.nodes = s.nodes → u.launches = s.launches → u.cur = s.cur →
    ∀ i num, (i, num) ∈ calls →
      (levelOf n ≠ 2 → (childSeats u n).length < x.phase → x.dispatched = [] →
        (faultedOf x = [] → exec i s = .next (finishTile u n d))
        ∧ (faultedOf x ≠ [] → exec i s = .next (tileResult (completeTile u n (.faulted (keptRecord x))) d 1)))
      ∧ (levelOf n = 2 → (x.phase = 0 → checkTcb num 2 x.tcb p = .ok ()) → ∀ (m : Rnd) (v : State) (b : ShareBits) (hb : List Byte) (z : State),
        let u1 := if x.phase = 0 then u.setNode n { x with phase := 1, share := { x.share with crossed := overlapsC u ag t } } else u
        let y := u1.node n
        let ag1 := strandAg u1 s.w
        let ends := (.next (finishTile (orStatus (loseCore v (nodeOf s.w) b.x) s.w b.sticky) n d) : Done)
        rndOf t.rm = some m →
        (t.op ≠ 0xA0 → t.op ≠ 0xA1 → runShare u1 ag1 t p m y.share = .ok v b → exec i s = ends)
        ∧ (t.op = 0xA0 ∨ t.op = 0xA1 →
          (if t.op = 0xA1 then agRead u1 ag1 (BitVec.ofNat 64 t.a.sphdr) 16 .copy else (.ok [], u1)) = (.ok hb, z) →
          ∀ recv others, groupOf z t y (if t.op = 0xA1 then sparseDepth ((stepDepth t.a.tag).getD 1) (max 1 (SpHdr.of (leNat hb)).n) (max 1 (SpHdr.of (leNat hb)).m)
            else (stepDepth t.a.tag).getD 1) = (recv, others) →
            (recv = true → partsDone z y others = true → runProduct z ag1 t m y.share (others.map (·.2)) = .ok v b → exec i s = ends)
            ∧ (recv = false → runPart z ag1 t y.share = .ok v b → exec i s = ends))))
  ∧ (∀ (s : State) (n : Nat) (d : BitVec 6), let t := finishTile s n d
      (t.node n).busy = false ∧ (t.node n).outcome = some .done ∧ t.later = s.later ++ [.event (.childCompletion n)] ∧ t.mem = s.mem)
  ∧ (∀ (s : State) (q : Bool) (d a : BitVec 6) (bits : BitVec 1024) (u v : State) (m : Rnd) (b : ShareBits), Live s q → OwnStream s → isCore (nodeOf s.w) = true → isTileRes s.w = false →
      let ag := strandAg s s.w
      (s.s a).toNat % 128 = 0 → s.cctx.memq = [] → readTcb s ag (s.s a) = (.ok bits, u) →
      let t := Tcb.of bits
      (placeMat (nodeOf u.w) t.a true).isSome = true → (binaryOp t = true → (placeMat (nodeOf u.w) t.b true).isSome = true) → rndOf t.rm = some m →
      runShare u ag t (Param.of 0) m { wholeShare t with crossed := overlapsC u ag t } = .ok v b → v.cur = s.cur → v.threads = s.threads →
      let ends : Done := .next (issued v q 1 12 (toS s.regs d 0 ++ toSticky b.sticky))
      (Callable s 0xA2 false 0 [.s d, .s a] → checkTcb 0xA2 2 bits (Param.of 0) = .ok () → exec (.tewise q d a) s = ends)
      ∧ (Callable s 0xA3 false 0 [.s d, .s a] → checkTcb 0xA3 2 bits (Param.of 0) = .ok () → exec (.tred q d a) s = ends))
  ∧ ∀ (s : State) (q : Bool) (d a : BitVec 6) (ch : BitVec 28), Live s q → OwnStream s →
      let n := tileSeat s s.w
      let x := s.node n
      let ag := strandAg s s.w
      let seat := (childSeats s n).getD ch.toNat none
      let may := fun num (ops : List Opnd) => isController s.w = true ∨ isTileRes s.w = true ∨ (isLevelProgram s.w = true ∧ Callable s num false 0 ops)
      (∀ bits u, ch.toNat < (childSeats s n).length → (s.s a).toNat % 128 = 0 → s.cctx.memq = [] → readTcb s ag (s.s a) = (.ok bits, u) →
        u.cur = s.cur → u.threads = s.threads →
        let t := Tcb.of bits
        (may 0xA6 [.s a, .imm ch] → seat = none → exec (.tstage q a ch) s = .next (issued u q 1 12 []))
        ∧ (∀ k h u2, may 0xA6 [.s a, .imm ch] → seat = some k → levelHeader u ag t (levelOf n) = (.ok h, u2) → u2.cur = s.cur → u2.threads = s.threads → (∀ c y, h = some (c, y) → c = 0) →
            (levelOf n = 3 → shareFits u2 (agentOf k) t (h.map (·.2)) (wholeShare t) = true) →
            (levelOf n ≠ 5 → exec (.tstage q a ch) s = .next (issued u2 q 1 12 []))
            ∧ ∀ v, levelOf n = 5 → t.op ≠ 0xA5 → v.cur = s.cur → v.threads = s.threads →
              stageAll ag (seatLaunch n) (agentOf k - 513) ((s.s a + 32, partA t (wholeShare t)) :: ((partB t (wholeShare t)).map fun P => (s.s a + 64, P)).toList) u2 = .ok v [] →
              exec (.tstage q a ch) s = .next (issued v q 1 12 []))
        ∧ (may 0xA7 [.s a, .imm ch] → t.level + 1 = levelOf n → u.nodes = s.nodes → (x.phase = 0 ∨ x.cancelling = false) →
            (∀ k, seat = some k → (s.node k).inbox.length < 2) → ∃ v, exec (.tdisp q a ch) s = .next (issued v q 1 12 [])
              ∧ (∀ k, seat = some k → (v.node k).inbox = (s.node k).inbox ++ [⟨some (s.s a), 0, none, some n, ch.toNat⟩] ∧ v.links = u.links)
              ∧ (seat = none → v.links = u.links ++ [.tcb (seatLaunch n) (childPkg u n ch.toNat) bits])
              ∧ tget? (v.node n).children ch.toNat = some .running ∧ ch.toNat ∈ (v.node n).dispatched ∧ v.mem = u.mem))
      ∧ (may 0xA8 [.s d] →
        (x.dispatched ≠ [] → s.cthr.wait = none → exec (.twait q d) s = .next (beginWait s s.cur .blocking 0))
        ∧ (x.dispatched = [] →
          let y := if x.phase = 0 then { x with children := [] } else x
          let f := (y.children.filter fun e => match e.2 with | .faulted _ => true | _ => false).length
          let c := (y.children.filter fun e => e.2 = .cancelled).length
          exec (.twait q d) s = .next (issued (s.setNode n { y with phase := 0, cancelling := false }) q 1 8
            (toS s.regs d (BitVec.ofNat 64 ((if f = 0 then 0 else 1) + 2 ^ 8 * f + 2 ^ 16 * c))))))
      ∧ (may 0xA9 [.s d, .s a] → (s.s a).toNat % 8 = 0 →
        (faultedOf x = [] → exec (.tfault q d a) s = .next (issued s q 1 12 (toS s.regs d 0)))
        ∧ ∀ ps u, faultedOf x ≠ [] → s.cctx.nStores < 63 → resolve s ag (s.s a) 48 .wr .vec = (.ok ps, u) → u.cur = s.cur → u.threads = s.threads →
          exec (.tfault q d a) s = .next (issued (enqueue u q (.store (leBytes 32 (keptRecord x).toNat ++ leBytes 8 (childMask ((faultedOf x).map (·.1))) ++ leBytes 8 (childMask (cancelledOf x)))) ps (s.s a))
            q 1 12 (toS s.regs d (BitVec.ofNat 64 (faultedOf x).length))))

/-- R13, R76, R77, R198 to R216, R306, R316 to R322, R327, R381 to R391: the entries of the engines as they run. The entry at the head of its FIFO does its routine's work from commit point to commit point and ends: a copy with its status, byte
count and cursor, a matrix entry with its status bits 12 cycles later, a selection entry with its unit's state; it leaves its FIFO and its counter. The work itself is the run or step that each routine's rule gives; where a copy's commit points
lie within its run is the model's choice (log entry 102). -/
def Obligations.EngineEntries : Prop :=
  (∀ (s : State) (core res f : Nat) (j j' : Job) (u : State) (st : Nat),
    let k := 4 * core + res
    let s1 := s.setCore core (if f = 1 then { s.core core with rrIn := res } else { s.core core with rrOut := res })
    let ag := engineAg s1 k f
    let runs := fun (i : Instr) num (r : CopyEnd) => headOf s k f num = some j → (r = .done u j' st → exec i s = .next (finishCopy u k f j' st))
      ∧ (r = .more u j' → exec i s = .next (setJob u k f { j' with started := true, commits := j'.commits + 1 }))
    j.fin = none → (j.started = true ∨ copyBusy s core res f = false) →
    runs (.cpyJobRun core res f) 0x070 (runCpy core res f s1 j) ∧ runs (.cpyJobRun core res f) 0x08F (run2d core res f s1 j)
    ∧ runs (.cpyfJobRun core res f) 0x074 (runCpyf core res f s1 j) ∧ runs (.cpygJobRun core res f) 0x071 (runCpyg ag s1 j)
    ∧ runs (.cpysJobRun core res f) 0x072 (runCpys ag s1 j) ∧ runs (.cpysaJobRun core res f) 0x073 (runCpysa ag s1 j)
    ∧ runs (.cpycJobRun core res f) 0x075 (runCpyc core res f s1 j) ∧ runs (.cpywJobRun core res f) 0x076 (runCpyw core res f s1 j)
    ∧ runs (.cpyresJobRun core res f) 0x077 (runCpyres core res f s1 j) ∧ runs (.qflushJobRun core res f) 0x07B (runQflush k s1 j)
    ∧ runs (.rgflushJobRun core res f) 0x07D (runRegion core res f false s1 j) ∧ runs (.rgdropJobRun core res f) 0x07E (runRegion core res f true s1 j)
    ∧ (f = 1 → runs (.fetchJobRun core res) 0x096 (runFetch k s1 j))
    ∧ ∀ id l x, jobQueue s k (arg j.args 1).toNat = some (id, l, x) →
      (j.started = true ∨ x.open = true → runs (.qpushJobRun core res f) 0x079 (runQpush k f (arg j.args 1).toNat id x s1 j))
      ∧ (j.started = true ∨ x.occ ≠ [] → runs (.qpopJobRun core res f) 0x07A (runQpop k f (arg j.args 1).toNat id x s1 j))
      ∧ (j.started = false → x.open = false → headOf s k f 0x079 = some j → exec (.qpushJobRun core res f) s = .next s)
      ∧ (j.started = false → x.occ = [] → headOf s k f 0x07A = some j → exec (.qpopJobRun core res f) s = .next s))
  ∧ (∀ (s s1 s2 : State) (ag : Ag) (src dst : Word) (a d n : Nat), resolve s ag src n .rd .copy = (.ok (physRun a n), s1) → resolve s1 ag dst n .wr .copy = (.ok (physRun d n), s2) →
    1 ≤ n → d + n ≤ triggerBase ∨ triggerBase + 512 ≤ d → ∃ t, moveRun ag dst src n s = (.ok (), t)
      ∧ ∀ b, rdByte t.mem b = if d ≤ b ∧ b < d + n then rdByte s1.mem (a + (b - d)) else rdByte s2.mem b)
  ∧ (∀ (s : State) (k f : Nat) (j j0 : Job) (rest : List Ent), (s.res k).fifo f = .job j0 :: rest → (∀ e ∈ rest, ∃ i, e = Ent.job i) → (∀ g, g ≠ f → (s.res k).fifo g = []) →
    j0.strand < 4 → j0.ctr = 2 → recWanted j 0 = false → copySig j.word = 0 → j.lanes = [] → let t := finishCopy s k f j 0
      (t.res k).fifo f = rest ∧ (t.ctx (ctxKey k j0.strand)).nCopies = (s.ctx (ctxKey k j0.strand)).nCopies - 1 ∧ (t.res k).evq = (s.res k).evq ∧ t.mem = s.mem)
  ∧ (∀ (s : State) (core res : Nat) (j : Job),
    let k := 4 * core + res
    let s1 := s.setCore core { s.core core with rrSel := res }
    let x := (s.ctx (ctxKey k j.strand)).sel
    let cleared := { x with cands := [], nan := false, clip := false, full := false }
    (j.started = true ∨ selBusy s core res = false) →
    (headOf s k 3 0x091 = some j → ∀ y, x.layers[(arg j.args 0).toNat]? = some y → exec (.slqEntryRun core res) s =
      .next (retireSel (setSel s1 k j { cleared with cur := some (arg j.args 0).toNat, query := BitVec.ofNat 2048 (j.vec.toNat % 2 ^ (16 * (Layer.of y).d)) }) k j false))
    ∧ (headOf s k 3 0x095 = some j → exec (.slforceEntryRun core res) s = .next (retireSel (setSel s1 k j { x with forced := j.lanes }) k j false))
    ∧ (headOf s k 3 0x097 = some j →
      (arg j.args 0 = 0 → exec (.slresEntryRun core res) s = .next (retireSel (setSel s1 k j cleared) k j false))
      ∧ (arg j.args 0 ≠ 0 → exec (.slresEntryRun core res) s =
          .next (retireSel (setSel s1 k j { cleared with cur := none, query := 0, forced := [], last := [] }) k j false)))
    ∧ (headOf s k 3 0x092 = some j → exec (.slsumEntryRun core res) s = .next (runSlsum k s1 j))
    ∧ (headOf s k 3 0x093 = some j → exec (.slscoreEntryRun core res) s = .next (runSlscore k s1 j))
    ∧ (headOf s k 3 0x094 = some j → j.fin = none → (s.res k).regions = [] →
      let forced := match x.layer with | some y => x.forced.filter (· < y.nblk) | none => x.forced
      let ps := pickable forced x.cands
      let l := sortNats (forced ++ ps.take (arg j.args 1).toNat)
      let off := (listAt core (arg j.args 0).toNat).getD 0
      let reply := topkReply (j.word.toNat % 2 ^ 16) l.length x.nan (decide (ps.length < (arg j.args 1).toNat)) (x.clip || decide (forced.length < x.forced.length)) x.layer.isNone x.full
      let s2 := if l = [] then s1 else padWrite s1 (engineAg s1 k 3) core off (l.flatMap (leBytes 4))
      exec (.sltopkEntryRun core res) s = .next (endTopk (setSel s2 k j { (selOf s2 k j).empty with last := l }) k j reply))
    ∧ (headOf s k 3 0x096 = some j →
      let n := max 1 (2 * x.last.length)
      ∀ i u, emitFetches k j n (n - j.cursor) j.cursor s1 = (i, u) →
        (n ≤ i → exec (.slfetchEntryRun core res) s = .next (retireSel u k j false))
        ∧ (i < n → exec (.slfetchEntryRun core res) s = .next (setJob u k 3 { j with cursor := i, started := true, commits := i }))))
  ∧ (∀ (s : State) (core res : Nat) (j : Job) (t : CSlot) (u : State) (bits : Nat),
    let k := 4 * core + res
    let r := TileReg.of (arg j.args 0)
    let s0 := fun charge => if j.started then s else vtCharge s k charge
    let run := fun (i : Instr) (jj : Job) total charge count drained stepped (step : Nat → State → StepEnd) =>
      let next := fun (v : State) n b => let j' := { jj with cursor := n, started := true, bytes := b }
        if n = total then retireMatrix (setJob v k 0 j') k j' t count drained stepped else setJob v k 0 j'
      (j.started = true → j.cursor = total → exec i s = .next (retireMatrix s k j t count drained stepped))
      ∧ (j.started = false → j.cursor = total → exec i s = .next (next (s0 charge) total j.bytes))
      ∧ (j.cursor ≠ total → step j.cursor (s0 charge) = .ok u bits → exec i s = .next (next u (j.cursor + 1) (j.bytes ||| bits)))
    let charge := (r.rows * r.cols + 383) / 384
    let drain := fun (i : Instr) (step : Nat → State → StepEnd) =>
      let refused := bandRefused t r (j.fmt.toNat / 2 ^ 9 % 4)
      let j2 := { j with bytes := 0x100, cursor := r.rows, started := true }
      (j.started = true ∨ refused = false → run i j r.rows charge (if j.bytes &&& 0x100 = 0 then r.rows * r.cols else 0) true false step)
      ∧ (j.started = false → refused = true → exec i s = .next (retireMatrix (setJob (vtCharge s k charge) k 0 j2) k j2 t 0 true false))
    res < 4 → j.tile = some t →
    (headOf s k 0 0x046 = some j → run (.mzeroEntryRun core res) j r.rows charge (r.rows * r.cols) false false (mzeroStep k t r))
    ∧ (∀ x M, headOf s k 0 0x047 = some j → j.descs = [x] → placeMat core (Desc.of x) true = some M →
        run (.mldaccEntryRun core res) j r.rows charge (r.rows * r.cols) false false (mldaccStep k t M r))
    ∧ (∀ x M m, headOf s k 0 0x048 = some j → j.descs = [x] → placeMat core (Desc.of x) true = some M → rndOf (fmtRm j.fmt) = some m →
        drain (.mdrainEntryRun core res) (mdrainStep k j t M m r))
    ∧ (∀ pc off, headOf s k 0 0x049 = some j → accLoc core (arg j.args 1).toNat = some (pc, off) → drain (.mpeerEntryRun core res) (mpeerStep k j t pc off r))
    ∧ ∀ x y B, headOf s k 0 0x042 = some j → j.descs = [x, y] → placeMat core (Desc.of y) false = some B →
        let total := nestSteps j.nest
        (∀ A, (Desc.of x).sparse = false → placeMat core (Desc.of x) true = some A → run (.mgoEntryRun core res) j total total total false true (mgoStep k j t (.dense A) B))
        ∧ ∀ pad off hoff soff h, (Desc.of x).sparse = true → placeSparse core (Desc.of x) = some (pad, off, hoff, soff) → (s.res k).regions = [] →
          h = j.hdr.getD (rdNat (s.core pad).scratch hoff 16) →
          let T : SpTile := ⟨Desc.of x, SpHdr.of h, pad, off, hoff, soff⟩
          headerCause h T = 0 → gatherOk j.gathA T.lines = true →
          run (.mgoEntryRun core res) { j with hdr := some h } total (j.charge.getD (sparseCharge s k (Desc.of x))) total false true (mgoStep k j t (.sparse T) B))
  ∧ (∀ (s : State) (k : Nat) (t : CSlot) (r : TileReg) (i : Nat), (∀ c < r.cols, ∃ o, cellOff t (r.row0 + i) (r.col0 + c) = some o) → t.fmt ∈ [1, 2, 15] →
    ∃ u, mzeroStep k t r i s = .ok u 0 ∧ u.mem = s.mem ∧ ∀ c o, c < r.cols → cellOff t (r.row0 + i) (r.col0 + c) = some o → rdNat (u.core (k / 4)).acc o (accSize t.fmt) = 0)
  ∧ ∀ (s : State) (core : Nat) (u : TileUpd) (x : TileStat), (s.core core).tupd = [u] → u.due ≤ s.cycle → u.signal = none → u.reply = none → tget? (s.core core).tstat u.bank = some x →
    ∃ t, exec (.tileStatusVisible core) s = .next t ∧ (t.core core).tupd = []
      ∧ tget? (t.core core).tstat u.bank = some { x with bits := x.bits ||| u.bits, dseq := if u.drained then x.dseq + 1 else x.dseq, gseq := if u.stepped then x.gseq + 1 else x.gseq }

/-! ## Firmware and launches -/

/-- R419, R414, R418: the four instructions of a firmware core, which run in machine mode only; how a trap is taken is the RISC-V architecture's, which the
rule names and does not restate (log entry 4). `RINGF` takes the entry at a ring's head and moves the head on, `FBFX` gives a bit field,
`SIGW` waits for a masked bit and drains the latch, `DISP` has a fetched entry accepted or refused with its status; each ends at the next word, x0 discarding its result. An operand that the rule
refuses traps with the cause that the rule gives. -/
def Obligations.FirmwareInstructions : Prop :=
  ∀ (s : State) (d a b : BitVec 5),
    let x := fwReg s a
    let y := fwReg s b
    let traps := fun (i : Instr) c => exec i s = .next (fwTrap s c)
    (s.fw.mode ≠ 3 → traps (.ringf d a b) 2 ∧ traps (.fbfx d a b) 2 ∧ traps (.sigw d a) 2 ∧ traps (.disp d a) 2)
    ∧ (s.fw.mode = 3 →
      (let p := y.toNat % 64
       let w := y.toNat / 64 % 64 + 1
       (p + w ≤ 64 → y.toNat < 2 ^ 12 → exec (.fbfx d a b) s = .next (fwNext s d (BitVec.ofNat 64 (x.toNat / 2 ^ p % 2 ^ w))))
        ∧ (64 < p + w ∨ 2 ^ 12 ≤ y.toNat → traps (.fbfx d a b) 27))
      ∧ (x = 0 → traps (.sigw d a) 28)
      ∧ (s.notify.bitmap &&& x = 0 → x ≠ 0 → exec (.sigw d a) s = .next { s with fw := { s.fw with waiting := true } })
      ∧ (s.notify.bitmap &&& x ≠ 0 → exec (.sigw d a) s = .next (fwNext { s with notify := ⟨s.notify.bitmap &&& ~~~x, 0⟩ } d (s.notify.bitmap &&& x)))
      ∧ (let ring := x.toNat % 16
         let fn := x.toNat / 16 % 128
         let r := ringOf s fn ring
         (2 ^ 11 ≤ x.toNat ∨ 64 < fn ∨ (∀ k, 1 ≤ k → k ≤ 16 → r.size.toNat ≠ 2 ^ k) → traps (.ringf d a b) 24)
          ∧ ∀ k, x.toNat < 2 ^ 11 → fn ≤ 64 → 1 ≤ k → k ≤ 16 → r.size.toNat = 2 ^ k →
            (y.toNat % 128 ≠ 0 → traps (.ringf d a b) 26)
            ∧ (y.toNat % 128 = 0 → r.head = r.tail.toNat → exec (.ringf d a b) s = .next (fwNext s d 0))
            ∧ (y.toNat % 128 = 0 → r.head ≠ r.tail.toNat → Config.busError (r.entryAt r.head) = true → traps (.ringf d a b) 25)
            ∧ (y.toNat % 128 = 0 → r.head ≠ r.tail.toNat → Config.busError (r.entryAt r.head) = false → ∃ u, exec (.ringf d a b) s = .next (fwNext u d 1)
                ∧ u.fw.x = s.fw.x ∧ u.fw.pc = s.fw.pc ∧ u.fw.mode = 3 ∧ ringOf u fn ring = { r with head := (r.head + 1) % 2 ^ k } ∧ u.mem = s.mem ∧ u.launches = s.launches
                ∧ ∀ i < 128, rdByte u.fw.mem (y.toNat + i) = rdByte s.mem (Config.hostBus (r.entryAt r.head + BitVec.ofNat 64 i))))
      ∧ (x.toNat % 128 ≠ 0 → traps (.disp d a) 29)
      ∧ (x.toNat % 128 = 0 →
        let src := tget 0 s.fw.fetched x.toNat
        let e := rdNat s.fw.mem x.toNat 128
        (∀ st, checkEntry s (src / 16) (src % 16) none e s.nextLaunch = .error st →
          exec (.disp d a) s = .next (fwNext (postCompletion s (refusedLaunch (src / 16) (src % 16) none e) st 0 0) d (BitVec.ofNat 64 st)))
        ∧ ∀ l ss, checkEntry s (src / 16) (src % 16) none e s.nextLaunch = .ok (l, ss) →
            let u := { (loadSections s (BitVec.ofNat 64 (e % 2 ^ 64)) s.nextLaunch l.asid ss).setLaunch s.nextLaunch l with nextLaunch := s.nextLaunch + 1 }
            (∀ w, (nextWaiting u).map (·.1) = some s.nextLaunch → serve u s.nextLaunch l = .placed w →
              exec (.disp d a) s = .next (fwNext { w with agenda := w.agenda ++ [.event (.launchStart s.nextLaunch)] } d 0))
            ∧ ((nextWaiting u).map (·.1) = some s.nextLaunch → serve u s.nextLaunch l = .wait →
              exec (.disp d a) s = .next (fwNext { u with agenda := u.agenda ++ (victims u l).map fun v => .event (.preemption v) } d 0))
            ∧ ((nextWaiting u).map (·.1) ≠ some s.nextLaunch → exec (.disp d a) s = .next (fwNext u d 0))))
    ∧ (∀ v r, (fwNext s d v).fw.pc = s.fw.pc + 4 ∧ (fwNext s d v).fw.waiting = false ∧ fwReg (fwNext s d v) r = if r = d ∧ d ≠ 0 then v else fwReg s r)
    ∧ ∀ c, c < 64 → let t := fwTrap s c
        let toS := s.fw.mode ≠ 3 ∧ s.fw.medeleg.getLsbD c = true
        (¬toS → t.fw.mcause = BitVec.ofNat 64 c ∧ t.fw.mepc = s.fw.pc ∧ t.fw.mtval = 0 ∧ t.fw.pc = (s.fw.mtvec &&& ~~~(3 : Word)) ∧ t.fw.mode = 3
          ∧ t.fw.mstatus.getLsbD 3 = false ∧ t.fw.mstatus.getLsbD 7 = s.fw.mstatus.getLsbD 3 ∧ t.fw.mstatus.extractLsb' 11 2 = s.fw.mode)
        ∧ (toS → t.fw.scause = BitVec.ofNat 64 c ∧ t.fw.sepc = s.fw.pc ∧ t.fw.stval = 0 ∧ t.fw.pc = (s.fw.stvec &&& ~~~(3 : Word)) ∧ t.fw.mode = 1
          ∧ t.fw.mstatus.getLsbD 1 = false ∧ t.fw.mstatus.getLsbD 5 = s.fw.mstatus.getLsbD 1 ∧ t.fw.mstatus.getLsbD 8 = s.fw.mode.getLsbD 0)
        ∧ (∀ r, fwReg t r = fwReg s r) ∧ t = { s with fw := t.fw }

/-- R28, R31, R32, R42, R44, R45, R403, R411, R417, R422: the life of a launch. A placed one starts: `ctl` of each resident runs at its stream's start with the arguments in s1 to s8 and replica, replicas and core in s9 to s11, its
other strands are fresh or empty. A finished one is freed and its completion record written. The weights of stage residents move with their queues. A launch that must make way halts; halted, its contexts go to shadow storage; with its quads free again it
resumes from there. A launch-fatal fault of a running launch is recorded, beside an earlier one by the lower place with COUNT raised, and the launch ends faulted with that record as it completes (log entry 100). -/
def Obligations.LaunchEvents : Prop :=
  ∀ (s : State) (l : Nat) (x : Launch), s.launch? l = some x →
    let key := fun p : Placed => 4 * p.core + p.res
    let apart := (x.placed.map key).Nodup
    let cores := coresOfQuads x.quads
    (x.st = .placed → apart → x.single = false → x.lvl = 0 → podCut s x.podmask = false → ∃ t, exec (.launchStart l) s = .next t ∧ t.launch? l = some { x with st := .running, start := s.cycle }
      ∧ ∀ p ∈ x.placed, ∀ g, x.stages[p.stage]? = some g →
          let r := (t.thr (mainOf (ctxKey (key p) 0))).regs
          (t.ctx (ctxKey (key p) 0)).run = .running ∧ r.pc = g.starts.getD 0 0 ∧ (∀ i < 8, tget 0 r.s (i + 1) = x.args.getD i 0)
          ∧ tget 0 r.s 9 = BitVec.ofNat 64 p.replica ∧ tget 0 r.s 10 = BitVec.ofNat 64 g.repl ∧ tget 0 r.s 11 = BitVec.ofNat 64 p.core
          ∧ ∀ k, 1 ≤ k → k < 4 → let c := t.ctx (ctxKey (key p) k)
              c.run = (if g.starts.getD k 0 = 0 then .empty else .fresh) ∧ c.start = g.starts.getD k 0 ∧ c.tvec = g.handlers.getD k 0)
    ∧ (x.record = none → launchDone s l x = true → x.graph = none → ∃ t, exec (.launchComplete l) s = .next t ∧ (t.launch? l).map (·.st) = some .done
      ∧ t.mem = (hostWrite s x.asid x.cpl (leBytes 64 (completionRecord x.tag 0 0 (s.cycle - x.start) 0))).mem ∧ t.msix = s.msix ++ [x.fn * 16 + x.ring]
      ∧ ∀ p ∈ x.placed, (t.res (key p)) = Res.reset ∧ ∀ k < 4, (t.ctx (ctxKey (key p) k)).run = .empty)
    ∧ (x.record = none → launchDone s l x = false → exec (.launchComplete l) s = .next s)
    ∧ (∀ r, x.record = some r → exec (.launchComplete l) s = .next (endLaunch s l 0x10 0 r))
    ∧ (s.launches.filter (fun e => e.2.st = .running) = [(l, x)] → apart → ∃ t, exec .sheepdogWeightUpdate s = .next t ∧ t = { s with residents := t.residents }
      ∧ ∀ p ∈ x.placed, ∀ oi oo : Int,
          let eighths := fun q : StageQ => ((8 * q.occ.length / q.depth : Nat) : Int)
          let ins := (x.queues.filter fun q => q.cons = p.stage).map eighths
          let outs := (x.queues.filter fun q => q.prod = p.stage).map eighths
          (ins = [] ∧ oi = 4 ∨ oi ∈ ins ∧ ∀ y ∈ ins, oi ≤ y) → (outs = [] ∧ oo = 4 ∨ oo ∈ outs ∧ ∀ y ∈ outs, y ≤ oo) →
          let step : Int := if 4 ≤ oi - oo then 2 else if 1 ≤ oi - oo then 1 else if oi = oo then 0 else if -3 ≤ oi - oo then -1 else -2
          ((t.res (key p)).weight : Int) = max 1 (min 15 ((s.res (key p)).weight + step)))
    ∧ (∀ w, x.st = .running → x.record = none → nextWaiting s = some w → serve s w.1 w.2 = .wait → l ∈ victims s w.2 →
      exec (.preemption l) s = .next (s.setLaunch l { x with st := .halting, haltAt := s.cycle, dbg := false }))
    ∧ (x.st = .halting → x.record = none → x.dbg = false → launchStopped s l x = true → x.quads.Nodup → ∃ t, exec (.contextSwapOut l) s = .next t ∧ t.launch? l = some { x with st := .saved } ∧ t.mem = s.mem
      ∧ ∀ k ∈ cores, (∃ v, tget? t.shadow k = some v ∧ v.launch = l ∧ v.core = { s.core k with tlb := [], pred := [] }
            ∧ v.residents = s.residents.filter (fun e => e.1 / 4 = k) ∧ v.ctxs = s.ctxs.filter (fun e => nodeOf e.1 = k)
            ∧ v.threads.map (fun e => (e.1, e.2.regs, e.2.stack)) = (s.threads.filter fun e => nodeOf (ctxOf e.1) = k).map fun e => (e.1, e.2.regs, e.2.stack))
          ∧ ∀ w, nodeOf w = k → (t.ctx w).run = .empty)
    ∧ (mayResume s x = true → x.quads.Nodup →
      (∀ k ∈ cores, (s.core k).shadowLen = 0 ∧ (s.core k).winq = [] ∧ ∃ v, tget? s.shadow k = some v ∧ v.launch = l ∧ v.core.winq = [] ∧ (v.ctxs.map (·.1)).Nodup ∧ (∀ e ∈ v.ctxs, nodeOf e.1 = k)
        ∧ (v.threads.map (·.1)).Nodup ∧ ∀ e ∈ v.threads, nodeOf (ctxOf e.1) = k) →
      ∃ t, exec (.launchResume l) s = .next t ∧ t.launch? l = some { x with st := .running, dbg := false } ∧ t.mem = s.mem
        ∧ ∀ k ∈ cores, ∀ v, tget? s.shadow k = some v → (t.core k).scratch = v.core.scratch ∧ (t.core k).acc = v.core.acc ∧ (t.core k).sems = v.core.sems
            ∧ (t.core k).mtxs = v.core.mtxs ∧ (t.core k).stopped = false ∧ tget? t.shadow k = none ∧ (∀ w, nodeOf w = k → t.ctx w = tget Ctx.reset v.ctxs w)
            ∧ ∀ w, nodeOf (ctxOf w) = k → (t.thr w).regs = (tget Thread.reset v.threads w).regs ∧ (t.thr w).stack = (tget Thread.reset v.threads w).stack)
    ∧ (∀ n, mayResume s x = true → launchRefusal s x = some n → exec (.launchResume l) s = .next (endLaunch s l 0x11 n 0))
    ∧ (∀ w cls addr, launchOf s w = l → x.st = .running → 0x10 ≤ cls → cls ≤ 0x14 → ∃ rec, exec (.launchFatalFault w cls addr) s = .next (s.setLaunch l { x with record := some (addFault x rec) })
      ∧ rec.extractLsb' 80 16 = BitVec.ofNat 16 cls ∧ rec.extractLsb' 128 64 = addr ∧ rec.extractLsb' 192 16 = 0
      ∧ rec.extractLsb' 0 3 = BitVec.ofNat 3 (levelOf (nodeOf w)))
    ∧ (∀ r, (x.record = none → addFault x r = r) ∧ ∀ k, x.record = some k → recCount (addFault x r) = min 65535 (recCount k + recCount r + 1)
        ∧ fld (addFault x r).toNat 8 17 = min (fld k.toNat 8 17) (fld r.toNat 8 17))
    ∧ ∀ pkg stage kind, ∃ t, exec (.barPodArrival l ⟨pkg, stage, kind⟩) s = .next t ∧ t = { s with launches := t.launches, threads := t.threads }
        ∧ t.launches = (s.setLaunch l { x with podArr := tset x.podArr (podKey pkg stage kind) (tget 0 x.podArr (podKey pkg stage kind) + 1) }).launches
        ∧ ∀ h, (t.thr h).regs = (s.thr h).regs ∧ (t.thr h).stack = (s.thr h).stack

/-- R18, R23, R80, R85, R110, R114, R161, R221, R222, R226, R402, R64: what reaches a context without an instruction of its own. A due result lands; a store to a semaphore word counts and serves the oldest waiter; a mutex word is taken and given back; a held
increment is performed once its conditions hold; a waking cluster is awake with zero registers; a window write lands unless its partition is halted; the entry of a binary's queued routine opens its frame; a pending engine trap enters the handler; a page walk fills
the translation cache; a chunk is filled from its virtual range. A reserved encoding traps ILL, unless squashed. -/
def Obligations.ContextEvents : Prop :=
  ∀ s : State,
    (∀ w p k v, (s.thr (mainOf w)).regs.pend = [p] → p.left = 0 → p.eff = .sreg k v → p.eff.plain (s.thr (mainOf w)).regs →
      ∃ t, exec (.pendingResultLands w) s = .next t ∧ tget 0 (t.thr (mainOf w)).regs.s k = v ∧ (t.thr (mainOf w)).regs.pend = [] ∧ t.mem = s.mem)
    ∧ (∀ core n (v : Word), n < 32 → v.toNat % 2 ^ 16 ≠ 0 →
      let x := tget ⟨0, []⟩ (s.core core).sems n
      let c := min 65535 (x.count.toNat + v.toNat % 2 ^ 16)
      ∃ t, exec (.semaphoreWordStore core (8 * n) v) s = .next t
        ∧ (x.queue = [] → tget ⟨0, []⟩ (t.core core).sems n = ⟨BitVec.ofNat 16 c, []⟩)
        ∧ ∀ j a rest, x.queue = (j, a) :: rest → (c < a → tget ⟨0, []⟩ (t.core core).sems n = ⟨BitVec.ofNat 16 c, x.queue⟩)
            ∧ (a ≤ c → rest = [] → tget ⟨0, []⟩ (t.core core).sems n = ⟨BitVec.ofNat 16 (c - a), []⟩ ∧ (t.thr j).granted = true))
    ∧ (∀ agent core n (e v : Word), n < 8 →
      let x := tget ⟨none, []⟩ (s.core core).mtxs n
      let put := fun y : Mtx => s.setCore core { s.core core with mtxs := tset (s.core core).mtxs n y }
      (x.holder = none ∧ x.queue = [] ∧ e = 0 ∧ v = 1 → exec (.mutexWordCas agent core (0x100 + 8 * n) e v) s = .next (put ⟨some agent, []⟩))
      ∧ (x.holder ≠ none ∨ x.queue ≠ [] ∨ e ≠ 0 ∨ v ≠ 1 → exec (.mutexWordCas agent core (0x100 + 8 * n) e v) s = .next s)
      ∧ (x.holder ≠ some agent → exec (.mutexWordRelease agent core (0x100 + 8 * n)) s = .next s)
      ∧ (x.holder = some agent → remoteBase ≤ agent →
        (x.queue = [] → exec (.mutexWordRelease agent core (0x100 + 8 * n)) s = .next (put ⟨none, []⟩))
        ∧ ∀ j rest, x.queue = j :: rest → ∃ t, exec (.mutexWordRelease agent core (0x100 + 8 * n)) s = .next t
            ∧ tget ⟨none, []⟩ (t.core core).mtxs n = ⟨some (ctxOf j), rest⟩ ∧ (t.thr j).granted = true))
    ∧ (∀ w g, (s.ctx w).sigs = [g] → g.amount ≠ 0 →
      let ready := (∀ m ∈ (s.ctx w).memq, m.isLoad = true ∨ g.afterMem ≤ m.id) ∧ ∀ h ∈ g.heads, h.2 ≤ tget 0 (s.res (resKeyOf w)).retired h.1
      let x := tget ⟨0, []⟩ (s.core (nodeOf w)).sems g.sem
      (ready → x.queue = [] → ∃ t, exec (.semsigIncrementPerformed w) s = .next t ∧ (t.ctx w).sigs = []
        ∧ tget ⟨0, []⟩ (t.core (nodeOf w)).sems g.sem = ⟨BitVec.ofNat 16 (min 65535 (x.count.toNat + g.amount)), []⟩)
      ∧ (¬ready → exec (.semsigIncrementPerformed w) s = .next s))
    ∧ (∀ w k, k < 8 → (k, 0) ∈ (s.ctx w).waking → (s.thr (mainOf w)).stack = [] → ∃ t, exec (.clusterWakeComplete w k) s = .next t
      ∧ (∀ j < 8, (t.ctx w).awake.getLsbD j = ((s.ctx w).awake.getLsbD j || decide (j = k))) ∧ (∀ e ∈ (t.ctx w).waking, e.1 ≠ k)
      ∧ ∀ i, tget? (t.thr (mainOf w)).regs.v i = if i / 8 = k then none else tget? (s.thr (mainOf w)).regs.v i)
    ∧ (∀ core x, (s.core core).winq = [x] →
      let w := winCtx core x.w x.off
      (portHeld s core = true → exec (.registerWindowWriteLands core) s = .next s)
      ∧ (portHeld s core = false → resLoaded s w = true → ∃ t, exec (.registerWindowWriteLands core) s = .next t ∧ (t.core core).winq = []
        ∧ (x.w = 2 → ∀ b, rdByte (t.ctx w).bantam b = if x.off % 4096 ≤ b ∧ b < x.off % 4096 + x.bytes.length then x.bytes.getD (b - x.off % 4096) 0 else rdByte (s.ctx w).bantam b)
        ∧ (∀ vs : List Word, x.w = 4 → x.off % 8 = 0 → x.off / 8 % 64 + vs.length ≤ 64 → x.bytes = vs.flatMap (fun v => leBytes 8 v.toNat) → (s.thr (mainOf w)).stack = [] →
            ∀ i (v : Word), vs[i]? = some v → x.off / 8 % 64 + i ≠ 0 → tget 0 (t.thr (mainOf w)).regs.s ((s.thr (mainOf w)).regs.skey (x.off / 8 % 64 + i)) = v)))
    ∧ (∀ core res f j l r, (s.res (4 * core + res)).head f = some j → j.itver = true → j.started = false → s.launch? (s.res (4 * core + res)).launch = some l →
      (l.routines.find? fun r => r.num = j.num) = some r →
      let k := 4 * core + res
      let th := mainOf (ctxKey k j.strand) + 1 + f
      ∃ t y, exec (.queueFrameOpen core res f) s = .next t ∧ (t.thr th).stack = [y] ∧ y.num = r.num ∧ y.site = j.site ∧ y.commit = 0 ∧ y.step = 0 ∧ (t.thr th).regs.pc = r.body
        ∧ (t.thr th).regs.wb = 0 ∧ (t.thr th).regs.base = j.wbase ∧ (t.thr th).regs.pend = [] ∧ (t.res k).head f = some { j with started := true } ∧ t.mem = s.mem
        ∧ ∀ i < j.args.length, tget 0 (t.thr th).regs.s (16 + i) = arg j.args i)
    ∧ (∀ w e, (s.ctx w).traps = [e] → launchRuns s w = true → mayTakeTrap s w = true → (s.ctx w).tvec ≠ 0 → (s.thr (mainOf w)).wait = none → (s.thr (mainOf w)).stack = [] →
      ∃ t, exec (.queueFrameTrap w) s = .next t ∧ (t.ctx w).traps = [] ∧ (t.ctx w).handler = true ∧ (t.ctx w).epc = e.site ∧ (t.ctx w).eupc = e.upc.setWidth 64
        ∧ (t.ctx w).cause.extractLsb' 0 8 = BitVec.ofNat 8 e.cls ∧ (t.ctx w).cause.extractLsb' 8 8 = BitVec.ofNat 8 e.detail ∧ (t.ctx w).cause.getLsbD 29 = true
        ∧ (t.ctx w).cause.extractLsb' 30 2 = BitVec.ofNat 2 e.fifo ∧ (t.thr (mainOf w)).regs.pc = (s.ctx w).tvec ∧ (t.thr (mainOf w)).regs.s = (s.thr (mainOf w)).regs.s
        ∧ (t.ctx w).held = (s.thr (mainOf w)).regs.pend)
    ∧ (∀ core res asid (va : Word), (∀ y ∈ (s.core core).tlb, y.covers asid va.toNat = false) → res < 4 →
      ∃ t, exec (.pageWalkComplete (4 * core + res) asid va) s = .next t ∧ t.mem = s.mem
        ∧ (t.core core).tlb = match walk s asid va.toNat with | some x => (x :: (s.core core).tlb).take 256 | none => (s.core core).tlb)
    ∧ (∀ core res chunk n y ps u, chunk ∈ (s.res (4 * core + res)).fills → core < 512 → res < 4 → regionAt (s.res (4 * core + res)) (4096 * chunk) = some (n, y) →
      resolve s { strandAg s (ctxKey (4 * core + res) 0) with res := 4 * core + res } (y.va + BitVec.ofNat 64 (4096 * chunk - (y.sp + shareBase (s.res (4 * core + res))))) 4096 .rd .load = (.ok ps, u) →
      ∃ t, exec (.firstTouchFill core res chunk) s = .next t ∧ rdBytes (t.core core).scratch (4096 * chunk) ps.length = ps.map (placeByte u)
        ∧ chunk ∉ (t.res (4 * core + res)).fills ∧ (tget? (t.res (4 * core + res)).regions n).map (·.filled) = some (y.filled ++ [chunk]))
    ∧ (∀ core res chunk n y e u, chunk ∈ (s.res (4 * core + res)).fills → core < 512 → res < 4 → regionAt (s.res (4 * core + res)) (4096 * chunk) = some (n, y) →
      resolve s { strandAg s (ctxKey (4 * core + res) 0) with res := 4 * core + res } (y.va + BitVec.ofNat 64 (4096 * chunk - (y.sp + shareBase (s.res (4 * core + res))))) 4096 .rd .load = (.error e, u) →
      let x := u.res (4 * core + res)
      exec (.firstTouchFill core res chunk) s = .next (u.setRes (4 * core + res) { x with fills := x.fills.filter (· ≠ chunk), badFills := x.badFills ++ [(chunk, e)] }))
    ∧ ∀ w : W32, (Live s (squashOf w) → exec (.reservedEncoding w) s = .next (takeTrap s { cls := 1, num := if isCall w then (numOf w).toNat else 0x3FFF }))
        ∧ (squashed s (squashOf w) = true → exec (.reservedEncoding w) s = .next (skipped s (4 * wordCount w)))

/-- R223, R230 to R234, R363, R366, R368, R371, R405, R406, R414, R422, R425: tile instructions move down and up the tree; translations are dropped by range; pages are counted, moved and queried; errors take resources out and physical function 0 brings cores back. -/
def Obligations.NodeAndPageEvents : Prop :=
  ∀ s : State,
    (∀ n e rest, (s.node n).inbox = e :: rest → (s.node n).busy = false → (s.node n).outcome = none → nodeRuns s n = true → 512 ≤ agentOf n → e.addr = none →
      ∃ t, exec (.tileInstructionStart (.inbox n)) s = .next t ∧ (t.node n).busy = true ∧ (t.node n).tcb = e.tcb ∧ (t.node n).inbox = rest ∧ (t.node n).parent = e.parent
        ∧ (t.node n).child = e.child ∧ (t.node n).phase = 1 ∧ (t.ctx (seatCtx n)).run = .running)
    ∧ (∀ n bits x, s.launch? (seatLaunch n) = some x → x.single = true → x.member = true → x.st = .running → n = pkgNode (seatLaunch n) → 512 ≤ agentOf n → (s.node n).busy = false → (s.node n).outcome = none →
      ∃ t, exec (.tileInstructionStart (.link n bits)) s = .next t ∧ (t.node n).busy = true ∧ (t.node n).tcb = bits ∧ (t.node n).parent = none ∧ (t.node n).share = memberShare x (Tcb.of bits)
        ∧ (t.ctx (seatCtx n)).run = .running ∧ t.mem = s.mem)
    ∧ (∀ quad tcb l, quadHolder s quad = some l →
      let n := quadNode l quad
      ((s.node n).inbox.length < 2 → exec (.quadInboxWrite quad true tcb) s = .next (s.setNode n { s.node n with inbox := (s.node n).inbox ++ [⟨some tcb, 0, none, none, 0⟩] }))
      ∧ (2 ≤ (s.node n).inbox.length → exec (.quadInboxWrite quad true tcb) s = .next { s with later := s.later ++ [.event (.quadInboxWrite quad true tcb)] })
      ∧ exec (.quadInboxWrite quad false tcb) s = .next s)
    ∧ (∀ n o p, (s.node n).outcome = some o → (s.node n).parent = some p → p ≠ n → o = .done →
      tget? (s.node p).children (s.node n).child = some .running → ∃ t, exec (.childCompletion (.own n)) s = .next t ∧ (t.node n).outcome = none
        ∧ tget? (t.node p).children (s.node n).child = some o ∧ (t.node p).dispatched = (s.node p).dispatched.erase (s.node n).child ∧ t.mem = s.mem)
    ∧ (∀ n r p, (s.node n).outcome = some (.faulted r) → (s.node n).parent = some p → p ≠ n → (s.node p).cancelling = false → (s.node p).dispatched.erase (s.node n).child = [] →
      tget? (s.node p).children (s.node n).child = some .running → ∃ t, exec (.childCompletion (.own n)) s = .next t ∧ (t.node n).outcome = none
        ∧ tget? (t.node p).children (s.node n).child = some (.faulted r) ∧ (t.node p).dispatched = [] ∧ (t.node p).cancelling = true)
    ∧ (∀ n r, (s.node n).outcome = some (.faulted r) → (s.node n).parent = none → 5 ≤ levelOf n →
      ∃ ls, exec (.childCompletion (.own n)) s = .next (endStruck { s.setNode n { s.node n with outcome := none, discard := false } with links := s.links ++ ls } (seatLaunch n) r)
        ∧ ∀ x, s.launch? (seatLaunch n) = some x → x.podmask = 0 → ls = [])
    ∧ (∀ n, (s.node n).busy = true → (s.node n).discard = true →
      ((s.node n).dispatched = [] → ∃ t, exec (.tileDiscardStop n) s = .next t ∧ (t.node n).busy = false ∧ (t.node n).outcome = some .cancelled
        ∧ t.later = s.later ++ [.event (.childCompletion n)] ∧ t.mem = s.mem)
      ∧ ((s.node n).dispatched ≠ [] → exec (.tileDiscardStop n) s = .next s))
    ∧ (∀ fn, let f := s.func fn
      (f.idone = false → exec (.invalidationGo fn) s = .next s)
      ∧ (f.idone = true → f.iasid.toNat / 256 ≠ fn → exec (.invalidationGo fn) s = .next (s.setFunc fn { f with idone := true, irefused := true }))
      ∧ (f.idone = true → f.iasid.toNat / 256 = fn → exec (.invalidationGo fn) s = .next (s.setFunc fn { f with idone := false, irefused := false, going := (f.iasid, f.iva, f.ilen) }))
      ∧ (f.idone = false → rangeBusy s (invRange f.going) = true → exec (.invalidationComplete fn) s = .next s)
      ∧ (f.idone = false → rangeBusy s (invRange f.going) = false → ∃ t, exec (.invalidationComplete fn) s = .next t ∧ (t.func fn).idone = true ∧ t.mem = s.mem
        ∧ ∀ k x, x ∈ (t.core k).tlb ↔ x ∈ (s.core k).tlb ∧ (invRange f.going).hits x.asid x.va x.size = false))
    ∧ (∃ t, exec .migrationEpoch s = .next t ∧ t.epochNo = s.epochNo + 1 ∧ t.mem = s.mem ∧ s.agenda <+: t.agenda
      ∧ (∀ k p, tget? s.pages k = some p → tget? t.pages k = some { p with dev := p.dev >>> 1, host := p.host >>> 1, peer := p.peer >>> 1, cxl := p.cxl >>> 1 })
      ∧ ∀ act ∈ t.agenda, act ∈ s.agenda ∨ act ∈ stackMoves s s.stackQuar ∨ ∃ k p asid va c, (k, p) ∈ s.pages ∧ physOwner k ≠ 3
          ∧ (p.home = some (asid, va) ∨ p.home = none ∧ (pageOf s k).map (fun x => (x.asid, x.va)) = some (asid, va)) ∧ act = .event (.migrationRequest asid (BitVec.ofNat 64 va) (BitVec.ofNat 2 c) false)
          ∧ c < 3 ∧ c ≠ physOwner k ∧ recentMove s p = false ∧ s.tmove.toNat % 2 ^ 12 ≤ p.ofOwner c ∧ p.ofOwner (physOwner k) + s.tmargin.toNat % 2 ^ 12 ≤ p.ofOwner c)
    ∧ (∀ asid (va : Word) cls h x, walk s asid va.toNat = some x →
      let p := pageRec s (physKey x.owner.toNat x.peer x.frame) x.size (some (asid, x.va))
      let leaves := x.owner = 0 ∧ frameBarred s 0 x.frame = true
      (x.mig = true ∨ x.owner = 3 ∨ cls = 3 ∨ (¬leaves ∧ (recentMove s p = true ∨ cls = x.owner)) → exec (.migrationRequest asid va cls h) s = .next s)
      ∧ (x.mig = false → x.owner ≠ 3 → cls ≠ 3 → leaves ∨ (cls ≠ x.owner ∧ recentMove s p = false) → (∀ act ∈ s.agenda, ∀ i v c, act ≠ .event (.migrationRequest i v c true)) →
        (pinned s x = true → exec (.migrationRequest asid va cls h) s = .next { s with later := s.later ++ [.event (.migrationRequest asid va cls h)] })
        ∧ (pinned s x = false → frameBarred s cls (moveFrame s x cls) = false → ∀ t0 a lv, rootOf s asid = some t0 → x.asid = asid → leafFrom s.mem x.va 5 0 t0 = some (a, lv) →
          ∃ t, exec (.migrationRequest asid va cls h) s = .next t ∧ t.moves = s.moves ++ [⟨asid, x.va, cls, BitVec.ofNat 64 (moveFrame s x cls)⟩]
            ∧ (∀ j < 64, (rdNat t.mem a 8).testBit j = if j = 5 then true else (rdNat s.mem a 8).testBit j) ∧ ∀ b, (b < a ∨ a + 8 ≤ b) → rdByte t.mem b = rdByte s.mem b)))
    ∧ (∀ asid (va : Word) m x, (s.moves.find? fun m => m.asid = asid && m.va = va.toNat) = some m → walk s asid va.toNat = some x →
      (pageBusy s x = true → exec (.migrationSwitch asid va) s = .next s)
      ∧ (pageBusy s x = false → Memory.wf s.mem = true →
        let src := physKey x.owner.toNat x.peer x.frame
        let dst := physKey m.cls.toNat 0 m.frame.toNat
        let u := copyRange s.mem src dst x.size
        ∀ t0 a lv, rootOf s asid = some t0 → leafFrom u x.va 5 0 t0 = some (a, lv) → ∃ t, exec (.migrationSwitch asid va) s = .next t
          ∧ (∀ i < x.size, (dst + i < a ∨ a + 8 ≤ dst + i) → rdByte t.mem (dst + i) = rdByte s.mem (src + i))
          ∧ (∀ b, (b < dst ∨ dst + x.size ≤ b) → (b < a ∨ a + 8 ≤ b) → rdByte t.mem b = rdByte s.mem b)
          ∧ fld (rdNat t.mem a 8) 5 1 = 0 ∧ fld (rdNat t.mem a 8) 6 2 = m.cls.toNat ∧ fld (rdNat t.mem a 8) 8 48 = m.frame.toNat / 256 % 2 ^ 48))
    ∧ (∃ t, exec .pageCounterQuery s = .next t ∧ t.pdone = true ∧ t.mem = s.mem
      ∧ (walk s s.pasid.toNat (s.pva.toNat % 2 ^ 57) = none → t.pnopage = true ∧ t.pcnt = 0)
      ∧ ∀ x, walk s s.pasid.toNat (s.pva.toNat % 2 ^ 57) = some x → let p := pageRec s (physKey x.owner.toNat x.peer x.frame) x.size none
          t.pnopage = false ∧ t.pcnt.extractLsb' 0 12 = p.dev ∧ t.pcnt.extractLsb' 12 12 = p.host ∧ t.pcnt.extractLsb' 24 12 = p.peer ∧ t.pcnt.extractLsb' 36 12 = p.cxl
          ∧ t.pcnt.extractLsb' 48 2 = x.owner)
    ∧ (∀ k part ms, let near := fun e : Resource × Nat => e.1 = .core k part ∧ ms ≤ e.2 + 10000
      ((s.corrections.filter fun e => decide (near e)).length < 15 → ∃ t, exec (.softErrorCorrection (.core k part) ms) s = .next t ∧ t = { s with corrections := t.corrections } ∧ (.core k part, ms) ∈ t.corrections)
      ∧ (15 ≤ (s.corrections.filter fun e => decide (near e)).length → ∃ t, exec (.softErrorCorrection (.core k part) ms) s = .next t ∧ k ∈ t.quarantine ∧ t.launches = s.launches))
    ∧ (∀ k part l x addr, s.launch? l = some x → x.st = .running → ∃ t rec, exec (.uncorrectableError (.core k part) [.launch l] addr) s = .next t ∧ k ∈ t.quarantine ∧ t.moves = s.moves
      ∧ t.launch? l = some { x with record := some (addFault x rec) } ∧ rec.extractLsb' 80 16 = 0x12 ∧ rec.extractLsb' 128 64 = addr)
    ∧ (∀ port l x, s.launches = [(l, x)] → x.st = .running → ∃ t, exec (.linkPortFailure port) s = .next t ∧ tget? t.ports port = some 1
      ∧ (x.podmask ≠ 0 ∧ Config.portUsed port x.podmask = true → ∃ rec, t.launch? l = some { x with record := some (addFault x rec) } ∧ rec.extractLsb' 80 16 = 0x12)
      ∧ (x.podmask = 0 ∨ Config.portUsed port x.podmask = false → t.launches = s.launches))
    ∧ ∀ fn k (v : Word), (fn ≠ 0 ∨ 8 ≤ k → exec (.quarantineClear fn k v) s = .next s)
        ∧ (fn = 0 → k < 8 → ∃ t, exec (.quarantineClear fn k v) s = .next t ∧ (∀ c, c ∈ t.quarantine ↔ c ∈ s.quarantine ∧ ¬(c / 64 = k ∧ v.getLsbD (c % 64) = true)) ∧ t.launches = s.launches ∧ t.mem = s.mem)

/-- R87, R185, R229, R230, R408, R412 to R414, R418, R420 to R426, R430, R431, R433: what the host and a debugger do. Boot brings every register to reset and keeps memory; a doorbell is latched; graphs are loaded, triggered and go on node by node; the report shows its nonce and the table as they
stand at GO; only physical function 0 enables a substitution; registers of a control region read back what they keep of a write; an access from outside reads, writes or changes memory; a stop halts and a resume goes on; traces are armed, sampled, popped and written out whole. -/
def Obligations.HostAndDebugEvents : Prop :=
  ∀ s : State,
    (∀ ok, exec (.boot ok) s = .next { State.reset with mem := s.mem, fresh := s.fresh, booted := ok })
    ∧ (∀ v, exec (.doorbellWrite 0 8 v) s = .next { s with notify := ⟨s.notify.bitmap ||| v, BitVec.ofNat 32 (min (s.notify.count.toNat + 1) (2 ^ 32 - 1))⟩ })
    ∧ (∀ off size v, off ≠ 0 ∨ size ≠ 8 → exec (.doorbellWrite off size v) s = .next s)
    ∧ (∀ n owner nodes, (n < 64 → nodes.length ≤ 256 → owner ≤ 64 → (∀ g, tget? s.graphs n = some g → g.running = false) → nodes.all (nodeOk nodes.length) = true →
        exec (.graphLoad n owner nodes) s = .next { s with graphs := tset s.graphs n ⟨owner, nodes, false, false, 0, [], false⟩ })
      ∧ (64 ≤ n ∨ 256 < nodes.length ∨ (∃ g, tget? s.graphs n = some g ∧ g.running = true) → exec (.graphLoad n owner nodes) s = .next s))
    ∧ (∀ n g, tget? s.graphs n = some g →
      let at' := fun (u : State) (x : Graph) => enterNode { u with graphs := tset s.graphs n x } n
      let on := fun u pos => at' u { g with pos := pos }
      (∀ fn (v : Word), (v.getLsbD 0 = false ∨ (fn ≠ 0 ∧ fn ≠ g.owner) → exec (.graphTrigger fn n v) s = .next s)
        ∧ (v.getLsbD 0 = true → fn = 0 ∨ fn = g.owner →
          (g.running = true → exec (.graphTrigger fn n v) s = .next { s with graphs := tset s.graphs n { g with pending := true } })
          ∧ (g.running = false → exec (.graphTrigger fn n v) s = .next (at' s { g with running := true, pending := false, pos := 0, counts := [] }))))
      ∧ (g.again = true → exec (.graphRerun n) s = .next (at' s { g with again := false })) ∧ (g.again = false → exec (.graphRerun n) s = .next s)
      ∧ (g.running = true → g.again = false →
        (∀ bit, g.nodes[g.pos]? = some (.signal bit) → bit < 64 → exec (.graphNodeComplete n) s =
          .next (on { s with notify := ⟨s.notify.bitmap ||| (1 <<< bit), BitVec.ofNat 32 (min (s.notify.count.toNat + 1) (2 ^ 32 - 1))⟩ } (g.pos + 1)))
        ∧ (∀ a target, g.nodes[g.pos]? = some (.cond a target) → exec (.graphNodeComplete n) s = .next (on s (if rdWord s.mem (lpddr a.toNat) = 0 then target else g.pos + 1)))
        ∧ (∀ dst src len, g.nodes[g.pos]? = some (.copy dst src len) → ∃ m, exec (.graphNodeComplete n) s = .next (on { s with mem := m } (g.pos + 1))
            ∧ ∀ b, rdByte m b = if lpddr dst.toNat ≤ b ∧ b < lpddr dst.toNat + len then rdByte s.mem (lpddr src.toNat + (b - lpddr dst.toNat)) else rdByte s.mem b)
        ∧ (∀ count back, g.nodes[g.pos]? = some (.loop count back) → let k := tget 0 g.counts g.pos + 1
            (k < count → exec (.graphNodeComplete n) s = .next (at' s { g with pos := back, counts := tset g.counts g.pos k }))
            ∧ (count ≤ k → exec (.graphNodeComplete n) s = .next (at' s { g with pos := g.pos + 1, counts := terase g.counts g.pos }))))
      ∧ (g.nodes[g.pos]? = none → g.pending = true → enterNode s n =
          { s with graphs := tset s.graphs n { g with pending := false, pos := 0, counts := [], again := true }, agenda := s.agenda ++ [.event (.graphRerun n)] })
      ∧ (g.nodes[g.pos]? = none → g.pending = false → enterNode s n = { s with graphs := tset s.graphs n { g with running := false, pos := 0, counts := [] } })
      ∧ ∀ y, g.nodes[g.pos]? = some y → (∀ e, y ≠ .launch e) → enterNode s n = { s with later := s.later ++ [.event (.graphNodeComplete n)] })
    ∧ (∀ fn (v : Word), fn ≤ 64 → v.getLsbD 0 = true → (s.func fn).abusy = false → ∃ t, exec (.registerWrite fn 0x6030 v) s = .next t ∧ (t.func fn).adone = false ∧ (t.func fn).abusy = true
      ∧ (t.func fn).report.length = 256 ∧ (t.func fn).report.take 48 = leBytes 48 (s.func fn).nonce.toNat ∧ (t.func fn).report.take 160 = reportBody s (s.func fn).nonce
      ∧ t.agenda = s.agenda ++ [.event (.attestationRequest fn)] ∧ t.mem = s.mem)
    ∧ (∀ fn, ∃ t, exec (.attestationRequest fn) s = .next t ∧ (t.func fn).adone = true ∧ (t.func fn).abusy = false
      ∧ ((s.func fn).abusy = true → (t.func fn).report = (s.func fn).report)
      ∧ t.mem = s.mem)
    ∧ (∀ fn n (v : Word), (fn ≠ 0 → exec (.substitutionEnWrite fn n v) s = .next s)
      ∧ (fn = 0 → n < 1024 → ∃ t, exec (.substitutionEnWrite fn n v) s = .next t ∧ (subEnabled t n = (v.getLsbD 1 && entryPresent n)) ∧ ∀ k, k ≠ n → subEnabled t k = subEnabled s k))
    ∧ (∀ i mhz g, exec (.islandClockChange i mhz g) s = .next (if i < 256 ∧ 600 ≤ mhz ∧ mhz ≤ 1800 then { s with islands := tset s.islands i (mhz, g) } else s))
    ∧ (∀ core off v, exec (.shadowContainerWrite core false off v) s = .next s
      ∧ (0 < (s.core core).shadowLen → ∃ t, exec (.shadowContainerWrite core true off v) s = .next t ∧ (t.core core).shadowLen = max (s.core core).shadowLen (off + 8)
        ∧ ∀ b, rdByte (t.core core).shadowBytes b = if off ≤ b ∧ b < off + 8 then v.extractLsb' (8 * (b - off)) 8 else rdByte (s.core core).shadowBytes b))
    ∧ (∀ fn (v : Word), fn ≤ 64 → let after := fun off => ∃ t, exec (.registerWrite fn off v) s = .next t ∧ t.mem = s.mem ∧ readControl t fn off =
          (if off / 32 < 24 ∧ off % 32 = 0 then v &&& ~~~127 else if off / 32 < 24 ∧ off % 32 = 8 then v else if off / 32 < 24 then v &&& 0xFFFF else v &&& 0x00FFFFFFFFFFF001)
      (∀ n < 16, after (0x100 + 32 * n) ∧ after (0x108 + 32 * n) ∧ after (0x118 + 32 * n) ∧ exec (.registerWrite fn (0x110 + 32 * n) v) s = .next s)
      ∧ (∀ n < 256, after (0x1000 + 16 * n))
      ∧ (fn ≠ 0 → ∀ off, 0x4000 ≤ off → off < 0x5080 → exec (.registerWrite fn off v) s = .next s ∧ readControl s fn off = 0)
      ∧ (fn = 0 → 100 ≤ v.toNat → v.toNat ≤ 1000000 → exec (.registerWrite 0 0x4000 v) s = .next { s with epoch := v }))
    ∧ (∀ src addr op, fwdOut s src = true → exec (.forwardedAccess src addr op) s = .next s)
    ∧ (∀ src addr n, ∃ t, exec (.forwardedAccess src addr (.read n)) s = .next t ∧ t = { s with pages := t.pages })
    ∧ (∀ addr bs, unmapsMoving s (lpddr addr) bs = true → exec (.forwardedAccess .host addr (.write bs)) s = .next { s with later := s.later ++ [.event (.forwardedAccess .host addr (.write bs))] })
    ∧ (∀ src addr bs, fwdOut s src = false → (src = .host → unmapsMoving s (lpddr addr) bs = false) → ∃ t, exec (.forwardedAccess src addr (.write bs)) s = .next t ∧ ∀ b, rdByte t.mem b =
        if lpddr addr ≤ b ∧ b < lpddr addr + bs.length then bs.getD (b - lpddr addr) 0 else rdByte s.mem b)
    ∧ (∀ src addr v e, fwdOut s src = false → ∃ t, exec (.forwardedAccess src addr (.atomic .add true v e)) s = .next t ∧ rdNat t.mem (lpddr addr) 8 = (rdNat s.mem (lpddr addr) 8 + v.toNat) % 2 ^ 64
      ∧ ∀ b, (b < lpddr addr ∨ lpddr addr + 8 ≤ b) → rdByte t.mem b = rdByte s.mem b)
    ∧ (∀ core l x, holderOf s core = some (l, x) →
      (x.st = .running → exec (.stopreq core) s = .next (s.setLaunch l { x with st := .halting, haltAt := s.cycle, dbg := true }))
      ∧ (x.st = .halting → x.dbg = true → ∃ t, exec (.resume core) s = .next t ∧ t.launch? l = some { x with st := .running, dbg := false } ∧ t.mem = s.mem)
      ∧ (x.st = .stopped → launchRefusal s x = none → ∃ t, exec (.resume core) s = .next t ∧ (t.launch? l).map (·.st) = some .running)
      ∧ (x.st = .running → (s.core core).sampEn = true → (s.core core).trunc = false → traceLen (s.core core) + 9 ≤ 64 → ∃ t us, exec (.traceSample core) s = .next t
        ∧ (t.core core).tfifo = (s.core core).tfifo ++ [(false, us)] ∧ us.length = 9 ∧ (us.getD 0 0).extractLsb' 0 64 = BitVec.ofNat 64 (s.cycle - x.start)
        ∧ ∀ i < 16, (us.getD ((i + 1) / 2) 0).extractLsb' (64 * ((i + 1) % 2)) 32 = (s.thr (mainOf (16 * core + i))).regs.pc.extractLsb' 0 32))
    ∧ ∀ core, let k := s.core core
        (k.armed = true → exec (.arm core) s = .next s)
        ∧ (k.armed = false → exec (.arm core) s = .next (s.setCore core { k with armed := true, twptr := 0, trunc := false, full := false }))
        ∧ (∀ wt u us rest, k.tfifo = (wt, u :: us) :: rest → exec (.tfifoPop core) s =
            .next (s.setCore core { k with tfifoHalf := false, tfifo := if us = [] then rest else (wt, us) :: rest }))
        ∧ (∀ wt rec rest, k.tfifo = (wt, rec) :: rest → k.armed = true → k.tfifoHalf = false →
          let n := 16 * rec.length
          let ps := bufferPlaces s core (k.tbase.toNat / 4096 * 4096 + k.twptr) n
          (k.twptr + n ≤ k.tsize.toNat → ∀ l, ps = some l → l.Nodup → ∃ t, exec (.traceBufferWrite core) s = .next t ∧ (t.core core) = { k with tfifo := rest, twptr := k.twptr + n }
            ∧ (∀ i a, l[i]? = some a → rdByte t.mem a = (rec.flatMap fun u => leBytes 16 u.toNat).getD i 0) ∧ ∀ b, b ∉ l → rdByte t.mem b = rdByte s.mem b)
          ∧ (k.tsize.toNat < k.twptr + n ∨ ps = none → ∃ t, exec (.traceBufferWrite core) s = .next t ∧ (t.core core).tfifo = rest ∧ (t.core core).full = true
              ∧ (t.core core).twptr = k.twptr ∧ t.mem = s.mem))

/-! ## Reset, decoding, the step -/

/-- R16, R40, R112, R204, R319, R414, R424: the machine after reset. No launch, no loaded resident, no running context; every control register of a context zero, both `EVARM` defaults set, a weight of 8, the drain scale 1.0; the migration policy at the values of R414; memory lists nothing and
reads zero (log entry 2: the model's choice), registers without a reset value read zero (log entry 3: the model's choice). One step from there is the end of a cycle in which nothing was due. -/
def Obligations.ResetValues : Prop :=
  let s := State.reset
  Memory.wf s.mem = true ∧ (∀ a, rdByte s.mem a = 0) ∧ s.launches = [] ∧ s.booted = false ∧ s.agenda = []
  ∧ (∀ w, let c := s.ctx w
      c.run = .empty ∧ c.status = 0 ∧ c.cause = 0 ∧ c.epc = 0 ∧ c.eupc = 0 ∧ c.handler = false ∧ c.evarm = 3 ∧ c.nLoads = 0 ∧ c.nStores = 0 ∧ c.nCopies = 0 ∧ c.nTiles = 0 ∧ c.cursor = 0)
  ∧ (∀ t, let r := (s.thr t).regs
      r.loops = [] ∧ r.links = [] ∧ r.wb = 0 ∧ r.fs = 0 ∧ r.pend = [] ∧ r.rrbV = 0 ∧ r.rrbP = 0 ∧ r.sread 7 = 0)
  ∧ (∀ k, let x := s.res k
      x.loaded = false ∧ x.weight = 8 ∧ x.dscale = ⟨0, 0x3F800000⟩ ∧ x.dbias = ⟨0, 0⟩ ∧ x.evq = [] ∧ x.rpq = [])
  ∧ readControl s 0 0x4000 = 1000 ∧ readControl s 0 0x4008 = 512 ∧ readControl s 0 0x4010 = 256 ∧ readControl s 0 0x4018 = 2 ∧ (∀ k < 8, readControl s 0 (0x5000 + 8 * k) = 0)
  ∧ s.notify = ⟨0, 0⟩ ∧ s.fw.mode = 3 ∧ ∃ t, step s = .next t ∧ t.cycle = 1 ∧ t.mem = [] ∧ t.launches = [] ∧ t.threads = []

/-- R48 to R65, R419: decoding and encoding agree, in both directions. The words of every well-formed instruction that has words decode to it, with every operand at every value that the encoding admits; and words that decode are the words of the instruction that they decode to, which is well formed. A firmware
instruction is the same in its one word. -/
def Obligations.EncodeDecodeRoundTrip : Prop :=
  (∀ i : Instr, i.WellFormed → i.hasWords = true → i.isFirmware = false → decodeWords (encode i) = .ok i ∧ decodeBytes ((encode i).flatMap bytesOfWord) = .ok i)
  ∧ (∀ i : Instr, i.isFirmware = true → ∃ w, encode i = [w] ∧ decodeFirmware w = some i)
  ∧ (∀ ws i, decodeWords ws = .ok i → i.WellFormed ∧ i.isFirmware = false ∧ encode i = ws.take (wordCount (ws.headD 0)))
  ∧ ∀ w i, decodeFirmware w = some i → i.isFirmware = true ∧ encode i = [w]

/-- Words of the manual's own examples, family by family, and what they stand for. -/
def Obligations.WordsDecode : Prop :=
  decodeWord 0x04A2AB00 = .ok (.add false 20 21 22) ∧ decodeWord 0x04B2AA02 = .ok (.mul false 22 21 20) ∧ decodeWord 0x08AA8003 = .ok (.addImm false 21 20 3)
  ∧ decodeWord 0x0AB2C001 = .ok (.addImm true 22 22 1) ∧ decodeWord 0x1CB2C030 = .ok (.shlImm false 22 22 48) ∧ decodeWord 0x380AE000 = .ok (.cmpImm false 1 23 .eq 0)
  ∧ decodeWord 0x40F3F021 = .ok (.fmul false 30 31 32 .rup) ∧ decodeWord 0x44F3F000 = .ok (.ffma false 30 31 32 .rne) ∧ decodeWord 0x48A2A011 = .ok (.fcvt false 20 21 .rtz .f32 .i32)
  ∧ decodeWord 0x4C028A81 = .ok (.xmac false 0 20 21) ∧ decodeWord 0x4CB00003 = .ok (.xrnd false 22 0 .rne)
  ∧ decodeWord 0x60B82043 = .ok (.ld false 23 1 8 .d) ∧ decodeWord 0x64A2A012 = .ok (.st false 20 21 2 .w) ∧ decodeWord 0x68A2AB79 = .ok (.amo false 20 21 22 .cas .die true)
  ∧ decodeWord 0x6CA2A013 = .ok (.spl false 20 21 2 .d) ∧ decodeWord 0x76000000 = .ok (.mark true) ∧ decodeWord 0x80228011 = .ok (.vld false 4 20 2 .f32)
  ∧ decodeWord 0x8830_82F2 = .ok (.vshf false 6 4 5 .sra) ∧ decodeWord 0x900882C2 = .ok (.vcmp false 1 4 5 .i32 .lt) ∧ decodeWord 0xA0C10880 = .ok (.vext false 24 8 17)
  ∧ decodeWord 0xC0C00005 = .ok (.prep false 3 5) ∧ decodeWord 0xC4500003 = .ok (.xfer false 2 true 3) ∧ decodeWord 0xC8000302 = .ok (.loopImm false 3 2) ∧ decodeWord 0xC9500002 = .ok (.loopReg false 20 2)
  ∧ decodeWord 0xD0000100 = .ok (.call false 2) ∧ decodeWord 0xD0000202 = .ok (.enter false 4) ∧ decodeWord 0xD4000280 = .ok (.trap false 5) ∧ decodeWord 0xDA182100 = .ok (.semsig true 3 1 2)
  ∧ decodeWord 0xDC100001 = .ok (.mtxrel false 2) ∧ decodeWord 0xE0000700 = .ok (.fork false 0xE) ∧ decodeWord 0xE407FFFE = .ok (.waitc false 0 63 63 63) ∧ decodeWord 0xE8000301 = .ok (.qfence false 6)
  ∧ decodeWord 0xF0A00900 = .ok (.csrr false 20 0x012) ∧ decodeWord 0xF0A2A086 = .ok (.tnext false 20 21 1) ∧ decodeWord 0xF8000001 = .ok (.rret false)
  ∧ decodeWords [0xFC801300, 0x00000016, 0x00000014, 0x00000015] = .ok (.rcall false 0x1002 false 0 [.s 22, .s 20, .s 21])
  ∧ decodeWords [0xFC000300, 0x10000005, 0x10000004, 0x90000006] = .ok (.vcvt false 5 4 6)
  ∧ decodeWords [0xFC018500, 0x00000018, 0x00000019, 0x10000005, 0x00000016, 0x90000001] = .ok (.vnormst false 24 25 5 22 1)
  ∧ decodeWords [0xFC031300, 0x30000001, 0x30000000, 0x00000014] = .ok (.spprune false 1 0 20) ∧ decodeWords [0xFC050200, 0x00000016, 0x00000014] = .ok (.tmmul false 22 20)
  ∧ decodeFirmware 0x0005A50B = some (.sigw 10 11) ∧ decodeFirmware 0x0005B50B = some (.disp 10 11)
  ∧ (∃ e, decodeWord 0x04000010 = .error e)

/-- R19, R48, R60, R64, R111, R221, R363, R419: a step runs the decoded instruction. What a stream's turn fetches is the instruction that the words at its program counter decode to, from addresses whose translation grants EX; the step is `exec` of it, at the state that the fetch leaves. Words that
decode to nothing make the ILL of their encoding, a fetch that faults ends the launch, a landing that was dropped traps first. A controller and a tile resident run the tile instruction in hand. A firmware core takes an interrupt or runs the word at its own program counter, one of its four instructions or one of RV64 (log entry 4). An act of the device is `exec` of its row. -/
def Obligations.StepRunsDecoded : Prop :=
  ∀ s : State,
    (∀ t rest, s.agenda = .issue t :: rest →
      let v := { s with agenda := rest, cur := t }
      (∀ p, v.cthr.landTrap = some p → v.cthr.wait = none → step s = .next (takeTrap (v.setCthr { v.cthr with landTrap := none }) { cls := 4, arg := p }))
      ∧ (v.cthr.landTrap = none → isController v.w = false → isTileRes v.w = false →
        (∀ i u, fetch v = (.ok i, u) → step s = exec i u) ∧ (∀ w u, fetch v = (.reserved w, u) → step s = exec (.reservedEncoding w) u)
        ∧ ∀ cls a u, fetch v = (.fault cls a, u) → step s = .next (fatalStrand u 0x3FFF cls a))
      ∧ (v.cthr.landTrap = none → (isController v.w = true ∨ isTileRes v.w = true) → ∀ i k, (k, i) ∈ [(0xA0, Instr.tmmul false 17 16), (0xA1, .tspmul false 17 16), (0xA2, .tewise false 17 16), (0xA3, .tred false 17 16), (0xA4, .tcopy false 17 16), (0xA5, .tattn false 17 16)] →
          (Tcb.of (v.node (tileSeat v v.w)).tcb).op = k → step s = exec i v))
    ∧ (isCore (nodeOf s.w) = true →
      let ag := strandAg s s.w
      let a : Word := s.regs.pc &&& ~~~3
      (∀ w x, (∀ y ∈ (s.core (nodeOf s.w)).tlb, y.covers ag.asid a.toNat = false) → a.toNat < 2 ^ 56 → walk s ag.asid a.toNat = some x → wordCount w = 1 →
        rdNat s.mem (x.place a.toNat) 4 = w.toNat → ∃ u, u = { s with cores := u.cores }
          ∧ fetch s = (if x.ex then (match decodeWords [w] with | .ok i => .ok i | .error _ => .reserved w) else .fault 0x11 a, u))
      ∧ (∀ ws x, ws ≠ [] → ws.length = wordCount (ws.headD 0) → a.toNat + 4 * ws.length ≤ 2 ^ 56 → x.ex = true →
        (∀ k < ws.length, (s.core (nodeOf s.w)).tlb.find? (fun y => y.covers ag.asid (a.toNat + 4 * k)) = some x ∧ rdNat s.mem (x.place (a.toNat + 4 * k)) 4 = (ws.getD k 0).toNat) →
        ∃ u, u = { s with cores := u.cores } ∧ fetch s = (match decodeWords ws with | .ok i => .ok i | .error _ => .reserved (ws.headD 0), u))
      ∧ ((∀ y ∈ (s.core (nodeOf s.w)).tlb, y.covers ag.asid a.toNat = false) → walk s ag.asid a.toNat = none → ∃ u, fetch s = (.fault 0x10 a, u)))
    ∧ (∀ rest k toS, s.agenda = .firmware :: rest → rvInterrupt s = some (k, toS) → step s = .next (fwEnter { s with agenda := rest } toS true k 0))
    ∧ (∀ rest, s.agenda = .firmware :: rest → rvInterrupt s = none → s.fw.pc.toNat + 4 ≤ 2 ^ 64 →
      let w : W32 := BitVec.ofNat 32 (rdNat s.fw.mem s.fw.pc.toNat 4)
      (∀ i, decodeFirmware w = some i → step s = exec i { s with agenda := rest })
      ∧ (decodeFirmware w = none → step s = .next (rvExec w { s with agenda := rest }) ∧ (w.extractLsb' 0 7 = 0x0B → step s = .next (fwTrap { s with agenda := rest } 2))))
    ∧ (∀ e i rest, s.agenda = .event e :: rest → e.StandsFor i → step s = exec i { s with agenda := rest })
    ∧ (s.agenda = [] → ∃ t, step s = .next t ∧ t.mem = s.mem ∧ t.threads = s.threads ∧ t.launches = s.launches)

/-- Every step keeps memory in its canonical form: addresses rising, no byte listed that reads as an unlisted one. -/
def Obligations.StepKeepsMemoryCanonical : Prop :=
  ∀ s t : State, Memory.wf s.mem = true → step s = .next t → Memory.wf t.mem = true

end
end

