-- ==== Sys2Proof/Laws/Tab.lean ====
section
/-! SUPPORT. Tables by key: a read after a write sees the value written at that key and what stood before at every other. -/

namespace Sys2Proof.Machine

section
variable {α : Type}

@[simp] theorem tget_nil (d : α) (k : Nat) : tget d [] k = d := rfl
@[simp] theorem tget?_nil (k : Nat) : tget? ([] : Tab α) k = none := rfl

theorem tget_eq_getD (d : α) (t : Tab α) (k : Nat) : tget d t k = (tget? t k).getD d := by
  induction t with
  | nil => rfl
  | cons c t ih => simp only [tget, tget?]; split <;> simp [ih]

@[simp] theorem tget?_tset_same (t : Tab α) (k : Nat) (v : α) : tget? (tset t k v) k = some v := by
  induction t with
  | nil => simp [tset, tget?]
  | cons c t ih =>
    simp only [tset]
    split
    · simp [tget?]
    · split
      · simp [tget?]
      · simp [tget?, *]

theorem tget?_tset_ne (t : Tab α) (k j : Nat) (v : α) (h : j ≠ k) : tget? (tset t k v) j = tget? t j := by
  induction t with
  | nil => simp [tset, tget?, h]
  | cons c t ih =>
    simp only [tset]
    split
    · simp [tget?, h]
    · split
      · rename_i e; simp [tget?, h, ← e]
      · simp [tget?, ih]

@[simp] theorem tget_tset_same (d : α) (t : Tab α) (k : Nat) (v : α) : tget d (tset t k v) k = v := by
  simp [tget_eq_getD]

theorem tget_tset_ne (d : α) (t : Tab α) (k j : Nat) (v : α) (h : j ≠ k) : tget d (tset t k v) j = tget d t j := by
  simp [tget_eq_getD, tget?_tset_ne _ _ _ _ h]

theorem tget?_terase (t : Tab α) (k j : Nat) : tget? (terase t k) j = if j = k then none else tget? t j := by
  induction t with
  | nil => simp [terase, tget?]
  | cons c t ih =>
    simp only [terase] at ih ⊢
    rw [List.filter_cons]
    split
    · rename_i h; simp only [tget?, ih]; split <;> simp_all
    · rename_i h; simp only [tget?, ih]; split <;> simp_all

theorem tget_terase (d : α) (t : Tab α) (k j : Nat) : tget d (terase t k) j = if j = k then d else tget d t j := by
  simp only [tget_eq_getD, tget?_terase]; split <;> rfl

/-- A table whose values change where `p` holds of their key. -/
theorem tget?_tmapIf (p : Nat → Bool) (f : Nat → α → α) (t : Tab α) (k : Nat) :
    tget? (tmapIf p f t) k = if p k then (tget? t k).map (f k) else tget? t k := by
  induction t with
  | nil => simp [tmapIf, tget?]
  | cons c t ih =>
    simp only [tmapIf, List.map_cons] at ih ⊢
    simp only [tget?]
    by_cases hp : p c.1 <;> simp only [hp, if_true, Bool.false_eq_true, if_false] <;> by_cases hk : k = c.1 <;> simp_all

end

end Sys2Proof.Machine
end

