-- ==== Sys2Proof/Laws/State.lean ====
section
/-! SUPPORT. The record updates of State by key: for each, one equation per field, and what the reads by key see after it. -/

namespace Sys2Proof.Machine

/-! ## setCtx -/

section setCtx
variable (s : State) (k : Nat) (x : Ctx)

@[simp] theorem State.setCtx_mem : (s.setCtx k x).mem = s.mem := rfl
@[simp] theorem State.setCtx_threads : (s.setCtx k x).threads = s.threads := rfl
@[simp] theorem State.setCtx_ctxs : (s.setCtx k x).ctxs = tset s.ctxs k x := rfl
@[simp] theorem State.setCtx_residents : (s.setCtx k x).residents = s.residents := rfl
@[simp] theorem State.setCtx_cores : (s.setCtx k x).cores = s.cores := rfl
@[simp] theorem State.setCtx_nodes : (s.setCtx k x).nodes = s.nodes := rfl
@[simp] theorem State.setCtx_shadow : (s.setCtx k x).shadow = s.shadow := rfl
@[simp] theorem State.setCtx_launches : (s.setCtx k x).launches = s.launches := rfl
@[simp] theorem State.setCtx_nextLaunch : (s.setCtx k x).nextLaunch = s.nextLaunch := rfl
@[simp] theorem State.setCtx_quarantine : (s.setCtx k x).quarantine = s.quarantine := rfl
@[simp] theorem State.setCtx_quadQuar : (s.setCtx k x).quadQuar = s.quadQuar := rfl
@[simp] theorem State.setCtx_stackQuar : (s.setCtx k x).stackQuar = s.stackQuar := rfl
@[simp] theorem State.setCtx_portQuar : (s.setCtx k x).portQuar = s.portQuar := rfl
@[simp] theorem State.setCtx_corrections : (s.setCtx k x).corrections = s.corrections := rfl
@[simp] theorem State.setCtx_roots : (s.setCtx k x).roots = s.roots := rfl
@[simp] theorem State.setCtx_funcs : (s.setCtx k x).funcs = s.funcs := rfl
@[simp] theorem State.setCtx_epoch : (s.setCtx k x).epoch = s.epoch := rfl
@[simp] theorem State.setCtx_tmove : (s.setCtx k x).tmove = s.tmove := rfl
@[simp] theorem State.setCtx_tmargin : (s.setCtx k x).tmargin = s.tmargin := rfl
@[simp] theorem State.setCtx_hyst : (s.setCtx k x).hyst = s.hyst := rfl
@[simp] theorem State.setCtx_epochNo : (s.setCtx k x).epochNo = s.epochNo := rfl
@[simp] theorem State.setCtx_pages : (s.setCtx k x).pages = s.pages := rfl
@[simp] theorem State.setCtx_moves : (s.setCtx k x).moves = s.moves := rfl
@[simp] theorem State.setCtx_pasid : (s.setCtx k x).pasid = s.pasid := rfl
@[simp] theorem State.setCtx_pva : (s.setCtx k x).pva = s.pva := rfl
@[simp] theorem State.setCtx_pdone : (s.setCtx k x).pdone = s.pdone := rfl
@[simp] theorem State.setCtx_pnopage : (s.setCtx k x).pnopage = s.pnopage := rfl
@[simp] theorem State.setCtx_pcnt : (s.setCtx k x).pcnt = s.pcnt := rfl
@[simp] theorem State.setCtx_subDis : (s.setCtx k x).subDis = s.subDis := rfl
@[simp] theorem State.setCtx_notify : (s.setCtx k x).notify = s.notify := rfl
@[simp] theorem State.setCtx_fw : (s.setCtx k x).fw = s.fw := rfl
@[simp] theorem State.setCtx_graphs : (s.setCtx k x).graphs = s.graphs := rfl
@[simp] theorem State.setCtx_islands : (s.setCtx k x).islands = s.islands := rfl
@[simp] theorem State.setCtx_ports : (s.setCtx k x).ports = s.ports := rfl
@[simp] theorem State.setCtx_msix : (s.setCtx k x).msix = s.msix := rfl
@[simp] theorem State.setCtx_links : (s.setCtx k x).links = s.links := rfl
@[simp] theorem State.setCtx_booted : (s.setCtx k x).booted = s.booted := rfl
@[simp] theorem State.setCtx_cycle : (s.setCtx k x).cycle = s.cycle := rfl
@[simp] theorem State.setCtx_cur : (s.setCtx k x).cur = s.cur := rfl
@[simp] theorem State.setCtx_turn : (s.setCtx k x).turn = s.turn := rfl
@[simp] theorem State.setCtx_agenda : (s.setCtx k x).agenda = s.agenda := rfl
@[simp] theorem State.setCtx_later : (s.setCtx k x).later = s.later := rfl
@[simp] theorem State.setCtx_fresh : (s.setCtx k x).fresh = s.fresh := rfl

end setCtx

/-! ## setThr -/

section setThr
variable (s : State) (k : Nat) (x : Thread)

@[simp] theorem State.setThr_mem : (s.setThr k x).mem = s.mem := rfl
@[simp] theorem State.setThr_threads : (s.setThr k x).threads = tset s.threads k x := rfl
@[simp] theorem State.setThr_ctxs : (s.setThr k x).ctxs = s.ctxs := rfl
@[simp] theorem State.setThr_residents : (s.setThr k x).residents = s.residents := rfl
@[simp] theorem State.setThr_cores : (s.setThr k x).cores = s.cores := rfl
@[simp] theorem State.setThr_nodes : (s.setThr k x).nodes = s.nodes := rfl
@[simp] theorem State.setThr_shadow : (s.setThr k x).shadow = s.shadow := rfl
@[simp] theorem State.setThr_launches : (s.setThr k x).launches = s.launches := rfl
@[simp] theorem State.setThr_nextLaunch : (s.setThr k x).nextLaunch = s.nextLaunch := rfl
@[simp] theorem State.setThr_quarantine : (s.setThr k x).quarantine = s.quarantine := rfl
@[simp] theorem State.setThr_quadQuar : (s.setThr k x).quadQuar = s.quadQuar := rfl
@[simp] theorem State.setThr_stackQuar : (s.setThr k x).stackQuar = s.stackQuar := rfl
@[simp] theorem State.setThr_portQuar : (s.setThr k x).portQuar = s.portQuar := rfl
@[simp] theorem State.setThr_corrections : (s.setThr k x).corrections = s.corrections := rfl
@[simp] theorem State.setThr_roots : (s.setThr k x).roots = s.roots := rfl
@[simp] theorem State.setThr_funcs : (s.setThr k x).funcs = s.funcs := rfl
@[simp] theorem State.setThr_epoch : (s.setThr k x).epoch = s.epoch := rfl
@[simp] theorem State.setThr_tmove : (s.setThr k x).tmove = s.tmove := rfl
@[simp] theorem State.setThr_tmargin : (s.setThr k x).tmargin = s.tmargin := rfl
@[simp] theorem State.setThr_hyst : (s.setThr k x).hyst = s.hyst := rfl
@[simp] theorem State.setThr_epochNo : (s.setThr k x).epochNo = s.epochNo := rfl
@[simp] theorem State.setThr_pages : (s.setThr k x).pages = s.pages := rfl
@[simp] theorem State.setThr_moves : (s.setThr k x).moves = s.moves := rfl
@[simp] theorem State.setThr_pasid : (s.setThr k x).pasid = s.pasid := rfl
@[simp] theorem State.setThr_pva : (s.setThr k x).pva = s.pva := rfl
@[simp] theorem State.setThr_pdone : (s.setThr k x).pdone = s.pdone := rfl
@[simp] theorem State.setThr_pnopage : (s.setThr k x).pnopage = s.pnopage := rfl
@[simp] theorem State.setThr_pcnt : (s.setThr k x).pcnt = s.pcnt := rfl
@[simp] theorem State.setThr_subDis : (s.setThr k x).subDis = s.subDis := rfl
@[simp] theorem State.setThr_notify : (s.setThr k x).notify = s.notify := rfl
@[simp] theorem State.setThr_fw : (s.setThr k x).fw = s.fw := rfl
@[simp] theorem State.setThr_graphs : (s.setThr k x).graphs = s.graphs := rfl
@[simp] theorem State.setThr_islands : (s.setThr k x).islands = s.islands := rfl
@[simp] theorem State.setThr_ports : (s.setThr k x).ports = s.ports := rfl
@[simp] theorem State.setThr_msix : (s.setThr k x).msix = s.msix := rfl
@[simp] theorem State.setThr_links : (s.setThr k x).links = s.links := rfl
@[simp] theorem State.setThr_booted : (s.setThr k x).booted = s.booted := rfl
@[simp] theorem State.setThr_cycle : (s.setThr k x).cycle = s.cycle := rfl
@[simp] theorem State.setThr_cur : (s.setThr k x).cur = s.cur := rfl
@[simp] theorem State.setThr_turn : (s.setThr k x).turn = s.turn := rfl
@[simp] theorem State.setThr_agenda : (s.setThr k x).agenda = s.agenda := rfl
@[simp] theorem State.setThr_later : (s.setThr k x).later = s.later := rfl
@[simp] theorem State.setThr_fresh : (s.setThr k x).fresh = s.fresh := rfl

end setThr

/-! ## setRes -/

section setRes
variable (s : State) (k : Nat) (x : Res)

@[simp] theorem State.setRes_mem : (s.setRes k x).mem = s.mem := rfl
@[simp] theorem State.setRes_threads : (s.setRes k x).threads = s.threads := rfl
@[simp] theorem State.setRes_ctxs : (s.setRes k x).ctxs = s.ctxs := rfl
@[simp] theorem State.setRes_residents : (s.setRes k x).residents = tset s.residents k x := rfl
@[simp] theorem State.setRes_cores : (s.setRes k x).cores = s.cores := rfl
@[simp] theorem State.setRes_nodes : (s.setRes k x).nodes = s.nodes := rfl
@[simp] theorem State.setRes_shadow : (s.setRes k x).shadow = s.shadow := rfl
@[simp] theorem State.setRes_launches : (s.setRes k x).launches = s.launches := rfl
@[simp] theorem State.setRes_nextLaunch : (s.setRes k x).nextLaunch = s.nextLaunch := rfl
@[simp] theorem State.setRes_quarantine : (s.setRes k x).quarantine = s.quarantine := rfl
@[simp] theorem State.setRes_quadQuar : (s.setRes k x).quadQuar = s.quadQuar := rfl
@[simp] theorem State.setRes_stackQuar : (s.setRes k x).stackQuar = s.stackQuar := rfl
@[simp] theorem State.setRes_portQuar : (s.setRes k x).portQuar = s.portQuar := rfl
@[simp] theorem State.setRes_corrections : (s.setRes k x).corrections = s.corrections := rfl
@[simp] theorem State.setRes_roots : (s.setRes k x).roots = s.roots := rfl
@[simp] theorem State.setRes_funcs : (s.setRes k x).funcs = s.funcs := rfl
@[simp] theorem State.setRes_epoch : (s.setRes k x).epoch = s.epoch := rfl
@[simp] theorem State.setRes_tmove : (s.setRes k x).tmove = s.tmove := rfl
@[simp] theorem State.setRes_tmargin : (s.setRes k x).tmargin = s.tmargin := rfl
@[simp] theorem State.setRes_hyst : (s.setRes k x).hyst = s.hyst := rfl
@[simp] theorem State.setRes_epochNo : (s.setRes k x).epochNo = s.epochNo := rfl
@[simp] theorem State.setRes_pages : (s.setRes k x).pages = s.pages := rfl
@[simp] theorem State.setRes_moves : (s.setRes k x).moves = s.moves := rfl
@[simp] theorem State.setRes_pasid : (s.setRes k x).pasid = s.pasid := rfl
@[simp] theorem State.setRes_pva : (s.setRes k x).pva = s.pva := rfl
@[simp] theorem State.setRes_pdone : (s.setRes k x).pdone = s.pdone := rfl
@[simp] theorem State.setRes_pnopage : (s.setRes k x).pnopage = s.pnopage := rfl
@[simp] theorem State.setRes_pcnt : (s.setRes k x).pcnt = s.pcnt := rfl
@[simp] theorem State.setRes_subDis : (s.setRes k x).subDis = s.subDis := rfl
@[simp] theorem State.setRes_notify : (s.setRes k x).notify = s.notify := rfl
@[simp] theorem State.setRes_fw : (s.setRes k x).fw = s.fw := rfl
@[simp] theorem State.setRes_graphs : (s.setRes k x).graphs = s.graphs := rfl
@[simp] theorem State.setRes_islands : (s.setRes k x).islands = s.islands := rfl
@[simp] theorem State.setRes_ports : (s.setRes k x).ports = s.ports := rfl
@[simp] theorem State.setRes_msix : (s.setRes k x).msix = s.msix := rfl
@[simp] theorem State.setRes_links : (s.setRes k x).links = s.links := rfl
@[simp] theorem State.setRes_booted : (s.setRes k x).booted = s.booted := rfl
@[simp] theorem State.setRes_cycle : (s.setRes k x).cycle = s.cycle := rfl
@[simp] theorem State.setRes_cur : (s.setRes k x).cur = s.cur := rfl
@[simp] theorem State.setRes_turn : (s.setRes k x).turn = s.turn := rfl
@[simp] theorem State.setRes_agenda : (s.setRes k x).agenda = s.agenda := rfl
@[simp] theorem State.setRes_later : (s.setRes k x).later = s.later := rfl
@[simp] theorem State.setRes_fresh : (s.setRes k x).fresh = s.fresh := rfl

end setRes

/-! ## setCore -/

section setCore
variable (s : State) (k : Nat) (x : Core)

@[simp] theorem State.setCore_mem : (s.setCore k x).mem = s.mem := rfl
@[simp] theorem State.setCore_threads : (s.setCore k x).threads = s.threads := rfl
@[simp] theorem State.setCore_ctxs : (s.setCore k x).ctxs = s.ctxs := rfl
@[simp] theorem State.setCore_residents : (s.setCore k x).residents = s.residents := rfl
@[simp] theorem State.setCore_cores : (s.setCore k x).cores = tset s.cores k x := rfl
@[simp] theorem State.setCore_nodes : (s.setCore k x).nodes = s.nodes := rfl
@[simp] theorem State.setCore_shadow : (s.setCore k x).shadow = s.shadow := rfl
@[simp] theorem State.setCore_launches : (s.setCore k x).launches = s.launches := rfl
@[simp] theorem State.setCore_nextLaunch : (s.setCore k x).nextLaunch = s.nextLaunch := rfl
@[simp] theorem State.setCore_quarantine : (s.setCore k x).quarantine = s.quarantine := rfl
@[simp] theorem State.setCore_quadQuar : (s.setCore k x).quadQuar = s.quadQuar := rfl
@[simp] theorem State.setCore_stackQuar : (s.setCore k x).stackQuar = s.stackQuar := rfl
@[simp] theorem State.setCore_portQuar : (s.setCore k x).portQuar = s.portQuar := rfl
@[simp] theorem State.setCore_corrections : (s.setCore k x).corrections = s.corrections := rfl
@[simp] theorem State.setCore_roots : (s.setCore k x).roots = s.roots := rfl
@[simp] theorem State.setCore_funcs : (s.setCore k x).funcs = s.funcs := rfl
@[simp] theorem State.setCore_epoch : (s.setCore k x).epoch = s.epoch := rfl
@[simp] theorem State.setCore_tmove : (s.setCore k x).tmove = s.tmove := rfl
@[simp] theorem State.setCore_tmargin : (s.setCore k x).tmargin = s.tmargin := rfl
@[simp] theorem State.setCore_hyst : (s.setCore k x).hyst = s.hyst := rfl
@[simp] theorem State.setCore_epochNo : (s.setCore k x).epochNo = s.epochNo := rfl
@[simp] theorem State.setCore_pages : (s.setCore k x).pages = s.pages := rfl
@[simp] theorem State.setCore_moves : (s.setCore k x).moves = s.moves := rfl
@[simp] theorem State.setCore_pasid : (s.setCore k x).pasid = s.pasid := rfl
@[simp] theorem State.setCore_pva : (s.setCore k x).pva = s.pva := rfl
@[simp] theorem State.setCore_pdone : (s.setCore k x).pdone = s.pdone := rfl
@[simp] theorem State.setCore_pnopage : (s.setCore k x).pnopage = s.pnopage := rfl
@[simp] theorem State.setCore_pcnt : (s.setCore k x).pcnt = s.pcnt := rfl
@[simp] theorem State.setCore_subDis : (s.setCore k x).subDis = s.subDis := rfl
@[simp] theorem State.setCore_notify : (s.setCore k x).notify = s.notify := rfl
@[simp] theorem State.setCore_fw : (s.setCore k x).fw = s.fw := rfl
@[simp] theorem State.setCore_graphs : (s.setCore k x).graphs = s.graphs := rfl
@[simp] theorem State.setCore_islands : (s.setCore k x).islands = s.islands := rfl
@[simp] theorem State.setCore_ports : (s.setCore k x).ports = s.ports := rfl
@[simp] theorem State.setCore_msix : (s.setCore k x).msix = s.msix := rfl
@[simp] theorem State.setCore_links : (s.setCore k x).links = s.links := rfl
@[simp] theorem State.setCore_booted : (s.setCore k x).booted = s.booted := rfl
@[simp] theorem State.setCore_cycle : (s.setCore k x).cycle = s.cycle := rfl
@[simp] theorem State.setCore_cur : (s.setCore k x).cur = s.cur := rfl
@[simp] theorem State.setCore_turn : (s.setCore k x).turn = s.turn := rfl
@[simp] theorem State.setCore_agenda : (s.setCore k x).agenda = s.agenda := rfl
@[simp] theorem State.setCore_later : (s.setCore k x).later = s.later := rfl
@[simp] theorem State.setCore_fresh : (s.setCore k x).fresh = s.fresh := rfl

end setCore

/-! ## setNode -/

section setNode
variable (s : State) (k : Nat) (x : Node)

@[simp] theorem State.setNode_mem : (s.setNode k x).mem = s.mem := rfl
@[simp] theorem State.setNode_threads : (s.setNode k x).threads = s.threads := rfl
@[simp] theorem State.setNode_ctxs : (s.setNode k x).ctxs = s.ctxs := rfl
@[simp] theorem State.setNode_residents : (s.setNode k x).residents = s.residents := rfl
@[simp] theorem State.setNode_cores : (s.setNode k x).cores = s.cores := rfl
@[simp] theorem State.setNode_nodes : (s.setNode k x).nodes = tset s.nodes k x := rfl
@[simp] theorem State.setNode_shadow : (s.setNode k x).shadow = s.shadow := rfl
@[simp] theorem State.setNode_launches : (s.setNode k x).launches = s.launches := rfl
@[simp] theorem State.setNode_nextLaunch : (s.setNode k x).nextLaunch = s.nextLaunch := rfl
@[simp] theorem State.setNode_quarantine : (s.setNode k x).quarantine = s.quarantine := rfl
@[simp] theorem State.setNode_quadQuar : (s.setNode k x).quadQuar = s.quadQuar := rfl
@[simp] theorem State.setNode_stackQuar : (s.setNode k x).stackQuar = s.stackQuar := rfl
@[simp] theorem State.setNode_portQuar : (s.setNode k x).portQuar = s.portQuar := rfl
@[simp] theorem State.setNode_corrections : (s.setNode k x).corrections = s.corrections := rfl
@[simp] theorem State.setNode_roots : (s.setNode k x).roots = s.roots := rfl
@[simp] theorem State.setNode_funcs : (s.setNode k x).funcs = s.funcs := rfl
@[simp] theorem State.setNode_epoch : (s.setNode k x).epoch = s.epoch := rfl
@[simp] theorem State.setNode_tmove : (s.setNode k x).tmove = s.tmove := rfl
@[simp] theorem State.setNode_tmargin : (s.setNode k x).tmargin = s.tmargin := rfl
@[simp] theorem State.setNode_hyst : (s.setNode k x).hyst = s.hyst := rfl
@[simp] theorem State.setNode_epochNo : (s.setNode k x).epochNo = s.epochNo := rfl
@[simp] theorem State.setNode_pages : (s.setNode k x).pages = s.pages := rfl
@[simp] theorem State.setNode_moves : (s.setNode k x).moves = s.moves := rfl
@[simp] theorem State.setNode_pasid : (s.setNode k x).pasid = s.pasid := rfl
@[simp] theorem State.setNode_pva : (s.setNode k x).pva = s.pva := rfl
@[simp] theorem State.setNode_pdone : (s.setNode k x).pdone = s.pdone := rfl
@[simp] theorem State.setNode_pnopage : (s.setNode k x).pnopage = s.pnopage := rfl
@[simp] theorem State.setNode_pcnt : (s.setNode k x).pcnt = s.pcnt := rfl
@[simp] theorem State.setNode_subDis : (s.setNode k x).subDis = s.subDis := rfl
@[simp] theorem State.setNode_notify : (s.setNode k x).notify = s.notify := rfl
@[simp] theorem State.setNode_fw : (s.setNode k x).fw = s.fw := rfl
@[simp] theorem State.setNode_graphs : (s.setNode k x).graphs = s.graphs := rfl
@[simp] theorem State.setNode_islands : (s.setNode k x).islands = s.islands := rfl
@[simp] theorem State.setNode_ports : (s.setNode k x).ports = s.ports := rfl
@[simp] theorem State.setNode_msix : (s.setNode k x).msix = s.msix := rfl
@[simp] theorem State.setNode_links : (s.setNode k x).links = s.links := rfl
@[simp] theorem State.setNode_booted : (s.setNode k x).booted = s.booted := rfl
@[simp] theorem State.setNode_cycle : (s.setNode k x).cycle = s.cycle := rfl
@[simp] theorem State.setNode_cur : (s.setNode k x).cur = s.cur := rfl
@[simp] theorem State.setNode_turn : (s.setNode k x).turn = s.turn := rfl
@[simp] theorem State.setNode_agenda : (s.setNode k x).agenda = s.agenda := rfl
@[simp] theorem State.setNode_later : (s.setNode k x).later = s.later := rfl
@[simp] theorem State.setNode_fresh : (s.setNode k x).fresh = s.fresh := rfl

end setNode

/-! ## setLaunch -/

section setLaunch
variable (s : State) (k : Nat) (x : Launch)

@[simp] theorem State.setLaunch_mem : (s.setLaunch k x).mem = s.mem := rfl
@[simp] theorem State.setLaunch_threads : (s.setLaunch k x).threads = s.threads := rfl
@[simp] theorem State.setLaunch_ctxs : (s.setLaunch k x).ctxs = s.ctxs := rfl
@[simp] theorem State.setLaunch_residents : (s.setLaunch k x).residents = s.residents := rfl
@[simp] theorem State.setLaunch_cores : (s.setLaunch k x).cores = s.cores := rfl
@[simp] theorem State.setLaunch_nodes : (s.setLaunch k x).nodes = s.nodes := rfl
@[simp] theorem State.setLaunch_shadow : (s.setLaunch k x).shadow = s.shadow := rfl
@[simp] theorem State.setLaunch_launches : (s.setLaunch k x).launches = tset s.launches k x := rfl
@[simp] theorem State.setLaunch_nextLaunch : (s.setLaunch k x).nextLaunch = s.nextLaunch := rfl
@[simp] theorem State.setLaunch_quarantine : (s.setLaunch k x).quarantine = s.quarantine := rfl
@[simp] theorem State.setLaunch_quadQuar : (s.setLaunch k x).quadQuar = s.quadQuar := rfl
@[simp] theorem State.setLaunch_stackQuar : (s.setLaunch k x).stackQuar = s.stackQuar := rfl
@[simp] theorem State.setLaunch_portQuar : (s.setLaunch k x).portQuar = s.portQuar := rfl
@[simp] theorem State.setLaunch_corrections : (s.setLaunch k x).corrections = s.corrections := rfl
@[simp] theorem State.setLaunch_roots : (s.setLaunch k x).roots = s.roots := rfl
@[simp] theorem State.setLaunch_funcs : (s.setLaunch k x).funcs = s.funcs := rfl
@[simp] theorem State.setLaunch_epoch : (s.setLaunch k x).epoch = s.epoch := rfl
@[simp] theorem State.setLaunch_tmove : (s.setLaunch k x).tmove = s.tmove := rfl
@[simp] theorem State.setLaunch_tmargin : (s.setLaunch k x).tmargin = s.tmargin := rfl
@[simp] theorem State.setLaunch_hyst : (s.setLaunch k x).hyst = s.hyst := rfl
@[simp] theorem State.setLaunch_epochNo : (s.setLaunch k x).epochNo = s.epochNo := rfl
@[simp] theorem State.setLaunch_pages : (s.setLaunch k x).pages = s.pages := rfl
@[simp] theorem State.setLaunch_moves : (s.setLaunch k x).moves = s.moves := rfl
@[simp] theorem State.setLaunch_pasid : (s.setLaunch k x).pasid = s.pasid := rfl
@[simp] theorem State.setLaunch_pva : (s.setLaunch k x).pva = s.pva := rfl
@[simp] theorem State.setLaunch_pdone : (s.setLaunch k x).pdone = s.pdone := rfl
@[simp] theorem State.setLaunch_pnopage : (s.setLaunch k x).pnopage = s.pnopage := rfl
@[simp] theorem State.setLaunch_pcnt : (s.setLaunch k x).pcnt = s.pcnt := rfl
@[simp] theorem State.setLaunch_subDis : (s.setLaunch k x).subDis = s.subDis := rfl
@[simp] theorem State.setLaunch_notify : (s.setLaunch k x).notify = s.notify := rfl
@[simp] theorem State.setLaunch_fw : (s.setLaunch k x).fw = s.fw := rfl
@[simp] theorem State.setLaunch_graphs : (s.setLaunch k x).graphs = s.graphs := rfl
@[simp] theorem State.setLaunch_islands : (s.setLaunch k x).islands = s.islands := rfl
@[simp] theorem State.setLaunch_ports : (s.setLaunch k x).ports = s.ports := rfl
@[simp] theorem State.setLaunch_msix : (s.setLaunch k x).msix = s.msix := rfl
@[simp] theorem State.setLaunch_links : (s.setLaunch k x).links = s.links := rfl
@[simp] theorem State.setLaunch_booted : (s.setLaunch k x).booted = s.booted := rfl
@[simp] theorem State.setLaunch_cycle : (s.setLaunch k x).cycle = s.cycle := rfl
@[simp] theorem State.setLaunch_cur : (s.setLaunch k x).cur = s.cur := rfl
@[simp] theorem State.setLaunch_turn : (s.setLaunch k x).turn = s.turn := rfl
@[simp] theorem State.setLaunch_agenda : (s.setLaunch k x).agenda = s.agenda := rfl
@[simp] theorem State.setLaunch_later : (s.setLaunch k x).later = s.later := rfl
@[simp] theorem State.setLaunch_fresh : (s.setLaunch k x).fresh = s.fresh := rfl

end setLaunch

/-! ## setFunc -/

section setFunc
variable (s : State) (k : Nat) (x : Func)

@[simp] theorem State.setFunc_mem : (s.setFunc k x).mem = s.mem := rfl
@[simp] theorem State.setFunc_threads : (s.setFunc k x).threads = s.threads := rfl
@[simp] theorem State.setFunc_ctxs : (s.setFunc k x).ctxs = s.ctxs := rfl
@[simp] theorem State.setFunc_residents : (s.setFunc k x).residents = s.residents := rfl
@[simp] theorem State.setFunc_cores : (s.setFunc k x).cores = s.cores := rfl
@[simp] theorem State.setFunc_nodes : (s.setFunc k x).nodes = s.nodes := rfl
@[simp] theorem State.setFunc_shadow : (s.setFunc k x).shadow = s.shadow := rfl
@[simp] theorem State.setFunc_launches : (s.setFunc k x).launches = s.launches := rfl
@[simp] theorem State.setFunc_nextLaunch : (s.setFunc k x).nextLaunch = s.nextLaunch := rfl
@[simp] theorem State.setFunc_quarantine : (s.setFunc k x).quarantine = s.quarantine := rfl
@[simp] theorem State.setFunc_quadQuar : (s.setFunc k x).quadQuar = s.quadQuar := rfl
@[simp] theorem State.setFunc_stackQuar : (s.setFunc k x).stackQuar = s.stackQuar := rfl
@[simp] theorem State.setFunc_portQuar : (s.setFunc k x).portQuar = s.portQuar := rfl
@[simp] theorem State.setFunc_corrections : (s.setFunc k x).corrections = s.corrections := rfl
@[simp] theorem State.setFunc_roots : (s.setFunc k x).roots = s.roots := rfl
@[simp] theorem State.setFunc_funcs : (s.setFunc k x).funcs = tset s.funcs k x := rfl
@[simp] theorem State.setFunc_epoch : (s.setFunc k x).epoch = s.epoch := rfl
@[simp] theorem State.setFunc_tmove : (s.setFunc k x).tmove = s.tmove := rfl
@[simp] theorem State.setFunc_tmargin : (s.setFunc k x).tmargin = s.tmargin := rfl
@[simp] theorem State.setFunc_hyst : (s.setFunc k x).hyst = s.hyst := rfl
@[simp] theorem State.setFunc_epochNo : (s.setFunc k x).epochNo = s.epochNo := rfl
@[simp] theorem State.setFunc_pages : (s.setFunc k x).pages = s.pages := rfl
@[simp] theorem State.setFunc_moves : (s.setFunc k x).moves = s.moves := rfl
@[simp] theorem State.setFunc_pasid : (s.setFunc k x).pasid = s.pasid := rfl
@[simp] theorem State.setFunc_pva : (s.setFunc k x).pva = s.pva := rfl
@[simp] theorem State.setFunc_pdone : (s.setFunc k x).pdone = s.pdone := rfl
@[simp] theorem State.setFunc_pnopage : (s.setFunc k x).pnopage = s.pnopage := rfl
@[simp] theorem State.setFunc_pcnt : (s.setFunc k x).pcnt = s.pcnt := rfl
@[simp] theorem State.setFunc_subDis : (s.setFunc k x).subDis = s.subDis := rfl
@[simp] theorem State.setFunc_notify : (s.setFunc k x).notify = s.notify := rfl
@[simp] theorem State.setFunc_fw : (s.setFunc k x).fw = s.fw := rfl
@[simp] theorem State.setFunc_graphs : (s.setFunc k x).graphs = s.graphs := rfl
@[simp] theorem State.setFunc_islands : (s.setFunc k x).islands = s.islands := rfl
@[simp] theorem State.setFunc_ports : (s.setFunc k x).ports = s.ports := rfl
@[simp] theorem State.setFunc_msix : (s.setFunc k x).msix = s.msix := rfl
@[simp] theorem State.setFunc_links : (s.setFunc k x).links = s.links := rfl
@[simp] theorem State.setFunc_booted : (s.setFunc k x).booted = s.booted := rfl
@[simp] theorem State.setFunc_cycle : (s.setFunc k x).cycle = s.cycle := rfl
@[simp] theorem State.setFunc_cur : (s.setFunc k x).cur = s.cur := rfl
@[simp] theorem State.setFunc_turn : (s.setFunc k x).turn = s.turn := rfl
@[simp] theorem State.setFunc_agenda : (s.setFunc k x).agenda = s.agenda := rfl
@[simp] theorem State.setFunc_later : (s.setFunc k x).later = s.later := rfl
@[simp] theorem State.setFunc_fresh : (s.setFunc k x).fresh = s.fresh := rfl

end setFunc

/-! ## Reads by key -/

@[simp] theorem State.ctx_setCtx_same (s : State) (k : Nat) (x : Ctx) : (s.setCtx k x).ctx k = x := tget_tset_same _ _ _ _
theorem State.ctx_setCtx_ne (s : State) (k j : Nat) (x : Ctx) (h : j ≠ k) : (s.setCtx k x).ctx j = s.ctx j := tget_tset_ne _ _ _ _ _ h
@[simp] theorem State.ctx_setThr (s : State) (k : Nat) (x : Thread) (j : Nat) : (s.setThr k x).ctx j = s.ctx j := rfl
@[simp] theorem State.ctx_setRes (s : State) (k : Nat) (x : Res) (j : Nat) : (s.setRes k x).ctx j = s.ctx j := rfl
@[simp] theorem State.ctx_setCore (s : State) (k : Nat) (x : Core) (j : Nat) : (s.setCore k x).ctx j = s.ctx j := rfl
@[simp] theorem State.ctx_setNode (s : State) (k : Nat) (x : Node) (j : Nat) : (s.setNode k x).ctx j = s.ctx j := rfl
@[simp] theorem State.ctx_setLaunch (s : State) (k : Nat) (x : Launch) (j : Nat) : (s.setLaunch k x).ctx j = s.ctx j := rfl
@[simp] theorem State.ctx_setFunc (s : State) (k : Nat) (x : Func) (j : Nat) : (s.setFunc k x).ctx j = s.ctx j := rfl
@[simp] theorem State.thr_setThr_same (s : State) (k : Nat) (x : Thread) : (s.setThr k x).thr k = x := tget_tset_same _ _ _ _
theorem State.thr_setThr_ne (s : State) (k j : Nat) (x : Thread) (h : j ≠ k) : (s.setThr k x).thr j = s.thr j := tget_tset_ne _ _ _ _ _ h
@[simp] theorem State.thr_setCtx (s : State) (k : Nat) (x : Ctx) (j : Nat) : (s.setCtx k x).thr j = s.thr j := rfl
@[simp] theorem State.thr_setRes (s : State) (k : Nat) (x : Res) (j : Nat) : (s.setRes k x).thr j = s.thr j := rfl
@[simp] theorem State.thr_setCore (s : State) (k : Nat) (x : Core) (j : Nat) : (s.setCore k x).thr j = s.thr j := rfl
@[simp] theorem State.thr_setNode (s : State) (k : Nat) (x : Node) (j : Nat) : (s.setNode k x).thr j = s.thr j := rfl
@[simp] theorem State.thr_setLaunch (s : State) (k : Nat) (x : Launch) (j : Nat) : (s.setLaunch k x).thr j = s.thr j := rfl
@[simp] theorem State.thr_setFunc (s : State) (k : Nat) (x : Func) (j : Nat) : (s.setFunc k x).thr j = s.thr j := rfl
@[simp] theorem State.res_setRes_same (s : State) (k : Nat) (x : Res) : (s.setRes k x).res k = x := tget_tset_same _ _ _ _
theorem State.res_setRes_ne (s : State) (k j : Nat) (x : Res) (h : j ≠ k) : (s.setRes k x).res j = s.res j := tget_tset_ne _ _ _ _ _ h
@[simp] theorem State.res_setCtx (s : State) (k : Nat) (x : Ctx) (j : Nat) : (s.setCtx k x).res j = s.res j := rfl
@[simp] theorem State.res_setThr (s : State) (k : Nat) (x : Thread) (j : Nat) : (s.setThr k x).res j = s.res j := rfl
@[simp] theorem State.res_setCore (s : State) (k : Nat) (x : Core) (j : Nat) : (s.setCore k x).res j = s.res j := rfl
@[simp] theorem State.res_setNode (s : State) (k : Nat) (x : Node) (j : Nat) : (s.setNode k x).res j = s.res j := rfl
@[simp] theorem State.res_setLaunch (s : State) (k : Nat) (x : Launch) (j : Nat) : (s.setLaunch k x).res j = s.res j := rfl
@[simp] theorem State.res_setFunc (s : State) (k : Nat) (x : Func) (j : Nat) : (s.setFunc k x).res j = s.res j := rfl
@[simp] theorem State.core_setCore_same (s : State) (k : Nat) (x : Core) : (s.setCore k x).core k = x := tget_tset_same _ _ _ _
theorem State.core_setCore_ne (s : State) (k j : Nat) (x : Core) (h : j ≠ k) : (s.setCore k x).core j = s.core j := tget_tset_ne _ _ _ _ _ h
@[simp] theorem State.core_setCtx (s : State) (k : Nat) (x : Ctx) (j : Nat) : (s.setCtx k x).core j = s.core j := rfl
@[simp] theorem State.core_setThr (s : State) (k : Nat) (x : Thread) (j : Nat) : (s.setThr k x).core j = s.core j := rfl
@[simp] theorem State.core_setRes (s : State) (k : Nat) (x : Res) (j : Nat) : (s.setRes k x).core j = s.core j := rfl
@[simp] theorem State.core_setNode (s : State) (k : Nat) (x : Node) (j : Nat) : (s.setNode k x).core j = s.core j := rfl
@[simp] theorem State.core_setLaunch (s : State) (k : Nat) (x : Launch) (j : Nat) : (s.setLaunch k x).core j = s.core j := rfl
@[simp] theorem State.core_setFunc (s : State) (k : Nat) (x : Func) (j : Nat) : (s.setFunc k x).core j = s.core j := rfl
@[simp] theorem State.node_setNode_same (s : State) (k : Nat) (x : Node) : (s.setNode k x).node k = x := tget_tset_same _ _ _ _
theorem State.node_setNode_ne (s : State) (k j : Nat) (x : Node) (h : j ≠ k) : (s.setNode k x).node j = s.node j := tget_tset_ne _ _ _ _ _ h
@[simp] theorem State.node_setCtx (s : State) (k : Nat) (x : Ctx) (j : Nat) : (s.setCtx k x).node j = s.node j := rfl
@[simp] theorem State.node_setThr (s : State) (k : Nat) (x : Thread) (j : Nat) : (s.setThr k x).node j = s.node j := rfl
@[simp] theorem State.node_setRes (s : State) (k : Nat) (x : Res) (j : Nat) : (s.setRes k x).node j = s.node j := rfl
@[simp] theorem State.node_setCore (s : State) (k : Nat) (x : Core) (j : Nat) : (s.setCore k x).node j = s.node j := rfl
@[simp] theorem State.node_setLaunch (s : State) (k : Nat) (x : Launch) (j : Nat) : (s.setLaunch k x).node j = s.node j := rfl
@[simp] theorem State.node_setFunc (s : State) (k : Nat) (x : Func) (j : Nat) : (s.setFunc k x).node j = s.node j := rfl
@[simp] theorem State.func_setFunc_same (s : State) (k : Nat) (x : Func) : (s.setFunc k x).func k = x := tget_tset_same _ _ _ _
theorem State.func_setFunc_ne (s : State) (k j : Nat) (x : Func) (h : j ≠ k) : (s.setFunc k x).func j = s.func j := tget_tset_ne _ _ _ _ _ h
@[simp] theorem State.func_setCtx (s : State) (k : Nat) (x : Ctx) (j : Nat) : (s.setCtx k x).func j = s.func j := rfl
@[simp] theorem State.func_setThr (s : State) (k : Nat) (x : Thread) (j : Nat) : (s.setThr k x).func j = s.func j := rfl
@[simp] theorem State.func_setRes (s : State) (k : Nat) (x : Res) (j : Nat) : (s.setRes k x).func j = s.func j := rfl
@[simp] theorem State.func_setCore (s : State) (k : Nat) (x : Core) (j : Nat) : (s.setCore k x).func j = s.func j := rfl
@[simp] theorem State.func_setNode (s : State) (k : Nat) (x : Node) (j : Nat) : (s.setNode k x).func j = s.func j := rfl
@[simp] theorem State.func_setLaunch (s : State) (k : Nat) (x : Launch) (j : Nat) : (s.setLaunch k x).func j = s.func j := rfl
@[simp] theorem State.launch_setLaunch_same (s : State) (k : Nat) (x : Launch) : (s.setLaunch k x).launch? k = some x := tget?_tset_same _ _ _
theorem State.launch_setLaunch_ne (s : State) (k j : Nat) (x : Launch) (h : j ≠ k) : (s.setLaunch k x).launch? j = s.launch? j := tget?_tset_ne _ _ _ _ h
@[simp] theorem State.launch_setCtx (s : State) (k : Nat) (x : Ctx) (j : Nat) : (s.setCtx k x).launch? j = s.launch? j := rfl
@[simp] theorem State.launch_setThr (s : State) (k : Nat) (x : Thread) (j : Nat) : (s.setThr k x).launch? j = s.launch? j := rfl
@[simp] theorem State.launch_setRes (s : State) (k : Nat) (x : Res) (j : Nat) : (s.setRes k x).launch? j = s.launch? j := rfl
@[simp] theorem State.launch_setCore (s : State) (k : Nat) (x : Core) (j : Nat) : (s.setCore k x).launch? j = s.launch? j := rfl
@[simp] theorem State.launch_setNode (s : State) (k : Nat) (x : Node) (j : Nat) : (s.setNode k x).launch? j = s.launch? j := rfl
@[simp] theorem State.launch_setFunc (s : State) (k : Nat) (x : Func) (j : Nat) : (s.setFunc k x).launch? j = s.launch? j := rfl

/-! ## The current stream, context and resident -/

theorem State.setCctx_eq (s : State) (c : Ctx) : s.setCctx c = s.setCtx s.w c := rfl
theorem State.setCres_eq (s : State) (r : Res) : s.setCres r = s.setRes (resKeyOf s.w) r := rfl
theorem State.setCthr_eq (s : State) (x : Thread) : s.setCthr x = s.setThr s.cur x := rfl
theorem State.setRegs_eq (s : State) (r : Regs) : s.setRegs r = s.setThr s.cur { s.thr s.cur with regs := r } := rfl

@[simp] theorem State.w_setCtx (s : State) (k : Nat) (x : Ctx) : (s.setCtx k x).w = s.w := rfl
@[simp] theorem State.w_setThr (s : State) (k : Nat) (x : Thread) : (s.setThr k x).w = s.w := rfl
@[simp] theorem State.w_setRes (s : State) (k : Nat) (x : Res) : (s.setRes k x).w = s.w := rfl
@[simp] theorem State.w_setCore (s : State) (k : Nat) (x : Core) : (s.setCore k x).w = s.w := rfl
@[simp] theorem State.w_setNode (s : State) (k : Nat) (x : Node) : (s.setNode k x).w = s.w := rfl
@[simp] theorem State.w_setLaunch (s : State) (k : Nat) (x : Launch) : (s.setLaunch k x).w = s.w := rfl
@[simp] theorem State.w_setFunc (s : State) (k : Nat) (x : Func) : (s.setFunc k x).w = s.w := rfl
@[simp] theorem State.cctx_setThr (s : State) (k : Nat) (x : Thread) : (s.setThr k x).cctx = s.cctx := rfl
@[simp] theorem State.cctx_setRes (s : State) (k : Nat) (x : Res) : (s.setRes k x).cctx = s.cctx := rfl
@[simp] theorem State.cctx_setCore (s : State) (k : Nat) (x : Core) : (s.setCore k x).cctx = s.cctx := rfl
@[simp] theorem State.cres_setCtx (s : State) (k : Nat) (x : Ctx) : (s.setCtx k x).cres = s.cres := rfl
@[simp] theorem State.cres_setThr (s : State) (k : Nat) (x : Thread) : (s.setThr k x).cres = s.cres := rfl
@[simp] theorem State.cres_setCore (s : State) (k : Nat) (x : Core) : (s.setCore k x).cres = s.cres := rfl
@[simp] theorem State.cthr_setCtx (s : State) (k : Nat) (x : Ctx) : (s.setCtx k x).cthr = s.cthr := rfl
@[simp] theorem State.cthr_setRes (s : State) (k : Nat) (x : Res) : (s.setRes k x).cthr = s.cthr := rfl
@[simp] theorem State.cthr_setCore (s : State) (k : Nat) (x : Core) : (s.setCore k x).cthr = s.cthr := rfl
@[simp] theorem State.regs_setCtx (s : State) (k : Nat) (x : Ctx) : (s.setCtx k x).regs = s.regs := rfl
@[simp] theorem State.regs_setRes (s : State) (k : Nat) (x : Res) : (s.setRes k x).regs = s.regs := rfl
@[simp] theorem State.regs_setCore (s : State) (k : Nat) (x : Core) : (s.setCore k x).regs = s.regs := rfl

@[simp] theorem State.cctx_setCctx (s : State) (c : Ctx) : (s.setCctx c).cctx = c := tget_tset_same _ _ _ _
@[simp] theorem State.cres_setCres (s : State) (r : Res) : (s.setCres r).cres = r := tget_tset_same _ _ _ _
@[simp] theorem State.cthr_setCthr (s : State) (x : Thread) : (s.setCthr x).cthr = x := tget_tset_same _ _ _ _
@[simp] theorem State.regs_setRegs (s : State) (r : Regs) : (s.setRegs r).regs = r := congrArg Thread.regs (tget_tset_same _ _ _ _)
@[simp] theorem State.cthr_setRegs (s : State) (r : Regs) : (s.setRegs r).cthr = { s.cthr with regs := r } := tget_tset_same _ _ _ _
@[simp] theorem State.cctx_setRegs (s : State) (r : Regs) : (s.setRegs r).cctx = s.cctx := rfl
@[simp] theorem State.cres_setRegs (s : State) (r : Regs) : (s.setRegs r).cres = s.cres := rfl
@[simp] theorem State.cctx_setCthr (s : State) (x : Thread) : (s.setCthr x).cctx = s.cctx := rfl
@[simp] theorem State.cthr_setCctx (s : State) (c : Ctx) : (s.setCctx c).cthr = s.cthr := rfl
@[simp] theorem State.regs_setCctx (s : State) (c : Ctx) : (s.setCctx c).regs = s.regs := rfl
@[simp] theorem State.regs_setCthr (s : State) (x : Thread) : (s.setCthr x).regs = x.regs := congrArg Thread.regs (tget_tset_same _ _ _ _)

end Sys2Proof.Machine
end

