-- ==== Sys2Proof/Laws/Issue.lean ====
section
/-! SUPPORT. What an issue comes to: the settling of each outcome, the conditions of a result, and the squash of one. -/

namespace Sys2Proof.Machine

variable {s : State} {q : Bool}

/-- A result of an unsquashed instruction is put in flight. -/
theorem settleLen_ok (h : Live s q) (len lat : Nat) (effs : List Effect) : settleLen s q len (.ok lat effs) = issued s q lat len effs := by
  simp only [settleLen, show squashed s q = false from h]; rfl

theorem settle_ok (h : Live s q) (lat : Nat) (effs : List Effect) : settle s q (.ok lat effs) = issued s q lat 4 effs := settleLen_ok h 4 lat effs

/-- A trap of an unsquashed instruction is taken. -/
theorem settleLen_trap (h : Live s q) (len : Nat) (t : Trap) : settleLen s q len (.trap t) = takeTrap s t := by
  simp only [settleLen, show squashed s q = false from h]; rfl

theorem settle_trap (h : Live s q) (t : Trap) : settle s q (.trap t) = takeTrap s t := settleLen_trap h 4 t

/-- A launch-fatal fault of an unsquashed instruction ends its launch. -/
theorem settle_fatal (h : Live s q) (c : Nat) (a : Word) : settle s q (.fatal c a) = fatalStrand s 0x3FFF c a := by
  simp only [settle, settleLen, show squashed s q = false from h]; rfl

/-- A squashed instruction takes its slot, whatever it would have come to but for a stall (R122). -/
theorem settleLen_squashed (h : squashed s q = true) (len : Nat) (o : Out) (ho : ∀ k f, o ≠ .stall k f) : settleLen s q len o = skipped s len := by
  cases o with
  | stall k f => exact absurd rfl (ho k f)
  | _ => simp [settleLen, h, skipped]

/-- No condition raised, or none enabled: the result issues with its sticky bits. -/
theorem raising_of_none {lat : Nat} {bits : Word} {effs : List Effect} (h : enabledBit s.cctx.status bits = none) :
    raising s lat bits effs = .ok lat (effs ++ toSticky bits) := by
  simp only [raising, h]

/-- An enabled condition traps ARITH. -/
theorem raising_of_some {lat b : Nat} {bits : Word} {effs : List Effect} (h : enabledBit s.cctx.status bits = some b) :
    raising s lat bits effs = .trap (trapARITH b) := by
  simp only [raising, h]

theorem enabledBit_zero (status : Word) : enabledBit status 0 = none := by simp [enabledBit]

theorem raising_zero (lat : Nat) (effs : List Effect) : raising s lat 0 effs = .ok lat effs := by
  rw [raising_of_none (enabledBit_zero _)]; simp [toSticky]

/-- With no enable set no condition is enabled (R113). -/
theorem enabledBit_noTraps (h : NoTraps s) (bits : Word) : enabledBit s.cctx.status bits = none := by
  have key : ∀ i, 16 ≤ i → i < 22 → s.cctx.status.getLsbD i = false := by
    intro i h1 h2
    have := congrArg (fun x => BitVec.getLsbD x (i - 16)) h
    simp only [BitVec.getLsbD_extractLsb'] at this
    have e : 16 + (i - 16) = i := by omega
    simpa [e, show i - 16 < 7 by omega] using this
  have k (i : Nat) (h : 3 ≤ i ∧ i < 9) := key (i + 13) (by omega) (by omega)
  simp only [enabledBit, List.find?, k 3 (by decide), k 4 (by decide), k 5 (by decide), k 6 (by decide), k 7 (by decide), k 8 (by decide), Bool.and_false]

end Sys2Proof.Machine
end

