-- ==== Sys2Proof/Laws/Landing.lean ====
section
/-! SUPPORT. The landing of results: what one effect and a list of effects change, and the end of an issue slot. -/

namespace Sys2Proof.Machine

/-- A stream of a context's own, outside every frame. -/
abbrev State.Own (s : State) (t : Nat) : Prop := (s.thr t).stack = [] ∧ qfOf t = 0

theorem mainOf_ctxOf {t : Nat} (h : qfOf t = 0) : mainOf (ctxOf t) = t := by
  simp only [mainOf, ctxOf, qfOf] at *; omega

/-- In a context's own stream every place lies in its own registers. -/
theorem putV_own {s : State} {t : Nat} (h : s.Own t) (k : Nat) (v : VReg) :
    s.putV t k v = s.setThr t { s.thr t with regs := { (s.thr t).regs with v := tset (s.thr t).regs.v (k % 64) v } } := by
  simp only [State.putV, State.setRegsAt, State.regsAt, mainOf_ctxOf h.2]
  split <;> simp [Thread.setBase, Thread.base, Thread.setDepth, Thread.atDepth, h.1]

theorem putP_own {s : State} {t : Nat} (h : s.Own t) (k : Nat) (m : Word) :
    s.putP t k m = s.setThr t { s.thr t with regs := { (s.thr t).regs with p := tset (s.thr t).regs.p (k % 16) m } } := by
  simp only [State.putP, State.setRegsAt, State.regsAt, mainOf_ctxOf h.2]
  split <;> simp [Thread.setBase, Thread.base, Thread.setDepth, Thread.atDepth, h.1]

theorem noteV_own {s : State} {t : Nat} (h : s.Own t) (k : Nat) : noteV s t k = s := by simp [noteV, h.1]
theorem noteP_own {s : State} {t : Nat} (h : s.Own t) (k : Nat) : noteP s t k = s := by simp [noteP, h.1]

/-- The registers of a context's own stream after an effect lands in it; `c` is the context. -/
def landRegs (c : Ctx) (r : Regs) : Effect → Regs
  | .sreg key v => if key < 16 ∨ (r.wb + 16 ≤ key ∧ key < r.wb + 64) then { r with s := tset r.s key v } else r
  | .vreg slot v => if slotAwake c slot then { r with v := tset r.v (slot % 64) v } else r
  | .preg slot m => { r with p := tset r.p (slot % 16) m }
  | .breg n a => { r with b := tset r.b n a }
  | .xacc n a => { r with x := tset r.x n a }
  | .sticky _ => r
  | .csr n v => match n with
    | 5 => { r with rrbV := v.setWidth 5 }
    | 6 => { r with rrbP := v.setWidth 3 }
    | _ => r

@[simp] theorem orStatus_thr (s : State) (w : Nat) (b : Word) (j : Nat) : (orStatus s w b).thr j = s.thr j := by
  unfold orStatus; split <;> rfl
@[simp] theorem orStatus_cur (s : State) (w : Nat) (b : Word) : (orStatus s w b).cur = s.cur := by
  unfold orStatus; split <;> rfl

/-- An effect lands in the registers of its stream and in no other part of it, but for the trap of a landing that a sleeping cluster drops (R111). -/
theorem landEff_thr {t : Nat} {s : State} (o : s.Own t) (e : Effect) :
    (landEff t s e).thr t = { s.thr t with regs := landRegs (s.ctx (ctxOf t)) (s.thr t).regs e, landTrap := ((landEff t s e).thr t).landTrap } := by
  cases e with
  | sreg key v =>
    simp only [landEff, landRegs]
    by_cases h : key < 16
    · simp [h]
    · by_cases h2 : (s.thr t).regs.wb + 16 ≤ key ∧ key < (s.thr t).regs.wb + 64
      · simp [h, h2]
      · simp only [h, h2, if_false, Bool.and_eq_true, decide_eq_true_eq, false_or]; simp
  | vreg slot v =>
    simp only [landEff, landRegs, noteV_own o, putV_own o]
    split
    · simp
    · split <;> simp
  | preg slot m => simp [landEff, landRegs, noteP_own o, putP_own o]
  | sticky b => simp [landEff, landRegs]
  | csr n v => simp only [landEff, landRegs, writeCsr]; split <;> simp
  | _ => simp [landEff, landRegs]

theorem landEff_own {t : Nat} {s : State} (o : s.Own t) (e : Effect) : (landEff t s e).Own t := ⟨by rw [landEff_thr o]; exact o.1, o.2⟩

theorem landEff_thr_ne {t : Nat} {s : State} (o : s.Own t) (e : Effect) (j : Nat) (h : j ≠ t) : (landEff t s e).thr j = s.thr j := by
  cases e with
  | sreg key v => simp only [landEff]; (repeat' split) <;> simp [State.thr_setThr_ne _ _ _ _ h]
  | vreg slot v => simp only [landEff, noteV_own o, putV_own o]; (repeat' split) <;> simp [State.thr_setThr_ne _ _ _ _ h]
  | preg slot m => simp [landEff, noteP_own o, putP_own o, State.thr_setThr_ne _ _ _ _ h]
  | sticky b => simp [landEff]
  | csr n v => simp only [landEff, writeCsr]; split <;> simp [State.thr_setThr_ne _ _ _ _ h]
  | _ => simp [landEff, State.thr_setThr_ne _ _ _ _ h]

theorem landEff_ctx_ne {t : Nat} {s : State} (o : s.Own t) (e : Effect) (w : Nat) (h : w ≠ ctxOf t) : (landEff t s e).ctx w = s.ctx w := by
  cases e with
  | sreg key v => simp only [landEff]; (repeat' split) <;> simp
  | vreg slot v => simp only [landEff, noteV_own o, putV_own o]; (repeat' split) <;> simp [State.ctx_setCtx_ne _ _ _ _ h]
  | preg slot m => simp [landEff, noteP_own o, putP_own o]
  | sticky b => simp only [landEff, orStatus]; split <;> simp [State.ctx_setCtx_ne _ _ _ _ h]
  | csr n v => simp only [landEff, writeCsr]; split <;> simp [State.ctx_setCtx_ne _ _ _ _ h]
  | _ => simp [landEff]

/-- What a landing effect does to its context: sticky bits, and the control registers that `CSRW` writes. -/
theorem landEff_ctx {t : Nat} {s : State} (o : s.Own t) (e : Effect) :
    let c := s.ctx (ctxOf t)
    let d := (landEff t s e).ctx (ctxOf t)
    d = { c with status := d.status, epc := d.epc, eupc := d.eupc } := by
  cases e with
  | sreg key v => simp only [landEff]; (repeat' split) <;> simp
  | vreg slot v => simp only [landEff, noteV_own o, putV_own o]; (repeat' split) <;> simp
  | preg slot m => simp [landEff, noteP_own o, putP_own o]
  | sticky b => simp only [landEff, orStatus]; split <;> simp
  | csr n v => simp only [landEff, writeCsr]; split <;> simp
  | _ => simp [landEff]

theorem landEff_ctx_plain {t : Nat} {s : State} (o : s.Own t) (e : Effect) (h : e.plain (s.thr t).regs) :
    ((landEff t s e).ctx (ctxOf t)).epc = (s.ctx (ctxOf t)).epc ∧ ((landEff t s e).ctx (ctxOf t)).eupc = (s.ctx (ctxOf t)).eupc := by
  cases e with
  | sreg key v => simp only [landEff]; (repeat' split) <;> simp
  | vreg slot v => simp only [landEff, noteV_own o, putV_own o]; (repeat' split) <;> simp
  | preg slot m => simp [landEff, noteP_own o, putP_own o]
  | sticky b => simp only [landEff, orStatus]; split <;> simp
  | csr n v => exact h.elim
  | _ => simp [landEff]

/-- Only sticky bits and dropped vector results bear on the status. -/
theorem landEff_ctx_quiet {t : Nat} {s : State} (o : s.Own t) (e : Effect) (h : e.plain (s.thr t).regs) (h1 : ∀ b, e ≠ .sticky b) (h2 : ∀ n r, e ≠ .vreg n r) :
    (landEff t s e).ctx (ctxOf t) = s.ctx (ctxOf t) := by
  cases e with
  | sreg key v => simp only [landEff]; (repeat' split) <;> simp
  | vreg slot v => exact absurd rfl (h2 slot v)
  | preg slot m => simp [landEff, noteP_own o, putP_own o]
  | sticky b => exact absurd rfl (h1 b)
  | csr n v => exact h.elim
  | _ => simp [landEff]

/-- A plain effect changes the streams and the contexts and nothing else. -/
theorem landEff_plain {t : Nat} {s : State} (o : s.Own t) (e : Effect) (h : e.plain (s.thr t).regs) :
    landEff t s e = { s with threads := (landEff t s e).threads, ctxs := (landEff t s e).ctxs } := by
  cases e with
  | sreg key v =>
    simp only [landEff]
    split
    · rfl
    · split
      · rfl
      · rename_i h1 h2
        simp only [Effect.plain] at h
        simp only [Bool.and_eq_true, decide_eq_true_eq] at h2
        exact (h.elim h1 h2).elim
  | vreg slot v => simp only [landEff, noteV_own o, putV_own o]; (repeat' split) <;> rfl
  | preg slot m => simp only [landEff, noteP_own o, putP_own o]; rfl
  | sticky b => simp only [landEff, orStatus]; split <;> rfl
  | csr n v => exact h.elim
  | _ => rfl

theorem landEff_cur {t : Nat} {s : State} (o : s.Own t) (e : Effect) : (landEff t s e).cur = s.cur := by
  cases e with
  | sreg key v => simp only [landEff]; (repeat' split) <;> rfl
  | vreg slot v => simp only [landEff, noteV_own o, putV_own o]; (repeat' split) <;> rfl
  | preg slot m => simp only [landEff, noteP_own o, putP_own o]; rfl
  | sticky b => simp [landEff]
  | csr n v => simp only [landEff, writeCsr]; split <;> rfl
  | _ => rfl

/-- The parts of the registers that no effect changes. -/
theorem landRegs_rest (c : Ctx) (r : Regs) (e : Effect) :
    (landRegs c r e).wb = r.wb ∧ (landRegs c r e).fs = r.fs ∧ (landRegs c r e).base = r.base ∧ (landRegs c r e).xi = r.xi
    ∧ (landRegs c r e).loops = r.loops ∧ (landRegs c r e).links = r.links ∧ (landRegs c r e).pend = r.pend ∧ (landRegs c r e).pc = r.pc
    ∧ (landRegs c r e).xfer = r.xfer ∧ (landRegs c r e).shade = r.shade ∧ (landRegs c r e).slot = r.slot := by
  cases e <;> simp only [landRegs] <;> (try split) <;> simp

/-! ## A list of effects -/

/-- Effects landing one after another. -/
def landList (t : Nat) (s : State) (es : List Effect) : State := es.foldl (landEff t) s

@[simp] theorem landList_nil (t : Nat) (s : State) : landList t s [] = s := rfl
@[simp] theorem landList_cons (t : Nat) (s : State) (e : Effect) (es : List Effect) : landList t s (e :: es) = landList t (landEff t s e) es := rfl

theorem landList_own {t : Nat} {s : State} (o : s.Own t) (es : List Effect) : (landList t s es).Own t := by
  induction es generalizing s with
  | nil => exact o
  | cons e es ih => exact ih (landEff_own o e)

theorem landList_cur {t : Nat} {s : State} (o : s.Own t) (es : List Effect) : (landList t s es).cur = s.cur := by
  induction es generalizing s with
  | nil => rfl
  | cons e es ih => rw [landList_cons, ih (landEff_own o e), landEff_cur o]

theorem landList_thr_ne {t : Nat} {s : State} (o : s.Own t) (es : List Effect) (j : Nat) (h : j ≠ t) : (landList t s es).thr j = s.thr j := by
  induction es generalizing s with
  | nil => rfl
  | cons e es ih => rw [landList_cons, ih (landEff_own o e), landEff_thr_ne o _ _ h]

theorem landList_ctx_ne {t : Nat} {s : State} (o : s.Own t) (es : List Effect) (w : Nat) (h : w ≠ ctxOf t) : (landList t s es).ctx w = s.ctx w := by
  induction es generalizing s with
  | nil => rfl
  | cons e es ih => rw [landList_cons, ih (landEff_own o e), landEff_ctx_ne o _ _ h]

/-- What a list of landing effects leaves of its stream. -/
theorem landList_rest {t : Nat} {s : State} (o : s.Own t) (es : List Effect) :
    let x := s.thr t
    let y := (landList t s es).thr t
    y.stack = x.stack ∧ y.wait = x.wait ∧ y.granted = x.granted ∧ y.marks = x.marks
    ∧ y.regs.wb = x.regs.wb ∧ y.regs.fs = x.regs.fs ∧ y.regs.base = x.regs.base ∧ y.regs.xi = x.regs.xi
    ∧ y.regs.loops = x.regs.loops ∧ y.regs.links = x.regs.links ∧ y.regs.pend = x.regs.pend ∧ y.regs.pc = x.regs.pc
    ∧ y.regs.xfer = x.regs.xfer ∧ y.regs.shade = x.regs.shade ∧ y.regs.slot = x.regs.slot := by
  induction es generalizing s with
  | nil => simp
  | cons e es ih =>
    have h := ih (landEff_own o e)
    have r := landRegs_rest (s.ctx (ctxOf t)) (s.thr t).regs e
    rw [landEff_thr o e] at h
    simp only [landList_cons]
    simp only [r] at h
    exact h

/-- The value at a scalar key after effects land that do not name it. -/
theorem landList_s {t : Nat} {s : State} (o : s.Own t) (es : List Effect) (k : Nat) (d : Word) (hk : ∀ v, .sreg k v ∉ es) :
    tget d ((landList t s es).thr t).regs.s k = tget d (s.thr t).regs.s k := by
  induction es generalizing s with
  | nil => rfl
  | cons e es ih =>
    rw [landList_cons, ih (landEff_own o e) (fun v hv => hk v (List.mem_cons_of_mem _ hv)), landEff_thr o]
    cases e with
    | sreg key v =>
      have : k ≠ key := fun h => hk v (by simp [h])
      simp only [landRegs]
      split <;> simp [tget_tset_ne _ _ _ _ _ this]
    | csr n v => simp only [landRegs]; split <;> rfl
    | vreg n v => simp only [landRegs]; split <;> rfl
    | _ => rfl

end Sys2Proof.Machine
end

