-- ==== Sys2Proof/Laws/Memory.lean ====
section
/-! SUPPORT. Byte memory: a read after a write, the canonical form kept by every write, and the byte order of R4. -/

namespace Sys2Proof.Machine

/-! ## Reads after writes -/

theorem rdByte_wrByte (m : Memory) (a b : Nat) (v : Byte) : rdByte (wrByte m a v) b = if b = a then v else rdByte m b := by
  unfold rdByte wrByte
  split
  · rename_i h; rw [tget_terase]; split <;> simp [h]
  · split
    · rename_i h; rw [h]; exact tget_tset_same _ _ _ _
    · rename_i h; exact tget_tset_ne _ _ _ _ _ h

/-- A byte after a run of bytes is written: the run's own inside it, what stood before outside. -/
theorem rdByte_wrBytes (m : Memory) (a : Nat) (bs : List Byte) (b : Nat) :
    rdByte (wrBytes m a bs) b = if a ≤ b ∧ b < a + bs.length then bs.getD (b - a) 0 else rdByte m b := by
  induction bs generalizing m a with
  | nil => rw [if_neg (by simp only [List.length_nil]; omega)]; rfl
  | cons c bs ih =>
    simp only [wrBytes, ih, rdByte_wrByte, List.length_cons]
    by_cases h1 : b = a
    · subst h1; rw [if_neg (by omega), if_pos rfl, if_pos (by omega)]; simp
    · by_cases h2 : a + 1 ≤ b ∧ b < a + 1 + bs.length
      · obtain ⟨k, hk⟩ : ∃ k, b - a = k + 1 := ⟨b - a - 1, by omega⟩
        have h3 : b - (a + 1) = k := by omega
        rw [if_pos h2, if_pos (by omega), hk, h3]; simp
      · rw [if_neg h2, if_neg h1, if_neg (by omega)]

theorem rdBytes_wrBytes_same (m : Memory) (a : Nat) (bs : List Byte) : rdBytes (wrBytes m a bs) a bs.length = bs := by
  apply List.ext_getElem
  · simp [rdBytes]
  · intro i h1 h2
    simp only [rdBytes, List.getElem_map, List.getElem_range, rdByte_wrBytes]
    rw [if_pos (by omega)]
    simp [h2]

/-- Bytes read outside a run that is written are what stood before. -/
theorem rdBytes_wrBytes_disjoint (m : Memory) (a : Nat) (bs : List Byte) (b n : Nat) (h : b + n ≤ a ∨ a + bs.length ≤ b) :
    rdBytes (wrBytes m a bs) b n = rdBytes m b n := by
  simp only [rdBytes]
  apply List.map_congr_left
  intro i hi
  have := List.mem_range.1 hi
  rw [rdByte_wrBytes, if_neg (by omega)]

@[simp] theorem rdBytes_length (m : Memory) (a n : Nat) : (rdBytes m a n).length = n := by simp [rdBytes]

/-! ## The canonical form -/

theorem memWfFrom_cons {lo : Option Nat} {a : Nat} {b : Byte} {m : Memory} :
    memWfFrom lo ((a, b) :: m) = true ↔ (∀ l, lo = some l → l < a) ∧ b ≠ unlisted ∧ memWfFrom (some a) m = true := by
  cases lo <;> simp [memWfFrom, and_assoc]

theorem memWfFrom_mono {lo lo' : Option Nat} {m : Memory} (h : ∀ l', lo' = some l' → ∃ l, lo = some l ∧ l' ≤ l) (w : memWfFrom lo m = true) :
    memWfFrom lo' m = true := by
  cases m with
  | nil => cases lo' <;> rfl
  | cons c m =>
    rw [memWfFrom_cons] at w ⊢
    refine ⟨fun l' hl => ?_, w.2⟩
    obtain ⟨l, rfl, h⟩ := h l' hl
    have := w.1 l rfl
    omega

theorem memWfFrom_tset {lo : Option Nat} {m : Memory} {a : Nat} {b : Byte} (hb : b ≠ unlisted) (hl : ∀ l, lo = some l → l < a)
    (w : memWfFrom lo m = true) : memWfFrom lo (tset m a b) = true := by
  induction m generalizing lo with
  | nil => exact memWfFrom_cons.2 ⟨hl, hb, rfl⟩
  | cons c m ih =>
    rw [memWfFrom_cons] at w
    simp only [tset]
    split
    · rename_i h
      exact memWfFrom_cons.2 ⟨hl, hb, memWfFrom_cons.2 ⟨fun l e => by cases e; exact h, w.2⟩⟩
    · split
      · rename_i h
        subst h
        exact memWfFrom_cons.2 ⟨hl, hb, w.2.2⟩
      · exact memWfFrom_cons.2 ⟨w.1, w.2.1, ih (fun l e => by cases e; omega) w.2.2⟩

theorem memWfFrom_terase {lo : Option Nat} {m : Memory} (a : Nat) (w : memWfFrom lo m = true) : memWfFrom lo (terase m a) = true := by
  induction m generalizing lo with
  | nil => cases lo <;> rfl
  | cons c m ih =>
    rw [memWfFrom_cons] at w
    simp only [terase, List.filter_cons] at ih ⊢
    split
    · exact memWfFrom_cons.2 ⟨w.1, w.2.1, ih w.2.2⟩
    · exact memWfFrom_mono (fun l hl => ⟨c.1, rfl, Nat.le_of_lt (w.1 l hl)⟩) (ih w.2.2)

/-- Writing a byte keeps the canonical form. -/
theorem wf_wrByte {m : Memory} (a : Nat) (b : Byte) (w : Memory.wf m = true) : Memory.wf (wrByte m a b) = true := by
  unfold wrByte
  split
  · exact memWfFrom_terase a w
  · rename_i h; exact memWfFrom_tset h (by simp) w

/-- Writing bytes keeps the canonical form. -/
theorem wf_wrBytes {m : Memory} (a : Nat) (bs : List Byte) (w : Memory.wf m = true) : Memory.wf (wrBytes m a bs) = true := by
  induction bs generalizing m a with
  | nil => exact w
  | cons b bs ih => exact ih (a + 1) (wf_wrByte a b w)

/-- The canonical form is canonical: memories in it that read alike are equal. -/
theorem wf_ext {lo : Option Nat} {m n : Memory} (hm : memWfFrom lo m = true) (hn : memWfFrom lo n = true) (h : ∀ a, rdByte m a = rdByte n a) : m = n := by
  have below : ∀ {lo : Option Nat} {m : Memory} {l a : Nat}, lo = some l → memWfFrom lo m = true → a ≤ l → rdByte m a = unlisted := by
    intro lo m
    induction m generalizing lo with
    | nil => intros; rfl
    | cons c m ih =>
      intro l a hl w ha
      subst hl
      simp only [memWfFrom, Bool.and_eq_true, decide_eq_true_eq] at w
      have : a ≠ c.1 := by omega
      show tget unlisted (c :: m) a = unlisted
      simp only [tget, if_neg this]
      exact ih rfl w.2 (by omega)
  induction m generalizing lo n with
  | nil =>
    cases n with
    | nil => rfl
    | cons c n =>
      have := h c.1
      simp only [memWfFrom, Bool.and_eq_true] at hn
      simp [rdByte, tget] at this
      simp [← this] at hn
  | cons c m ih =>
    cases n with
    | nil =>
      have := h c.1
      simp only [memWfFrom, Bool.and_eq_true] at hm
      simp [rdByte, tget] at this
      simp [this] at hm
    | cons e n =>
      obtain ⟨a, b⟩ := c
      obtain ⟨a', b'⟩ := e
      have hm' := hm
      have hn' := hn
      simp only [memWfFrom, Bool.and_eq_true, bne_iff_ne, ne_eq] at hm' hn'
      have ha : a = a' := by
        rcases Nat.lt_trichotomy a a' with hlt | heq | hgt
        · have h1 := h a
          have h2 : rdByte n a = unlisted := below rfl hn'.2 (by omega)
          have : a ≠ a' := by omega
          simp only [rdByte, tget, if_true, if_neg this] at h1 h2
          exact absurd (h1.trans h2) hm'.1.2
        · exact heq
        · have h1 := h a'
          have h2 : rdByte m a' = unlisted := below rfl hm'.2 (by omega)
          have : a' ≠ a := by omega
          simp only [rdByte, tget, if_true, if_neg this] at h1 h2
          exact absurd (h1.symm.trans h2) hn'.1.2
      subst ha
      have hb : b = b' := by have := h a; simpa [rdByte, tget] using this
      subst hb
      congr 1
      refine ih hm'.2 hn'.2 fun x => ?_
      by_cases hx : x = a
      · subst hx
        rw [below rfl hm'.2 (Nat.le_refl _), below rfl hn'.2 (Nat.le_refl _)]
      · have := h x
        simpa [rdByte, tget, hx] using this

/-! ## Byte order -/

@[simp] theorem leBytes_length (n v : Nat) : (leBytes n v).length = n := by
  induction n generalizing v with
  | zero => rfl
  | succ n ih => simp [leBytes, ih]

/-- The bytes of a number give it back modulo their range. -/
theorem leNat_leBytes (n v : Nat) : leNat (leBytes n v) = v % 256 ^ n := by
  induction n generalizing v with
  | zero => simp [leBytes, leNat, Nat.mod_one]
  | succ n ih =>
    simp only [leBytes, leNat, ih, BitVec.toNat_ofNat, Nat.pow_succ']
    exact (Nat.mod_mul (a := 256) (b := 256 ^ n)).symm

theorem leNat_lt (bs : List Byte) : leNat bs < 256 ^ bs.length := by
  induction bs with
  | nil => simp [leNat]
  | cons b bs ih =>
    simp only [leNat, List.length_cons, Nat.pow_succ']
    have := b.isLt
    omega

end Sys2Proof.Machine
end

