-- ==== Sys2Proof/Laws/Routine.lean ====
section
/-! SUPPORT. What a call of an SRL routine comes to: one lemma per kind of outcome, so that no proof about a routine unfolds the checks of R62. -/

namespace Sys2Proof.Machine

theorem vphys_lt (r : BitVec 5) (n : BitVec 6) : vphys r n.toNat < 64 := by unfold vphys; split <;> omega

/-- The reads of a context's own vector names in awake clusters set no `COLD` (R111). -/
theorem coldBits_awake {s : State} (h : OwnStream s) (reads : List (BitVec 6)) (hr : ∀ n ∈ reads, Awake s n) : coldBits s reads = 0 := by
  have : reads.any (coldName s) = false := by
    simp only [List.any_eq_false]
    intro n hn
    have := hr n hn
    simpa [coldName, vslot, h.1, vslotIn, slotAwake, gateOf, vphys_lt, Awake, ownV] using this
  simp [coldBits, this]

/-- A callable routine runs its definition on the values of its scalar operands. -/
theorem callSrl_run {s : State} {num : Nat} {async : Bool} {ctr : Nat} {ops : List Opnd} (ho : OwnStream s) (h : Callable s num async ctr ops)
    (lat : Nat) (q : Bool) (run : SrlDef) :
    callSrl num async ctr lat q ops run s = .next (runDef s s.cthr num q ctr lat ops (argsOf s (byWord ops)) run) := by
  obtain ⟨hf, hm, r, hr1, hr2, hr3⟩ := h
  simp only [callSrl, callRoutine, reopened, ho.1, hf, hr1, hr2, hr3, modesOf, hm]
  rfl

/-- A definition that ends issues its results. -/
theorem runDef_ok {s : State} {x : Thread} {q : Bool} {ops : List Opnd} {args : List Word} {run : SrlDef} {effs : List Effect} (num ctr lat : Nat)
    (ho : OwnStream s) (hl : Live s q) (h : run args s = .ok s effs) : runDef s x num q ctr lat ops args run = issued s q lat (callBytes ops) effs := by
  simp [runDef, h, finishCall, issued, noteNames, innerSteps, ho.1, show squashed s q = false from hl]

/-- A vector definition whose body ends, with nothing read from a gated cluster, ends with the body's results. -/
theorem vdefAt_ok {α : Type} {s : State} {reads : State → List (BitVec 6)} {pre : Except Trap α} {a : α} {body : α → State → Except Trap RunOut}
    {effs : List Effect} {args : List Word} (hv : noVectors s = false) (hc : coldBits s (reads s) = 0) (hp : pre = .ok a) (hb : body a s = .ok (.ok s effs)) :
    vdefAt reads pre body args s = .ok s effs := by
  simp [vdefAt, hv, hp, hb, hc, toSticky]

theorem vdef_ok {α : Type} {s : State} {reads : List (BitVec 6)} {pre : Except Trap α} {a : α} {body : α → State → Except Trap RunOut} {effs : List Effect}
    {args : List Word} (hv : noVectors s = false) (hc : coldBits s reads = 0) (hp : pre = .ok a) (hb : body a s = .ok (.ok s effs)) :
    vdef reads pre body args s = .ok s effs := vdefAt_ok hv hc hp hb

/-- With no trap enabled every element of a result is formed. -/
theorem firstEnabled_noTraps {s : State} (h : NoTraps s) (bits : List Word) (i : Nat) (below : Word) :
    firstEnabled s.cctx.status bits i below = none := by
  induction bits generalizing i below with
  | nil => rfl
  | cons b bs ih => simp only [firstEnabled, enabledBit_noTraps h, ih]

end Sys2Proof.Machine
end

