-- ==== Sys2Proof/Laws/Slot.lean ====
section
/-! SUPPORT. The end of an issue slot: what it does to the registers, the results in flight, the program counter, and what it leaves. -/

namespace Sys2Proof.Machine

/-! ## A wait's end -/

@[simp] theorem endWait_cur (s : State) (t : Nat) : (endWait s t).cur = s.cur := by
  unfold endWait; (repeat' (first | split | (dsimp only; split))) <;> rfl

theorem endWait_thr (s : State) (t j : Nat) : ((endWait s t).thr j).regs = (s.thr j).regs ∧ ((endWait s t).thr j).stack = (s.thr j).stack := by
  by_cases h : j = t
  · subst h; unfold endWait; (repeat' (first | split | (dsimp only; split))) <;> simp
  · unfold endWait; (repeat' (first | split | (dsimp only; split))) <;> simp [State.thr_setThr_ne _ _ _ _ h]

theorem endWait_slots (s : State) (t w : Nat) : ((endWait s t).ctx w).slots = (s.ctx w).slots := by
  unfold endWait; dsimp only; split
  · rfl
  · split
    · by_cases h : w = ctxOf t
      · subst h; simp
      · simp [State.ctx_setCtx_ne _ _ _ _ h]
    · simp

/-- A stream that does not wait. -/
theorem endWait_none {s : State} {t : Nat} (h : (s.thr t).wait = none) : endWait s t = s := by simp only [endWait, h]

/-! ## Clusters waking -/

theorem wakeCluster_regs (s : State) (w k j : Nat) : ∃ v, ((wakeCluster s w k).thr j).regs = { (s.thr j).regs with v } := by
  unfold wakeCluster
  by_cases h : j = mainOf w
  · subst h
    simp only [State.thr_setThr_same, Thread.setBase, Thread.base]
    split
    · exact ⟨_, rfl⟩
    · exact ⟨_, rfl⟩
  · simp only [State.thr_setThr_ne _ _ _ _ h]; exact ⟨_, rfl⟩

@[simp] theorem wakeCluster_cur (s : State) (w k : Nat) : (wakeCluster s w k).cur = s.cur := rfl

theorem wakeCluster_slots (s : State) (w k j : Nat) : ((wakeCluster s w k).ctx j).slots = (s.ctx j).slots := by
  unfold wakeCluster
  by_cases h : j = w
  · subst h; simp
  · simp [State.ctx_setCtx_ne _ _ _ _ h]

theorem wakeAll_regs (w j : Nat) (ks : List (Nat × Nat)) (s : State) :
    ∃ v, ((ks.foldl (fun s p => wakeCluster s w p.1) s).thr j).regs = { (s.thr j).regs with v } := by
  induction ks generalizing s with
  | nil => exact ⟨_, rfl⟩
  | cons p ks ih =>
    obtain ⟨v, hv⟩ := ih (wakeCluster s w p.1)
    obtain ⟨u, hu⟩ := wakeCluster_regs s w p.1 j
    exact ⟨v, by rw [List.foldl_cons, hv, hu]⟩

theorem wakeAll_cur (w : Nat) (ks : List (Nat × Nat)) (s : State) : (ks.foldl (fun s p => wakeCluster s w p.1) s).cur = s.cur := by
  induction ks generalizing s with
  | nil => rfl
  | cons p ks ih => rw [List.foldl_cons, ih]; rfl

theorem wakeAll_slots (w j : Nat) (ks : List (Nat × Nat)) (s : State) :
    ((ks.foldl (fun s p => wakeCluster s w p.1) s).ctx j).slots = (s.ctx j).slots := by
  induction ks generalizing s with
  | nil => rfl
  | cons p ks ih => rw [List.foldl_cons, ih, wakeCluster_slots]

/-- A slot's wake counts touch vector registers only. -/
theorem tickWaking_regs (s : State) (w j : Nat) : ∃ v, ((tickWaking s w).thr j).regs = { (s.thr j).regs with v } := by
  unfold tickWaking
  dsimp only
  split
  · exact wakeAll_regs w j _ s
  · exact wakeAll_regs w j _ _

@[simp] theorem tickWaking_cur (s : State) (w : Nat) : (tickWaking s w).cur = s.cur := by
  unfold tickWaking; dsimp only; split <;> rw [wakeAll_cur]; rfl

theorem tickWaking_slots (s : State) (w j : Nat) : ((tickWaking s w).ctx j).slots = (s.ctx j).slots := by
  unfold tickWaking; dsimp only; split <;> rw [wakeAll_slots]
  by_cases h : j = w
  · subst h; simp
  · simp [State.ctx_setCtx_ne _ _ _ _ h]

theorem tickWaking_none {s : State} {w : Nat} (h : (s.ctx w).waking = []) : tickWaking s w = s := by simp [tickWaking, h]

/-- A context's own stream stays outside every frame while clusters wake. -/
theorem wakeCluster_own {s : State} {t : Nat} (o : s.Own t) (w k : Nat) : (wakeCluster s w k).Own t := by
  refine ⟨?_, o.2⟩
  unfold wakeCluster
  by_cases h : t = mainOf w
  · subst h; simp [Thread.setBase, o.1]
  · simp [State.thr_setThr_ne _ _ _ _ h, o.1]

theorem wakeAll_own {t : Nat} (w : Nat) (ks : List (Nat × Nat)) {s : State} (o : s.Own t) : (ks.foldl (fun s p => wakeCluster s w p.1) s).Own t := by
  induction ks generalizing s with
  | nil => exact o
  | cons p ks ih => exact ih (wakeCluster_own o w p.1)

theorem tickWaking_own {s : State} {t : Nat} (o : s.Own t) (w : Nat) : (tickWaking s w).Own t := by
  unfold tickWaking
  dsimp only
  split
  · exact wakeAll_own w _ o
  · exact wakeAll_own w _ ⟨o.1, o.2⟩

/-! ## The slot -/

/-- The results in flight after one more slot. -/
def aged (ps : List Pend) : List Pend := (ps.map fun p => { p with left := p.left - 1 }).filter fun p => p.left ≠ 0

/-- The effects that land at the end of a slot, in issue order. -/
def dueNow (ps : List Pend) : List Effect := (ps.filter fun p => p.left ≤ 1).map (·.eff)

@[simp] theorem aged_nil : aged [] = [] := rfl
@[simp] theorem dueNow_nil : dueNow [] = [] := rfl

theorem aged_append (a b : List Pend) : aged (a ++ b) = aged a ++ aged b := by simp [aged]
theorem dueNow_append (a b : List Pend) : dueNow (a ++ b) = dueNow a ++ dueNow b := by simp [dueNow]

theorem mem_aged {p : Pend} {ps : List Pend} (h : p ∈ aged ps) : ∃ p' ∈ ps, p.eff = p'.eff := by
  simp only [aged, List.mem_filter, List.mem_map] at h
  obtain ⟨⟨p', h1, rfl⟩, -⟩ := h
  exact ⟨p', h1, rfl⟩

theorem mem_dueNow {e : Effect} {ps : List Pend} (h : e ∈ dueNow ps) : ∃ p ∈ ps, p.eff = e := by
  simp only [dueNow, List.mem_map, List.mem_filter] at h
  obtain ⟨p, ⟨h1, -⟩, rfl⟩ := h
  exact ⟨p, h1, rfl⟩

/-- The clusters that wake in a slot, and then the results of a context's own stream counting down and landing in one. -/
theorem tick_eq {s : State} {t : Nat} (o : s.Own t) :
    tick s t =
      let s := tickWaking s (ctxOf t)
      let x := s.thr t
      landList t (s.setThr t { x with regs := { x.regs with pend := aged x.regs.pend, slot := x.regs.slot + 1 } }) (dueNow x.regs.pend) := by
  have hset : ∀ (s : State) (k : Nat) (x y : Thread), (s.setThr k x).setThr k y = s.setThr k y := by
    intro s k x y
    have : ∀ (m : Tab Thread), tset (tset m k x) k y = tset m k y := by
      intro m
      induction m with
      | nil => simp [tset]
      | cons c m ih =>
        simp only [tset]
        split
        · simp [tset]
        · split
          · simp [tset]
          · simp [tset, *]
    simp only [State.setThr, this]
  have hland (s : State) : landDue (countDown s t) t =
      landList t (s.setThr t { s.thr t with regs := { (s.thr t).regs with pend := aged (s.thr t).regs.pend, slot := (s.thr t).regs.slot + 1 } })
        (dueNow (s.thr t).regs.pend) := by
    simp only [landDue, countDown, State.thr_setThr_same, hset, landList, aged]
    rw [← List.foldl_map (f := fun p : Pend => p.eff) (g := landEff t)]
    congr 1
    simp only [dueNow, List.filter_map, List.map_map]
    have hp : ((fun p : Pend => decide (p.left = 0)) ∘ fun p : Pend => { p with left := p.left - 1 }) = fun p => decide (p.left ≤ 1) := by
      funext p; simp only [Function.comp]; congr 1; apply propext; omega
    rw [hp]; rfl
  simp only [tick, o.1, o.2, hland, List.isEmpty_nil, Bool.true_and, decide_true, if_true]

@[simp] theorem countSlot_cur (s : State) : (countSlot s).cur = s.cur := by
  unfold countSlot; dsimp only; split <;> rfl

theorem countSlot_regs (s : State) : (countSlot s).regs = s.regs := by
  unfold countSlot; dsimp only; split
  · rfl
  · simp [takeSlot, State.regs]

/-- Outside every frame a slot counted is a slot taken. -/
theorem countSlot_own {s : State} (h : (s.thr s.cur).stack = []) : countSlot s = takeSlot s := by
  have : (takeSlot s).cthr.stack.getLast? = none := by
    have e : (takeSlot s).cthr.stack = [] := h
    rw [e]; rfl
  unfold countSlot
  dsimp only
  rw [this]

theorem countSlot_slots (s : State) : (countSlot s).cctx.slots = s.cctx.slots + 1 := by
  unfold countSlot; dsimp only; split <;> simp [takeSlot]

/-- The state just before the results of a slot land. -/
def slotTaken (s : State) (next : Word) : State :=
  countSlot ((endWait s s.cur).setRegs ((endWait s s.cur).regs.goto next))

theorem slotTaken_regs (s : State) (next : Word) : (slotTaken s next).cur = s.cur ∧ ((slotTaken s next).thr s.cur).regs = s.regs.goto next := by
  have h1 : (slotTaken s next).cur = s.cur := by rw [slotTaken, countSlot_cur, State.setRegs_eq, State.setThr_cur, endWait_cur]
  refine ⟨h1, ?_⟩
  have h2 : (slotTaken s next).regs = s.regs.goto next := by
    rw [slotTaken, countSlot_regs, State.regs_setRegs]
    have : (endWait s s.cur).regs = s.regs := by
      show ((endWait s s.cur).thr (endWait s s.cur).cur).regs = _
      rw [endWait_cur]; exact (endWait_thr s s.cur s.cur).1
    rw [this]
  rw [← h2]; show _ = ((slotTaken s next).thr (slotTaken s next).cur).regs; rw [h1]

theorem slotTaken_own {s : State} (o : OwnStream s) (next : Word) : (slotTaken s next).Own s.cur := by
  refine ⟨?_, o.2⟩
  have h : ((endWait s s.cur).thr s.cur).stack = [] := (endWait_thr s s.cur s.cur).2.trans o.1
  have hs : (((endWait s s.cur).setRegs ((endWait s s.cur).regs.goto next)).thr s.cur).stack = [] := by
    simp only [State.setRegs_eq, endWait_cur, State.thr_setThr_same, h]
  have hc : ((endWait s s.cur).setRegs ((endWait s s.cur).regs.goto next)).cur = s.cur := by
    rw [State.setRegs_eq, State.setThr_cur, endWait_cur]
  rw [slotTaken, countSlot_own (by rw [hc]; exact hs)]
  exact hs

theorem endSlot_eq (s : State) (next : Word) : endSlot s next = tick (slotTaken s next) s.cur := by
  show tick (slotTaken s next) (slotTaken s next).cur = _
  rw [(slotTaken_regs s next).1]

theorem goto_rest (r : Regs) (next : Word) :
    (r.goto next).s = r.s ∧ (r.goto next).pend = r.pend ∧ (r.goto next).slot = r.slot ∧ (r.goto next).wb = r.wb ∧ (r.goto next).fs = r.fs
    ∧ (r.goto next).base = r.base ∧ (r.goto next).xi = r.xi ∧ (r.goto next).loops = r.loops ∧ (r.goto next).links = r.links
    ∧ (r.goto next).v = r.v ∧ (r.goto next).p = r.p ∧ (r.goto next).b = r.b ∧ (r.goto next).x = r.x ∧ (r.goto next).rrbV = r.rrbV ∧ (r.goto next).rrbP = r.rrbP := by
  unfold Regs.goto; (repeat' split) <;> simp

/-- The parts of the registers of a context's own stream at the end of a slot of its own; `next` is where the instruction itself goes. -/
theorem endSlot_regs {s : State} (o : OwnStream s) (next : Word) :
    let r := s.regs.goto next
    let u := tickWaking (slotTaken s next) (ctxOf s.cur)
    let t := endSlot s next
    t.cur = s.cur
    ∧ t.regs.s = ((landList s.cur (u.setThr s.cur { u.thr s.cur with
        regs := { (u.thr s.cur).regs with pend := aged s.regs.pend, slot := s.regs.slot + 1 } }) (dueNow s.regs.pend)).thr s.cur).regs.s
    ∧ (u.thr s.cur).regs.s = s.regs.s
    ∧ t.regs.pend = aged s.regs.pend ∧ t.regs.slot = s.regs.slot + 1 ∧ t.regs.pc = r.pc ∧ t.regs.xfer = r.xfer ∧ t.regs.shade = r.shade
    ∧ t.regs.wb = s.regs.wb ∧ t.regs.fs = s.regs.fs ∧ t.regs.base = s.regs.base ∧ t.regs.xi = s.regs.xi ∧ t.regs.loops = s.regs.loops ∧ t.regs.links = s.regs.links := by
  obtain ⟨hc, hr⟩ := slotTaken_regs s next
  have own := slotTaken_own o next
  have g := goto_rest s.regs next
  obtain ⟨v, hv⟩ := tickWaking_regs (slotTaken s next) (ctxOf s.cur) s.cur
  have uown := tickWaking_own own (ctxOf s.cur)
  have ucur := tickWaking_cur (slotTaken s next) (ctxOf s.cur)
  dsimp only
  generalize hu : tickWaking (slotTaken s next) (ctxOf s.cur) = u at *
  have key : endSlot s next = landList s.cur (u.setThr s.cur { u.thr s.cur with
      regs := { (u.thr s.cur).regs with pend := aged s.regs.pend, slot := s.regs.slot + 1 } }) (dueNow s.regs.pend) := by
    rw [endSlot_eq, tick_eq own, hu]
    dsimp only
    rw [hv, hr, g.2.1, g.2.2.1]
  have own2 : (u.setThr s.cur { u.thr s.cur with
      regs := { (u.thr s.cur).regs with pend := aged s.regs.pend, slot := s.regs.slot + 1 } }).Own s.cur := ⟨by simpa using uown.1, o.2⟩
  have rest := landList_rest own2 (dueNow s.regs.pend)
  simp only [State.thr_setThr_same] at rest
  have hcur : (endSlot s next).cur = s.cur := by rw [key, landList_cur own2]; simp [ucur, hc]
  have hregs : (endSlot s next).regs = ((endSlot s next).thr s.cur).regs := by show ((endSlot s next).thr (endSlot s next).cur).regs = _; rw [hcur]
  rw [hregs, key]
  obtain ⟨-, -, -, -, e1, e2, e3, e4, e5, e6, e7, e8, e9, e10, e11⟩ := rest
  rw [hv, hr] at *
  obtain ⟨g1, -, -, g4, g5, g6, g7, g8, g9, -⟩ := g
  exact ⟨by rw [← key]; exact hcur, rfl, g1, e7, e11, e8, e9, e10, e1.trans g4, e2.trans g5, e3.trans g6, e4.trans g7, e5.trans g8, e6.trans g9⟩

end Sys2Proof.Machine
end

