-- ==== Sys2Proof/Tests/Slice0.lean ====
section
/-! SUPPORT. Tests: ill-formed instructions refused, words of the manual's examples decoded, worked examples of the manual run for one step, and states that
meet the hypotheses of the statements. -/

namespace Sys2Proof.Tests

open Machine

set_option maxRecDepth 100000
set_option exponentiation.threshold 4096

/-! ## Ill-formed instructions are refused, one for each check of `Instr.illFormed` -/

theorem test_ill_bfx_field : (Instr.bfx false 20 21 32 32 true).illFormed = some "bfx field" := by decide
theorem test_ill_bfi_field : (Instr.bfi false 20 21 63 1).illFormed = some "bfi field" := by decide
theorem test_ill_fcvt_kinds : (Instr.fcvt false 20 21 .rne .i32 .i32).illFormed = some "fcvt kinds" := by decide
theorem test_ill_fcvt_rounding : (Instr.fcvt false 20 21 .rtz .i32 .i64).illFormed = some "fcvt rounding" := by decide
theorem test_ill_vcmp_condition : (Instr.vcmp false 1 4 5 .f32 .ltn).illFormed = some "vcmp condition" := by decide
theorem test_ill_loop_end : (Instr.loopImm false 3 0).illFormed = some "loop end" ∧ (Instr.loopReg false 20 0).illFormed = some "loop end" := by decide
theorem test_ill_enter_frame : (Instr.enter false 13).illFormed = some "enter frame" := by decide
theorem test_ill_semwait_amount : (Instr.semwait false 3 0).illFormed = some "semwait amount" := by decide
theorem test_ill_evpop_destination : (Instr.evpop false 0).illFormed = some "evpop destination" ∧ (Instr.evpop false 63).illFormed = some "evpop destination" := by decide
theorem test_ill_vrfon_clusters : (Instr.vrfon false 9).illFormed = some "vrfon clusters" := by decide
theorem test_ill_masks : (Instr.fork false 3).illFormed = some "fork mask" ∧ (Instr.rdv false 0).illFormed = some "rdv mask"
    ∧ (Instr.join false 0).illFormed = some "join mask" ∧ (Instr.qfence false 0).illFormed = some "qfence mask" := by decide
theorem test_ill_rcall_words : (Instr.rcall false 0x1002 false 0 (List.replicate 8 (.s 1))).illFormed = some "rcall operand words" := by decide
theorem test_ill_rcall_named : (Instr.rcall false 0x003 false 0 [.v 5, .v 4, .v 6, .fmt 1]).illFormed = some "rcall of a named routine" := by decide
theorem test_well_formed_borders : (Instr.bfx false 20 21 32 31 true).WellFormed ∧ (Instr.enter false 12).WellFormed ∧ (Instr.vrfon false 8).WellFormed
    ∧ (Instr.evpop false 62).WellFormed ∧ (Instr.rcall false 0x1002 false 0 (List.replicate 7 (.s 1))).WellFormed := by decide

/-! ## Words of the manual's examples, written out from the encodings of R55 to R64

Opcode in bits 31..26, the squash bit in 25, then the fields of the format. -/

/-- R56, majors 0x01. -/

theorem test_dec_integer :
    decodeWord 0x04A2AB00 = .ok (.add false 20 21 22)
    ∧ decodeWord 0x06A2AB01 = .ok (.sub true 20 21 22)
    ∧ decodeWord 0x04A2AB02 = .ok (.mul false 20 21 22)
    ∧ decodeWord 0x06A2AB03 = .ok (.mulh true 20 21 22)
    ∧ decodeWord 0x04A2AB04 = .ok (.div false 20 21 22)
    ∧ decodeWord 0x06A2AB05 = .ok (.rem true 20 21 22)
    ∧ decodeWord 0x04A2AB06 = .ok (.and false 20 21 22)
    ∧ decodeWord 0x06A2AB07 = .ok (.or true 20 21 22)
    ∧ decodeWord 0x04A2AB08 = .ok (.xor false 20 21 22)
    ∧ decodeWord 0x06A2AB09 = .ok (.shl true 20 21 22)
    ∧ decodeWord 0x04A2AB0A = .ok (.shr false 20 21 22)
    ∧ decodeWord 0x06A2AB0B = .ok (.sra true 20 21 22)
    ∧ decodeWord 0x04A2AB0C = .ok (.min false 20 21 22)
    ∧ decodeWord 0x06A2AB0D = .ok (.max true 20 21 22)
    ∧ decodeWord 0x05F8200E = .ok (.clz false 63 1)
    ∧ decodeWord 0x05F8200F = .ok (.popc false 63 1) := by
  and_intros <;> rfl

/-- R56, majors 0x02 to 0x09. -/

theorem test_dec_immediate :
    decodeWord 0x0828D000 = .ok (.addImm false 5 6 0x1000)
    ∧ decodeWord 0x0C28D001 = .ok (.mulImm false 5 6 0x1001)
    ∧ decodeWord 0x1028D002 = .ok (.andImm false 5 6 0x1002)
    ∧ decodeWord 0x1428D003 = .ok (.orImm false 5 6 0x1003)
    ∧ decodeWord 0x1828D004 = .ok (.xorImm false 5 6 0x1004)
    ∧ decodeWord 0x1C28C03F = .ok (.shlImm false 5 6 63)
    ∧ decodeWord 0x1C28C83E = .ok (.shrImm false 5 6 62)
    ∧ decodeWord 0x1C28D03D = .ok (.sraImm false 5 6 61)
    ∧ decodeWord 0x2028C7FF = .ok (.minImm false 5 6 0x7FF)
    ∧ decodeWord 0x2028D800 = .ok (.maxImm false 5 6 0x800)
    ∧ decodeWord 0x242FABCD = .ok (.lui false 5 0x7ABCD) := by
  and_intros <;> rfl

/-- R56, majors 0x0A to 0x0F. -/

theorem test_dec_fields :
    decodeWord 0x28A2A417 = .ok (.bfx false 20 21 8 11 true)
    ∧ decodeWord 0x2CA2A80E = .ok (.bfi false 20 21 16 7)
    ∧ decodeWord 0x30A2AB0F = .ok (.sel false 20 21 22 15)
    ∧ decodeWord 0x347AAB05 = .ok (.cmp false 15 21 22 .gen)
    ∧ decodeWord 0x387AAE00 = .ok (.cmpImm false 15 21 .ge 0x200)
    ∧ decodeWord 0x3C182108 = .ok (.plog false 3 1 2 8) := by
  and_intros <;> rfl

/-- R56, majors 0x10 to 0x13. -/

theorem test_dec_float :
    decodeWord 0x40F3F030 = .ok (.fadd false 30 31 32 .rdn)
    ∧ decodeWord 0x40F3F041 = .ok (.fmul false 30 31 32 .rna)
    ∧ decodeWord 0x40F3F002 = .ok (.fmin false 30 31 32)
    ∧ decodeWord 0x40F3F003 = .ok (.fmax false 30 31 32)
    ∧ decodeWord 0x403BF00B = .ok (.fcmp false 7 31 32 .ge)
    ∧ decodeWord 0x44F3F020 = .ok (.ffma false 30 31 32 .rup)
    ∧ decodeWord 0x48F3E013 = .ok (.fcvt false 30 31 .rtz .f32 .i64)
    ∧ decodeWord 0x4C180000 = .ok (.xclr false 3)
    ∧ decodeWord 0x4C128A81 = .ok (.xmac false 2 20 21)
    ∧ decodeWord 0x4C106002 = .ok (.xadd false 2 3)
    ∧ decodeWord 0x4D406043 = .ok (.xrnd false 40 3 .rna) := by
  and_intros <;> rfl

/-- R57 and R58. -/

theorem test_dec_memory :
    decodeWord 0x60B83006 = .ok (.ld false 23 1 0x200 .sw)
    ∧ decodeWord 0x64B82FFB = .ok (.st false 23 1 0x1FF .d)
    ∧ decodeWord 0x68A2AB69 = .ok (.amo false 20 21 22 .swap .die true)
    ∧ decodeWord 0x6CB82012 = .ok (.spl false 23 1 2 .w)
    ∧ decodeWord 0x70B8201B = .ok (.sps false 23 1 3 .d)
    ∧ decodeWord 0x76000000 = .ok (.mark true)
    ∧ decodeWord 0x80228013 = .ok (.vld false 4 20 2 .n32)
    ∧ decodeWord 0x84229FF8 = .ok (.vst false 4 20 0x3FF) := by
  and_intros <;> rfl

/-- R57, majors 0x22 to 0x29. -/

theorem test_dec_vector :
    decodeWord 0x883082C0 = .ok (.vadd false 6 4 5 .i32)
    ∧ decodeWord 0x88308290 = .ok (.vmul false 6 4 5 .f32)
    ∧ decodeWord 0x883082E3 = .ok (.vlog false 6 4 5 .andn)
    ∧ decodeWord 0x883082F2 = .ok (.vshf false 6 4 5 .sra)
    ∧ decodeWord 0x8C308280 = .ok (.vfma false 6 4 5)
    ∧ decodeWord 0x904882C4 = .ok (.vcmp false 9 4 5 .i32 .ltn)
    ∧ decodeWord 0x94308289 = .ok (.vsel false 6 4 5 9)
    ∧ decodeWord 0x98308280 = .ok (.vperm false 6 4 5)
    ∧ decodeWord 0x9C308002 = .ok (.vsplat false 6 4 .i32)
    ∧ decodeWord 0xA0C11F80 = .ok (.vext false 24 8 63)
    ∧ decodeWord 0xA4188000 = .ok (.vany false 3 4)
    ∧ decodeWord 0xA4188001 = .ok (.vall false 3 4) := by
  and_intros <;> rfl

/-- R59, majors 0x30 to 0x35. -/

theorem test_dec_control :
    decodeWord 0xC1FFFFFF = .ok (.prep false 7 0x3FFFFF)
    ∧ decodeWord 0xC4500003 = .ok (.xfer false 2 true 3)
    ∧ decodeWord 0xC8FFFE02 = .ok (.loopImm false 0xFFFE 2)
    ∧ decodeWord 0xC95000FF = .ok (.loopReg false 20 255)
    ∧ decodeWord 0xCC000000 = .ok (.loopb false)
    ∧ decodeWord 0xD0000380 = .ok (.call false 7)
    ∧ decodeWord 0xD0000001 = .ok (.ret false)
    ∧ decodeWord 0xD0000602 = .ok (.enter false 12)
    ∧ decodeWord 0xD4055E00 = .ok (.trap false 0xABC)
    ∧ decodeWord 0xD4000001 = .ok (.rte false) := by
  and_intros <;> rfl

/-- R59, majors 0x36 to 0x3B. -/

theorem test_dec_sync :
    decodeWord 0xD8FFE480 = .ok (.semsig false 31 63 9)
    ∧ decodeWord 0xD8F82001 = .ok (.semwait false 31 1)
    ∧ decodeWord 0xDC380000 = .ok (.mtxacq false 7)
    ∧ decodeWord 0xDC300001 = .ok (.mtxrel false 6)
    ∧ decodeWord 0xE0000700 = .ok (.fork false 14)
    ∧ decodeWord 0xE0000481 = .ok (.rdv false 9)
    ∧ decodeWord 0xE4084188 = .ok (.waitc false 1 2 3 4)
    ∧ decodeWord 0xE8000280 = .ok (.join false 5)
    ∧ decodeWord 0xE8000301 = .ok (.qfence false 6)
    ∧ decodeWord 0xEC000006 = .ok (.bar false .pod) := by
  and_intros <;> rfl

/-- R59, majors 0x3C to 0x3E. -/

theorem test_dec_system :
    decodeWord 0xF0A01080 = .ok (.csrr false 20 0x021)
    ∧ decodeWord 0xF0A00301 = .ok (.csrw false 20 0x006)
    ∧ decodeWord 0xF0000002 = .ok (.halt false)
    ∧ decodeWord 0xF1F00003 = .ok (.evpop false 62)
    ∧ decodeWord 0xF0480004 = .ok (.rpop false 9)
    ∧ decodeWord 0xF0000405 = .ok (.vrfon false 8)
    ∧ decodeWord 0xF0A2A786 = .ok (.tnext false 20 21 15)
    ∧ decodeWord 0xF4000000 = .ok (.nop false)
    ∧ decodeWord 0xF8000000 = .ok (.rchk false)
    ∧ decodeWord 0xF8000001 = .ok (.rret false) := by
  and_intros <;> rfl

/-- R258's first words with operand words of R61. -/

theorem test_dec_elementwise :
    decodeWords [0xFC000300, 0x10000010, 0x10000011, 0x9000012F] = .ok (.vcvt false 16 17 0x12F)
    ∧ decodeWords [0xFC000B00, 0x10000010, 0x10000011, 0x9000012F] = .ok (.vqnt false 16 17 0x12F)
    ∧ decodeWords [0xFC001300, 0x10000010, 0x10000011, 0x9000012F] = .ok (.vdqnt false 16 17 0x12F)
    ∧ decodeWords [0xFC001C00, 0x10000010, 0x10000011, 0x10000012, 0x9000012F] = .ok (.vfadd false 16 17 18 0x12F)
    ∧ decodeWords [0xFC002400, 0x10000010, 0x10000011, 0x10000012, 0x9000012F] = .ok (.vfsub false 16 17 18 0x12F)
    ∧ decodeWords [0xFC002C00, 0x10000010, 0x10000011, 0x10000012, 0x9000012F] = .ok (.vfmul false 16 17 18 0x12F)
    ∧ decodeWords [0xFC003400, 0x10000010, 0x10000011, 0x10000012, 0x9000012F] = .ok (.vffma false 16 17 18 0x12F)
    ∧ decodeWords [0xFC003C00, 0x10000010, 0x10000011, 0x10000012, 0x9000012F] = .ok (.vfmin false 16 17 18 0x12F)
    ∧ decodeWords [0xFC004400, 0x10000010, 0x10000011, 0x10000012, 0x9000012F] = .ok (.vfmax false 16 17 18 0x12F)
    ∧ decodeWords [0xFC004B00, 0x10000010, 0x10000011, 0x9000012F] = .ok (.vfabs false 16 17 0x12F)
    ∧ decodeWords [0xFC005300, 0x10000010, 0x10000011, 0x9000012F] = .ok (.vfneg false 16 17 0x12F)
    ∧ decodeWords [0xFC005D00, 0x10000010, 0x10000011, 0x10000012, 0x10000013, 0x9000012F] = .ok (.vclamp false 16 17 18 19 0x12F)
    ∧ decodeWords [0xFC006400, 0x10000010, 0x10000011, 0x10000012, 0x9000012F] = .ok (.vsadd false 16 17 18 0x12F)
    ∧ decodeWords [0xFC006C00, 0x10000010, 0x10000011, 0x10000012, 0x9000012F] = .ok (.vssub false 16 17 18 0x12F)
    ∧ decodeWords [0xFC007400, 0x10000010, 0x10000011, 0x10000012, 0x9000012F] = .ok (.vsmul false 16 17 18 0x12F)
    ∧ decodeWords [0xFC007C00, 0x10000010, 0x10000011, 0x10000012, 0x9000012F] = .ok (.vidot false 16 17 18 0x12F)
    ∧ decodeWords [0xFC008400, 0x10000010, 0x10000011, 0x00000012, 0x9000012F] = .ok (.vscale false 16 17 18 0x12F)
    ∧ decodeWords [0xFC008B00, 0x10000010, 0x10000011, 0x9000012F] = .ok (.vtag false 16 17 0x12F)
    ∧ decodeWords [0xFC009300, 0x10000010, 0x10000011, 0x9000012F] = .ok (.vpack false 16 17 0x12F)
    ∧ decodeWords [0xFC009B00, 0x10000010, 0x10000011, 0x5800000C] = .ok (.vunpk false 16 17 0x800000c)
    ∧ decodeWords [0xFC00A400, 0x10000010, 0x10000011, 0x10000012, 0x5800000D] = .ok (.vzip false 16 17 18 0x800000d)
    ∧ decodeWords [0xFC00AC00, 0x10000010, 0x10000011, 0x10000012, 0x5800000D] = .ok (.vuzp false 16 17 18 0x800000d)
    ∧ decodeWords [0xFC00B400, 0x10000010, 0x10000011, 0x10000012, 0x5800000D] = .ok (.vshuf false 16 17 18 0x800000d)
    ∧ decodeWords [0xFC00BC00, 0x10000010, 0x00000011, 0x10000012, 0x20000006] = .ok (.vcompr false 16 17 18 6)
    ∧ decodeWords [0xFC00C300, 0x10000010, 0x10000011, 0x20000005] = .ok (.vexpnd false 16 17 5)
    ∧ decodeWords [0xFC00CB00, 0x10000010, 0x10000011, 0x9000012F] = .ok (.vscan false 16 17 0x12F)
    ∧ decodeWords [0xFC00D300, 0x10000010, 0x00000011, 0x00000012] = .ok (.viota false 16 17 18) := by
  and_intros <;> rfl

/-- R278's first words with operand words of R61. -/

theorem test_dec_reduction :
    decodeWords [0xFC010400, 0x00000010, 0x10000011, 0x20000005, 0x9000012F] = .ok (.vrsum false 16 17 5 0x12F)
    ∧ decodeWords [0xFC010D00, 0x00000010, 0x00000011, 0x10000012, 0x20000006, 0x9000012F] = .ok (.vrmax false 16 17 18 6 0x12F)
    ∧ decodeWords [0xFC011500, 0x00000010, 0x00000011, 0x10000012, 0x20000006, 0x9000012F] = .ok (.vrmin false 16 17 18 6 0x12F)
    ∧ decodeWords [0xFC011D00, 0x00000010, 0x10000011, 0x10000012, 0x20000006, 0x9000012F] = .ok (.vrdot false 16 17 18 6 0x12F)
    ∧ decodeWords [0xFC012300, 0x10000010, 0x10000011, 0x9000012F] = .ok (.vexp false 16 17 0x12F)
    ∧ decodeWords [0xFC012B00, 0x10000010, 0x10000011, 0x9000012F] = .ok (.vexp2 false 16 17 0x12F)
    ∧ decodeWords [0xFC013300, 0x10000010, 0x10000011, 0x9000012F] = .ok (.vlog2 false 16 17 0x12F)
    ∧ decodeWords [0xFC013B00, 0x10000010, 0x10000011, 0x9000012F] = .ok (.vrcp false 16 17 0x12F)
    ∧ decodeWords [0xFC014300, 0x10000010, 0x10000011, 0x9000012F] = .ok (.vrsqrt false 16 17 0x12F)
    ∧ decodeWords [0xFC014B00, 0x10000010, 0x10000011, 0x9000012F] = .ok (.vsqrt false 16 17 0x12F)
    ∧ decodeWords [0xFC015300, 0x10000010, 0x10000011, 0x9000012F] = .ok (.vtanh false 16 17 0x12F)
    ∧ decodeWords [0xFC015B00, 0x10000010, 0x10000011, 0x9000012F] = .ok (.vsigm false 16 17 0x12F)
    ∧ decodeWords [0xFC016300, 0x10000010, 0x10000011, 0x9000012F] = .ok (.vgelu false 16 17 0x12F)
    ∧ decodeWords [0xFC016B00, 0x10000010, 0x10000011, 0x9000012F] = .ok (.vsilu false 16 17 0x12F)
    ∧ decodeWords [0xFC017500, 0x10000010, 0x10000011, 0x00000012, 0x00000013, 0x9000012F] = .ok (.vsoftmx false 16 17 18 19 0x12F)
    ∧ decodeWords [0xFC017C00, 0x00000010, 0x10000011, 0x00000012, 0x9000012F] = .ok (.vexpsum false 16 17 18 0x12F)
    ∧ decodeWords [0xFC018500, 0x00000010, 0x00000011, 0x10000012, 0x00000013, 0x9000012F] = .ok (.vnormst false 16 17 18 19 0x12F)
    ∧ decodeWords [0xFC018F00, 0x10000010, 0x10000011, 0x00000012, 0x00000013, 0x00000014, 0x00000015, 0x9000012F] = .ok (.vnormap false 16 17 18 19 20 21 0x12F)
    ∧ decodeWords [0xFC019600, 0x10000010, 0x10000011, 0x10000012, 0x00000013, 0x00000014, 0x9000012F] = .ok (.vtopk false 16 17 18 19 20 0x12F)
    ∧ decodeWords [0xFC019E00, 0x10000010, 0x10000011, 0x10000012, 0x00000013, 0x00000014, 0x9000012F] = .ok (.vtopka false 16 17 18 19 20 0x12F)
    ∧ decodeWords [0xFC01A400, 0x10000010, 0x10000011, 0x10000012, 0x9000012F] = .ok (.vsort false 16 17 18 0x12F)
    ∧ decodeWords [0xFC01AD00, 0x10000010, 0x10000011, 0x10000012, 0x10000013, 0x9000012F] = .ok (.vmerge false 16 17 18 19 0x12F)
    ∧ decodeWords [0xFC01B600, 0x00000010, 0x10000011, 0x10000012, 0x00000013, 0x00000014, 0x9000012F] = .ok (.vmpsrch false 16 17 18 19 20 0x12F)
    ∧ decodeWords [0xFC01FC00, 0x00000010, 0x10000011, 0x20000005, 0x9000012F] = .ok (.vrsums false 16 17 5 0x12F) := by
  and_intros <;> rfl

/-- R303. -/

theorem test_dec_matrix :
    decodeWords [0xFC020500, 0x30000005, 0x00000011, 0x00000012, 0x00000013, 0x00000014] = .ok (.mdesc false 5 17 18 19 20)
    ∧ decodeWords [0xFC020C00, 0x5800000A, 0x00000011, 0x00000012, 0x00000013] = .ok (.mnest false 0x800000a 17 18 19)
    ∧ decodeWords [0xFC0216E0, 0x30000005, 0x30000006, 0x40000012, 0x00000013, 0x5800000E, 0x70000009] = .ok (.mgo false 5 6 18 19 0x800000e 9)
    ∧ decodeWords [0xFC021B00, 0x40000010, 0x00000011, 0x9000012F] = .ok (.acalloc false 16 17 0x12F)
    ∧ decodeWords [0xFC022100, 0x40000010] = .ok (.acfree false 16)
    ∧ decodeWords [0xFC022B00, 0x40000010, 0x5800000B, 0x00000012] = .ok (.acown false 16 0x800000b 18)
    ∧ decodeWords [0xFC0234E0, 0x40000010, 0x00000011, 0x5800000C, 0x70000009] = .ok (.mzero false 16 17 0x800000c 9)
    ∧ decodeWords [0xFC023DE0, 0x40000010, 0x30000006, 0x00000012, 0x5800000D, 0x70000009] = .ok (.mldacc false 16 6 18 0x800000d 9)
    ∧ decodeWords [0xFC0246E0, 0x40000010, 0x30000006, 0x00000012, 0x9000012F, 0x5800000E, 0x70000009] = .ok (.mdrain false 16 6 18 0x12F 0x800000e 9)
    ∧ decodeWords [0xFC024EE0, 0x40000010, 0x00000011, 0x00000012, 0x9000012F, 0x5800000E, 0x70000009] = .ok (.mpeer false 16 17 18 0x12F 0x800000e 9)
    ∧ decodeWords [0xFC025200, 0x00000010, 0x5800000B] = .ok (.mstat false 16 0x800000b)
    ∧ decodeWords [0xFC025900, 0x5800000A] = .ok (.mcast false 0x800000a)
    ∧ decodeWords [0xFC026200, 0x5800000A, 0x00000011] = .ok (.mscale false 0x800000a 17)
    ∧ decodeWords [0xFC026A00, 0x5800000A, 0x00000011] = .ok (.mbias false 0x800000a 17)
    ∧ decodeWords [0xFC027000] = .ok (.mqflush false) := by
  and_intros <;> rfl

/-- R341. -/

theorem test_dec_sparsity :
    decodeWords [0xFC030300, 0x00000010, 0x00000011, 0x00000012] = .ok (.sphdr false 16 17 18)
    ∧ decodeWords [0xFC030A00, 0x00000010, 0x30000006] = .ok (.spchk false 16 6)
    ∧ decodeWords [0xFC031300, 0x30000005, 0x30000006, 0x00000012] = .ok (.spprune false 5 6 18)
    ∧ decodeWords [0xFC031A00, 0x30000005, 0x30000006] = .ok (.spxpose false 5 6)
    ∧ decodeWords [0xFC032300, 0x5800000A, 0x10000011, 0x00000012] = .ok (.spgath false 0x800000a 17 18)
    ∧ decodeWords [0xFC032C00, 0x00000010, 0x00000011, 0x00000012, 0x9000012F] = .ok (.spcost false 16 17 18 0x12F)
    ∧ decodeWords [0xFC033200, 0x30000005, 0x00000011] = .ok (.spattach false 5 17) := by
  and_intros <;> rfl

/-- R194. -/

theorem test_dec_copy :
    decodeWords [0xFC0385C0, 0x00000010, 0x00000011, 0x00000012, 0x5800000D, 0x70000009] = .ok (.cpy false 16 17 18 0x800000d 9)
    ∧ decodeWords [0xFC038FC0, 0x00000010, 0x00000011, 0x00000012, 0x00000013, 0x00000014, 0x5800000F, 0x70000009] = .ok (.cpyg false 16 17 18 19 20 0x800000f 9)
    ∧ decodeWords [0xFC0397C0, 0x00000010, 0x00000011, 0x00000012, 0x00000013, 0x00000014, 0x5800000F, 0x70000009] = .ok (.cpys false 16 17 18 19 20 0x800000f 9)
    ∧ decodeWords [0xFC039FC0, 0x00000010, 0x00000011, 0x00000012, 0x00000013, 0x00000014, 0x5800000F, 0x70000009] = .ok (.cpysa false 16 17 18 19 20 0x800000f 9)
    ∧ decodeWords [0xFC03A5C0, 0x00000010, 0x00000011, 0x00000012, 0x5800000D, 0x70000009] = .ok (.cpyf false 16 17 18 0x800000d 9)
    ∧ decodeWords [0xFC03AFC0, 0x00000010, 0x00000011, 0x00000012, 0x00000013, 0x9000012F, 0x5800000F, 0x70000009] = .ok (.cpyc false 16 17 18 19 0x12F 0x800000f 9)
    ∧ decodeWords [0xFC03B6C0, 0x00000010, 0x00000011, 0x00000012, 0x9000012F, 0x5800000E, 0x70000009] = .ok (.cpyw false 16 17 18 0x12F 0x800000e 9)
    ∧ decodeWords [0xFC03BBC0, 0x5800000A, 0x5800000B, 0x70000009] = .ok (.cpyres false 0x800000a 0x800000b 9)
    ∧ decodeWords [0xFC03C200, 0x5800000A, 0x5800000B] = .ok (.cpyabt false 0x800000a 0x800000b)
    ∧ decodeWords [0xFC03CCC0, 0x81000ABC, 0x00000011, 0x5800000C, 0x70000009] = .ok (.qpush false (.stage 0xABC) 17 0x800000c 9)
    ∧ decodeWords [0xFC03D4C0, 0x00000010, 0x81000ABC, 0x5800000C, 0x70000009] = .ok (.qpop false 16 (.stage 0xABC) 0x800000c 9)
    ∧ decodeWords [0xFC03DBC0, 0x81000ABC, 0x5800000B, 0x70000009] = .ok (.qflush false (.stage 0xABC) 0x800000b 9)
    ∧ decodeWords [0xFC03E400, 0x5800000A, 0x00000011, 0x00000012, 0x00000013] = .ok (.rgmap false 0x800000a 17 18 19)
    ∧ decodeWords [0xFC03EBC0, 0x5800000A, 0x5800000B, 0x70000009] = .ok (.rgflush false 0x800000a 0x800000b 9)
    ∧ decodeWords [0xFC03F3C0, 0x5800000A, 0x5800000B, 0x70000009] = .ok (.rgdrop false 0x800000a 0x800000b 9)
    ∧ decodeWords [0xFC03F900, 0x5800000A] = .ok (.evarm false 0x800000a)
    ∧ decodeWords [0xFC047EC0, 0x00000010, 0x00000011, 0x00000012, 0x00000013, 0x5800000E, 0x70000009] = .ok (.cpy2d false 16 17 18 19 0x800000e 9) := by
  and_intros <;> rfl

/-- R378. -/

theorem test_dec_selection :
    decodeWords [0xFC048200, 0x00000010, 0x00000011] = .ok (.slcfg false 16 17)
    ∧ decodeWords [0xFC048AC0, 0x10000010, 0x5800000B] = .ok (.slq false 16 0x800000b)
    ∧ decodeWords [0xFC0494C0, 0x00000010, 0x00000011, 0x5800000C, 0x70000009] = .ok (.slsum false 16 17 0x800000c 9)
    ∧ decodeWords [0xFC049DC0, 0x00000010, 0x00000011, 0x00000012, 0x5800000D, 0x70000009] = .ok (.slscore false 16 17 18 0x800000d 9)
    ∧ decodeWords [0xFC04A4C0, 0x00000010, 0x00000011, 0x5800000C, 0x70000009] = .ok (.sltopk false 16 17 0x800000c 9)
    ∧ decodeWords [0xFC04AAC0, 0x10000010, 0x00000011] = .ok (.slforce false 16 17)
    ∧ decodeWords [0xFC04B5C0, 0x00000010, 0x00000011, 0x00000012, 0x5800000D, 0x70000009] = .ok (.slfetch false 16 17 18 0x800000d 9)
    ∧ decodeWords [0xFC04B9C0, 0x5800000A] = .ok (.slres false 0x800000a) := by
  and_intros <;> rfl

/-- R353. -/

theorem test_dec_tile :
    decodeWords [0xFC050200, 0x00000010, 0x00000011] = .ok (.tmmul false 16 17)
    ∧ decodeWords [0xFC050A00, 0x00000010, 0x00000011] = .ok (.tspmul false 16 17)
    ∧ decodeWords [0xFC051200, 0x00000010, 0x00000011] = .ok (.tewise false 16 17)
    ∧ decodeWords [0xFC051A00, 0x00000010, 0x00000011] = .ok (.tred false 16 17)
    ∧ decodeWords [0xFC052200, 0x00000010, 0x00000011] = .ok (.tcopy false 16 17)
    ∧ decodeWords [0xFC052A00, 0x00000010, 0x00000011] = .ok (.tattn false 16 17)
    ∧ decodeWords [0xFC053200, 0x00000010, 0x5800000B] = .ok (.tstage false 16 0x800000b)
    ∧ decodeWords [0xFC053A00, 0x00000010, 0x5800000B] = .ok (.tdisp false 16 0x800000b)
    ∧ decodeWords [0xFC054100, 0x00000010] = .ok (.twait false 16)
    ∧ decodeWords [0xFC054A00, 0x00000010, 0x00000011] = .ok (.tfault false 16 17) := by
  and_intros <;> rfl

/-- R60 and R63: the worked call, of a routine of the binary. -/
theorem test_dec_rcall : decodeWords [0xFC800200, 0x00000014, 0x10000005] = .ok (.rcall false 0x1000 false 0 [.s 20, .v 5]) := by rfl
/-- R419: the four encodings it gives. -/
theorem test_dec_firmware : decodeFirmware 0x00C5850B = some (.ringf 10 11 12) ∧ decodeFirmware 0x00C5950B = some (.fbfx 10 11 12)
    ∧ decodeFirmware 0x0005A50B = some (.sigw 10 11) ∧ decodeFirmware 0x0005B50B = some (.disp 10 11) := by decide

/-- R56: words with no instruction. -/
theorem test_dec_reserved : (∃ e, decodeWord 0x00000000 = .error e) ∧ (∃ e, decodeWord 0x50000000 = .error e) ∧ (∃ e, decodeWord 0x40F3F051 = .error e)
    ∧ (∃ e, decodeWord 0x48A2A010 = .error e) ∧ (∃ e, decodeWord 0x6A802000 = .error e) ∧ (∃ e, decodeWords [0xFC800100, 0xA0000000] = .error e)
    ∧ (∃ e, decodeWords [0xFC800100, 0x60000000] = .error e) := by
  and_intros <;> exact ⟨_, rfl⟩

/-! ## Small states -/

/-- Strand k of resident 1 of core 0, whose four strands run: `ctl`, `mtx`, `cpy`, `sel`. -/
def seat (k : Nat) : State :=
  let s := State.reset.withCode []
  let c : Ctx := { Ctx.reset with run := .running, start := 0x10000, awake := 0xFF }
  { s with agenda := [], cur := mainOf (ctxKey 1 k), ctxs := [(4, c), (5, c), (6, c), (7, c)] }

def ctl : State := seat 0

/-- Scalar registers set by name. -/
def poke (s : State) (xs : List (Nat × Word)) : State :=
  s.setRegs { s.regs with s := xs.foldl (fun m x => tset m (s.regs.skey x.1) x.2) s.regs.s }

/-- A vector register set: its tag, and its lanes from lane 0 on. -/
def vec (s : State) (n : Nat) (tag : BitVec 5) (xs : List W32) : State :=
  s.setRegs { s.regs with v := tset s.regs.v n ⟨BitVec.ofNat 2048 ((xs.zip (List.range 64)).foldl (fun n x => n + x.1.toNat * 2 ^ (32 * x.2)) 0), 0, tag⟩ }

/-- The current stream's registers, the current context, resident and core changed. -/
def onRegs (s : State) (f : Regs → Regs) : State := s.setRegs (f s.regs)
def onCtx (s : State) (f : Ctx → Ctx) : State := s.setCctx (f s.cctx)
def onRes (s : State) (f : Res → Res) : State := s.setCres (f s.cres)
def onCore (s : State) (f : Core → Core) : State := s.setCore (nodeOf s.w) (f (s.core (nodeOf s.w)))
def onThr (s : State) (f : Thread → Thread) : State := s.setCthr (f s.cthr)

/-- The state some idle slots after an outcome. -/
def after (k : Nat) (o : Done) : State := match o with | .next t => idle k t | _ => State.reset

/-- A scalar register some idle slots after an instruction. -/
def got (k : Nat) (i : Instr) (s : State) (d : BitVec 6) : Word := (after k (exec i s)).regs.sread d

/-- What a translation or a check answers, put to a decidable question. -/
theorem ok_of {ε α : Type} {r : Except ε α × State} {p : α → State → Prop} [∀ a s, Decidable (p a s)]
    (h : (match r with | (.ok a, s) => decide (p a s) | _ => false) = true) : ∃ a s, r = (.ok a, s) ∧ p a s := by
  obtain ⟨e | a, s⟩ := r
  · cases h
  · exact ⟨a, s, rfl, of_decide_eq_true h⟩

theorem error_of {ε α : Type} {r : Except ε α × State} {p : ε → State → Prop} [∀ a s, Decidable (p a s)]
    (h : (match r with | (.error a, s) => decide (p a s) | _ => false) = true) : ∃ a s, r = (.error a, s) ∧ p a s := by
  obtain ⟨e | a, s⟩ := r
  · exact ⟨e, s, rfl, of_decide_eq_true h⟩
  · cases h

/-- What an `Except` answers, put to a question. -/
def okAnd {ε α : Type} (r : Except ε α) (p : α → Bool) : Bool := match r with | .ok a => p a | _ => false

theorem exc_of {ε α : Type} {r : Except ε α} {p : α → Bool} (h : okAnd r p = true) : ∃ a, r = .ok a ∧ p a = true := by
  cases r with
  | error e => cases h
  | ok a => exact ⟨a, rfl, h⟩

/-! ## Worked examples of the manual, one step each -/

/-- R130: the example of `BFX`. -/
theorem test_bfx : got 0 (.bfx false 20 21 8 11 true) (poke ctl [(21, 0x00ABC000)]) 20 = 0xFFFFFFFFFFFFFBC0 := by decide
theorem test_mulh_negative : got 2 (.mulh false 20 21 22) (poke ctl [(21, 0xFFFFFFFFFFFFFFFF), (22, 2)]) 20 = 0xFFFFFFFFFFFFFFFF := by decide
theorem test_mul_lands_at_three : got 1 (.mul false 20 21 22) (poke ctl [(20, 9), (21, 3), (22, 4)]) 20 = 9 := by decide
theorem test_add_source_is_destination : got 0 (.add false 20 20 20) (poke ctl [(20, 0xFFFFFFFFFFFFFFFF)]) 20 = 0xFFFFFFFFFFFFFFFE := by decide
theorem test_zero_register_discards : got 0 (.addImm false 0 21 1) (poke ctl [(21, 3)]) 0 = 0 := by decide
/-- R128: -2^63 over -1, and a zero divisor. -/
theorem test_div_borders : got 11 (.div false 20 21 22) (poke ctl [(21, 0x8000000000000000), (22, 0xFFFFFFFFFFFFFFFF)]) 20 = 0x8000000000000000
    ∧ got 11 (.rem false 20 21 22) (poke ctl [(21, 5), (22, 0)]) 20 = 5 := by decide
theorem test_sra_immediate : got 0 (.sraImm false 20 21 63) (poke ctl [(21, 0x8000000000000000)]) 20 = 0xFFFFFFFFFFFFFFFF := by decide
theorem test_max_immediate_is_signed : got 0 (.maxImm false 20 21 0xFFB) (poke ctl [(21, 0xFFFFFFFFFFFFFF00)]) 20 = 0xFFFFFFFFFFFFFFFB := by decide
theorem test_lui_negative : got 0 (.lui false 20 0x40000) ctl 20 = 0xFFFFFFFF80000000 := by decide
/-- R136: the example sum under `.rup`. -/
theorem test_fadd : got 2 (.fadd false 20 21 22 .rup) (poke ctl [(21, 0x3F800000), (22, 0x33800000)]) 20 = 0x3F800001 := by decide
theorem test_vadd : (((after 1 (exec (.vadd false 6 4 5 .f32) (vec (vec ctl 4 1 [0x3F800000]) 5 1 [0x3F800000]))).regs.v).any fun e => e.1 = 6 && e.2.data.extractLsb' 0 32 = 0x40000000) = true := by decide
theorem test_st_ld_bantam : got 0 (.spl false 20 21 1 .sw) (after 0 (exec (.sps false 22 21 1 .w) (poke ctl [(21, 8), (22, 0x1_FFFFFFF0)]))) 20 = 0xFFFFFFFFFFFFFFF0 := by decide
theorem test_loopb_rotates : let t := after 0 (exec (.loopb false) (onRegs ctl fun r => { r with loops := [⟨0xFFF0, r.pc, 2⟩] }))
    t.regs.pc = 0xFFF0 ∧ t.regs.rrbV = 31 ∧ t.regs.rrbP = 7 := by decide
theorem test_trap_enters_handler : let t := after 0 (exec (.trap false 5) (onCtx ctl fun c => { c with tvec := 0x20000 }))
    t.regs.pc = 0x20000 ∧ t.cctx.cause = 0x50008 ∧ t.cctx.epc = 0x10004 := by decide
theorem test_csrr_path : got 0 (.csrr false 20 0x012) ctl 20 = 512 := by decide

/-! ## A program in place runs with the next step -/

/-- `ADD` with its immediate: `s21 = s20 + 3`. -/
theorem test_step_runs_word : (match step (State.reset.withFetchWord 32 0x08AA8003) with | .next t => idle 0 t |>.regs.sread 21 | _ => 0) = 3 := by decide
theorem test_step_runs_firmware_word : (match step (State.reset.withFetchWord 32 0x00C5950B) with | .next t => t.fw.pc | _ => 0) = 4 := by decide
theorem test_step_runs_call : (match step (State.reset.withFetchWord 128 0x00000014_00000016_10000012_FC00D300) with | .next t => t.regs.pc | _ => 0) = 0x10010 := by decide +kernel

/-! ## States that meet the hypotheses of the statements: each theorem names its statement, and takes the hypotheses of its clauses in turn, at the values where they meet -/

def nums : State := poke ctl [(21, 100), (22, 7), (23, 0x8000000000000000), (24, 0xFFFFFFFFFFFFFFFF), (25, 0x3F800000), (26, 0x33800000), (27, 0x7F800001), (28, 0x7F800000)]

theorem witness_IntegerRegisterForms : Live nums false ∧ Live nums true ∧ nums.s 22 ≠ 0 ∧ (22 : BitVec 6) ≠ 0 := by decide

theorem witness_DivisionBorders : let t := onCtx nums fun c => { c with status := 0x200000 }
    Live nums false ∧ Live t false ∧ nums.s 20 = 0 ∧ nums.cctx.status.getLsbD 21 = false ∧ t.s 20 = 0 ∧ t.cctx.status.getLsbD 21 = true
    ∧ nums.s 23 = 0x8000000000000000 ∧ nums.s 24 = 0xFFFFFFFFFFFFFFFF ∧ nums.s 24 ≠ 0 := by decide

theorem witness_IntegerImmediateForms : Live nums false ∧ (0x1800 : BitVec 13).extractLsb' 11 2 = 3 ∧ (0x40 : BitVec 13).extractLsb' 6 5 ≠ 0 := by decide

theorem witness_FieldsAndSelection : Live nums false ∧ OwnStream nums ∧ (32 : BitVec 6).toNat + (31 : BitVec 6).toNat + 1 ≤ 64 ∧ 0 = pphys nums.regs.rrbP (0 : BitVec 4).toNat
    ∧ 64 < (33 : BitVec 6).toNat + (62 : BitVec 7).toNat / 2 + 1 ∧ (63 : BitVec 7).getLsbD 0 = true := by decide

theorem witness_ComparesAndPredicates : Live nums false ∧ OwnStream nums
    ∧ 15 < (16 : BitVec 6).toNat ∧ 6 ≤ (6 : BitVec 7).toNat % 8 ∧ 6 ≤ (0x1800 : BitVec 13).toNat / 2 ^ 10 := by decide

/-- One result in flight to another register, and none; latencies 1 and 2, where the two cases of each reading meet. -/
theorem witness_ResultsLandAtTheirSlots : let t := onRegs nums fun r => { r with pend := [⟨2, 0, false, .sreg 30 1⟩] }
    (20 : BitVec 6) ≠ 0 ∧ 1 ≤ 1 ∧ (∀ p ∈ t.regs.pend, p.eff = .sreg 30 1) ∧ t.regs.skey (20 : BitVec 6).toNat ≠ 30
    ∧ 2 ≤ 2 ∧ nums.regs.pend = [] := by decide

theorem witness_SlotEnds : nums.regs.xfer = none ∧ (onRegs nums fun r => { r with xfer := some (0x20000, 2) }).regs.xfer = some (0x20000, 2) ∧ 2 ≤ 2
    ∧ (onRegs nums fun r => { r with xfer := some (0x20000, 1) }).regs.xfer = some (0x20000, 1) := by decide

/-- The scalar positions at both borders of the window. -/
theorem witness_IssueFrame : (∀ e ∈ [Effect.sreg 15 1, .sreg 16 1, .sreg 63 1, .vreg 6 VReg.cold, .sticky 8], e.plain nums.regs) ∧ nums.regs.pend = []
    ∧ nums.cthr.wait = none ∧ nums.cctx.waking = [] ∧ (let u := { nums with cur := nums.cur + 1 }; u.cur ≠ mainOf u.w) := by
  refine ⟨?_, by decide, by decide, by decide, by decide⟩
  intro e he
  simp only [List.mem_cons, List.not_mem_nil, or_false] at he
  rcases he with rfl | rfl | rfl | rfl | rfl <;> simp only [Effect.plain] <;> decide

theorem witness_SquashedInstruction : (onRegs nums fun r => { r with xfer := some (0x20000, 2) }).regs.xfer.isSome = true := by decide

theorem witness_ScalarFloat : Live nums false ∧ NoTraps nums ∧ OwnStream nums := by decide

/-- A sum that raises `NX` alone, enabled; and `NV`, the lowest, of each other instruction. The accumulators stand at the border of their range for `OF`. -/
theorem witness_ArithmeticTraps_add : let t := onCtx nums fun c => { c with status := 0x100000 }
    Live t false ∧ 3 ≤ 7 ∧ 7 ≤ 8 ∧ (f32Add .rne (t.f 25) (t.f 26)).2.getLsbD 7 = true ∧ t.cctx.status.getLsbD (7 + 13) = true
    ∧ ∀ m ∈ [3, 4, 5, 6], ¬((f32Add .rne (t.f 25) (t.f 26)).2.getLsbD m = true ∧ t.cctx.status.getLsbD (m + 13) = true) := by decide
theorem witness_ArithmeticTraps_nv : let t := onCtx nums fun c => { c with status := 0x10000 }
    Live t false ∧ t.cctx.status.getLsbD (3 + 13) = true ∧ (f32Mul .rne (t.f 20) (t.f 28)).2.getLsbD 3 = true ∧ (f32Min (t.f 27) (t.f 25)).2.getLsbD 3 = true
    ∧ (f32Fma .rne (t.f 27) (t.f 25) (t.f 25)).2.getLsbD 3 = true ∧ ∀ m < 3, ¬3 ≤ m := by decide
theorem witness_ArithmeticTraps_of : let x : XAcc := ⟨BitVec.ofNat 640 (2 ^ 639 - 2 ^ 320), false, false, false⟩
    let t := onRegs (onCtx nums fun c => { c with status := 0x40000 }) fun r => { r with x := [(1, x)], xi := [(1, x)] }
    t.cctx.status.getLsbD (5 + 13) = true ∧ ((xIssued t 1).mac (t.f 25) (t.f 25)).2 = 0x20 ∧ ((xIssued t 1).add (xSeen t 1)).2 = 0x20 := by decide

theorem witness_FloatSpecials : 0x7F800000 < ((0x7F800001 : W32) &&& 0x7FFFFFFF).toNat ∧ (0x7F800001 : W32).getLsbD 22 = false
    ∧ 0x7F800000 < ((0xFFC00000 : W32) &&& 0x7FFFFFFF).toNat := by decide

/-- 1.0 times 1.0 from just below the upper border, at it, and -1.0 from the lower. -/
theorem witness_ExactAccumulators : Live nums false ∧ NoTraps nums ∧ f32 0x3F800000 = .fin false (2 ^ 23) (-23) ∧ f32 0xBF800000 = .fin true (2 ^ 23) (-23)
    ∧ (BitVec.ofNat 640 (2 ^ 639 - 2 ^ 320 - 1)).toInt + 2 ^ 320 < 2 ^ 639 ∧ 2 ^ 639 ≤ (BitVec.ofNat 640 (2 ^ 639 - 2 ^ 320)).toInt + 2 ^ 320
    ∧ (BitVec.ofInt 640 (-(2 ^ 639))).toInt - 2 ^ 320 < -(2 ^ 639) ∧ ¬(XAcc.zero.nan ∨ XAcc.zero.pinf ∨ XAcc.zero.ninf) ∧ XAcc.zero.v = 0 := by decide

/-- Addresses in the window of the own core's scratchpad, in mapped memory, past the mapped range, and the first with bit 57 set. -/
def adrs : State := poke ctl [(21, 0x0101000000000100), (22, 0x10100), (23, 0x40000000), (24, 0x200000000000000), (25, 0x10102)]

def at62 : State := onCtx adrs fun c => { c with nLoads := 62, nStores := 62 }

theorem witness_LoadsIssue_local : 4 = LdSize.bytes .w ∧ ∃ ps s', resolve adrs (strandAg adrs adrs.w) (adrs.s 21 + BitVec.ofInt 64 ((511 : BitVec 10).toInt * (4 : Nat))) 4 .rd .load = (.ok ps, s')
    ∧ (unfilled s' (strandAg adrs adrs.w) ps = none ∧ Live s' false ∧ allLocal (strandAg adrs adrs.w) ps = true ∧ Live (settleLoads s') false) := ⟨rfl, ok_of (by decide)⟩
theorem witness_LoadsIssue_far : ∃ ps s', resolve at62 (strandAg at62 at62.w) (at62.s 22 + BitVec.ofInt 64 ((0x200 : BitVec 10).toInt * (8 : Nat))) 8 .rd .load = (.ok ps, s')
    ∧ (unfilled s' (strandAg at62 at62.w) ps = none ∧ Live s' false ∧ allLocal (strandAg at62 at62.w) ps = false ∧ s'.cctx.nLoads < 63) := ok_of (by decide)
theorem witness_LoadsIssue_vector : ∃ ps s', resolve adrs (strandAg adrs adrs.w) (adrs.s 21 + BitVec.ofInt 64 ((1 : BitVec 10).toInt * (256 : Nat))) 256 .rd .vec = (.ok ps, s')
    ∧ (unfilled s' (strandAg adrs adrs.w) ps = none ∧ Live s' false ∧ VectorReady adrs false ∧ allLocal (strandAg adrs adrs.w) ps = true ∧ Live (settleLoads s') false) := ok_of (by decide +kernel)
theorem witness_LoadsIssue_vector_far : ∃ ps s', resolve at62 (strandAg at62 at62.w) (at62.s 22 + BitVec.ofInt 64 ((0 : BitVec 10).toInt * (256 : Nat))) 256 .rd .vec = (.ok ps, s')
    ∧ (unfilled s' (strandAg at62 at62.w) ps = none ∧ Live s' false ∧ VectorReady at62 false ∧ allLocal (strandAg at62 at62.w) ps = false ∧ s'.cctx.nLoads < 63) :=
  ok_of (by decide +kernel)
theorem witness_LoadsIssue_fault : ∃ e s', resolve adrs (strandAg adrs adrs.w) (adrs.s 23 + BitVec.ofInt 64 ((0 : BitVec 10).toInt * (1 : Nat))) 1 .rd .load = (.error e, s')
    ∧ (Live s' false ∧ e.1 = 0x10) := error_of (by decide)

theorem witness_LoadedValue : ([0xFF, 0x80] : List Byte).length = 2 ∧ 2 ≤ 8 ∧ 1 ≤ 2 ∧ 2 ^ (8 * 2 - 1) ≤ leNat [0x00, 0x80] ∧ ([] : List Byte).length = 0 := by decide

theorem witness_StoresIssue : 8 = StSize.bytes .d ∧ ∃ ps s', resolve at62 (strandAg at62 at62.w) (at62.s 22 + BitVec.ofInt 64 ((1 : BitVec 10).toInt * (8 : Nat))) 8 .wr .store = (.ok ps, s')
    ∧ (unfilled s' (strandAg at62 at62.w) ps = none ∧ Live s' false ∧ s'.cctx.nStores < 63) := ⟨rfl, ok_of (by decide)⟩
theorem witness_StoresIssue_vector : ∃ ps s', resolve at62 (strandAg at62 at62.w) (at62.s 21 + BitVec.ofInt 64 ((0 : BitVec 10).toInt * (256 : Nat))) 256 .wr .vec = (.ok ps, s')
    ∧ (unfilled s' (strandAg at62 at62.w) ps = none ∧ Live s' false ∧ VectorReady at62 false ∧ Awake at62 63 ∧ s'.cctx.nStores < 63) := ok_of (by decide +kernel)
theorem witness_StoresIssue_fault : ∃ e s', resolve adrs (strandAg adrs adrs.w) (adrs.s 23 + BitVec.ofInt 64 ((0 : BitVec 10).toInt * (1 : Nat))) 1 .wr .store = (.error e, s')
    ∧ Live s' false := error_of (by decide)

theorem witness_AmoIssuesAndHighAddressesFault : (at62.s 25).toNat % 4 ≠ 0 ∧ (at62.s 22).toNat % 8 = 0 ∧ Live at62 false
    ∧ 2 ^ 57 ≤ (adrs.s 24 + BitVec.ofInt 64 ((0 : BitVec 10).toInt * LdSize.bytes .d)).toNat ∧ 2 ^ 57 ≤ (adrs.s 24 + BitVec.ofInt 64 ((0 : BitVec 10).toInt * StSize.bytes .b)).toNat
    ∧ ∃ ps s', resolve at62 (strandAg at62 at62.w) (at62.s 22) 8 .amo .amoCas = (.ok ps, s')
      ∧ (unfilled s' (strandAg at62 at62.w) ps = none ∧ Live s' false ∧ s'.cctx.nStores < 63) := by
  refine ⟨?_, ?_, ?_, ?_, ?_, ok_of (by decide)⟩ <;> decide

/-- A context with one access at the head of its queue. -/
def queued (k : MemKind) (ps : List Place) : State :=
  onCtx adrs fun c => { c with memq := [⟨0, k, ps, 0, false, none, adrs.cur, 0, false⟩, ⟨1, .store [1], physRun 0 1, 0, false, none, adrs.cur, 0, false⟩], nStores := 2, nLoads := 1 }

/-- A store that ends below the graph triggers' window, one behind it, and one to a scratchpad. -/
theorem witness_StorePerformed : (queued (.store [1, 2]) (physRun (triggerBase - 1) 2)).cctx.memq.head?.map (·.places) = some (physRun (triggerBase - 1) [1, 2].length)
    ∧ triggerBase - 1 < triggerBase ∧ triggerBase + 512 ≤ triggerBase + 512 ∧ 1 ≤ ([1, 2] : List Byte).length
    ∧ (queued (.store [1]) (scratchRun 0 64 1)).cctx.memq.head?.map (·.kind) = some (.store [1]) := by decide

theorem witness_LoadPerformed : let t := queued (.load (.sreg 63 8 false)) (physRun 64 8)
    t.cctx.memq.head? = some ⟨0, .load (.sreg 63 8 false), physRun 64 8, 0, false, none, mainOf t.w, 0, false⟩ ∧ (t.thr (mainOf t.w)).stack = []
    ∧ (t.thr (mainOf t.w)).regs.wb + 16 ≤ 63 ∧ 63 < (t.thr (mainOf t.w)).regs.wb + 64 := by decide

theorem witness_AmoPerformed : let t := queued (.amo .cas 4 1 0 .core none (.sreg 15 4 false)) (physRun (triggerBase - 4) 4)
    t.cctx.memq.head? = some ⟨0, .amo .cas 4 1 0 .core none (.sreg 15 4 false), physRun (triggerBase - 4) 4, 0, false, none, mainOf t.w, 0, false⟩
    ∧ (∀ r ∈ amoRivals t t.w (physRun (triggerBase - 4) 4), r.2.2 = false ∧ amoAtomic t.w .core r = true) ∧ ([1, 2, 3, 4] : List Byte).length = 4
    ∧ triggerBase - 4 + 4 ≤ triggerBase ∧ (t.thr (mainOf t.w)).stack = [] ∧ 15 < 16 ∧ (4 = 4 ∨ 4 = 8) := by decide

/-- The last word of a Bantam of 4,096 bytes, the first behind it, and a misaligned one. -/
theorem witness_BantamAndMark : let t := poke ctl [(21, 4092), (22, 4096), (23, 2)]
    Live t false ∧ (t.cres.alloc.extractLsb' 48 13).toNat = 4096 ∧ SplSize.bytes .w = 4 ∧ SpsSize.bytes .w = 4
    ∧ (t.s 21).toNat + 4 ≤ 4096 ∧ (t.s 21).toNat % 4 = 0 ∧ ¬((t.s 22).toNat + 4 ≤ 4096) ∧ ¬((t.s 23).toNat % 4 = 0)
    ∧ t.cctx.memq = [] ∧ (queued (.store [1]) (physRun 0 1)).cctx.memq ≠ [] := by decide

/-- Vector registers of each tag: v4 and v5 FP32, v6 and v7 INT32, v8 BF16, v9 N32, v10 FP32 with the destination's sum. -/
def vecs : State := [(4, (1 : BitVec 5)), (5, 1), (6, 2), (7, 3), (8, 4), (9, 3), (10, 1)].foldl (fun s x => vec s x.1 x.2 [0x3F800000, 0x40000000]) ctl

theorem witness_VectorArithmetic : VectorReady vecs false ∧ (∀ k ∈ [(4 : BitVec 6), 5, 6, 7, 8, 10, 63], Awake vecs k) ∧ (ownVec vecs 4).tag = 1 ∧ (ownVec vecs 5).tag = 1
    ∧ (ownVec vecs 10).tag = 1 ∧ (ownVec vecs 6).tag = 2 ∧ (ownVec vecs 7).tag = 3 ∧ (ownVec vecs 7).tag.toNat < 4 ∧ ¬(ownVec vecs 8).tag = 1
    ∧ ¬((ownVec vecs 4).tag = 2 ∨ (ownVec vecs 4).tag = 3) := by decide

theorem witness_VectorMovement : VectorReady vecs false ∧ Awake vecs 4 ∧ Awake vecs 5 ∧ (ownVec vecs 4).tag = 1 ∧ (ownVec vecs 5).tag = 1 ∧ Cond.ge ≠ .ltn ∧ Cond.ge ≠ .gen
    ∧ (ownVec vecs 6).tag = 2 ∧ (ownVec vecs 7).tag = 3 ∧ (ownVec vecs 4).tag.getLsbD 4 = false ∧ (ownVec vecs 5).tag = (ownVec vecs 4).tag := by decide

/-! Branches, loops and calls -/

/-- Control at the start, with b2 at a target, p1 all ones, and two loops, the inner of which holds the target's predecessor alone. -/
def branches : State := onRegs ctl fun r => { r with b := [(2, 0x20000)], p := [(1, ones)], loops := [⟨0x1FFF8, 0x1FFFC, 2⟩, ⟨0x1F000, 0x20000, 3⟩] }

theorem witness_Transfers : Live branches false ∧ NoShadow branches ∧ OwnStream branches ∧ prepNear branches.regs 2 = false
    ∧ (ownMask branches 1).getLsbD 0 ≠ false ∧ (ownMask branches 2).getLsbD 0 = false := by decide

theorem witness_DelaySlotTraps : let t := onRegs ctl fun r => { r with xfer := some (0x20000, 1) }
    let u := onRegs ctl fun r => { r with shade := 1 }
    let v := onRegs ctl fun r => { r with pend := [⟨1, 0, false, .breg 2 0x20000⟩] }
    Live t false ∧ inDelay t = true ∧ Live u false ∧ inDelay u = true ∧ Live v false ∧ ∃ p ∈ v.regs.pend, p.eff = .breg (2 : BitVec 3).toNat 0x20000 := by decide

/-- A `LOOPB` two words behind the start of the code, and none one word behind it. -/
def looped : State := { ctl with mem := wrBytes ctl.mem (lpddr 0x10008) (bytesOfWord 0xCC000000) }

theorem witness_HardwareLoops_closed : (∃ w x, peekCode looped (looped.regs.pc + BitVec.ofNat 64 (4 * (2 : BitVec 8).toNat)) = some w ∧ decodeWord w = .ok (.loopb x))
    ∧ Live looped false ∧ NoShadow looped ∧ looped.regs.loops.length < 4 := ⟨⟨0xCC000000, false, by decide +kernel, rfl⟩, by decide⟩
theorem witness_HardwareLoops_open : ¬∃ w x, peekCode looped (looped.regs.pc + BitVec.ofNat 64 (4 * (1 : BitVec 8).toNat)) = some w ∧ decodeWord w = .ok (.loopb x) := by
  rintro ⟨w, x, h, e⟩
  have h0 : peekCode looped (looped.regs.pc + BitVec.ofNat 64 (4 * (1 : BitVec 8).toNat)) = some 0 := by decide +kernel
  cases h0.symm.trans h
  cases e

def loopsAt (n : Nat) : State := onRegs ctl fun r => { r with loops := ⟨0xFFF0, r.pc, n⟩ :: List.replicate 2 ⟨0xF000, 0x11000, 5⟩ }

theorem witness_HardwareLoops : Live (loopsAt 1) false ∧ NoShadow (loopsAt 1) ∧ (loopsAt 1).regs.loops.length < 4 ∧ (onRegs ctl fun r => { r with loops := List.replicate 4 ⟨0, 0, 1⟩ }).regs.loops.length = 4
    ∧ ctl.regs.loops = [] ∧ (loopsAt 1).regs.loops.head?.map (·.stop) = some (loopsAt 1).regs.pc ∧ (∀ p ∈ (loopsAt 1).regs.pend, False)
    ∧ ¬1 < ((loopsAt 1).regs.loops.headD ⟨0, 0, 0⟩).count ∧ 1 < ((loopsAt 2).regs.loops.headD ⟨0, 0, 0⟩).count ∧ branches.regs.loops.head?.map (·.stop) ≠ some branches.regs.pc := by decide

/-- Windows of an allocation of 96 positions, so that one of 48 fits above the first and one more does not. -/
def windows (wb fs : Nat) : State := onRes (onRegs branches fun r => { r with wb := wb, fs := fs, links := [⟨0x10010, 16⟩] }) fun x => { x with alloc := BitVec.ofNat 64 (64 + 2 ^ 8 * 96) }

theorem witness_CallsAndWindows : let t := windows 16 32
    Live t false ∧ OwnStream t ∧ t.regs.base = 0 ∧ NoShadow t ∧ prepNear t.regs 2 = false ∧ t.regs.pend = [] ∧ t.regs.links.length ≠ 16
    ∧ t.regs.wb + t.regs.fs = (t.cres.alloc.extractLsb' 8 11).toNat - 48
    ∧ (let u := windows 16 36; (u.cres.alloc.extractLsb' 8 11).toNat - 48 < u.regs.wb + u.regs.fs)
    ∧ (onRegs ctl fun r => { r with links := List.replicate 16 ⟨0, 0⟩ }).regs.links.length = 16
    ∧ ctl.regs.links = [] ∧ t.regs.links = ⟨0x10010, 16⟩ :: [] ∧ 12 < (13 : BitVec 6).toNat ∧ (12 : BitVec 6).toNat ≤ 12 := by decide

/-! Traps -/

def handled : State := onRegs (onCtx ctl fun c => { c with tvec := 0x20000 }) fun r => { r with pend := [⟨2, 0, false, .sreg 5 1⟩] }

/-- A frame of a call at the start, opened by a stream with a result in flight. -/
def framed (ops : List Bound) (dirs : List Nat) : State :=
  onThr handled fun x => { x with stack := [⟨{ x.regs with pend := [] }, 0x1000, 1, 0, 0x10000, false, false, false, ops, dirs, 0, 0, Regs.reset, 0, 0, {}⟩], regs := Regs.reset }

theorem witness_TrapsEnterHandler : Live handled false ∧ NoShadow handled ∧ HandlerReady handled ∧ 7 < 256 ∧ 255 < 256 ∧ 4095 < 4096 ∧ 2 ^ 19 - 1 < 2 ^ 19 ∧ 3 < 4
    ∧ (framed [] []).cthr.stack.length = 1 ∧ qfOf (framed [] []).cur = 0 ∧ (framed [] []).cthr.stack.all (fun f => !f.dead) = true ∧ (framed [] []).cctx.handler = false
    ∧ (framed [] []).cctx.tvec ≠ 0 ∧ runsTile (framed [] []) (framed [] []).w = false ∧ isLevelProgram (framed [] []).w = false := by decide

def inHandler : State := onCtx ctl fun c => { c with handler := true, epc := 0x10040, held := [⟨1, 0, false, .sreg 5 1⟩] }

theorem witness_RteReturns : Live inHandler false ∧ NoShadow inHandler ∧ OwnStream inHandler ∧ inHandler.cctx.handler = true ∧ inHandler.regs.loops.length = inHandler.cctx.hLoops
    ∧ inHandler.regs.links.length = inHandler.cctx.hLinks ∧ inHandler.regs.wb = inHandler.cctx.hWb ∧ inHandler.regs.fs = inHandler.cctx.hFs ∧ inHandler.cctx.heldThread = none
    ∧ (∀ p ∈ inHandler.regs.pend, False) ∧ (∀ p ∈ inHandler.cctx.held, 1 ≤ p.left) ∧ ctl.cctx.handler = false
    ∧ (onRegs inHandler fun r => { r with fs := 4 }).regs.fs ≠ inHandler.cctx.hFs := by decide

/-! Synchronisation -/

theorem witness_SignalsAreHeld : Live ctl false ∧ OwnStream ctl ∧ tget? ctl.cres.semMap (31 : BitVec 5).toNat = some 31
    ∧ tget? (onRes ctl fun x => { x with semMap := [] }).cres.semMap (31 : BitVec 5).toNat = none := by decide

def semAt (s : Sem) : State := onCore ctl fun k => { k with sems := [(3, s)] }
def mtxAt (m : Mtx) : State := onCore ctl fun k => { k with mtxs := [(2, m)] }

/-- A count that just suffices, one that just does not, a waiter ahead; a mutex free, one's own with and without a waiter, and another's. -/
theorem witness_SemaphoresAndMutexes : let sem := fun t : State => tget ⟨0, []⟩ (t.core (nodeOf t.w)).sems 3
    let mtx := fun t : State => tget ⟨none, []⟩ (t.core (nodeOf t.w)).mtxs 2
    Live ctl false ∧ OwnStream ctl ∧ (5 : BitVec 6) ≠ 0 ∧ (onThr ctl fun x => { x with granted := true }).cthr.granted = true ∧ ctl.cthr.granted = false ∧ ctl.cthr.wait = none
    ∧ tget? ctl.cres.semMap 3 = some 3 ∧ tget? ctl.cres.mtxMap 2 = some 2 ∧ tget? (onRes ctl fun x => { x with semMap := [], mtxMap := [] }).cres.semMap 3 = none
    ∧ tget? (onRes ctl fun x => { x with semMap := [], mtxMap := [] }).cres.mtxMap 2 = none
    ∧ (sem (semAt ⟨5, []⟩)).queue = [] ∧ (5 : BitVec 6).toNat ≤ (sem (semAt ⟨5, []⟩)).count.toNat ∧ (sem (semAt ⟨4, []⟩)).count.toNat < (5 : BitVec 6).toNat
    ∧ (sem (semAt ⟨9, [(25, 10)]⟩)).queue ≠ []
    ∧ (mtx ctl).holder = none ∧ (mtx (mtxAt ⟨some 4, []⟩)).holder = some ctl.w ∧ (mtx (mtxAt ⟨some 4, []⟩)).queue = []
    ∧ (mtx (mtxAt ⟨some 5, []⟩)).holder = some 5 ∧ 5 ≠ ctl.w ∧ (mtx (mtxAt ⟨some 4, [25]⟩)).queue = 25 :: [] ∧ (∀ m ∈ ctl.cctx.memq, m.isLoad = true) := by decide

def strands (b c d : Run) (rdv : Option (BitVec 4)) : State :=
  { ctl with ctxs := [(4, ctl.cctx), (5, { ctl.cctx with run := b, start := 0x11000 }), (6, { ctl.cctx with run := c, rdv := rdv }), (7, { ctl.cctx with run := d })] }

theorem witness_StrandsMeet : let t := strands .fresh .halted .empty none
    let named := (List.range 4).filter fun k => (0xE : BitVec 4).getLsbD k
    Live ctl false ∧ OwnStream ctl
    ∧ (ctl.cctx.nLoads ≤ (0 : BitVec 6).toNat) ∧ ¬((onCtx ctl fun c => { c with nCopies := 2 }).cctx.nCopies ≤ (1 : BitVec 6).toNat) ∧ (1 : BitVec 6).toNat ≠ 63
    ∧ (0xF : BitVec 4).getLsbD 0 = true ∧ strandOf (seat 1).w ≠ 0 ∧ (0xE : BitVec 4) ≠ 0 ∧ (0xE : BitVec 4).getLsbD 0 = false ∧ strandOf ctl.w = 0
    ∧ (∃ k ∈ named, (ctl.ctx (ctxKey (resKeyOf ctl.w) k)).run = .running) ∧ (∀ k ∈ named, (t.ctx (ctxKey (resKeyOf t.w) k)).run ≠ .running)
    ∧ (0xE : BitVec 4).getLsbD (strandOf ctl.w) = false ∧ (1 : BitVec 4).getLsbD (strandOf ctl.w) = true ∧ ctl.cthr.granted = false ∧ ctl.cthr.wait = none ∧ ctl.cctx.memq = []
    ∧ (∀ k ∈ [0], ctxKey (resKeyOf ctl.w) k ≠ ctl.w → (ctl.ctx (ctxKey (resKeyOf ctl.w) k)).run ≠ .running)
    ∧ (∃ k ∈ [0, 1], ctxKey (resKeyOf ctl.w) k ≠ ctl.w ∧ (ctl.ctx (ctxKey (resKeyOf ctl.w) k)).run = .running ∧ (ctl.ctx (ctxKey (resKeyOf ctl.w) k)).rdv ≠ some 3) := by decide

def aJob : Job := ⟨0x070, 0, 0x10000, 0, 0, 2, [0, 0, 0], [], 0, none, 0, [], DrainSet.one, DrainSet.zero, none, none, 0, [], 3, 0, 0, false, none, false, [], 0, 0, 0, none, none⟩

def fifoed : State := onRes ctl fun x => { x with fifos := [(1, [.job aJob, .fence 7])], fenceId := 8 }

theorem settled_none : FifosSettled ctl.cres := by
  intro f hf
  left
  match f, hf with
  | 0, _ | 1, _ | 2, _ | 3, _ => decide

theorem settled_job : FifosSettled fifoed.cres := by
  intro f hf
  match f, hf with
  | 1, _ => exact .inr ⟨aJob, [.fence 7], by decide⟩
  | 0, _ | 2, _ | 3, _ => exact .inl (by decide)

/-- The stage's other replica stands on core 1. -/
def replicas (other : Run) : State :=
  { ctl with launches := [(1, { loadedLaunch with placed := [⟨0, 1, 0, 0⟩, ⟨1, 0, 0, 1⟩] })], ctxs := ctl.ctxs ++ [(16, { ctl.cctx with run := other })] }

/-- Nothing ahead of the marker, something ahead; every other participant of the barrier halted or as far, and one behind. -/
theorem witness_JoinsFencesAndBarriers : Live ctl false ∧ OwnStream ctl ∧ FifosSettled ctl.cres ∧ FifosSettled fifoed.cres ∧ (2 : BitVec 4) ≠ 0 ∧ (2 : BitVec 4).getLsbD 1 = true
    ∧ ctl.cres.fifo 1 = [] ∧ fifoed.cres.fifo 1 ≠ [] ∧ ctl.cthr.marks = none ∧ ctl.cthr.wait = none ∧ (∀ f < 4, Ent.fence fifoed.cres.fenceId ∉ fifoed.cres.fifo f)
    ∧ Scope.core ≠ .pod ∧ ctl.cthr.granted = false ∧ ctl.cctx.barIn = none ∧ ctl.cctx.memq = []
    ∧ (∀ w ∈ barSet (replicas .halted) ctl.w .quad, w ≠ ctl.w → ((replicas .halted).ctx w).run = .halted) ∧ barSet (replicas .halted) ctl.w .quad = [4, 16]
    ∧ (∃ w ∈ barSet (replicas .running) ctl.w .quad, w ≠ ctl.w ∧ ((replicas .running).ctx w).run ≠ .halted ∧ ((replicas .running).ctx w).bars .quad < ctl.cctx.bars .quad + 1) := by
  refine ⟨by decide, by decide, settled_none, settled_job, ?_⟩
  decide

/-! System instructions -/

theorem witness_ControlRegisters : Live ctl false ∧ ctl.regs.wb < 2048 ∧ ctl.regs.fs < 64 ∧ (loopsAt 3).regs.loops ≠ [] ∧ ctl.regs.loops = []
    ∧ (0x017 : BitVec 12).toNat = 0x014 + 3 ∧ (ctl.launch? (launchOf ctl ctl.w)).isSome = true ∧ (0x007 : BitVec 12).toNat ∉ [0x006, 0x008] ∧ (6 : BitVec 12).toNat ∈ [0, 2, 3, 5, 6]
    ∧ (1 : BitVec 12).toNat ∉ [0, 2, 3, 5, 6] ∧ ctl.regs.pend = [] ∧ OwnStream ctl := by decide

theorem witness_HaltsAndPops : let t := onRes ctl fun x => { x with evq := [7], rpq := [8] }
    Live ctl false ∧ NoShadow ctl ∧ OwnStream ctl ∧ handled.regs.pend = [⟨2, 0, false, .sreg 5 1⟩] ∧ (Effect.sreg 5 1).plain handled.regs ∧ NoShadow (framed [] []) ∧ (framed [] []).cthr.stack ≠ []
    ∧ strandOf (seat 3).w ≠ 0 ∧ strandOf ctl.w = 0 ∧ (62 : BitVec 6) ≠ 0 ∧ (62 : BitVec 6) ≠ 63 ∧ t.cres.evq = 7 :: [] ∧ ctl.cres.evq = [] ∧ t.cres.rpq = 8 :: [] ∧ ctl.cres.rpq = [] := by
  refine ⟨by decide, by decide, by decide, by decide, Or.inl (by decide), ?_⟩
  decide

/-- A task table of one entry, with the cursor before and past it. -/
def tabled (n : Nat) : State :=
  let t := onRes (onCtx ctl fun c => { c with cursor := n }) fun x => { x with table := some 0x4000 }
  { t with mem := wrBytes t.mem (lpddr 0x4000) [1] }

theorem witness_ClustersAndTable : let limit := (ctl.cres.alloc.extractLsb' 0 7).toNat / 8
    let small := onRes (onCtx ctl fun c => { c with awake := 0xF1, waking := [(2, 7)] }) fun x => { x with alloc := BitVec.ofNat 64 32 }
    Live ctl false ∧ OwnStream ctl ∧ 8 < (9 : BitVec 4).toNat ∧ noVectors (onRes ctl fun x => { x with alloc := 0 }) = true ∧ (8 : BitVec 4).toNat ≤ 8 ∧ noVectors ctl = false ∧ limit = 8
    ∧ noVectors small = false ∧ (small.cres.alloc.extractLsb' 0 7).toNat / 8 ≤ 4 ∧ 3 < (small.cres.alloc.extractLsb' 0 7).toNat / 8 ∧ small.cctx.awake.getLsbD 0 = true ∧ small.cctx.awake.getLsbD 1 = false
    ∧ isTileRes ctl.w = false ∧ isCore (nodeOf ctl.w) = true ∧ isTileRes 0 = true
    ∧ (tabled 0).cres.table = some 0x4000 ∧ (tabled 0).cctx.cursor < rdNat (tabled 0).mem (lpddr 0x4000) 4 ∧ rdNat (tabled 1).mem (lpddr 0x4000) 4 ≤ (tabled 1).cctx.cursor ∧ ctl.cres.table = none := by decide

/-! Routines -/

/-- The test of `Callable`. -/
def callOk (s : State) (num : Nat) (async : Bool) (ctr : Nat) (ops : List Opnd) : Bool :=
  (ops.all (hasFile (strandOf s.w)) && ops.all (modeOk (srlModes num))) && (match routineOf s num with | some r => r.srl == some num && callAllowed s r async ctr true | none => false)

theorem callable_of {s : State} {num ctr : Nat} {async : Bool} {ops : List Opnd} (h : callOk s num async ctr ops = true) : Callable s num async ctr ops := by
  simp only [callOk, Bool.and_eq_true] at h
  obtain ⟨h1, h2⟩ := h
  cases hr : routineOf s num with
  | none => simp [hr] at h2
  | some r =>
    simp only [hr, Bool.and_eq_true, beq_iff_eq] at h2
    exact ⟨h1.1, h1.2, r, hr, h2.1, h2.2⟩

theorem callable_all {s : State} {async : Bool} {ctr : Nat} {l : List (Nat × List Opnd)} (h : (l.all fun c => callOk s c.1 async ctr c.2) = true) :
    ∀ c ∈ l, Callable s c.1 async ctr c.2 := fun c hc => callable_of (List.all_eq_true.mp h c hc)

def calls (ops : List Opnd) (ns : List Nat) : List (Nat × List Opnd) := ns.map fun n => (n, ops)

/-- The calls that the statements about vector routines speak of, one for each shape and number. -/
def vecCalls : List (Nat × List Opnd) := List.flatten
  [calls [.v 6, .v 4, .fmt (fmtOf 1 .rne false 0)] [0x000, 0x001, 0x002, 0x009, 0x00A, 0x011, 0x012, 0x019],
   calls [.v 6, .v 4, .fmt (fmtOf 4 .rup true 0)] ((List.range 10).map fun n => 0x024 + n),
   calls [.v 10, .v 4, .v 5, .fmt (fmtOf 1 .rne false 0)] [3, 4, 5, 6, 7, 8, 12, 13, 14, 15],
   calls [.v 10, .v 4, .v 5, .imm 1] [0x014, 0x015, 0x016],
   calls [.s 20, .v 4, .p 1, .fmt 1] [0x020, 0x03F],
   calls [.s 20, .s 21, .v 4, .p 1, .fmt 1] [0x021, 0x022],
   calls [.v 10, .v 9, .v 4, .s 20, .s 21, .fmt 1] [0x032, 0x033],
   calls [.v 6, .v 4, .s 20, .fmt 1] [0x010],
   calls [.v 6, .v 4, .v 5, .v 10, .fmt 1] [0x00B],
   calls [.v 6, .v 8, .imm 9] [0x013],
   calls [.v 6, .s 20, .v 4, .p 1] [0x017],
   calls [.v 6, .v 4, .p 1] [0x018],
   calls [.v 6, .s 20, .s 21] [0x01A],
   calls [.s 20, .v 4, .v 5, .p 1, .fmt 1] [0x023],
   calls [.s 20, .s 21, .v 4, .s 22, .fmt 1] [0x030],
   calls [.v 6, .v 4, .s 20, .s 21, .fmt 1] [0x02E],
   calls [.s 20, .v 4, .s 21, .fmt 1] [0x02F],
   calls [.v 6, .v 4, .s 20, .s 21, .s 22, .s 23, .fmt 1] [0x031],
   calls [.v 10, .v 9, .v 4, .fmt 1] [0x034],
   calls [.v 10, .v 9, .v 4, .v 5, .fmt 1] [0x035],
   calls [.s 20, .v 4, .v 5, .s 21, .s 22, .fmt 1] [0x036]]

theorem witness_VecCall : ∀ c ∈ vecCalls, VecCall vecs false c.1 c.2 := fun c hc => ⟨by decide, callable_all (by decide +kernel) c hc⟩

/-- FP32 to BF16, whose targets are wider: both parts, and the first part that is none; and back. Quantised blocks, integers packed, and a part of a narrow source. -/
theorem witness_VectorConversions : let q := vec (vec vecs 11 0x1B []) 12 2 []
    Awake vecs 4 ∧ (ownVec vecs 4).tag.toNat ∈ [1, 4, 5] ∧ (ownVec vecs 8).tag.toNat ∈ [4, 5, 6, 7, 8, 9, 11, 12, 13, 14] ∧ (ownVec q 11).tag.toNat = 0x1B ∧ (ownVec q 12).tag.toNat ∈ [0, 2, 3]
    ∧ (∀ t ∈ [1, 4, 5, 7], true = true → t ∈ [1, 4, 5, 7]) ∧ PartOk vecs 6 64 128 4 0 ∧ PartOk vecs 8 64 128 4 1 ∧ ¬PartOk vecs 8 64 128 4 2 ∧ PartOk vecs 6 128 64 1 1 ∧ 64 * 1 < eltCount 4 ∧ 7 < 8 := by
  intro q
  and_intros
  all_goals first | decide | (unfold PartOk; decide)

theorem witness_VectorRoutineArithmetic : let t := vec (vec (vec vecs 11 11 []) 12 12 []) 13 13 []
    Awake vecs 4 ∧ Awake vecs 5 ∧ Awake vecs 10 ∧ (ownVec vecs 4).tag.toNat = 1 ∧ (ownVec vecs 8).tag.toNat = 4 ∧ (ownVec vecs 6).tag.toNat = 2 ∧ 31 < 32
    ∧ (ownVec t 11).tag.toNat = 11 ∧ (ownVec t 12).tag.toNat = 12 ∧ (ownVec t 13).tag.toNat = 13 ∧ (12 : Nat) = (if true then 23 - 11 else 11) ∧ (11 : Nat) = (if true then 23 - 12 else 12)
    ∧ ((13 : Nat) = 13 → false = false) ∧ (ownVec vecs 8).tag.toNat ≠ 1 := by decide

theorem witness_VectorRearrangement : let t := vec vecs 12 12 [5, 200]
    Awake vecs 4 ∧ Awake vecs 5 ∧ (ownVec vecs 5).tag = (ownVec vecs 4).tag ∧ (ownVec vecs 4).tag.toNat < 4 ∧ (ownVec t 12).tag.toNat = 12 ∧ (9 < 10 ∨ (11 ≤ 9 ∧ 9 < 15) ∨ (22 ≤ 9 ∧ 9 < 28))
    ∧ (27 < 10 ∨ (11 ≤ 27 ∧ 27 < 15) ∨ (22 ≤ 27 ∧ 27 < 28)) ∧ 1 ≤ (ownVec vecs 7).tag.toNat ∧ (ownVec vecs 7).tag.toNat ≤ 3 ∧ (ownVec vecs 7).tag.toNat ≠ 1 := by decide

/-- FP32 lanes of which, under a mask of three, lane 1 is the greatest and lane 2 the first of the least; and a mask that selects none. -/
def ranked : State := poke (onRegs vecs fun r => { r with p := [(1, 7)] }) [(22, 64), (23, 1)]

theorem witness_VectorReductions : Awake ranked 4 ∧ Awake ranked 5 ∧ (ownVec ranked 4).tag.toNat = 1 ∧ (ownVec ranked 5).tag = (ownVec ranked 4).tag
    ∧ 1 ≤ (ranked.s 23).toNat ∧ (ranked.s 22).toNat ≤ eltCount 1 ∧ (∀ j < 64, (ownMask vecs 2).getLsbD j = true → ((ownVec vecs 4).val j).isNan = true) := by decide
theorem witness_VectorReductions_greatest : ∀ i < 64, (ownMask ranked 1).getLsbD i = true → ((ownVec ranked 4).val i).isNan = false →
    cmpNum ((ownVec ranked 4).val i) ((ownVec ranked 4).val 1) ≠ .gt ∧ (1 ≤ i ∨ cmpNum ((ownVec ranked 4).val i) ((ownVec ranked 4).val 1) ≠ .eq) := by decide
theorem witness_VectorReductions_least : ∀ i < 64, (ownMask ranked 1).getLsbD i = true → ((ownVec ranked 4).val i).isNan = false →
    cmpNum ((ownVec ranked 4).val i) ((ownVec ranked 4).val 2) ≠ .lt ∧ (2 ≤ i ∨ cmpNum ((ownVec ranked 4).val i) ((ownVec ranked 4).val 2) ≠ .eq) := by decide

theorem witness_SpecialFunctions : let t := poke vecs [(20, 64), (21, 1)]
    Awake t 4 ∧ (ownVec t 4).tag.toNat ∈ [1, 4, 5] ∧ 1 ≤ (t.s 21).toNat ∧ (t.s 20).toNat ≤ 64 ∧ (6 = 6 → false = false) ∧ (1 = 1 → Rnd.rne = .rne) ∧ (1 : Nat) ≠ 0 ∧ PartOk t 6 64 64 1 0 := by
  intro t
  and_intros
  all_goals first | decide | (unfold PartOk; decide)

theorem witness_RankingRoutines : let t := poke vecs [(20, 64), (21, 1), (22, 64 + 64 * 2 ^ 32), (23, 128)]
    Awake t 4 ∧ Awake t 5 ∧ Awake t 10 ∧ Awake t 9 ∧ (ownVec t 4).tag.toNat = 1 ∧ (ownVec t 10).tag.toNat = 1 ∧ (ownVec t 9).tag.toNat = 3 ∧ 1 ≤ (t.s 21).toNat ∧ (t.s 20).toNat ≤ 64
    ∧ (ownVec t 5).tag = (ownVec t 4).tag ∧ (t.s 22).toNat % 2 ^ 32 ≤ 64 ∧ (t.s 22).toNat / 2 ^ 32 ≤ 64 ∧ (t.s 23).toNat ≤ 128 := by decide

/-- A blocking routine of a binary with two scalar operands, the second of direction out. -/
def binaryRoutine : Routine :=
  { num := 0x1000, kind := 1, ord := false, depr := false, smask := 0xF, ctr := 0, lat := 0, nopw := 2, frm := 8, vscr := 0, sigs := [0x00, 0x10], blen := 1, ncp := 0, clen := 0,
    body := 0x30000, consts := 0, native := false, srl := none, digest := none }

def bound : State := { ctl with launches := [(1, { loadedLaunch with routines := [binaryRoutine] })] }

theorem witness_RoutineCalls : Live bound false ∧ OwnStream bound ∧ routineOf bound (0x1001 : BitVec 14).toNat = none ∧ routineOf bound (0x1000 : BitVec 14).toNat = some binaryRoutine
    ∧ callAllowed bound binaryRoutine true 0 (sigMatches binaryRoutine [.s 20, .s 21]) = false ∧ callAllowed bound binaryRoutine false 0 (sigMatches binaryRoutine [.s 20, .s 21]) = true
    ∧ binaryRoutine.srl = none ∧ binaryRoutine.num = (0x1000 : BitVec 14).toNat ∧ binaryRoutine.kind ≠ 2 ∧ windowFull bound = false
    ∧ fld (binaryRoutine.sigs.getD 0 0).toNat 4 2 ≠ 1 ∧ 0 < binaryRoutine.sigs.length := by decide

theorem witness_RoutineFrames : let t := framed [.s 20, .s 21] [0, 1]
    Live t false ∧ ctl.cthr.stack = [] ∧ t.cthr.stack.length = 1 ∧ t.cctx.memq = [] ∧ (∀ p ∈ t.regs.pend, False) ∧ t.regs.pend = [] ∧ qfOf t.cur = 0
    ∧ (∀ f ∈ t.cthr.stack, f.dead = false ∧ f.caller.pend = [] ∧ f.caller.xfer = none ∧ f.kind = 1 ∧ f.ops[1]? = some (.s 21) ∧ f.dirs.getD 1 0 ≠ 0) ∧ (21 : BitVec 6) ≠ 0 ∧ (20 : BitVec 6) ≠ 21 := by decide

/-! Queued routines -/

/-- A descriptor of a matrix in the own core's scratchpad. -/
def descAt (off rows cols stride tag : Nat) (more : Nat) : BitVec 256 :=
  BitVec.ofNat 256 (0x0101000000000000 + off + 2 ^ 64 * rows + 2 ^ 80 * cols + 2 ^ 96 * stride + 2 ^ 128 * tag + more)

def tile16 : CSlot := ⟨0, 2, 16, 24, 1, .rne, false, []⟩

/-- `mtx` with a tile of 16 by 24 in slot 3 and descriptors of BF16 (q1, q2) and FP32 (q3) matrices, and a sparse one (q4). -/
def mat : State :=
  let s := onRes (seat 1) fun x => { x with slots := [(3, tile16)] }
  let s := onCtx s fun c => { c with qd := [(1, descAt 0x1000 16 24 48 4 0), (2, descAt 0x2000 24 24 48 4 0), (3, descAt 0x3000 16 24 96 1 0),
    (4, descAt 0x4000 16 24 48 4 (2 ^ 134 + 2 ^ 192 * 0x0101000000005000))] }
  poke s [(21, 16 * 2 ^ 32 + 24 * 2 ^ 48), (22, 0x0101000008000000), (23, 0xFFFFFFFF)]

def drainFmt : BitVec 28 := BitVec.ofNat 28 (4 + 256 + 2048 + 4096)

theorem witness_QueuedRoutines_matrix : let d := Desc.of (tget 0 mat.cctx.qd (1 : BitVec 4).toNat)
    let e := Desc.of (tget 0 mat.cctx.qd (2 : BitVec 4).toNat)
    let r := TileReg.of (mat.s 21)
    Live mat false ∧ OwnStream mat ∧ mat.cres.full 0 = false ∧ (onCtx mat fun c => { c with nTiles := 62 }).cctx.counter 3 < 63
    ∧ tget? mat.cres.slots (3 : BitVec 5).toNat = some tile16 ∧ (0x10000 : BitVec 28).toNat < 2 ^ 19 ∧ (0x10000 : BitVec 28).toNat / 2 ^ 16 % 4 = 1 ∧ (tget? mat.cres.semMap 9).isSome = true
    ∧ (1 ≤ r.rows ∧ 1 ≤ r.cols ∧ r.row0 + r.rows = tile16.rows ∧ r.col0 + r.cols = tile16.cols) ∧ r.rows = d.rows ∧ r.cols = d.cols
    ∧ (mat.s 23).toNat < 2 ^ 32 ∧ d.sparse = false ∧ e.sparse = false ∧ (placeMat 0 d true).isSome = true ∧ gatherOk mat.cres.gathA d.rows = true ∧ (placeMat 0 e false).isSome = true
    ∧ gatherOk mat.cres.gathB e.rows = true ∧ tagFamily d.tag ≠ 0 ∧ tagFamily e.tag = tagFamily d.tag ∧ tileSuits d.tag e.tag tile16.fmt = true := by decide
theorem witness_QueuedRoutines_sparse : let z := Desc.of (tget 0 mat.cctx.qd (4 : BitVec 4).toNat)
    z.sparse = true ∧ z.trans = false ∧ z.sphdr % 16 = 0 ∧ (placeSparse 0 z).isSome = true ∧ tile16.fmt ≠ 2 ∧ z.tag ∈ [1, 4, 5] := by decide
theorem witness_QueuedRoutines_drain : let d := Desc.of (tget 0 mat.cctx.qd (1 : BitVec 4).toNat)
    let r := TileReg.of (mat.s 21)
    drainFmt = BitVec.ofNat 28 (d.tag + 32 * Rnd.rne.code.toNat + 256 * true.toNat + 512 * (0 : BitVec 2).toNat + 2048 * true.toNat + 4096 * true.toNat) ∧ drainTag d.tag = true ∧ d.tag < 16
    ∧ hasInf d.tag = true ∧ ¬16 ≤ d.tag ∧ drainArrayOk 0 mat.cres.dscale r = true ∧ drainArrayOk 0 mat.cres.dbias r = true
    ∧ accLoc 0 (mat.s 22).toNat = some (0, 0) ∧ 1 ≤ 24 ∧ 24 < 2 ^ 16 ∧ 0 % accSize tile16.fmt = 0 ∧ 0 + ((r.rows - 1) * 24 + r.cols) * accSize tile16.fmt ≤ 2 ^ 17 ∧ tile16.fmt < 32 := by decide
theorem witness_QueuedRoutines_matrix_calls : ∀ c ∈ calls [.q 1, .q 2, .c 3, .s 23, .imm 0x10000, .sem 9] [0x042] ++ calls [.c 3, .s 21, .imm 0, .sem 0] [0x046]
      ++ calls [.c 3, .q 1, .s 21, .imm 0, .sem 0] [0x047] ++ calls [.c 3, .q 1, .s 21, .fmt drainFmt, .imm 0, .sem 0] [0x048]
      ++ calls [.c 3, .s 22, .s 21, .fmt (BitVec.ofNat 28 (1 + 2048 * 24)), .imm 0, .sem 0] [0x049],
    MayQueue mat false c.1 3 0 c.2 := fun c hc => ⟨by decide, by decide, callable_all (by decide) c hc, by decide, by decide⟩

/-- `cpy`, with a stage queue that its stage both fills and empties. -/
def copier : State := { seat 2 with launches := [(1, { loadedLaunch with queues := [⟨2, 4096, 0, 0, false, none, 0, [], 0, 0, []⟩] })] }

def jobOperands : List Opnd := [.imm 0x1310000, .sem 9]

/-- A job word for `cq.out` with a signal, the highest allowed. -/
theorem witness_QueuedRoutines_copy : (0x1310000 : BitVec 28).toNat < 2 ^ 25 ∧ (0x1310000 : BitVec 28).toNat / 2 ^ 16 % 4 = 1 ∧ (0x1310000 : BitVec 28).toNat / 2 ^ 20 % 2 = 1 ∧ (tget? copier.cres.semMap 9).isSome = true
    ∧ cpycFmtOk (BitVec.ofNat 28 (4 + 2 ^ 9 * 1)) = true ∧ (0x200 : BitVec 28).toNat < 2 ^ 10 ∧ ((0x200 : BitVec 28).toNat < 2 ^ 9 → (0x200 : BitVec 28) = 0)
    ∧ (copier.launch? (launchOf copier copier.w)).isSome = true ∧ (loadedLaunch.queues.length, copier.cres.stage) = (0, 0) ∧ (15 : BitVec 28).toNat < 16
    ∧ (∀ l ∈ copier.launch? (launchOf copier copier.w), ∃ x ∈ l.queues[(0 : BitVec 12).toNat]?, x.prod = copier.cres.stage ∧ x.cons = copier.cres.stage) := by decide
theorem witness_QueuedRoutines_copy_calls : ∀ c ∈ calls ([.s 20, .s 21, .s 22] ++ jobOperands) [0x070, 0x074] ++ calls ([.s 20, .s 21, .s 22, .s 23] ++ jobOperands) [0x08F]
      ++ calls ([.s 20, .s 21, .s 22, .s 23, .s 24] ++ jobOperands) [0x071, 0x072, 0x073] ++ calls ([.s 20, .s 21, .s 22, .s 23, .fmt (BitVec.ofNat 28 (4 + 2 ^ 9 * 1))] ++ jobOperands) [0x075]
      ++ calls ([.s 20, .s 21, .s 22, .fmt 0x200] ++ jobOperands) [0x076] ++ calls ([.imm 15] ++ jobOperands) [0x077, 0x07D, 0x07E] ++ calls ([.queue (.stage 0), .s 20] ++ jobOperands) [0x079]
      ++ calls ([.s 20, .queue (.stage 0)] ++ jobOperands) [0x07A] ++ calls ([.queue (.stage 0)] ++ jobOperands) [0x07B],
    MayQueue copier false c.1 2 2 c.2 := fun c hc => ⟨by decide, by decide, callable_all (by decide) c hc, by decide, by decide⟩

/-- `sel`, with a query vector, a list of blocks and one layer. -/
def selector : State :=
  poke (vec (vec (onCtx (seat 3) fun c => { c with sel := { c.sel with layers := [0] } }) 4 4 []) 5 3 [7, 0xFFFFFF]) [(20, 0xFFFFFF), (21, 1), (22, 16), (23, 0x0101000000001000), (24, 256)]

theorem witness_QueuedRoutines_selection : noVectors selector = false ∧ Awake selector 4 ∧ Awake selector 5 ∧ (0 : BitVec 28).toNat < selector.cctx.sel.layers.length ∧ (ownVec selector 4).tag = 4
    ∧ (selector.s 22).toNat ≤ 16 ∧ (∀ i < 16, (laneOf (ownVec selector 5) i).toNat < 2 ^ 24) ∧ (ownVec selector 5).tag = 3 ∧ (1 : BitVec 28).toNat ≤ 1 ∧ (selector.s 20).toNat < 2 ^ 24 ∧ 1 ≤ (selector.s 21).toNat
    ∧ (selector.s 21).toNat < 2 ^ 16 ∧ (selector.s 22).toNat % 4 = 0 ∧ (selector.s 24).toNat ≤ 256 ∧ (listAt (nodeOf selector.w) (selector.s 23).toNat).isSome = true ∧ (selector.s 21).toNat ≤ 1
    ∧ (0x10000 : BitVec 28).toNat < 2 ^ 17 ∧ 2 ^ 16 ≤ (0x10000 : BitVec 28).toNat ∧ (tget? selector.cres.semMap 9).isSome = true ∧ (0x10000 : BitVec 28).toNat / 2 ^ 20 % 2 = 0 := by decide
theorem witness_QueuedRoutines_selection_calls : ∀ c ∈ calls [.v 4, .imm 0] [0x091] ++ calls [.v 5, .s 22] [0x095] ++ calls [.imm 1] [0x097] ++ calls [.s 20, .s 21, .imm 0x10000, .sem 9] [0x092]
      ++ calls [.s 20, .s 21, .s 22, .imm 0x10000, .sem 9] [0x093] ++ calls [.s 23, .s 24, .imm 0x10000, .sem 9] [0x094] ++ calls [.s 23, .s 23, .s 21, .imm 0x10000, .sem 9] [0x096],
    MayQueue selector false c.1 2 3 c.2 := fun c hc => ⟨by decide, by decide, callable_all (by decide) c hc, by decide, by decide⟩

/-- A FIFO that is full, and a counter at 63. -/
theorem witness_QueuedRoutines_stalls : (onRes copier fun x => { x with fifos := [(1, List.replicate 64 (.job aJob))] }).cres.full 1 = true ∧ copier.cres.full 1 = false
    ∧ 63 ≤ (onCtx copier fun c => { c with nCopies := 63 }).cctx.nCopies ∧ (0xFFFF : BitVec 28).toNat < 2 ^ 16 ∧ resKeyOf copier.w = 1 ∧ aJob.ctr = 2 := by decide

/-! Setting routines -/

theorem witness_SettingRoutines_matrix : let w := fun k => BitVec.ofNat 64 ((descAt 0x1000 16 24 48 4 0).toNat / 2 ^ (64 * k))
    let t := poke mat [(24, w 0), (25, w 1), (26, w 2), (27, w 3), (28, 3 + 2 ^ 16 * 5 + 2 ^ 32 * 2), (29, 16 * 2 ^ 16)]
    Live t false ∧ OwnStream t ∧ descValid (t.s 27 ++ t.s 26 ++ t.s 25 ++ t.s 24) = true ∧ descValid (t.s 20 ++ t.s 20 ++ t.s 20 ++ t.s 20) = false ∧ (5 : BitVec 28).toNat ≤ 5 ∧ (t.s 20).toNat < 2 ^ 16
    ∧ ((2 : Nat) = 2 → false = false) ∧ (t.s 28).toNat % 2 ^ 16 ≠ 0 ∧ (t.s 28).toNat / 2 ^ 16 % 2 ^ 16 ≠ 0 ∧ (t.s 28).toNat / 2 ^ 32 = 2 ∧ 1 ≤ 2 ∧ tget? t.cres.slots 4 = none ∧ tget? t.cres.slots 3 ≠ none
    ∧ (∀ i < 2, t.cres.bank0 ≤ 2 + i ∧ 2 + i < t.cres.bank0 + t.cres.banks ∧ ∀ e ∈ t.cres.slots, ¬(e.2.bank ≤ 2 + i ∧ 2 + i < e.2.bank + e.2.nb))
    ∧ (∀ a < 2, ¬∀ i < 2, t.cres.bank0 ≤ a + i ∧ a + i < t.cres.bank0 + t.cres.banks ∧ ∀ e ∈ t.cres.slots, ¬(e.2.bank ≤ a + i ∧ a + i < e.2.bank + e.2.nb))
    ∧ slotBusy t.cres 3 = false ∧ slotBusy (onRes t fun x => { x with fifos := [(0, [.job { aJob with slot := 3 }])] }).cres 3 = true
    ∧ (3 : BitVec 28).toNat ≤ 3 ∧ (t.s 29).toNat < 2 ^ 32 ∧ 1 ≤ (t.s 29).toNat / 2 ^ 16 ∧ (t.s 29).toNat % 2 ^ 16 + (t.s 29).toNat / 2 ^ 16 = tile16.rows
    ∧ (35 : BitVec 28).toNat % 32 = (3 : BitVec 5).toNat ∧ (35 : BitVec 28).toNat < 64 ∧ tget? t.cres.slots ((36 : BitVec 28).toNat % 32) = none ∧ (4095 : BitVec 28).toNat < 2 ^ 12 := by decide
theorem witness_SettingRoutines_drain : (∃ d, drainSet 0 0 0x3F800000 = .ok d) ∧ (∃ d, drainSet 0 1 0x0101000000001000 = .ok d) := ⟨⟨_, rfl⟩, ⟨_, rfl⟩⟩
theorem witness_SettingRoutines_matrix_calls : ∀ c ∈ calls [.q 1, .s 24, .s 25, .s 26, .s 27] [0x040] ++ calls [.imm 5, .s 20, .s 21, .s 20] [0x041] ++ calls [.c 4, .s 28, .fmt (fmtOf 1 .rne false 0)] [0x043]
      ++ calls [.c 3] [0x044] ++ calls [.c 3, .imm 3, .s 29] [0x045] ++ calls [.s 20, .imm 35] [0x04A] ++ calls [.imm 4095] [0x04B] ++ calls [.imm 0, .s 20] [0x04C, 0x04D] ++ calls [] [0x04E],
    Callable mat c.1 false 0 c.2 := callable_all (by decide)

def suspended : State := onRes copier fun x => { x with susp := [aJob], evq := List.replicate 63 0 }

theorem witness_SettingRoutines_flush : (3 : BitVec 28).toNat < 4 ∧ replyRoom copier (resKeyOf copier.w) = true ∧ replyRoom (onRes copier fun x => { x with rpq := List.replicate 64 0 }) (resKeyOf copier.w) = false
    ∧ (1 : BitVec 28).toNat ≤ 1 ∧ suspended.cres.evq.length + suspended.cres.susp.length ≤ 64 ∧ suspended.cres.evq.length < 64 ∧ (0xFFFF : BitVec 28).toNat < 2 ^ 16
    ∧ suspended.cres.susp.find? (fun j => copyTag j.word = (0 : BitVec 28).toNat) = some aJob ∧ (∀ j ∈ suspended.cres.susp, copyTag j.word ≠ 5) := by decide
theorem witness_SettingRoutines_copy_calls : ∀ c ∈ calls [.imm 3] [0x07F] ++ calls [.imm 0, .imm 1] [0x078] ++ calls [.imm 2, .imm 0] [0x078] ++ calls [.imm 1, .imm 0] [0x078] ++ calls [.imm 15, .s 20, .s 21, .s 22] [0x07C],
    Callable copier c.1 false 0 c.2 := callable_all (by decide)

/-- A map of the last pages of the resident's scratchpad, next to another. -/
theorem witness_SettingRoutines_region : let t := poke (onRes copier fun x => { x with regions := [(3, ⟨0x3E000, 0, 0x1000, [], [0]⟩)] }) [(20, 0x3F000), (21, 0x10000), (22, 0x1000)]
    (15 : BitVec 28).toNat < 16 ∧ (t.s 20).toNat % 4096 = 0 ∧ (t.s 21).toNat % 4096 = 0 ∧ (t.s 22).toNat % 4096 = 0 ∧ 1 ≤ (t.s 22).toNat
    ∧ (t.s 20).toNat + (t.s 22).toNat = (t.cres.alloc.extractLsb' 20 20).toNat ∧ (t.s 21).toNat < 2 ^ 57
    ∧ (∀ r ∈ t.cres.regions, r.1 ≠ 15 → (t.s 20).toNat + (t.s 22).toNat ≤ r.2.sp ∨ r.2.sp + r.2.len ≤ (t.s 20).toNat)
    ∧ tget? t.cres.regions 15 = none ∧ (∃ r ∈ tget? t.cres.regions 3, r.dirty ≠ []) := by decide

/-- A layer table of one entry: FP8 keys and values of 64 features, 16 blocks. -/
def layered : State :=
  onCore (poke (seat 3) [(20, 0x0101000000004000), (21, 1)]) fun k => { k with scratch := [(0x4000, 0xE7), (0x4001, 4), (0x4002, 64), (0x4003, 16), (0x4031, 0x10), (0x4034, 0x80)] }

theorem witness_SettingRoutines_layers : (layered.s 20).toNat % 64 = 0 ∧ 1 ≤ (layered.s 21).toNat ∧ (layered.s 21).toNat ≤ 256 ∧ fifoIdle layered.cres 3 = true
    ∧ fifoIdle (onRes layered fun x => { x with fifos := [(3, [.job aJob])] }).cres 3 = false ∧ layered.cctx.memq = [] ∧ layered.cthr.wait = none ∧ Callable layered 0x090 false 0 [.s 20, .s 21]
    ∧ (onCtx layered fun c => { c with memq := [⟨0, .store [1], [.phys 0], 0, false, none, 20, 0, false⟩] }).cctx.memq ≠ [] := by
  and_intros
  all_goals decide
theorem witness_SettingRoutines_table :
    loadLayers (strandAg layered layered.w) (layered.s 20) (layered.s 21).toNat 0 layered = (.ok [BitVec.ofNat 512 (0x104004E7 + 2 ^ 384 * 4096 + 2 ^ 416 * 128)], layered)
    ∧ layerValid (BitVec.ofNat 512 (0x104004E7 + 2 ^ 384 * 4096 + 2 ^ 416 * 128)) = true := ⟨by rfl, by decide +kernel⟩

/-! Sparsity routines -/

/-- The bytes of a 2:4 tile of 4 by 4: two values in its first group, its header (R333, R334), and the first byte of its indices. -/
def tile24 (i : Byte) : Memory :=
  [(0x4001, 0x3F), (0x4003, 0x40), (0x5000, 0xD5), (0x5001, 0x42), (0x5002, 0x0C), (0x5003, 1), (0x5005, 1), (0x500C, 3), (0x500E, 0x28), (0x500F, 1)] ++ if i = 0 then [] else [(0x5010, i)]

/-- `mtx` with a sparse BF16 tile (q4), one to be written (q5), a dense one (q6), the first not yet marked sparse (q7), and one whose header says another shape (q8). -/
def sparse : State :=
  let s := onCtx (seat 1) fun c => { c with qd := [(4, descAt 0x4000 4 4 8 4 (2 ^ 134 + 2 ^ 192 * 0x0101000000005000)), (5, descAt 0x6000 4 4 8 4 (2 ^ 134 + 2 ^ 192 * 0x0101000000007000)),
    (6, descAt 0x8000 4 4 8 4 0), (7, descAt 0x4000 4 4 8 4 0), (8, descAt 0x4000 4 8 16 4 (2 ^ 134 + 2 ^ 192 * 0x0101000000005000)), (9, descAt 0x4000 4 4 8 4 (2 ^ 134 + 2 ^ 192 * 0x0101000000009000))] }
  let s := onCore s fun k => { k with scratch := tile24 4 }
  poke (vec s 5 2 [3, 1]) [(20, 0x0101000000005000), (21, 2 + 16 * 4), (22, 64), (23, 16 + 2 ^ 16 * 64 + 2 ^ 32 * 24), (24, 0x0101000000009000)]

/-- The same with both slots of the first group at position 0, two nonzero values of one position. -/
def clashing : State := onCore sparse fun k => { k with scratch := tile24 0 }

def tileOf (s : State) (n : BitVec 4) (off hoff : Nat) : SpTile := ⟨Desc.of (tget 0 s.cctx.qd n.toNat), SpHdr.of (rdNat (s.core 0).scratch hoff 16), 0, off, hoff, 0⟩

theorem witness_SparsityRoutines_common : Live sparse false ∧ OwnStream sparse ∧ sparse.cctx.memq = [] ∧ sparse.cres.regions = [] := by decide
theorem witness_SparsityRoutines_calls : ∀ c ∈ calls [.s 20, .s 21, .s 22] [0x060] ++ calls [.s 21, .q 4] [0x061] ++ calls [.q 7, .s 20] [0x066] ++ calls [.q 5, .q 6, .s 21] [0x062] ++ calls [.q 5, .q 4] [0x063]
      ++ calls [.imm 0, .v 5, .s 22] [0x064] ++ calls [.imm 1, .v 5, .s 22] [0x064] ++ calls [.s 25, .s 21, .s 23, .fmt (fmtOf 4 .rne false 0)] [0x065], Callable sparse c.1 false 0 c.2 := callable_all (by decide)

theorem callAt_start {s : State} {num : Nat} {ops : List Opnd} (o : OwnStream s) (h : callOk s num false 0 ops = true) : CallAt s s num ops (argsOf s ops) 0 [] :=
  ⟨o, by decide, by simpa using callable_of h⟩

/-- A call of the sparsity routines at commit point 4 or later, its frame open. -/
def sparseAt (num : Nat) (ops : List Opnd) (n : Nat) (keep : List Word) : State := sparse.setCthr (natFrame sparse num false ops (argsOf sparse ops ++ [BitVec.ofNat 64 n] ++ keep) n 0)
/-- The same as the definition sees it. -/
def sparseSeen (num : Nat) (ops : List Opnd) (n : Nat) (keep : List Word) : State :=
  let s := sparseAt num ops n keep
  s.setCthr { s.cthr with regs := sparse.regs, stack := [] }
def sparseHdr : Nat := rdNat (sparse.core 0).scratch 0x5000 16

/-- The calls at their starts and at commit points: `SPCHK` and `SPPRUNE` before their last line and after it, `SPXPOSE` after its one block. -/
theorem witness_SparsityRoutines_starts : CallAt sparse sparse 0x061 [.s 21, .q 4] (argsOf sparse [.s 21, .q 4]) 0 [] ∧ CallAt sparse sparse 0x062 [.q 5, .q 6, .s 21] (argsOf sparse [.q 5, .q 6, .s 21]) 0 []
    ∧ CallAt sparse sparse 0x063 [.q 5, .q 4] (argsOf sparse [.q 5, .q 4]) 0 [] :=
  ⟨callAt_start (by decide) (by decide), callAt_start (by decide) (by decide), callAt_start (by decide) (by decide)⟩
theorem witness_SparsityRoutines_points : ∀ c ∈ [(0x061, [Opnd.s 21, .q 4], hdrWords sparseHdr), (0x062, [.q 5, .q 6, .s 21], []), (0x063, [.q 5, .q 4], hdrWords sparseHdr)], ∀ n ∈ [1, 3, 4],
    CallAt (sparseAt c.1 c.2.1 n c.2.2) (sparseSeen c.1 c.2.1 n c.2.2) c.1 c.2.1 (argsOf sparse c.2.1) n c.2.2
    ∧ Live (sparseSeen c.1 c.2.1 n c.2.2) false ∧ (sparseSeen c.1 c.2.1 n c.2.2).cctx.memq = [] ∧ (sparseSeen c.1 c.2.1 n c.2.2).cres.regions = [] := by
  simp only [List.forall_mem_cons, List.not_mem_nil, false_implies, implies_true, and_true]
  and_intros
  all_goals first | decide | exact ⟨_, _, rfl, rfl, rfl, rfl, rfl, rfl, rfl, rfl⟩
theorem witness_SparsityRoutines_header : (sparse.s 24).toNat % 8 = 0 ∧ storeUnfilled sparse (sparse.s 24) = none ∧ (onCtx sparse fun c => { c with nStores := 61 }).cctx.nStores + 2 ≤ 63
    ∧ ∃ ps u, resolve sparse (strandAg sparse sparse.w) (sparse.s 24) 8 .wr .store = (.ok ps, u)
      ∧ (match resolve (enqueue u false (.store (leBytes 8 (sparse.s 21).toNat)) ps (sparse.s 24)) (strandAg sparse sparse.w) (sparse.s 24 + 8) 8 .wr .store with
          | (.ok _, u') => decide (u'.cur = sparse.cur ∧ u'.regs = sparse.regs)
          | _ => false) = true := ⟨by decide, by decide +kernel, by decide, ok_of (by decide +kernel)⟩
/-- The sparse tile without the transposable pattern, and with it broken by three values of one column. -/
def untied : Memory := [(0x5000, 0xD5), (0x5001, 0x42), (0x5002, 0x08), (0x5003, 1), (0x5005, 1), (0x500C, 3), (0x500E, 0x24), (0x500F, 1)]
def broken : Memory := [(0x4001, 0x3F), (0x4009, 0x3F), (0x4011, 0x3F)] ++ (tile24 4).drop 2

theorem witness_SparsityRoutines_pattern : let T := fun m => (⟨Desc.of (tget 0 sparse.cctx.qd (4 : BitVec 4).toNat), SpHdr.of (rdNat m 0x5000 16), 0, 0x4000, 0x5000, 0⟩ : SpTile)
    headerCause (rdNat untied 0x5000 16) (T untied) = 0 ∧ (T untied).h.tp = false ∧ headerCause (rdNat broken 0x5000 16) (T broken) = 0 ∧ patternCause (T broken) broken = some 0 := by decide
/-- The header passes; another magic, another shape and a clash of two slots do not. -/
theorem witness_SparsityRoutines_check : let d := fun n : BitVec 4 => Desc.of (tget 0 sparse.cctx.qd n.toNat)
    let m := (sparse.core 0).scratch
    let T := tileOf sparse 4 0x4000 0x5000
    (d 4).sparse = true ∧ placeSparse 0 (d 4) = some (0, 0x4000, 0x5000, 0) ∧ headerCause sparseHdr T = 0 ∧ sparseHdr < 2 ^ 128 ∧ T.lines = 4
    ∧ (∀ i < 4, scanGroups T m T.groups (i * T.groups) = none) ∧ scanGroups (tileOf clashing 4 0x4000 0x5000) (clashing.core 0).scratch T.groups 0 = some (9, 0) ∧ T.h.tp = true ∧ patternCause T m = none
    ∧ headerCause (rdNat m 0x9000 16) (tileOf sparse 9 0x4000 0x9000) = 1 ∧ 3 ≤ headerCause (rdNat m 0x5000 16) (tileOf sparse 8 0x4000 0x5000)
    ∧ (d 7).sparse = false ∧ (sparse.s 20).toNat % 16 = 0 ∧ (sparse.s 20).toNat < 2 ^ 57 := by decide
theorem witness_SparsityRoutines_prune : let d := fun n : BitVec 4 => Desc.of (tget 0 sparse.cctx.qd n.toNat)
    pruneOk (d 5) (d 6) (sparse.s 21).toNat = true ∧ (∃ T ∈ pruneTile 0 (d 5) (sparse.s 21).toNat, T.lines = 4 ∧ T.stepLines = 1 ∧ ∃ M ∈ placeMat 0 (d 6) (!(sparse.s 21).getLsbD 10), pruneMeets T M = false)
    ∧ (argsOf sparse [.q 5, .q 6, .s 21]).getD 2 0 = sparse.s 21 ∧ (stepDepth (d 5).tag).isSome = true ∧ (d 6).tag = (d 5).tag := by decide
theorem witness_SparsityRoutines_transpose : let d := fun n : BitVec 4 => Desc.of (tget 0 sparse.cctx.qd n.toNat)
    let T := tileOf sparse 4 0x4000 0x5000
    let D := crossTile sparse T (d 5) 0 0x6000 0x7000 0
    (d 5).sparse = true ∧ (d 4).sparse = true ∧ (d 5).trans = false ∧ (d 4).trans = false ∧ (d 5).rows = (d 4).rows ∧ (d 5).cols = (d 4).cols ∧ plainValid (d 5).tag = true ∧ (d 4).tag = (d 5).tag
    ∧ placeSparse 0 (d 5) = some (0, 0x6000, 0x7000, 0) ∧ placeSparse 0 (d 4) = some (0, 0x4000, 0x5000, 0) ∧ T.lines % T.h.m = 0 ∧ tileCause T (sparse.core 0).scratch true = none
    ∧ D.1.lines = 4 ∧ D.1.stepLines = 4 ∧ 0x7000 + 16 + indexBytes D.1.lines D.1.groups D.1.h.n D.1.h.iw ≤ 2 ^ 19
    ∧ 0x6000 + (D.1.lines - 1) * (d 5).rstride + cdiv (D.1.groups * D.1.h.n * (d 5).w) 8 ≤ 2 ^ 19 := by decide
theorem witness_SparsityRoutines_rest : noVectors sparse = false ∧ NoTraps sparse ∧ Awake sparse 5 ∧ (ownVec sparse 5).tag = 2 ∧ (sparse.s 22).toNat ≤ 64 ∧ sparse.s 26 = 0
    ∧ (sparse.s 21).toNat = 2 + 16 * 4 ∧ (sparse.s 23).toNat = 16 + 2 ^ 16 * 64 + 2 ^ 32 * 24 ∧ 2 ≤ 4 ∧ 4 ∈ [2, 4, 8, 16] ∧ 16 < 2 ^ 16 ∧ (24 = 24 ∧ 4 ∈ [4, 5]) ∧ 8 ≤ 8 := by decide


/-! Firmware -/

/-- A page table of address space 1 that maps the first gigabyte, and what stands behind it. -/
def mapped (m : Memory) : Memory := [(0x1000, 1), (0x1001, 0x20), (0x2000, 1), (0x2001, 0x30), (0x3000, 0x1F)] ++ m

/-- An image of one empty symbol section (R435, R437) at 0x8000, its digest as SHA-384 gives it of its last 32 bytes, and a command block at 0x9000. -/
def imageCells : Memory := List.flatten
    [[(0x8000, 71), (0x8001, 76), (0x8002, 82), (0x8003, 73), (0x8004, 1), (0x8007, 1), (0x8012, 1), (0x8014, 160)],
    [(0x8018, 46), (0x8019, 113), (0x801a, 121), (0x801b, 74), (0x801c, 120), (0x801d, 164), (0x801e, 95), (0x801f, 146)],
    [(0x8020, 210), (0x8021, 250), (0x8022, 3), (0x8023, 205), (0x8024, 57), (0x8025, 18), (0x8026, 77), (0x8027, 49)],
    [(0x8028, 96), (0x8029, 90), (0x802a, 22), (0x802b, 112), (0x802c, 235), (0x802d, 77), (0x802e, 53), (0x802f, 58)],
    [(0x8030, 231), (0x8031, 251), (0x8032, 45), (0x8033, 181), (0x8034, 203), (0x8035, 253), (0x8036, 102), (0x8037, 251)],
    [(0x8038, 234), (0x8039, 159), (0x803a, 172), (0x803b, 181), (0x803c, 3), (0x803d, 59), (0x803e, 18), (0x803f, 130)],
    [(0x8040, 231), (0x8041, 37), (0x8042, 58), (0x8043, 17), (0x8044, 137), (0x8045, 40), (0x8046, 253), (0x8047, 74)],
    [(0x8080, 9), (0x8084, 2), (0x9000, 160), (0x9001, 5)]]

/-- A firmware core at 0x40 with registers set, a ring of four entries about to wrap, and at 0x80 the command of a single tile instruction (R415) whose image and block stand in memory. -/
def firm (xs : Tab Word) : State :=
  { State.reset with
    fw := { Firmware.reset with x := xs, pc := 0x40, mtvec := 0x103, mem := [(0x81, 128), (0x88, 21), (0x8c, 1), (0xa1, 144), (0xe9, 160)] }
    notify := ⟨6, 2⟩
    funcs := [(0, { Func.reset with rings := [(3, ⟨0x1000, 4, 3, 0⟩)] })]
    roots := [(1, 0x1001)]
    mem := mapped imageCells }

/-- A device read below 64 KB through the tables of `mapped`, said without its walks. -/
def lowRead (s : State) (asid va n : Nat) : Option (List Byte) := if asid = 1 ∧ va + n ≤ 2 ^ 16 then some ((List.range n).map fun i => rdByte s.mem (va + i)) else devRead s asid va n

theorem walk_low (s : State) (hr : s.roots = [(1, 0x1001)]) (hm : s.mem = mapped imageCells) (va : Nat) (h : va < 2 ^ 16) : walk s 1 va = some ⟨1, 0, 2 ^ 30, 0, 0, 0, true, true, true, false⟩ := by
  have i0 : ptIndex 0 va = 0 := by simp [ptIndex, fld]; omega
  have i1 : ptIndex 1 va = 0 := by simp [ptIndex, fld]; omega
  have i2 : ptIndex 2 va = 0 := by simp [ptIndex, fld]; omega
  have hp : ptSize 2 = 1073741824 := rfl
  have h1 : rdNat (mapped imageCells) (lpddr 0x1000) 8 = 0x2001 := by decide +kernel
  have h2 : rdNat (mapped imageCells) (lpddr 0x2000) 8 = 0x3001 := by decide +kernel
  have h3 : rdNat (mapped imageCells) (lpddr 0x3000) 8 = 0x1F := by decide +kernel
  have hroot : rootOf s 1 = some 0x1000 := by simp [rootOf, hr]; decide
  have hva : ¬2 ^ 56 ≤ va := by omega
  simp only [walk, hva, if_false, hroot, hm]
  simp [walkFrom, i0, i1, i2, h1, h2, h3, hp, bitOf, fld]
  omega

theorem lowRead_eq (s : State) (hr : s.roots = [(1, 0x1001)]) (hm : s.mem = mapped imageCells) : devRead s = lowRead s := by
  funext asid va n
  unfold lowRead
  split
  · next h =>
    obtain ⟨rfl, h⟩ := h
    have : ∀ (l : List Nat), (∀ i ∈ l, i < n) → l.mapM (fun i => (walk s 1 (va + i)).map fun x => rdByte s.mem (x.place (va + i))) = some (l.map fun i => rdByte s.mem (va + i)) := by
      intro l
      induction l with
      | nil => simp
      | cons i l ih =>
        intro hl
        have hi := hl i (by simp)
        rw [List.mapM_cons, walk_low s hr hm (va + i) (by omega), ih fun j hj => hl j (by simp [hj])]
        simp [Xlat.place, physKey]
    exact this _ fun i hi => List.mem_range.mp hi
  · rfl

theorem witness_FirmwareInstructions : let s := firm [(1, 3), (2, 0x100), (3, 63), (4, 4032), (5, 127), (6, 0x1000), (7, 1), (8, 4), (9, 0x800), (10, 0x410), (11, 0x101), (12, 0x413)]
    s.fw.mode = 3 ∧ ({ s with fw := { s.fw with mode := 1 } }).fw.mode ≠ 3
    ∧ ((fwReg s 3).toNat % 64 + ((fwReg s 3).toNat / 64 % 64 + 1) = 64) ∧ ((fwReg s 4).toNat % 64 + ((fwReg s 4).toNat / 64 % 64 + 1) = 64 ∧ (fwReg s 4).toNat < 2 ^ 12)
    ∧ 64 < (fwReg s 5).toNat % 64 + ((fwReg s 5).toNat / 64 % 64 + 1) ∧ 2 ^ 12 ≤ (fwReg s 6).toNat
    ∧ fwReg s 0 = 0 ∧ (fwReg s 7 ≠ 0 ∧ s.notify.bitmap &&& fwReg s 7 = 0) ∧ s.notify.bitmap &&& fwReg s 8 ≠ 0
    ∧ 2 ^ 11 ≤ (fwReg s 9).toNat ∧ 64 < (fwReg s 12).toNat / 16 % 128
    ∧ ((fwReg s 1).toNat < 2 ^ 11 ∧ (fwReg s 1).toNat / 16 % 128 ≤ 64 ∧ (ringOf s 0 3).size.toNat = 2 ^ 2 ∧ (ringOf s 0 3).head ≠ (ringOf s 0 3).tail.toNat)
    ∧ (fwReg s 2).toNat % 128 = 0 ∧ (fwReg s 11).toNat % 128 ≠ 0
    ∧ ({ ringOf s 0 3 with tail := 3 } : Ring).head = ({ ringOf s 0 3 with tail := 3 } : Ring).tail.toNat := by decide
/-- An empty ring is not configured; an entry's bus address answers an error or does not. -/
theorem witness_FirmwareInstructions_ring : (∀ k, 1 ≤ k → k ≤ 16 → (ringOf (firm []) 64 0).size.toNat ≠ 2 ^ k) ∧ ∀ a, Config.busError a = true ∨ Config.busError a = false :=
  ⟨fun k _ _ => Nat.ne_of_lt (Nat.two_pow_pos k), fun a => by cases Config.busError a <;> simp⟩
/-- A command that no launch can be (zeros), one that is placed at once, and one that waits behind a launch of higher class. -/
theorem witness_FirmwareInstructions_refused : ∃ st, checkEntry (firm []) 0 0 none (rdNat (firm []).fw.mem 0x100 128) 1 = .error st := ⟨1, by rfl⟩
theorem lowRead_firm : devRead (firm []) = lowRead (firm []) := lowRead_eq _ rfl rfl
theorem witness_FirmwareInstructions_placed : ∃ x : Launch × List Sec, checkEntry (firm []) 0 0 none (rdNat (firm []).fw.mem 0x80 128) (firm []).nextLaunch = .ok x
    ∧ (let s := firm []
       let u := { (loadSections s 0x8000 s.nextLaunch x.1.asid x.2).setLaunch s.nextLaunch x.1 with nextLaunch := s.nextLaunch + 1 }
       decide ((nextWaiting u).map (·.1) = some s.nextLaunch) && (match serve u s.nextLaunch x.1 with | .placed _ => true | _ => false)) = true :=
  exc_of (by
    delta checkEntry entryCheck imageCheck streamsOf
    rw [lowRead_firm]
    decide +kernel)
/-- A second launch waits first. -/
def firmBehind : State := { firm [] with launches := [(7, { loadedLaunch with st := .waiting, cls := 3 })] }
theorem lowRead_firmBehind : devRead firmBehind = lowRead firmBehind := lowRead_eq _ rfl rfl
theorem witness_FirmwareInstructions_waits : ∃ x : Launch × List Sec, checkEntry firmBehind 0 0 none (rdNat firmBehind.fw.mem 0x80 128) firmBehind.nextLaunch = .ok x
    ∧ decide ((nextWaiting { (loadSections firmBehind 0x8000 firmBehind.nextLaunch x.1.asid x.2).setLaunch firmBehind.nextLaunch x.1 with nextLaunch := firmBehind.nextLaunch + 1 }).map (·.1)
        ≠ some firmBehind.nextLaunch) = true :=
  exc_of (by
    delta checkEntry entryCheck imageCheck streamsOf
    rw [lowRead_firmBehind]
    decide +kernel)
/-- All the quads taken: it is next, and waits. -/
def firmFull : State := { firm [] with launches := [(7, { loadedLaunch with quads := List.range 128 })] }
theorem lowRead_firmFull : devRead firmFull = lowRead firmFull := lowRead_eq _ rfl rfl
theorem witness_FirmwareInstructions_full : ∃ x : Launch × List Sec, checkEntry firmFull 0 0 none (rdNat firmFull.fw.mem 0x80 128) firmFull.nextLaunch = .ok x
    ∧ (let s := firmFull
       let u := { (loadSections s 0x8000 s.nextLaunch x.1.asid x.2).setLaunch s.nextLaunch x.1 with nextLaunch := s.nextLaunch + 1 }
       decide ((nextWaiting u).map (·.1) = some s.nextLaunch) && (match serve u s.nextLaunch x.1 with | .wait => true | _ => false)) = true :=
  exc_of (by
    delta checkEntry entryCheck imageCheck streamsOf
    rw [lowRead_firmFull]
    decide +kernel)
/-- A trap in supervisor mode that is delegated, one that is not, and one in machine mode. -/
theorem witness_FirmwareInstructions_trap : let s := { firm [] with fw := { (firm []).fw with mode := 1, medeleg := 4 } }
    (s.fw.mode ≠ 3 ∧ s.fw.medeleg.getLsbD 2 = true) ∧ ¬(s.fw.mode ≠ 3 ∧ s.fw.medeleg.getLsbD 63 = true) ∧ ¬((firm []).fw.mode ≠ 3 ∧ (firm []).fw.medeleg.getLsbD 2 = true) ∧ 63 < 64 := by decide

/-! Launches -/

/-- A stage of two replicas, whose `mtx` runs from a start of its own and whose other strands have none. -/
def aStage : Stage := ⟨loadedRes.alloc, 2, none, [0x10000, 0x11000, 0, 0], [0x20000, 0x21000, 0, 0]⟩

/-- A launch in a stand, with nothing else on the device. -/
def launched (x : Launch) : State := { ctl with launches := [(1, x)] }

def placedLaunch : Launch := { loadedLaunch with st := .placed, placed := [⟨0, 1, 0, 0⟩, ⟨0, 2, 0, 1⟩], stages := [aStage], args := [5, 6, 7, 8, 9, 10, 11, 12] }

/-- Two stages and a full queue between them. -/
def pipeline : Launch := { loadedLaunch with placed := [⟨0, 1, 0, 0⟩, ⟨0, 2, 1, 0⟩], queues := [⟨2, 64, 0, 1, true, none, 0, [(0, 1), (1, 2)], 0, 2, []⟩] }

/-- A launch that asks for all the quads waits. -/
def crowded : State := { ctl with launches := [(1, loadedLaunch), (2, { loadedLaunch with st := .waiting, cls := 1, nquads := 128, quads := [] })] }

def halting : Launch := { loadedLaunch with st := .halting, haltAt := 3 }
/-- Its cores swapped out. -/
def swapped : State := after 0 (execContextSwapOut 1 (launched halting))
def savedLaunch : Launch := { halting with st := .saved }

theorem witness_LaunchEvents_start : (launched placedLaunch).launch? 1 = some placedLaunch ∧ placedLaunch.st = .placed ∧ (placedLaunch.placed.map fun p => 4 * p.core + p.res).Nodup ∧ placedLaunch.single = false
    ∧ placedLaunch.lvl = 0 ∧ podCut (launched placedLaunch) placedLaunch.podmask = false ∧ placedLaunch.stages[0]? = some aStage ∧ aStage.starts.getD 1 0 ≠ 0 ∧ aStage.starts.getD 3 0 = 0 := ⟨rfl, by decide⟩
theorem witness_LaunchEvents_complete : launchDone (onCtx ctl fun c => { c with run := .halted }) 1 loadedLaunch = false ∧ launchDone ctl 1 loadedLaunch = false
    ∧ launchDone { launched loadedLaunch with ctxs := [(4, { ctl.cctx with run := .halted })] } 1 loadedLaunch = true ∧ loadedLaunch.graph = none ∧ loadedLaunch.record = none ∧ ({ loadedLaunch with record := some 1 } : Launch).record = some 1 := by decide
theorem witness_LaunchEvents_weights : (launched pipeline).launches.filter (fun e => e.2.st = .running) = [(1, pipeline)] ∧ (pipeline.placed.map fun p => 4 * p.core + p.res).Nodup
    ∧ (let eighths := fun q : StageQ => ((8 * q.occ.length / q.depth : Nat) : Int)
       let ins := fun k => (pipeline.queues.filter fun q => q.cons = k).map eighths
       let outs := fun k => (pipeline.queues.filter fun q => q.prod = k).map eighths
       ins 0 = [] ∧ (8 ∈ outs 0 ∧ ∀ y ∈ outs 0, y ≤ 8) ∧ (8 ∈ ins 1 ∧ ∀ y ∈ ins 1, 8 ≤ y) ∧ outs 1 = []) := ⟨rfl, by decide⟩
theorem witness_LaunchEvents_preemption : ∃ w, loadedLaunch.st = .running ∧ loadedLaunch.record = none ∧ nextWaiting crowded = some w ∧ serve crowded w.1 w.2 = .wait ∧ 1 ∈ victims crowded w.2 := by
  refine ⟨(2, { loadedLaunch with st := .waiting, cls := 1, nquads := 128, quads := [] }), by decide, by decide, by decide, ?_, by decide +kernel⟩
  have h : pickQuads (givenQuads crowded 1) 128 = none := by decide +kernel
  simp only [serve]
  rw [h]
theorem witness_LaunchEvents_swap : halting.st = .halting ∧ halting.record = none ∧ halting.dbg = false ∧ launchStopped (launched halting) 1 halting = true ∧ halting.quads.Nodup ∧ 0 ∈ coresOfQuads halting.quads := by decide
theorem witness_LaunchEvents_resume : swapped.launch? 1 = some savedLaunch ∧ mayResume swapped savedLaunch = true ∧ savedLaunch.quads.Nodup
    ∧ ∀ k ∈ coresOfQuads savedLaunch.quads, (swapped.core k).shadowLen = 0 ∧ (swapped.core k).winq = [] ∧ ∃ v, tget? swapped.shadow k = some v ∧ v.launch = 1 ∧ v.core.winq = [] ∧ (v.ctxs.map (·.1)).Nodup ∧ (∀ e ∈ v.ctxs, nodeOf e.1 = k)
      ∧ (v.threads.map (·.1)).Nodup ∧ ∀ e ∈ v.threads, nodeOf (ctxOf e.1) = k := by
  refine ⟨rfl, by decide, by decide, ?_⟩
  intro k hk
  have : ∀ k ∈ [0, 1, 2, 3], (swapped.core k).shadowLen = 0 ∧ (swapped.core k).winq = [] := by decide
  refine ⟨(this k hk).1, (this k hk).2, ?_⟩
  have h : ∀ k ∈ [0, 1, 2, 3], ((tget? swapped.shadow k).any fun v => v.launch = 1 && v.core.winq = [] && decide ((v.ctxs.map (·.1)).Nodup) && (v.ctxs.all fun e => nodeOf e.1 = k) && decide ((v.threads.map (·.1)).Nodup) && v.threads.all fun e => nodeOf (ctxOf e.1) = k) = true := by decide
  have h := h k hk
  cases hv : tget? swapped.shadow k with
  | none => rw [hv] at h; cases h
  | some v =>
    rw [hv] at h
    simp only [Option.any_some, Bool.and_eq_true, decide_eq_true_eq, List.all_eq_true] at h
    exact ⟨v, rfl, h.1.1.1.1.1, h.1.1.1.1.2, h.1.1.1.2, h.1.1.2, h.1.2, h.2⟩
/-- A container of eight zeros is refused. -/
theorem witness_LaunchEvents_refusal : let s := swapped.setCore 0 { swapped.core 0 with shadowLen := 8 }
    mayResume s savedLaunch = true ∧ launchRefusal s savedLaunch = some 1 := by decide
theorem witness_LaunchEvents_fault : launchOf ctl 4 = 1 ∧ loadedLaunch.st = .running ∧ 0x10 ≤ 0x10 ∧ 0x14 ≤ 0x14 := by decide

/-! What reaches a context -/

theorem witness_ContextEvents_landing : let s := onRegs ctl fun r => { r with pend := [⟨0, 0, false, .sreg 63 9⟩] }
    (s.thr (mainOf 4)).regs.pend = [⟨0, 0, false, .sreg 63 9⟩] ∧ (s.thr (mainOf 4)).regs.wb + 16 ≤ 63 ∧ 63 < (s.thr (mainOf 4)).regs.wb + 64 := by decide

/-- Semaphore 31 with nobody waiting, with a waiter for more than there will be, and with one for just as much. -/
theorem witness_ContextEvents_semaphore : let s := fun q => onCore ctl fun k => { k with sems := [(31, ⟨2, q⟩)] }
    let c := min 65535 ((2 : BitVec 16).toNat + (1 : Word).toNat % 2 ^ 16)
    31 < 32 ∧ (1 : Word).toNat % 2 ^ 16 ≠ 0 ∧ tget ⟨0, []⟩ ((s []).core 0).sems 31 = ⟨2, []⟩ ∧ tget ⟨0, []⟩ ((s [(25, 4)]).core 0).sems 31 = ⟨2, (25, 4) :: []⟩ ∧ c < 4
    ∧ tget ⟨0, []⟩ ((s [(25, 3)]).core 0).sems 31 = ⟨2, (25, 3) :: []⟩ ∧ 3 ≤ c := by decide

theorem witness_ContextEvents_mutex : let s := fun x => onCore ctl fun k => { k with mtxs := [(7, x)] }
    let x := fun y => tget ⟨none, []⟩ ((s y).core 0).mtxs 7
    7 < 8 ∧ (x ⟨none, []⟩).holder = none ∧ (x ⟨none, []⟩).queue = [] ∧ (x ⟨some 5, []⟩).holder ≠ none ∧ (x ⟨some 5, []⟩).holder ≠ some (remoteBase + 9)
    ∧ (x ⟨some (remoteBase + 9), []⟩).holder = some (remoteBase + 9) ∧ remoteBase ≤ remoteBase + 9 ∧ (x ⟨some (remoteBase + 9), [25]⟩).queue = 25 :: [] := by decide

/-- A held increment whose accesses and entries are done, and one behind a load that is not. -/
theorem witness_ContextEvents_signal : let g : HeldSig := ⟨3, 65535, 1, [(2, 5)]⟩
    let s := fun n => onRes (onCtx ctl fun c => { c with sigs := [g], memq := [⟨0, .store [], [], 0, false, none, 20, 0, false⟩, ⟨1, .store [], [], 0, false, none, 20, 0, false⟩].drop n }) fun x => { x with retired := [(2, 5)] }
    ((s 1).ctx 4).sigs = [g] ∧ g.amount ≠ 0 ∧ (∀ m ∈ ((s 1).ctx 4).memq, m.isLoad = true ∨ g.afterMem ≤ m.id) ∧ (∀ h ∈ g.heads, h.2 ≤ tget 0 ((s 1).res (resKeyOf 4)).retired h.1)
    ∧ (tget ⟨0, []⟩ ((s 1).core (nodeOf 4)).sems g.sem).queue = [] ∧ ((s 0).ctx 4).sigs = [g] ∧ ¬(∀ m ∈ ((s 0).ctx 4).memq, m.isLoad = true ∨ g.afterMem ≤ m.id) := by decide

theorem witness_ContextEvents_waking : let s := onCtx ctl fun c => { c with awake := 0x7F, waking := [(7, 0)] }
    7 < 8 ∧ (7, 0) ∈ (s.ctx 4).waking ∧ (s.thr (mainOf 4)).stack = [] := by decide

/-- A window write to the last Bantam bytes of a context, one to its registers 62 and 63, and one that finds the partition halted. -/
theorem witness_ContextEvents_window : let b : WinWrite := ⟨2, 4 * 4096 + 4088, leBytes 8 9, 0, none⟩
    let r : WinWrite := ⟨4, 2 ^ 25 + 8 * 62, [(9 : Word), 10].flatMap fun v => leBytes 8 v.toNat, 0, none⟩
    let s := fun x => onCore ctl fun k => { k with winq := [x] }
    ((s b).core 0).winq = [b] ∧ portHeld (s b) 0 = false ∧ winCtx 0 2 b.off = 4 ∧ resLoaded (s b) 4 = true ∧ b.w = 2
    ∧ ((s r).core 0).winq = [r] ∧ portHeld (s r) 0 = false ∧ winCtx 0 4 r.off = 4 ∧ r.w = 4 ∧ r.off % 8 = 0 ∧ r.off / 8 % 64 + [(9 : Word), 10].length = 64 ∧ ([(9 : Word), 10])[1]? = some 10 ∧ r.off / 8 % 64 + 1 ≠ 0 ∧ ((s r).thr (mainOf 4)).stack = []
    ∧ portHeld { s b with launches := [(1, halting)] } 0 = true := by decide

/-- A binary's own queued routine, one scalar coming in. -/
def ownRoutine : Routine := { loadRoutine 0x070 with num := 0x1002, nopw := 1, sigs := [1], native := false, srl := none, body := 0x12000 }
def ownJob : Job := { aJob with num := 0x1002, args := [77], itver := true }
def queueing : State := onRes (launched { loadedLaunch with routines := [ownRoutine] }) fun x => { x with fifos := [(1, [.job ownJob])] }

theorem witness_ContextEvents_frame : (queueing.res (4 * 0 + 1)).head 1 = some ownJob ∧ ownJob.itver = true ∧ ownJob.started = false
    ∧ queueing.launch? (queueing.res (4 * 0 + 1)).launch = some { loadedLaunch with routines := [ownRoutine] } ∧ ([ownRoutine].find? fun r => r.num = ownJob.num) = some ownRoutine
    ∧ 0 < ownJob.args.length := ⟨by decide, by decide, by decide, rfl, by decide⟩

theorem witness_ContextEvents_trap : let s := onCtx ctl fun c => { c with tvec := 0x20000, traps := [⟨3, 9, 1, 0, 0, 0x10040, 5, 0⟩] }
    (s.ctx 4).traps = [⟨3, 9, 1, 0, 0, 0x10040, 5, 0⟩] ∧ launchRuns s 4 = true ∧ mayTakeTrap s 4 = true ∧ (s.ctx 4).tvec ≠ 0 ∧ (s.thr (mainOf 4)).wait = none ∧ (s.thr (mainOf 4)).stack = [] := by decide

theorem witness_ContextEvents_walk : (3 : Nat) < 4 ∧ (∃ x, walk ctl 1 (0x3FFFFFFF : Word).toNat = some x ∧ (ctl.core 0).tlb = []) ∧ walk ctl 1 (0x40000000 : Word).toNat = none :=
  ⟨by decide, ⟨⟨1, 0, 2 ^ 30, 0, 0, 0, true, true, true, false⟩, by decide +kernel⟩, by decide +kernel⟩

theorem resolve_pad {s : State} {ag : Ag} {va : Word} {off N : Nat} {acc : Acc} {use : WinUse} (hc : ag.core = some 0) (hv : va.toNat = 0x0101000000000000 + off) (h : off + N ≤ 2 ^ 19) (h1 : 0 < N) :
    ∃ l, resolve s ag va N acc use = (.ok l, s) := by
  have loc : ∀ i < N, locOf ag (0x0101000000000000 + (off + i)) = some (.win 0 0 (off + i)) := by
    intro i hi
    have a1 : ¬0x0101000000000000 + (off + i) < 2 ^ 56 := by omega
    have a2 : ¬0x0101000000000000 + (off + i) < 2 ^ 56 + 2 ^ 40 := by omega
    have a3 : 0x0101000000000000 ≤ 0x0101000000000000 + (off + i) ∧ 0x0101000000000000 + (off + i) < 0x0101000000000000 + 2 ^ 31 := by omega
    have a4 : fld (0x0101000000000000 + (off + i)) 27 4 = 0 := by simp only [fld]; omega
    have a5 : fld (0x0101000000000000 + (off + i)) 0 27 = off + i := by simp only [fld]; omega
    rw [locOf, if_neg a1, if_neg a2, if_pos (by simpa using a3), hc, a4, a5]
    rfl
  have from' : ∀ n i ps, i + n = N → ∃ l, resolveFrom ag va acc use n i s ps none = (.ok l, s) := by
    intro n
    induction n with
    | zero => exact fun i ps _ => ⟨_, rfl⟩
    | succ n ih =>
      intro i ps hi
      have ha : addrAt va i = 0x0101000000000000 + (off + i) := by
        rw [addrAt, BitVec.toNat_add, BitVec.toNat_ofNat, hv]
        omega
      obtain ⟨l, hr⟩ := ih (i + 1) (.win 0 0 (off + i) :: ps) (by omega)
      refine ⟨l, ?_⟩
      rw [resolveFrom]
      simp only [ha, loc i (by omega), winFault]
      rw [if_pos (by omega)]
      exact hr
  obtain ⟨l, hl⟩ := from' N 0 [] (by omega)
  refine ⟨l, ?_⟩
  have := loc 0 h1
  rw [resolve, hv, show off = off + 0 from rfl, this]
  exact hl

def aRegion : Region := ⟨0, 0x0101000000010000, 0x2000, [0], []⟩
def filling : State := onRes ctl fun r => { r with regions := [(0, aRegion)], fills := [1] }

/-- The last chunk of a region whose range is the scratchpad of the core itself. -/
theorem witness_ContextEvents_fill : 1 ∈ (filling.res (4 * 0 + 1)).fills ∧ regionAt (filling.res (4 * 0 + 1)) (4096 * 1) = some (0, aRegion)
    ∧ ∃ ps u, resolve filling { strandAg filling (ctxKey (4 * 0 + 1) 0) with res := 4 * 0 + 1 } (aRegion.va + BitVec.ofNat 64 (4096 * 1 - (aRegion.sp + shareBase (filling.res (4 * 0 + 1))))) 4096 .rd .load = (.ok ps, u) :=
  ⟨by decide, by decide, (resolve_pad (off := 0x11000) rfl (by decide) (by decide) (by decide)).imp fun _ h => ⟨_, h⟩⟩

/-- The same with a range that is not mapped. -/
def unfillable : State := onRes ctl fun r => { r with regions := [(0, { aRegion with va := 0x40000000 })], fills := [1] }
theorem witness_ContextEvents_badFill : 1 ∈ (unfillable.res (4 * 0 + 1)).fills ∧ regionAt (unfillable.res (4 * 0 + 1)) (4096 * 1) = some (0, { aRegion with va := 0x40000000 })
    ∧ ∃ e u, resolve unfillable { strandAg unfillable (ctxKey (4 * 0 + 1) 0) with res := 4 * 0 + 1 } ((0x40000000 : Word) + BitVec.ofNat 64 (4096 * 1 - (0 + shareBase (unfillable.res (4 * 0 + 1))))) 4096 .rd .load
      = (.error e, u) := ⟨by decide, by decide, (error_of (p := fun _ _ => True) (by decide +kernel)).imp fun e h => h.imp fun u h => h.1⟩

theorem witness_ContextEvents_reserved : Live ctl (squashOf 0x50000000) ∧ squashed (onRegs ctl fun r => { r with xfer := some (0x10010, 1) }) (squashOf 0x52000000) = true := by decide

/-! Nodes, pages and errors -/

def anEntry : InboxEnt := ⟨none, 0xA2 + 2 ^ 8 * 4, some ⟨0, 4, 0, 4, 0, 1, 0, false⟩, some (pkgNode 1), 0⟩
def noded (n : Nat) (x : Node) : State := { ctl with nodes := [(n, x)] }

theorem witness_NodeAndPageEvents_start : let s := noded (dieNode 1 3) { Node.reset with inbox := [anEntry] }
    (s.node (dieNode 1 3)).inbox = anEntry :: [] ∧ (s.node (dieNode 1 3)).busy = false ∧ (s.node (dieNode 1 3)).outcome = none ∧ nodeRuns s (dieNode 1 3) = true ∧ 512 ≤ agentOf (dieNode 1 3)
    ∧ anEntry.addr = none := by decide
/-- A member of a pod launch that is not its root, with the package's controller idle. -/
def podMember : Launch := { loadedLaunch with single := true, podmask := 3, root := Config.packageNumber.toNat + 1 }
theorem witness_NodeAndPageEvents_member : let s := launched podMember
    s.launch? (seatLaunch (pkgNode 1)) = some podMember ∧ podMember.member = true ∧ podMember.single = true ∧ podMember.st = .running ∧ pkgNode 1 = pkgNode (seatLaunch (pkgNode 1)) ∧ 512 ≤ agentOf (pkgNode 1)
    ∧ (s.node (pkgNode 1)).busy = false ∧ (s.node (pkgNode 1)).outcome = none :=
  ⟨rfl, by simp [Launch.member, podMember], rfl, rfl, by decide, by decide, rfl, rfl⟩
theorem witness_NodeAndPageEvents_inbox : quadHolder ctl 0 = some 1 ∧ ((noded (quadNode 1 0) { Node.reset with inbox := [anEntry] }).node (quadNode 1 0)).inbox.length < 2
    ∧ 2 ≤ ((noded (quadNode 1 0) { Node.reset with inbox := [anEntry, anEntry] }).node (quadNode 1 0)).inbox.length := by decide
theorem witness_NodeAndPageEvents_completion : let s := { ctl with nodes := [(pkgNode 1, { Node.reset with busy := true, children := [(2, .running)], dispatched := [2] }),
      (dieNode 1 0, { Node.reset with outcome := some .done, parent := some (pkgNode 1), child := 2 })] }
    let t := noded (pkgNode 1) { Node.reset with outcome := some (.faulted 5) }
    let f := { ctl with nodes := [(pkgNode 1, { Node.reset with busy := true, children := [(2, .running)], dispatched := [2] }),
      (dieNode 1 0, { Node.reset with outcome := some (.faulted 5), parent := some (pkgNode 1), child := 2 })] }
    (s.node (dieNode 1 0)).outcome = some .done ∧ (s.node (dieNode 1 0)).parent = some (pkgNode 1) ∧ pkgNode 1 ≠ dieNode 1 0
    ∧ tget? (s.node (pkgNode 1)).children (s.node (dieNode 1 0)).child = some .running
    ∧ (t.node (pkgNode 1)).outcome = some (.faulted 5) ∧ (t.node (pkgNode 1)).parent = none ∧ 5 ≤ levelOf (pkgNode 1) ∧ 5 ≤ levelOf (podNode 1)
    ∧ (f.node (dieNode 1 0)).outcome = some (.faulted 5) ∧ (f.node (dieNode 1 0)).parent = some (pkgNode 1) ∧ (f.node (pkgNode 1)).cancelling = false
    ∧ (f.node (pkgNode 1)).dispatched.erase (f.node (dieNode 1 0)).child = [] ∧ tget? (f.node (pkgNode 1)).children (f.node (dieNode 1 0)).child = some .running := by decide
theorem witness_NodeAndPageEvents_discard : let s := fun d => noded (dieNode 1 0) { Node.reset with busy := true, discard := true, dispatched := d }
    ((s []).node (dieNode 1 0)).busy = true ∧ ((s []).node (dieNode 1 0)).discard = true ∧ ((s []).node (dieNode 1 0)).dispatched = [] ∧ ((s [0]).node (dieNode 1 0)).dispatched ≠ [] := by decide

/-- A function with an invalidation of the first megabyte of address space 1 at rest or under way, and a load there still to come. -/
def invalidating (done : Bool) (q : List MemOp) : State := { onCtx ctl fun c => { c with memq := q } with funcs := [(0, { Func.reset with iasid := 1, ilen := 0x100000, idone := done, going := (1, 0, 0x100000) })] }

theorem witness_NodeAndPageEvents_invalidation : let q : List MemOp := [⟨0, .load .none, [.phys 0], 0xFFFFF, false, none, 20, 0, false⟩]
    ((invalidating false []).func 0).idone = false ∧ ((invalidating true []).func 0).idone = true ∧ ((invalidating true []).func 0).iasid.toNat / 256 = 0 ∧ ((invalidating true []).func 1).iasid.toNat / 256 ≠ 1
    ∧ ((invalidating true []).func 1).idone = true ∧ rangeBusy (invalidating false q) (invRange ((invalidating false q).func 0).going) = true ∧ rangeBusy (invalidating false []) (invRange ((invalidating false []).func 0).going) = false := by decide

/-- Address space 1 with its first gigabyte owned by a class, a page moving or not, and a table that starts to move it. -/
def owned (owner : Nat) (mig : Bool) : State :=
  { ctl with mem := [(0x1000, 1), (0x1001, 0x20), (0x2000, 1), (0x2001, 0x30), (0x3000, BitVec.ofNat 8 (0x1F + 64 * owner + if mig then 32 else 0))] }
def gigabyte (owner : BitVec 2) (mig : Bool) : Xlat := ⟨1, 0, 2 ^ 30, 0, owner, 0, true, true, true, mig⟩

/-- A page just at the policy's borders. -/
def policy : State := { ctl with pages := [(physKey 1 0 0, ⟨512, 256, 0, 0, 0, 2 ^ 16, some (1, 0)⟩)] }

theorem witness_NodeAndPageEvents_epoch_own : let s := { owned 1 false with pages := [(physKey 1 0 0, ⟨512, 256, 0, 0, 0, 2 ^ 30, none⟩)] }
    (pageOf s (physKey 1 0 0)).map (fun x => (x.asid, x.va)) = some (1, 0) := by decide +kernel
theorem witness_NodeAndPageEvents_epoch : tget? policy.pages (physKey 1 0 0) = some ⟨512, 256, 0, 0, 0, 2 ^ 16, some (1, 0)⟩
    ∧ (match execMigrationEpoch policy with | .next t => t.agenda | _ => []) = [.event (.migrationRequest 1 0 0 false)] := ⟨rfl, rfl⟩
theorem witness_NodeAndPageEvents_request : let s := owned 1 false
    let x := gigabyte 1 false
    let t := onCore s fun k => { k with armed := true, tsize := 4096 }
    walk s 1 (0x3FFFFFFF : Word).toNat = some x ∧ x.owner ≠ 3 ∧ (0 : BitVec 2) ≠ 3 ∧ (0 : BitVec 2) ≠ x.owner ∧ recentMove s (pageRec s (physKey x.owner.toNat x.peer x.frame) x.size (some (1, x.va))) = false
    ∧ s.agenda = [] ∧ pinned s x = false ∧ frameBarred s 0 (moveFrame s x 0) = false ∧ rootOf s 1 = some 0x1000 ∧ leafFrom s.mem x.va 5 0 0x1000 = some (0x3000, 2)
    ∧ walk t 1 (0x3FFFFFFF : Word).toNat = some x ∧ pinned t x = true ∧ walk (owned 1 true) 1 0 = some (gigabyte 1 true) := by
  and_intros
  all_goals decide +kernel
/-- A page whose stack is under quarantine leaves, whatever the policy says. -/
theorem witness_NodeAndPageEvents_leaves : let s := { owned 0 false with mem := (owned 0 false).mem ++ [(0x3003, 0x40)], stackQuar := [Config.stackOf (lpddr 0x40000000)] }
    let x := { gigabyte 0 false with frame := 0x40000000 }
    walk s 1 (0x3FFFFFFF : Word).toNat = some x ∧ (x.owner = 0 ∧ frameBarred s 0 x.frame = true) ∧ x.mig = false ∧ x.owner ≠ 3 ∧ (1 : BitVec 2) ≠ 3 ∧ pinned s x = false ∧ frameBarred s 1 (moveFrame s x 1) = false
    ∧ rootOf s 1 = some 0x1000 ∧ leafFrom s.mem x.va 5 0 0x1000 = some (0x3000, 2) := by
  refine ⟨?_, ⟨?_, ?_⟩, ?_, ?_, ?_, ?_, ?_, ?_, ?_⟩
  case refine_3 => simp [frameBarred]
  all_goals decide +kernel
/-- A move to the second gigabyte of this device's memory, with the page at rest and with a load of it to come. -/
def moving (q : List MemOp) : State := { onCtx (owned 1 true) fun c => { c with memq := q } with moves := [⟨1, 0, 0, 0x40000000⟩] }

theorem witness_NodeAndPageEvents_switch : let x := gigabyte 1 true
    let q : List MemOp := [⟨0, .load .none, [.phys (physKey 1 0 0x3FFFFFFF)], 0x3FFFFFFF, false, none, 20, 0, false⟩]
    ((moving []).moves.find? fun m => m.asid = 1 && m.va = (0 : Word).toNat) = some ⟨1, 0, 0, 0x40000000⟩ ∧ walk (moving []) 1 (0 : Word).toNat = some x ∧ pageBusy (moving []) x = false
    ∧ Memory.wf (moving []).mem = true ∧ rootOf (moving []) 1 = some 0x1000
    ∧ leafFrom (copyRange (moving []).mem (physKey x.owner.toNat x.peer x.frame) (physKey (0 : BitVec 2).toNat 0 (0x40000000 : Word).toNat) x.size) x.va 5 0 0x1000 = some (0x3000, 2)
    ∧ walk (moving q) 1 (0 : Word).toNat = some x ∧ pageBusy (moving q) x = true := by
  and_intros
  all_goals decide +kernel
theorem witness_NodeAndPageEvents_query : walk { ctl with pasid := 1, pva := 0x1FF000000000000 } 1 ((0x1FF000000000000 : Word).toNat % 2 ^ 57) = none
    ∧ walk { owned 1 false with pasid := 1 } (1 : BitVec 16).toNat ((0 : Word).toNat % 2 ^ 57) = some (gigabyte 1 false) := ⟨by decide +kernel, by decide +kernel⟩
theorem witness_NodeAndPageEvents_errors : let s := fun n => { ctl with corrections := List.replicate n (.core 5 (.bank 31), 7) }
    let near := fun e : Resource × Nat => e.1 = .core 5 (.bank 31) ∧ 10007 ≤ e.2 + 10000
    ((s 14).corrections.filter fun e => decide (near e)).length < 15 ∧ 15 ≤ ((s 15).corrections.filter fun e => decide (near e)).length
    ∧ ctl.launch? 1 = some loadedLaunch ∧ loadedLaunch.st = .running := ⟨by decide, by decide, rfl, rfl⟩
/-- A pod launch whose link map uses the port, or not; and a launch of this package alone. -/
theorem witness_NodeAndPageEvents_port : let x := { loadedLaunch with podmask := 3 }
    (launched x).launches = [(1, x)] ∧ x.st = .running ∧ x.podmask ≠ 0 ∧ (Config.portUsed 0 x.podmask = true ∨ Config.portUsed 0 x.podmask = false) ∧ ctl.launches = [(1, loadedLaunch)] ∧ loadedLaunch.podmask = 0 :=
  ⟨rfl, rfl, by decide, by cases Config.portUsed 0 (3 : Word) <;> simp, rfl, rfl⟩
theorem witness_NodeAndPageEvents_quarantine : (1 : Nat) ≠ 0 ∧ 8 ≤ 8 ∧ 7 < 8 ∧ 511 / 64 = 7 ∧ (0x8000000000000000 : Word).getLsbD (511 % 64) = true := by decide

/-! Host and debugger -/

/-- Graph 63 of function 5: a signal of the highest bit, a copy, a condition, and a loop over them. -/
def aGraph (pos : Nat) (running pending : Bool) (again : Bool := false) : Graph := ⟨5, [.signal 63, .copy 0x6000 0x5000 64, .cond 0x5000 4, .loop 2 0], running, pending, pos, [], again⟩
def graphed (g : Graph) : State := { ctl with graphs := [(63, g)] }

theorem witness_HostAndDebugEvents_load : (0 ≠ 0 ∨ 4 ≠ 8) ∧ 63 < 64 ∧ (aGraph 0 false false).nodes.length ≤ 256 ∧ 64 ≤ 64 ∧ tget? (graphed (aGraph 0 false false)).graphs 63 = some (aGraph 0 false false) ∧ (aGraph 0 false false).running = false
    ∧ (aGraph 0 false false).nodes.all (nodeOk (aGraph 0 false false).nodes.length) = true ∧ 64 ≤ 64 ∧ 256 < (List.replicate 257 (GraphNode.signal 0)).length
    ∧ tget? (graphed (aGraph 0 true false)).graphs 63 = some (aGraph 0 true false) ∧ (aGraph 0 true false).running = true := by decide
theorem witness_HostAndDebugEvents_graph : let at' := fun n r p => tget? (graphed (aGraph n r p)).graphs 63 = some (aGraph n r p)
    at' 0 false false ∧ at' 0 true false ∧ at' 0 false true ∧ at' 4 true false ∧ (2 : Word).getLsbD 0 = false ∧ (1 : Word).getLsbD 0 = true ∧ (4 ≠ 0 ∧ 4 ≠ (aGraph 0 false false).owner) ∧ 5 = (aGraph 0 false false).owner
    ∧ (aGraph 0 true false).running = true ∧ (aGraph 0 false true).pending = true ∧ (aGraph 0 false true).running = false
    ∧ (aGraph 0 true false).nodes[0]? = some (.signal 63) ∧ 63 < 64 ∧ (aGraph 1 true false).nodes[1]? = some (.copy 0x6000 0x5000 64) ∧ (aGraph 2 true false).nodes[2]? = some (.cond 0x5000 4)
    ∧ (aGraph 3 true false).nodes[3]? = some (.loop 2 0) ∧ tget 0 (aGraph 3 true false).counts 3 + 1 < 2 ∧ 2 ≤ tget 0 ({ aGraph 3 true false with counts := [(3, 1)] } : Graph).counts 3 + 1
    ∧ (aGraph 4 true false).nodes[4]? = none ∧ (aGraph 4 true false).pending = false
    ∧ (aGraph 4 true true).pending = true ∧ tget? (graphed (aGraph 0 true false true)).graphs 63 = some (aGraph 0 true false true) ∧ (aGraph 0 true false true).again = true ∧ (aGraph 0 true false).again = false := by decide
theorem witness_HostAndDebugEvents_registers : (1 : Nat) ≠ 0 ∧ 1023 < 1024 ∧ 255 < 256 ∧ 600 ≤ 600 ∧ 1800 ≤ 1800 ∧ 0 < ((onCore ctl fun k => { k with shadowLen := 8 }).core 0).shadowLen ∧ 64 ≤ 64 ∧ 15 < 16
    ∧ 0x4000 ≤ 0x507F ∧ 0x507F < 0x5080 ∧ 100 ≤ (100 : Word).toNat ∧ (1000000 : Word).toNat ≤ 1000000 := by decide
theorem witness_HostAndDebugEvents_stops : holderOf ctl 0 = some (1, loadedLaunch) ∧ loadedLaunch.st = .running ∧ (let x := { halting with dbg := true }; holderOf (launched x) 3 = some (1, x) ∧ x.st = .halting ∧ x.dbg = true)
    ∧ (let x := { halting with st := .stopped }; holderOf (launched x) 3 = some (1, x) ∧ launchRefusal (launched x) x = none)
    ∧ (let s := onCore ctl fun k => { k with sampEn := true, tfifo := [(false, List.replicate 55 0)] }; (s.core 0).sampEn = true ∧ (s.core 0).trunc = false ∧ traceLen (s.core 0) + 9 ≤ 64) :=
  ⟨rfl, rfl, ⟨rfl, rfl, rfl⟩, ⟨rfl, by decide⟩, by decide⟩

/-- A report asked for; an access over a port that is out; the unmapping of a page that moves, and of one that does not. -/
theorem witness_HostAndDebugEvents_accesses : 64 ≤ 64 ∧ (1 : Word).getLsbD 0 = true ∧ (ctl.func 64).abusy = false ∧ (let f := (Func.reset : Func); { f with abusy := true }.abusy = true)
    ∧ fwdOut { ctl with ports := [(Config.peerPort 3, 1)] } (.peer 3) = true ∧ fwdOut ctl .host = false
    ∧ unmapsMoving { owned 1 true with moves := [⟨1, 0, 0, 0x40000000⟩] } (lpddr 0x3000) [0x1E] = true ∧ unmapsMoving { owned 1 true with moves := [⟨1, 0, 0, 0x40000000⟩] } (lpddr 0x3000) [0x1F] = false := by
  refine ⟨by decide, by decide, rfl, rfl, ?_, rfl, by decide +kernel, by decide +kernel⟩
  simp [fwdOut, peerOut, linkOut, tget]

/-- A core whose FIFO holds a record of one unit, with a buffer of some bytes at 0x4000. -/
def tracing (armed : Bool) (size : Word) (base : Word) : State := onCore ctl fun k => { k with tfifo := [(true, [0x1234])], armed, tbase := base, tsize := size }

theorem witness_HostAndDebugEvents_traces : ((tracing true 16 0x4000).core 0).armed = true ∧ ((tracing false 16 0x4000).core 0).armed = false ∧ ((tracing true 16 0x4000).core 0).tfifo = (true, 0x1234 :: []) :: []
    ∧ ((tracing true 16 0x4000).core 0).tfifoHalf = false ∧ ((tracing true 16 0x4000).core 0).twptr + 16 ≤ ((tracing true 16 0x4000).core 0).tsize.toNat
    ∧ bufferPlaces (tracing true 16 0x4000) 0 (0x4000 / 4096 * 4096 + 0) 16 = some ((List.range 16).map fun i => 0x4000 + i) ∧ ((List.range 16).map fun i => 0x4000 + i).Nodup
    ∧ ((tracing true 15 0x4000).core 0).tsize.toNat < 0 + 16 ∧ bufferPlaces (tracing true 16 0x40000000) 0 (0x40000000 / 4096 * 4096 + 0) 16 = none := by decide +kernel

/-! Reset, decoding, the step -/

theorem reset_inv : Memory.wf State.reset.mem = true := by decide
theorem witness_StepKeepsMemoryCanonical : Memory.wf State.reset.mem = true ∧ ∃ t, step State.reset = .next t := ⟨by decide, _, rfl⟩

theorem witness_EncodeDecodeRoundTrip : let i := Instr.bfx true 20 21 63 0 true
    i.WellFormed ∧ i.hasWords = true ∧ i.isFirmware = false ∧ (Instr.sigw 31 31).isFirmware = true
    ∧ decodeWords [0xFC801300, 0x00000016, 0x00000014, 0x00000015] = .ok (.rcall false 0x1002 false 0 [.s 22, .s 20, .s 21]) ∧ decodeFirmware 0x0005A50B = some (.sigw 10 11) :=
  ⟨by decide, by decide, by decide, by decide, rfl, rfl⟩

/-- `ADD` with its immediate, and a word that is no instruction, at the program counter of `ctl`. -/
def coded (w : List W32) : State := State.reset.withCode w

theorem witness_StepRunsDecoded_issue : (coded [0x08AA8003]).agenda = .issue 20 :: [] ∧ (let v := { coded [0x08AA8003] with agenda := [], cur := 20 }
      v.cthr.landTrap = none ∧ isController v.w = false ∧ isTileRes v.w = false ∧ (onThr v fun x => { x with landTrap := some 5 }).cthr.landTrap = some 5 ∧ v.cthr.wait = none) := by decide

theorem witness_StepRunsDecoded_fetch : (∃ u, fetch { coded [0x08AA8003] with agenda := [], cur := 20 } = (.ok (.addImm false 21 20 3), u)) ∧ (∃ u, fetch { coded [0x50000000] with agenda := [], cur := 20 } = (.reserved 0x50000000, u))
    ∧ ∃ u, fetch (onRegs { coded [] with agenda := [], cur := 20 } fun r => { r with pc := 0x40000000 }) = (.fault 0x10 0x40000000, u) := ⟨⟨_, rfl⟩, ⟨_, rfl⟩, ⟨_, rfl⟩⟩
/-- A page that misses and one that hits, for a word and for the four words of a call; an address beyond every page. -/
theorem witness_StepRunsDecoded_words : let s := { coded [0x08AA8003] with agenda := [], cur := 20 }
    let c := onCore { coded [0xFC801300, 0x00000016, 0x00000014, 0x00000015] with agenda := [], cur := 20 } fun k => { k with tlb := [gigabyte 0 false] }
    let ws : List W32 := [0xFC801300, 0x00000016, 0x00000014, 0x00000015]
    isCore (nodeOf s.w) = true ∧ (∀ y ∈ (s.core 0).tlb, y.covers 1 0x10000 = false) ∧ (s.regs.pc &&& ~~~3).toNat = 0x10000 ∧ (strandAg s s.w).asid = 1 ∧ walk s 1 0x10000 = some (gigabyte 0 false)
    ∧ wordCount 0x08AA8003 = 1 ∧ rdNat s.mem ((gigabyte 0 false).place 0x10000) 4 = (0x08AA8003 : W32).toNat ∧ (gigabyte 0 false).ex = true
    ∧ ws.length = wordCount (ws.headD 0) ∧ (c.regs.pc &&& ~~~3).toNat + 4 * ws.length ≤ 2 ^ 56
    ∧ (∀ k < ws.length, (c.core (nodeOf c.w)).tlb.find? (fun y => y.covers (strandAg c c.w).asid (0x10000 + 4 * k)) = some (gigabyte 0 false)
        ∧ rdNat c.mem ((gigabyte 0 false).place (0x10000 + 4 * k)) 4 = (ws.getD k 0).toNat)
    ∧ walk s 1 0x40000000 = none := by decide +kernel
/-- A controller and a tile resident with a block in hand, the words of a firmware core at the top of its addresses, an act, and nothing to do. -/
theorem witness_StepRunsDecoded_rest : let p := { noded (pkgNode 1) { Node.reset with busy := true, tcb := 0xA0 } with agenda := [], cur := mainOf (seatCtx (pkgNode 1)) }
    let r := { noded (coreNode 0 0) { Node.reset with busy := true, tcb := 0xA5 } with agenda := [], cur := mainOf (seatCtx (coreNode 0 0)) }
    let f := fun (bs : List Byte) => { ctl with fw := { ctl.fw with pc := 0xFFFFFFFFFFFFFFFC, mem := wrBytes [] 0xFFFFFFFFFFFFFFFC bs } }
    p.cthr.landTrap = none ∧ isController p.w = true ∧ (Tcb.of (p.node (tileSeat p p.w)).tcb).op = 0xA0 ∧ r.cthr.landTrap = none ∧ isTileRes r.w = true ∧ (Tcb.of (r.node (tileSeat r r.w)).tcb).op = 0xA5
    ∧ (f []).fw.pc.toNat + 4 ≤ 2 ^ 64 ∧ decodeFirmware (BitVec.ofNat 32 (rdNat (f (leBytes 4 0x0005A50B)).fw.mem 0xFFFFFFFFFFFFFFFC 4)) = some (.sigw 10 11)
    ∧ decodeFirmware (BitVec.ofNat 32 (rdNat (f [0x0B, 0x70]).fw.mem 0xFFFFFFFFFFFFFFFC 4)) = none ∧ (BitVec.ofNat 32 (rdNat (f [0x0B, 0x70]).fw.mem 0xFFFFFFFFFFFFFFFC 4)).extractLsb' 0 7 = 0x0B
    ∧ (Ev.arm 511).StandsFor (.arm 511) ∧ ctl.agenda = [] := by
  and_intros
  all_goals first | exact Nat.le_refl _ | rfl
/-- The firmware core with a software interrupt pending that it takes in machine mode or, delegated, in supervisor mode; and with none enabled. -/
theorem witness_StepRunsDecoded_interrupts : let f := fun (mode : BitVec 2) (mideleg mstatus mie : Word) => { ctl with fw := { ctl.fw with mode, mideleg, mstatus, mie, mip := 0x222 } }
    rvInterrupt (f 1 0 0 0x22) = some (1, false) ∧ rvInterrupt (f 1 0x222 2 0x22) = some (1, true) ∧ rvInterrupt (f 3 0 0 0x22) = none ∧ rvInterrupt ctl = none ∧ ctl.fw.pc.toNat + 4 ≤ 2 ^ 64 := by
  have h : ∀ s : State, s.fw.mip = 0x222 → mipNow s &&& 0x22 = 0x22 := fun s hs => by
    have d : ∀ i < 64, ((rvInterrupts &&& ~~~sInterrupts).getLsbD i && (0x22 : Word).getLsbD i) = false ∧ ((0x222 &&& sInterrupts : Word).getLsbD i && (0x22 : Word).getLsbD i) = (0x22 : Word).getLsbD i := by decide
    apply BitVec.eq_of_getLsbD_eq
    intro i hi
    rw [mipNow, hs, BitVec.getLsbD_and, BitVec.getLsbD_or, Bool.and_or_distrib_right, (d i hi).2, BitVec.getLsbD_and, Bool.and_assoc, (d i hi).1, Bool.and_false, Bool.or_false]
  refine ⟨?_, ?_, rfl, rfl, by decide⟩
  · let s := { ctl with fw := { ctl.fw with mode := 1, mideleg := 0, mstatus := 0, mie := 0x22, mip := 0x222 } }
    show (match [11, 3, 7, 9, 1, 5].find? (fun k => (mipNow s &&& 0x22).getLsbD k) with | some k => some (k, false) | none => ([9, 1, 5].find? fun k => (mipNow s &&& 0).getLsbD k).map (·, true)) = _
    rw [h s rfl]
    rfl
  · let s := { ctl with fw := { ctl.fw with mode := 1, mideleg := 0x222, mstatus := 2, mie := 0x22, mip := 0x222 } }
    show (match [11, 3, 7, 9, 1, 5].find? (fun k => (mipNow s &&& 0).getLsbD k) with | some k => some (k, false) | none => ([9, 1, 5].find? fun k => (mipNow s &&& 0x22).getLsbD k).map (·, true)) = _
    rw [h s rfl, show mipNow s &&& 0 = 0 from BitVec.and_zero]
    rfl

/-! Tile instructions -/

/-- Command blocks of small shares in core 0's scratchpad (R354): an addition and a row sum of two FP32 values, a BF16 product over K 48 split in two, a sparse one. -/
def tcbAdd : BitVec 1024 := 0x1000000080002000101010000000010200000000000000000000000000000000100000008000200010101000000001010000000000000000000000000000000010000000800020001010100000000100000000000000000000000000000000000000000000000000000000000000002a2
def tcbSum : BitVec 1024 := 0x1000000040001000101010000000010200000000000000000000000000000000000000000000000000000000000000000000000000000000000000000000000010000000800020001010100000000100000000000000000000000000000000000000000000000000000000000000002a3
def tcbMul : BitVec 1024 := 0x1000000040001000101010000000010200000000000000000000000000000000400000002000100300101000000003000000000000000000000000000000000040000006000300001010100000000200000000000000000000000000000000000000000000000000000000000000102a0
def tcbSparse : BitVec 1024 := 0x1000000040001000401010000000070000000000000000000000000000000000400000002000100040101000000006000010100000000500000000000000000440000000800040004010100000000400000000000000000000000000000000000000000000000000000000000000002a1
/-- A die's block, its operands named by the core's path. -/
def tcbDie : BitVec 1024 := 0x1000000080002000101000000000010200000000000000000000000000000000100000008000200010100000000001010000000000000000000000000000000010000000800020001010000000000100000000000000000000000000000000000000000000000000000000000000004a2

def tcbBare : BitVec 1024 := 0x10000000800000001010000000000100000000000000000000000000000000000000000000000000000000000000004a2

/-- The scratchpad of core 0 with three of them at 0x100, 0x180 and 0x200, a block at 0x280 whose A has no column, and a sparse tile. -/
def tilePad : Memory := List.flatten [[(0x100, 162), (0x101, 2), (0x121, 16), (0x126, 1), (0x127, 1), (0x128, 1), (0x12a, 2), (0x12c, 8)],
    [(0x130, 1), (0x140, 16), (0x141, 16), (0x146, 1), (0x147, 1), (0x148, 1), (0x14a, 2), (0x14c, 8)],
    [(0x150, 1), (0x160, 32), (0x161, 16), (0x166, 1), (0x167, 1), (0x168, 1), (0x16a, 2), (0x16c, 8)],
    [(0x170, 1), (0x180, 163), (0x181, 2), (0x1a1, 16), (0x1a6, 1), (0x1a7, 1), (0x1a8, 1), (0x1aa, 2)],
    [(0x1ac, 8), (0x1b0, 1), (0x1e0, 32), (0x1e1, 16), (0x1e6, 1), (0x1e7, 1), (0x1e8, 1), (0x1ea, 1)],
    [(0x1ec, 4), (0x1f0, 1), (0x200, 162), (0x201, 4), (0x221, 16), (0x227, 1), (0x228, 1), (0x22a, 2)],
    [(0x22c, 8), (0x230, 1), (0x240, 16), (0x241, 16), (0x247, 1), (0x248, 1), (0x24a, 2), (0x24c, 8)],
    [(0x250, 1), (0x260, 32), (0x261, 16), (0x267, 1), (0x268, 1), (0x26a, 2), (0x26c, 8), (0x270, 1)],
    [(0x280, 162), (0x281, 4), (0x2a1, 16), (0x2a7, 1), (0x2a8, 1), (0x2ac, 8), (0x2b0, 1)]] ++ [(0x4001, 63), (0x4003, 64), (0x5000, 213), (0x5001, 66), (0x5002, 12), (0x5003, 1), (0x5005, 1), (0x500c, 3), (0x500e, 40), (0x500f, 1), (0x5010, 4)]

def tileRes : Res := { Res.reset with loaded := true, launch := 1, weight := 4, asid := 1 }

/-- A state whose launch has residents 0 of cores 0 to 3 loaded, with nodes of it in hand; `w` is the current context. -/
def tiled (w : Nat) (nodes : Tab Node) : State :=
  let s := launched loadedLaunch
  { s with
    cores := [(0, { Core.reset with scratch := tilePad })], nodes, agenda := [], cur := mainOf w
    residents := (0, tileRes) :: s.residents ++ [(4, tileRes), (8, tileRes), (12, tileRes)] }

/-- A tile resident's instruction not yet begun: its block and its share. -/
def inHand (b : BitVec 1024) (x : Share) : Node := { Node.reset with busy := true, tcb := b, share := x }

/-- How a share ends, put to a question. -/
def endOk {α : Type} (e : ShareEnd α) (p : State → Bool) : Bool := match e with | .ok s _ => p s | _ => false
theorem end_of {α : Type} {e : ShareEnd α} {p : State → Bool} (h : endOk e p = true) : ∃ s b, e = .ok s b ∧ p s = true := by
  cases e with
  | ok s b => exact ⟨s, b, rfl, h⟩
  | trap => cases h
  | fatal => cases h

/-- An instruction of a package at the end of its children: more than its one child passed, none under way, none faulted. -/
def pkgDone (b : BitVec 1024) : State := tiled (seatCtx (pkgNode 1)) [(pkgNode 1, { inHand b ⟨0, 1, 0, 1, 0, 1, 0, false⟩ with phase := 2 })]

theorem witness_TileInstructions_controller : let s := pkgDone (0xA0 + 2 ^ 8 * 5)
    let n := tileSeat s s.w
    n = pkgNode 1 ∧ isController s.w = true ∧ (s.node n).busy = true ∧ (s.node n).discard = false ∧ (Tcb.of (s.node n).tcb).op ≠ 0xA5 ∧ levelOf n ≠ 2 ∧ (childSeats s n).length < (s.node n).phase
    ∧ (s.node n).dispatched = [] ∧ faultedOf (s.node n) = [] := by decide
theorem witness_TileInstructions_faulted : let s := tiled (seatCtx (pkgNode 1)) [(pkgNode 1, { inHand (0xA0 + 2 ^ 8 * 5) ⟨0, 1, 0, 1, 0, 1, 0, false⟩ with phase := 2, children := [(0, .faulted 5)] })]
    (childSeats s (pkgNode 1)).length < (s.node (pkgNode 1)).phase ∧ (s.node (pkgNode 1)).dispatched = [] ∧ faultedOf (s.node (pkgNode 1)) ≠ [] := by decide
/-- `TATTN`, whose parameter block is read each time. -/
theorem witness_TileInstructions_attention : let s := pkgDone (0xA5 + 2 ^ 8 * 5 + 2 ^ 64 * 0x0100000000000300)
    let t := Tcb.of (s.node (tileSeat s s.w)).tcb
    t.op = 0xA5 ∧ ∃ pb u, agRead s (strandAg s s.w) (BitVec.ofNat 64 t.param) 64 .copy = (.ok pb, u) ∧ u.nodes = s.nodes ∧ u.launches = s.launches :=
  ⟨by decide, ok_of (by decide +kernel)⟩
/-- A core's share of an elementwise operation, from its first issue on. -/
theorem witness_TileInstructions_core : let s := tiled 0 [(coreNode 1 0, inHand tcbAdd ⟨0, 1, 0, 2, 0, 1, 0, false⟩)]
    let n := tileSeat s s.w
    let t := Tcb.of tcbAdd
    let u := s.setNode n { s.node n with phase := 1 }
    isTileRes s.w = true ∧ (s.node n).busy = true ∧ (s.node n).discard = false ∧ t.op ≠ 0xA5 ∧ levelOf n = 2 ∧ (s.node n).phase = 0 ∧ checkTcb 0xA2 2 (s.node n).tcb (Param.of (leNat [])) = .ok () ∧ rndOf t.rm = some .rne
    ∧ t.op ≠ 0xA0 ∧ t.op ≠ 0xA1 ∧ ∃ v b, runShare u (strandAg u s.w) t (Param.of (leNat [])) .rne (u.node n).share = .ok v b ∧ true = true :=
  by
    and_intros
    all_goals first | rfl | decide | exact end_of (p := fun _ => true) (by decide +kernel)
/-- The last two cores of a quad hold the two K parts of a product of one row and one column; the first of them, core 2, receives. -/
def splitMul (w : Nat) (x : Share) (child : Nat) : State :=
  tiled w [(coreNode 1 (w / 16), { inHand tcbMul x with phase := 1, parent := some (quadNode 1 0), child }), (quadNode 1 0, { inHand tcbMul ⟨0, 1, 0, 1, 0, 48, 0, false⟩ with children := [(2, .running), (3, .done)], dispatched := [2] })]

theorem witness_TileInstructions_parts : let s := splitMul 32 ⟨0, 1, 0, 1, 0, 24, 0, false⟩ 2
    let z := splitMul 48 ⟨0, 1, 0, 1, 24, 48, 0, false⟩ 3
    let t := Tcb.of tcbMul
    isTileRes s.w = true ∧ isTileRes z.w = true ∧ (s.node (tileSeat s s.w)).busy = true ∧ (s.node (tileSeat s s.w)).phase = 1 ∧ t.op = 0xA0
    ∧ groupOf s t (s.node (tileSeat s s.w)) ((stepDepth t.a.tag).getD 1) = (true, [(3, ⟨0, 1, 0, 1, 24, 48, 0, false⟩)]) ∧ partsDone s (s.node (tileSeat s s.w)) [(3, ⟨0, 1, 0, 1, 24, 48, 0, false⟩)] = true
    ∧ groupOf z t (z.node (tileSeat z z.w)) ((stepDepth t.a.tag).getD 1) = (false, [(2, ⟨0, 1, 0, 1, 0, 24, 0, false⟩)])
    ∧ (∃ v b, runProduct s (strandAg s s.w) t .rne ⟨0, 1, 0, 1, 0, 24, 0, false⟩ [⟨0, 1, 0, 1, 24, 48, 0, false⟩] = .ok v b ∧ true = true) ∧ ∃ v b, runPart z (strandAg z z.w) t ⟨0, 1, 0, 1, 24, 48, 0, false⟩ = .ok v b ∧ true = true :=
  by
    and_intros
    all_goals first | decide | exact end_of (p := fun _ => true) (by decide +kernel)
theorem witness_TileInstructions_sparse : let s := tiled 0 [(coreNode 1 0, { inHand tcbSparse ⟨0, 4, 0, 1, 0, 4, 0, false⟩ with phase := 1 })]
    let t := Tcb.of tcbSparse
    checkTcb 0xA1 2 tcbSparse (Param.of 0) = .ok () ∧ t.op = 0xA1
    ∧ (∃ hb z, agRead s (strandAg s s.w) (BitVec.ofNat 64 t.a.sphdr) 16 .copy = (.ok hb, z) ∧ groupOf z t (s.node (tileSeat s s.w)) (sparseDepth ((stepDepth t.a.tag).getD 1) (max 1 (SpHdr.of (leNat hb)).n) (max 1 (SpHdr.of (leNat hb)).m)) = (true, []))
    ∧ ∃ v b, runProduct s (strandAg s s.w) t .rne ⟨0, 4, 0, 1, 0, 4, 0, false⟩ [] = .ok v b ∧ true = true :=
  ⟨rfl, by decide, ok_of (by decide +kernel), end_of (p := fun _ => true) (by decide +kernel)⟩
/-- A stage resident with a block's address in s20 (the addition) and s21 (the row sum). -/
def staged : State := { poke ctl [(20, 0x0101000000000100), (21, 0x0101000000000180)] with cores := [(0, { Core.reset with scratch := tilePad })] }

/-- The block at a register's address is read, and its whole share runs to its end. -/
def runsWhole (a : BitVec 6) (b : BitVec 1024) : Prop := readTcb staged (strandAg staged staged.w) (staged.s a) = (.ok b, staged)
  ∧ ∃ v w, runShare staged (strandAg staged staged.w) (Tcb.of b) (Param.of 0) .rne (wholeShare (Tcb.of b)) = .ok v w ∧ (decide (v.cur = staged.cur) && decide (v.regs = staged.regs)) = true

theorem witness_TileInstructions_resident : Live staged false ∧ OwnStream staged ∧ isCore (nodeOf staged.w) = true ∧ isTileRes staged.w = false ∧ (staged.s 20).toNat % 128 = 0 ∧ (staged.s 21).toNat % 128 = 0 ∧ (∀ m ∈ staged.cctx.memq, m.isLoad = true)
    ∧ (placeMat 0 (Tcb.of tcbAdd).a true).isSome = true ∧ binaryOp (Tcb.of tcbAdd) = true ∧ (placeMat 0 (Tcb.of tcbAdd).b true).isSome = true ∧ (placeMat 0 (Tcb.of tcbSum).a true).isSome = true
    ∧ binaryOp (Tcb.of tcbSum) = false ∧ rndOf (Tcb.of tcbAdd).rm = some .rne ∧ runsWhole 20 tcbAdd ∧ runsWhole 21 tcbSum ∧ checkTcb 0xA2 2 tcbAdd (Param.of 0) = .ok () ∧ checkTcb 0xA3 2 tcbSum (Param.of 0) = .ok () :=
  by
    and_intros
    all_goals first | decide | rfl | exact end_of (p := fun v => decide (v.cur = staged.cur) && decide (v.regs = staged.regs)) (by decide +kernel)
theorem witness_TileInstructions_resident_calls : ∀ c ∈ calls [.s 17, .s 20] [0xA2, 0xA3], Callable staged c.1 false 0 c.2 := callable_all (by decide)


/-- The package controller, its level program and a tile resident, with the die's block at an address in s20 and another in s21. -/
def levelAt (w : Nat) (nodes : Tab Node) : State := poke { tiled w nodes with ctxs := [(w, { ctl.cctx with start := 0 })], residents := (tiled w nodes).residents ++ [(resKeyOf (levelCtx 1), { tileRes with weight := 8 })] }
  [(20, 0x0100000000000200), (21, 0x0100000000000300)]

theorem witness_TileInstructions_level : let s := levelAt (seatCtx (pkgNode 1)) []
    let p := levelAt (levelCtx 1) []
    let n := tileSeat s s.w
    Live s false ∧ isController s.w = true ∧ n = pkgNode 1 ∧ levelOf n = 5 ∧ (0 : BitVec 28).toNat < (childSeats s n).length ∧ (s.s 20).toNat % 128 = 0 ∧ s.cctx.memq = []
    ∧ (childSeats s n).getD (0 : BitVec 28).toNat none = some (dieNode 1 0) ∧ (Tcb.of tcbDie).op ≠ 0xA5 ∧ (Tcb.of tcbDie).level + 1 = levelOf n ∧ (s.node n).phase = 0 ∧ (s.node (dieNode 1 0)).inbox.length < 2
    ∧ isLevelProgram p.w = true ∧ OwnStream p ∧ tileSeat p p.w = n ∧ isTileRes (levelAt 0 []).w = true ∧ levelOf (tileSeat (levelAt (seatCtx (dieNode 1 0)) []) (seatCtx (dieNode 1 0))) ≠ 5
    ∧ ∃ bits u, readTcb s (strandAg s s.w) (s.s 20) = (.ok bits, u) ∧ bits = tcbDie ∧ u.cur = s.cur ∧ u.threads = s.threads ∧ u.nodes = s.nodes :=
  by
    and_intros
    all_goals first | decide | exact ok_of (by decide +kernel)
theorem witness_TileInstructions_level_calls : ∀ c ∈ calls [.s 20, .imm 0] [0xA6, 0xA7] ++ calls [.s 17] [0xA8] ++ calls [.s 17, .s 21] [0xA9], Callable (levelAt (levelCtx 1) []) c.1 false 0 c.2 := callable_all (by decide)
/-- A launch of another package, whose child has no seat here. -/
def elsewhere : Launch := { loadedLaunch with single := true, podmask := if Config.packageNumber.toNat = 0 then 2 else 1 }
theorem witness_TileInstructions_away : childSeats (launched elsewhere) (podNode 1) = [none] ∧ levelOf (podNode 1) = 6 := by
  refine ⟨?_, by decide⟩
  show (packagesOf elsewhere).map (fun p => if p = Config.packageNumber.toNat then some (pkgNode 1) else none) = [none]
  by_cases h : Config.packageNumber.toNat = 0
  · have e : packagesOf elsewhere = [1] := by simp only [packagesOf, elsewhere, h]; decide
    rw [e]; simp [h]
  · have e : packagesOf elsewhere = [0] := by simp only [packagesOf, elsewhere, h]; decide
    rw [e]; simp [Ne.symm h]
/-- Which die holds a byte is the device's own, so the block that a die needs nothing staged for is one whose A has no byte. -/
theorem witness_TileInstructions_stage : let s := poke (levelAt (seatCtx (pkgNode 1)) []) [(20, 0x0100000000000280)]
    let t := Tcb.of tcbBare
    (∃ bits u, readTcb s (strandAg s s.w) (s.s 20) = (.ok bits, u) ∧ bits = tcbBare ∧ u = s) ∧ t.db = 0 ∧ t.op ≠ 0xA5
    ∧ levelHeader s (strandAg s s.w) t (levelOf (tileSeat s s.w)) = (.ok none, s)
    ∧ ∃ v, stageAll (strandAg s s.w) (seatLaunch (tileSeat s s.w)) (agentOf (dieNode 1 0) - 513) ((s.s 20 + 32, partA t (wholeShare t)) :: ((partB t (wholeShare t)).map fun P => (s.s 20 + 64, P)).toList) s = .ok v [] ∧ v.cur = s.cur ∧ v.regs = s.regs :=
  ⟨⟨_, _, rfl, by rfl, rfl⟩, by decide, by decide, by rfl, ⟨_, by rfl, rfl, rfl⟩⟩
theorem witness_TileInstructions_wait : let s := fun x => levelAt (seatCtx (pkgNode 1)) [(pkgNode 1, x)]
    let n := pkgNode 1
    ((s { Node.reset with dispatched := [0] }).node n).dispatched ≠ [] ∧ ((s Node.reset).node n).dispatched = [] ∧ ((s Node.reset).node n).phase = 0 ∧ faultedOf ((s Node.reset).node n) = []
    ∧ ((s Node.reset).s 21).toNat % 8 = 0 ∧ faultedOf ((s { Node.reset with phase := 1, children := [(0, .faulted 5), (1, .cancelled)] }).node n) ≠ [] ∧ (s Node.reset).cctx.nStores < 63
    ∧ ∃ ps u, resolve (s { Node.reset with phase := 1, children := [(0, .faulted 5), (1, .cancelled)] }) (strandAg (s Node.reset) (s Node.reset).w) ((s Node.reset).s 21) 48 .wr .vec = (.ok ps, u) ∧ u.cur = (s Node.reset).cur
        ∧ u.threads = (s Node.reset).threads :=
  by
    and_intros
    all_goals first | decide | exact ok_of (by decide +kernel)

/-! Entries of the engines -/

/-- The scratchpad of core 0: a shape record of one run of 4 bytes at 0x200 (R198), an index 0 at 0x300. -/
def copyPad : Memory := [(0x200, 4), (0x204, 1), (0x206, 1), (0x208, 1)]

/-- The resident with one entry in a FIFO, a stage queue of its own with a slot of 4 KB filled or not. -/
def engined (f : Nat) (j : Job) (occ : List (Nat × Nat)) : State :=
  let s := launched { loadedLaunch with queues := [⟨1, 64, 0, 0, false, some 0, 0x6000, occ, 0, 1, []⟩] }
  onRes { s with cores := [(0, { Core.reset with scratch := copyPad })] } fun x =>
    { x with fifos := [(f, [.job j])], susp := [{ aJob with num := 0x071, args := copyArgs, word := BitVec.ofNat 28 5 }] }
where
  copyArgs : List Word := [0x0101000000001000, 0x0101000000002000, 0x0101000000000300, 1, 0x0101000000000200]

/-- The same with a region that has a dirty line. -/
def regioned (j : Job) : State := onRes (engined 1 j []) fun x => { x with regions := [(1, { aRegion with dirty := [0x10000 / 64] })] }

def jobFor (num : Nat) (args : List Word) : Job := { aJob with num, args }

/-- The entry is at the head and unfinished, no other resident's entry is under way, and its run ends with a status, or comes to a commit point. -/
def Runs (s : State) (f : Nat) (j : Job) (run : State → Job → CopyEnd) (more : Bool := false) : Prop :=
  headOf s 1 f j.num = some j ∧ j.fin = none ∧ copyBusy s 0 1 f = false
    ∧ ∃ u j' st, run (s.setCore 0 (if f = 1 then { s.core 0 with rrIn := 1 } else { s.core 0 with rrOut := 1 })) j = if more then .more u j' else .done u j' st

def copyOk (more : Bool) (e : CopyEnd) : Bool := match e with | .done .. => !more | .more .. => more | _ => false
theorem runs_of {s : State} {f : Nat} {j : Job} {run : State → Job → CopyEnd} {more : Bool} (h : headOf s 1 f j.num = some j) (hf : j.fin = none) (hb : copyBusy s 0 1 f = false)
    (hr : copyOk more (run (s.setCore 0 (if f = 1 then { s.core 0 with rrIn := 1 } else { s.core 0 with rrOut := 1 })) j) = true) : Runs s f j run more := by
  refine ⟨h, hf, hb, ?_⟩
  cases hc : run (s.setCore 0 (if f = 1 then { s.core 0 with rrIn := 1 } else { s.core 0 with rrOut := 1 })) j with
  | done u j' st => exact ⟨u, j', st, by cases more <;> simp_all [copyOk]⟩
  | more u j' => exact ⟨u, j', 0, by cases more <;> simp_all [copyOk]⟩
  | fatal => rw [hc] at hr; cases hr

def cpyJob : Job := jobFor 0x070 [0x0101000000001000, 0x0101000000002000, 0x0101000000000200]
def cpy2dJob : Job := jobFor 0x08F [0x0101000000001000, 0x0101000000002000, 4 + 2 ^ 24, 0]
def cpyfJob : Job := jobFor 0x074 [0x0101000000001000, 0x1234, 0x0101000000000200]
def indexedJob (num : Nat) : Job := jobFor num engined.copyArgs
def cpycJob : Job := { jobFor 0x075 [0x0101000000001000, 0x0101000000002000, 0x0101000000000200, 0] with fmt := BitVec.ofNat 28 (4 + 2 ^ 9 * 1) }
def cpywJob : Job := jobFor 0x076 [0x0101000010004000, 0x0101000000002000, 4]

theorem witness_EngineEntries_copies : (∀ f, f = 1 ∨ f = 2 → Runs (engined f cpyJob []) f cpyJob (runCpy 0 1 f)) ∧ Runs (engined 1 cpy2dJob []) 1 cpy2dJob (run2d 0 1 1) ∧ Runs (engined 1 cpyfJob []) 1 cpyfJob (runCpyf 0 1 1)
    ∧ Runs (engined 1 cpycJob []) 1 cpycJob (runCpyc 0 1 1) ∧ Runs (engined 1 cpywJob []) 1 cpywJob (runCpyw 0 1 1) := by
  refine ⟨?_, ?_, ?_, ?_, ?_⟩
  · rintro f (rfl | rfl) <;> exact runs_of (by decide +kernel) rfl (by decide +kernel) (by decide +kernel)
  all_goals exact runs_of (by decide +kernel) rfl (by decide +kernel) (by decide +kernel)
theorem witness_EngineEntries_indexed : (let s := engined 1 (indexedJob 0x071) []; Runs s 1 (indexedJob 0x071) (runCpyg (engineAg (s.setCore 0 { s.core 0 with rrIn := 1 }) 1 1)))
    ∧ (let s := engined 1 (indexedJob 0x072) []; Runs s 1 (indexedJob 0x072) (runCpys (engineAg (s.setCore 0 { s.core 0 with rrIn := 1 }) 1 1)))
    ∧ (let s := engined 1 (indexedJob 0x073) []; Runs s 1 (indexedJob 0x073) (runCpysa (engineAg (s.setCore 0 { s.core 0 with rrIn := 1 }) 1 1)))
    ∧ Runs (engined 1 (jobFor 0x077 [0]) []) 1 (jobFor 0x077 [0]) (runCpyres 0 1 1)
    ∧ (let j := jobFor 0x071 (engined.copyArgs.set 3 2); let s := engined 1 j []; Runs s 1 j (runCpyg (engineAg (s.setCore 0 { s.core 0 with rrIn := 1 }) 1 1)) true) :=
  by refine ⟨?_, ?_, ?_, ?_, ?_⟩ <;> exact runs_of (by decide +kernel) rfl (by decide +kernel) (by decide +kernel)
theorem witness_EngineEntries_queues : let push := jobFor 0x079 [0x0101000000002000, 0]
    let pop := jobFor 0x07A [0x0101000000002000, 0]
    let q : StageQ := ⟨1, 64, 0, 0, false, some 0, 0x6000, [], 0, 1, []⟩
    let full := { q with occ := [(0, 0)] }
    let l := fun x => { loadedLaunch with queues := [x] }
    jobQueue (engined 1 push []) 1 (arg push.args 1).toNat = some (1, l q, q) ∧ q.open = true ∧ Runs (engined 1 push []) 1 push (runQpush 1 1 0 1 q)
    ∧ jobQueue (engined 2 pop [(0, 0)]) 1 (arg pop.args 1).toNat = some (1, l full, full) ∧ full.occ ≠ [] ∧ Runs (engined 2 pop [(0, 0)]) 2 pop (runQpop 1 2 0 1 full) ∧ full.open = false
    ∧ headOf (engined 1 push [(0, 0)]) 1 1 0x079 = some push ∧ headOf (engined 2 pop []) 1 2 0x07A = some pop ∧ Runs (engined 1 (jobFor 0x07B [0, 0]) [(0, 0)]) 1 (jobFor 0x07B [0, 0]) (runQflush 1) :=
  ⟨rfl, by decide, runs_of (by decide +kernel) rfl (by decide +kernel) (by decide +kernel), rfl, by decide, runs_of (by decide +kernel) rfl (by decide +kernel) (by decide +kernel), by decide, by decide +kernel, by decide +kernel, runs_of (by decide +kernel) rfl (by decide +kernel) (by decide +kernel)⟩
theorem witness_EngineEntries_regions : (let j := jobFor 0x07D [1]; Runs (regioned j) 1 j (runRegion 0 1 1 false)) ∧ (let j := jobFor 0x07E [1]; Runs (regioned j) 1 j (runRegion 0 1 1 true))
    ∧ (let j := { jobFor 0x096 [0, 0, 0] with lanes := [0, 0, 0, 0] }; Runs (engined 1 j []) 1 j (runFetch 1)) :=
  by refine ⟨?_, ?_, ?_⟩ <;> exact runs_of (by decide +kernel) rfl (by decide +kernel) (by decide +kernel)
theorem witness_EngineEntries_move : let ag := strandAg ctl 4
    (∃ u, resolve ctl ag 0x4000 2 .rd .copy = (.ok (physRun 0x4000 2), u) ∧ ∃ v, resolve u ag 0x8FFF 2 .wr .copy = (.ok (physRun 0x8FFF 2), v)) ∧ 1 ≤ 2 ∧ 0x8FFF + 2 ≤ triggerBase := by
  refine ⟨⟨_, rfl, _, rfl⟩, by decide, by decide⟩
/-- A copy without a record, with another behind it. -/
def plainJob : Job := { aJob with evarm := 0 }
def finishing : State := onRes ctl fun x => { x with fifos := [(1, [.job plainJob, .job cpyJob])] }

theorem witness_EngineEntries_finish : (finishing.res 1).fifo 1 = .job plainJob :: [.job cpyJob] ∧ (∀ e ∈ [Ent.job cpyJob], ∃ i, e = Ent.job i) ∧ (∀ g, g ≠ 1 → (finishing.res 1).fifo g = []) ∧ plainJob.strand < 4 ∧ plainJob.ctr = 2
    ∧ recWanted plainJob 0 = false ∧ copySig plainJob.word = 0 ∧ plainJob.lanes = [] :=
  ⟨by decide, by simp, fun g hg => by
    have h : (finishing.res 1).fifos = [(1, [.job plainJob, .job cpyJob])] := rfl
    simp [Res.fifo, h, tget, hg], by decide, by decide, by decide, by decide, by decide⟩

/-! Selection and matrix entries -/

/-- An entry at the head of `sq`, the context with one layer of two blocks, a forced block, a candidate and a selection made; `cq.in` with so many entries. -/
def selecting (j : Job) (n : Nat) : State :=
  let s := onCtx (seat 3) fun c => { c with sel := { c.sel with layers := [BitVec.ofNat 512 (2 ^ 16 * 32 + 2 ^ 24 * 2)], cur := some 0, forced := [1], cands := [⟨0x3F800000, 0⟩], last := [0, 1] } }
  onRes s fun x => { x with fifos := [(1, List.replicate n (.job aJob)), (3, [.job j])] }

def selJob (num : Nat) (args : List Word) : Job := { aJob with num, strand := 3, ctr := 2, args }

/-- With an empty `cq.in` the four jobs enter it, with room for one they do not. -/
theorem witness_EngineEntries_selection : selBusy (selecting (selJob 0x092 [0]) 0) 0 1 = false ∧ let top := selJob 0x094 [0x0101000000001000, 1]
    let fet := selJob 0x096 [0, 0, 0]
    (∀ num ∈ [0x091, 0x092, 0x093, 0x094, 0x095, 0x096, 0x097], headOf (selecting (selJob num [0]) 0) 1 3 num = some (selJob num [0]))
    ∧ ((selecting (selJob 0x091 [0]) 0).ctx (ctxKey 1 3)).sel.layers[(arg (selJob 0x091 [0]).args 0).toNat]? = some (BitVec.ofNat 512 (2 ^ 16 * 32 + 2 ^ 24 * 2))
    ∧ arg (selJob 0x097 [0]).args 0 = 0 ∧ arg (selJob 0x097 [1]).args 0 ≠ 0 ∧ headOf (selecting (selJob 0x097 [1]) 0) 1 3 0x097 = some (selJob 0x097 [1])
    ∧ headOf (selecting top 0) 1 3 0x094 = some top ∧ top.fin = none ∧ ((selecting top 0).res 1).regions = []
    ∧ headOf (selecting fet 0) 1 3 0x096 = some fet ∧ 4 ≤ (emitFetches 1 fet 4 (4 - fet.cursor) fet.cursor (selecting fet 0)).1 ∧ (emitFetches 1 fet 4 (4 - fet.cursor) fet.cursor (selecting fet 31)).1 < 4
    ∧ headOf (selecting fet 31) 1 3 0x096 = some fet ∧ max 1 (2 * ((selecting fet 0).ctx (ctxKey 1 3)).sel.last.length) = 4 := by decide +kernel

/-- A tile of one FP32 element in bank 0, and an entry of `mq` about it. -/
def dot : CSlot := ⟨0, 1, 1, 1, 1, .rne, false, []⟩
def dotJob (num : Nat) (args : List Word) (descs : List (BitVec 256)) : Job := { aJob with num, strand := 1, ctr := 3, args, descs, tile := some dot, slot := 3 }
def multiplying (j : Job) : State := onRes (seat 1) fun x => { x with fifos := [(0, [.job j])], slots := [(3, dot)] }
def oneByOne : Word := BitVec.ofNat 64 (2 ^ 32 + 2 ^ 48)

def stepOk (e : StepEnd) : Bool := match e with | .ok .. => true | _ => false
theorem step_of {e : StepEnd} (h : stepOk e = true) : ∃ u b, e = .ok u b := by
  cases e with
  | ok u b => exact ⟨u, b, rfl⟩
  | trap => cases h
  | fatal => cases h

def zeroJob : Job := dotJob 0x046 [oneByOne] []
def loadJob : Job := dotJob 0x047 [oneByOne] [descAt 0x1000 1 1 2 4 0]
def drainJob : Job := { dotJob 0x048 [oneByOne] [descAt 0x1000 1 1 2 4 0] with fmt := drainFmt }
def peerJob : Job := { dotJob 0x049 [oneByOne, 0x0101000008000000] [] with fmt := BitVec.ofNat 28 (1 + 2048) }
def goJob : Job := dotJob 0x042 [0] [descAt 0x1000 1 24 48 4 0, descAt 0x2000 24 1 2 4 0]

/-- Each entry not begun, its first step runs; begun and at its end, it retires. -/
theorem witness_EngineEntries_matrix : let r := TileReg.of oneByOne
    let M : Mat := ⟨Desc.of (descAt 0x1000 1 1 2 4 0), 0, 0x1000, 0, true⟩
    let runs := fun (j : Job) (step : Nat → State → StepEnd) => j.started = false ∧ j.cursor ≠ r.rows ∧ ∃ u b, step j.cursor (vtCharge (multiplying j) 1 ((r.rows * r.cols + 383) / 384)) = .ok u b
    (∀ j ∈ [zeroJob, loadJob, drainJob, peerJob, goJob], headOf (multiplying j) 1 0 j.num = some j ∧ j.tile = some dot) ∧ placeMat 0 (Desc.of (descAt 0x1000 1 1 2 4 0)) true = some M
    ∧ rndOf (fmtRm drainJob.fmt) = some .rne ∧ accLoc 0 (arg peerJob.args 1).toNat = some (0, 0)
    ∧ runs zeroJob (mzeroStep 1 dot r) ∧ runs loadJob (mldaccStep 1 dot M r) ∧ runs drainJob (mdrainStep 1 drainJob dot M .rne r) ∧ runs peerJob (mpeerStep 1 peerJob dot 0 0 r)
    ∧ (∀ j ∈ [{ zeroJob with started := true, cursor := 1 }, { zeroJob with cursor := 1 }], headOf (multiplying j) 1 0 0x046 = some j ∧ j.cursor = r.rows) := by
  intro r M runs
  refine ⟨by decide +kernel, by decide, by decide, by decide, ?_, ?_, ?_, ?_, by decide +kernel⟩
  all_goals exact ⟨rfl, by decide, step_of (by decide +kernel)⟩
/-- A tile whose bands let the drain pass, and one of another group. -/
theorem witness_EngineEntries_bands : let r := TileReg.of oneByOne
    bandRefused dot r (drainJob.fmt.toNat / 2 ^ 9 % 4) = false ∧ bandRefused dot r (peerJob.fmt.toNat / 2 ^ 9 % 4) = false ∧ bandRefused { dot with bands := [(0, 2)] } r 0 = true := by decide

def sparseA : BitVec 256 := descAt 0x4000 4 4 8 4 (2 ^ 134 + 2 ^ 192 * 0x0101000000005000)
def sparseJob : Job := dotJob 0x042 [0] [sparseA, descAt 0x2000 4 1 2 4 0]
def sparseMul : State := onCore (multiplying sparseJob) fun k => { k with scratch := tile24 4 }

theorem witness_EngineEntries_steps : let A : Mat := ⟨Desc.of (descAt 0x1000 1 24 48 4 0), 0, 0x1000, 0, true⟩
    let B : Mat := ⟨Desc.of (descAt 0x2000 24 1 2 4 0), 0, 0x2000, 0, false⟩
    (Desc.of (descAt 0x1000 1 24 48 4 0)).sparse = false ∧ placeMat 0 (Desc.of (descAt 0x1000 1 24 48 4 0)) true = some A ∧ placeMat 0 (Desc.of (descAt 0x2000 24 1 2 4 0)) false = some B ∧ nestSteps goJob.nest = 1
    ∧ goJob.cursor ≠ 1 ∧ ∃ u b, mgoStep 1 goJob dot (.dense A) B goJob.cursor (vtCharge (multiplying goJob) 1 1) = .ok u b := by
  refine ⟨?_, ?_, ?_, ?_, ?_, step_of (by decide +kernel)⟩ <;> decide
theorem witness_EngineEntries_sparse : let B : Mat := ⟨Desc.of (descAt 0x2000 4 1 2 4 0), 0, 0x2000, 0, false⟩
    let h := rdNat (sparseMul.core 0).scratch 0x5000 16
    let T : SpTile := ⟨Desc.of sparseA, SpHdr.of h, 0, 0x4000, 0x5000, 0⟩
    headOf sparseMul 1 0 0x042 = some sparseJob ∧ (Desc.of sparseA).sparse = true ∧ placeSparse 0 (Desc.of sparseA) = some (0, 0x4000, 0x5000, 0) ∧ (sparseMul.res 1).regions = [] ∧ sparseJob.hdr = none
    ∧ headerCause h T = 0 ∧ gatherOk sparseJob.gathA T.lines = true ∧ placeMat 0 (Desc.of (descAt 0x2000 4 1 2 4 0)) false = some B
    ∧ ∃ u b, mgoStep 1 { sparseJob with hdr := some h } dot (.sparse T) B 0 (vtCharge sparseMul 1 (sparseCharge sparseMul 1 (Desc.of sparseA))) = .ok u b := by
  refine ⟨?_, ?_, ?_, ?_, ?_, ?_, ?_, ?_, step_of (by decide +kernel)⟩ <;> decide +kernel
/-- The last element of a full tile of 2 banks, a started entry, and an update that is due. -/
theorem witness_EngineEntries_rest : (∀ c < 1, cellOff dot (0 + 0) (0 + c) = some 0) ∧ dot.fmt ∈ [1, 2, 15] ∧ ({ zeroJob with started := true }).cursor < (TileReg.of oneByOne).rows
    ∧ (let u : TileUpd := ⟨12, 31, 0x1FFF, true, false, 1, none, none⟩
       let s := { onCore ctl fun k => { k with tupd := [u], tstat := [(31, ⟨0, 65535, 0, 0, 1⟩)] } with cycle := 12 }
       (s.core 0).tupd = [u] ∧ u.due ≤ s.cycle ∧ u.signal = none ∧ u.reply = none ∧ tget? (s.core 0).tstat u.bank = some ⟨0, 65535, 0, 0, 1⟩) := by decide

end Sys2Proof.Tests
end

section
/-! PROOF. Scalar integer instructions (R127 to R132): what an issue through `intOp` and `divOp` comes to, the values of the integer functions,
the words of their majors, and the statements settled from them. -/

namespace Sys2Proof.Machine

/-! ## Issuing -/

section
variable {s : State} {q : Bool} {i : Instr} {d : BitVec 6} {v v' b : Word}

/-- An unsquashed instruction whose meaning is one scalar result issues with it; `v'` is the value as a statement writes it. -/
theorem exec_of_intOp {lat : Nat} (hl : Live s q) (hi : exec i s = intOp s q lat d v) (hv : v = v') :
    exec i s = .next (issued s q lat 4 (toS s.regs d v')) := by
  rw [hi, hv, intOp, settle_ok hl]

/-- A division by a nonzero divisor raises nothing (R128). -/
theorem exec_of_divOp_of_ne_zero (hl : Live s q) (hi : exec i s = divOp s q d v b) (hb : b ≠ 0) (hv : v = v') :
    exec i s = .next (issued s q 12 4 (toS s.regs d v')) := by
  rw [hi, hv, divOp, divBits, if_neg hb, raising_zero, settle_ok hl]

/-- The condition of a zero divisor is enabled by bit 21 of `STATUS`, `IDZE` (R113). -/
theorem enabledBit_bIDZ (status : Word) : enabledBit status bIDZ = if status.getLsbD 21 then some 8 else none := by
  have low : ∀ n < 8, bIDZ.getLsbD n = false := by decide
  have top : bIDZ.getLsbD 8 = true := by decide
  simp only [enabledBit, List.find?, low 3 (by decide), low 4 (by decide), low 5 (by decide), low 6 (by decide), low 7 (by decide), top, Bool.false_and, Bool.true_and]
  cases status.getLsbD 21 <;> rfl

/-- A division by zero, its condition not enabled, issues with the condition's sticky bit (R128). -/
theorem exec_of_divOp_zero (hl : Live s q) (hi : exec i s = divOp s q d v b) (hb : b = 0) (he : s.cctx.status.getLsbD 21 = false) (hv : v = v') :
    exec i s = .next (issued s q 12 4 (toS s.regs d v' ++ [.sticky 0x100])) := by
  have quiet : enabledBit s.cctx.status bIDZ = none := by rw [enabledBit_bIDZ, he]; rfl
  rw [hi, hv, divOp, divBits, if_pos hb, raising_of_none quiet, settle_ok hl]
  rfl

/-- A division by zero whose condition is enabled traps ARITH (R128). -/
theorem exec_of_divOp_zero_enabled (hl : Live s q) (hi : exec i s = divOp s q d v b) (hb : b = 0) (he : s.cctx.status.getLsbD 21 = true) :
    exec i s = .next (takeTrap s { cls := 7, detail := 8 }) := by
  have raised : enabledBit s.cctx.status bIDZ = some 8 := by rw [enabledBit_bIDZ, he]; rfl
  rw [hi, divOp, divBits, if_pos hb, raising_of_some raised, settle_trap hl]
  rfl

end

/-! ## Predicates of a context's own stream -/

theorem pphys_lt_sixteen (rrb : BitVec 3) (n : BitVec 4) : pphys rrb n.toNat < 16 := by
  have := n.isLt
  unfold pphys
  split <;> omega

/-- Outside frames the registers at every depth are those in use. -/
theorem regsAt_own {s : State} (o : OwnStream s) (depth : Nat) : s.regsAt s.cur depth = s.regs := by
  have hs : (s.thr s.cur).stack = [] := o.1
  rw [State.regsAt, mainOf_ctxOf o.2]
  split <;> simp [Thread.base, Thread.atDepth, hs, State.regs, State.cthr]

/-- A predicate source outside frames: rotated, and all ones at place 0 (R105, R106). -/
theorem psrc_own {s : State} (o : OwnStream s) (n : BitVec 4) : psrc s n = .ok (ownMask s n) := by
  have hp : pslot s n = .ok (ownP s n) := by rw [pslot, o.1]; rfl
  have ha : pAt s (ownP s n) = ownMask s n := by
    rw [pAt, State.pAt, regsAt_own o, Nat.mod_eq_of_lt (pphys_lt_sixteen _ n)]
    rfl
  rw [← ha, psrc, hp]
  rfl

/-- Bit 0 of a predicate outside frames. -/
theorem ownMask_bit_zero (s : State) (n : BitVec 4) : (ownMask s n).getLsbD 0 = true ↔ ownP s n = 0 ∨ (tget 0 s.regs.p (ownP s n)).getLsbD 0 = true := by
  unfold ownMask
  split <;> simp [*]

/-! ## Values: products, quotients, remainders -/

theorem mulhWord_eq (a b : Word) : mulhWord a b = BitVec.ofInt 64 (a.toInt * b.toInt / 2 ^ 64) := by
  have product : (a.signExtend 128 * b.signExtend 128 : BitVec 128) = BitVec.ofInt 128 (a.toInt * b.toInt) := (BitVec.ofInt_mul _ _).symm
  apply BitVec.eq_of_toNat_eq
  rw [mulhWord, product]
  simp only [BitVec.extractLsb'_toNat, BitVec.toNat_ofInt, Nat.shiftRight_eq_div_pow]
  generalize a.toInt * b.toInt = z
  omega

/-- R127's quotient, toward zero. -/
theorem divWord_of_ne_zero {b : Word} (hb : b ≠ 0) (a : Word) : divWord a b = BitVec.ofInt 64 (a.toInt.tdiv b.toInt) := by
  rw [divWord, if_neg hb]
  exact BitVec.eq_of_toInt_eq (by rw [BitVec.toInt_sdiv, BitVec.toInt_ofInt])

/-- R127's remainder, with the dividend's sign. -/
theorem remWord_of_ne_zero {b : Word} (hb : b ≠ 0) (a : Word) : remWord a b = BitVec.ofInt 64 (a.toInt.tmod b.toInt) := by
  rw [remWord, if_neg hb, ← BitVec.toInt_srem, BitVec.ofInt_toInt]

theorem divWord_mul_add_remWord {b : Word} (hb : b ≠ 0) (a : Word) : a = divWord a b * b + remWord a b := by
  calc a = BitVec.ofInt 64 (a.toInt.tdiv b.toInt * b.toInt + a.toInt.tmod b.toInt) := by rw [Int.tdiv_mul_add_tmod, BitVec.ofInt_toInt]
    _ = divWord a b * b + remWord a b := by
      rw [BitVec.ofInt_add, BitVec.ofInt_mul, BitVec.ofInt_toInt, divWord_of_ne_zero hb, remWord_of_ne_zero hb]

theorem natAbs_remWord_lt {b : Word} (hb : b ≠ 0) (a : Word) : (remWord a b).toInt.natAbs < b.toInt.natAbs := by
  have pos : 0 < b.toInt.natAbs := Int.natAbs_pos.mpr fun h => hb (BitVec.eq_of_toInt_eq h)
  rw [remWord, if_neg hb, BitVec.toInt_srem, Int.natAbs_tmod]
  exact Nat.mod_lt _ pos

/-! ## Values: shifts and orders -/

theorem shiftLeft_eq_ofNat (x : Word) (n : Nat) : x <<< n = BitVec.ofNat 64 (x.toNat * 2 ^ n) :=
  BitVec.eq_of_toNat_eq (by simp [Nat.shiftLeft_eq])

theorem ushiftRight_eq_ofNat (x : Word) (n : Nat) : x >>> n = BitVec.ofNat 64 (x.toNat / 2 ^ n) := by
  rw [← Nat.shiftRight_eq_div_pow, ← BitVec.toNat_ushiftRight, BitVec.ofNat_toNat, BitVec.setWidth_eq]

theorem sshiftRight_eq_ofInt (x : Word) (n : Nat) : x.sshiftRight n = BitVec.ofInt 64 (x.toInt / 2 ^ n) := by
  rw [BitVec.sshiftRight_eq, Int.shiftRight_eq_div_pow]; norm_cast

/-- The shift amount of the register forms is the low six bits of b (R127). -/
theorem shiftAmount_eq (y : Word) : y.toNat % 64 = (y.extractLsb' 0 6).toNat := by simp

/-- A signed comparison that chooses between words equal at equality may be read as "less" or as "not greater". -/
theorem ite_slt_eq {x y u v : Word} (h : x = y → u = v) : (if x.slt y then u else v) = if x.toInt ≤ y.toInt then u else v := by
  simp only [BitVec.slt_iff_toInt_lt]
  rcases Int.lt_trichotomy x.toInt y.toInt with hlt | heq | hgt
  · rw [if_pos hlt, if_pos (Int.le_of_lt hlt)]
  · rw [h (BitVec.eq_of_toInt_eq heq), ite_self, ite_self]
  · rw [if_neg (Int.not_lt.mpr (Int.le_of_lt hgt)), if_neg (Int.not_le.mpr hgt)]

theorem minWord_eq (x y : Word) : minWord x y = if x.toInt ≤ y.toInt then x else y := ite_slt_eq id

theorem maxWord_eq (x y : Word) : maxWord x y = if x.toInt ≤ y.toInt then y else x := ite_slt_eq Eq.symm

theorem minWord_eq_ofInt_min (x y : Word) : minWord x y = BitVec.ofInt 64 (min x.toInt y.toInt) := by
  rw [minWord_eq, Int.min_def]
  split <;> rw [BitVec.ofInt_toInt]

theorem maxWord_eq_ofInt_max (x y : Word) : maxWord x y = BitVec.ofInt 64 (max x.toInt y.toInt) := by
  rw [maxWord_eq, Int.max_def]
  split <;> rw [BitVec.ofInt_toInt]

/-- An immediate is sign-extended: it keeps its number (R129). -/
theorem sx_eq_ofInt {n : Nat} (i : BitVec n) : sx i = BitVec.ofInt 64 i.toInt := rfl

theorem toInt_sx {n : Nat} (h : n ≤ 64) (i : BitVec n) : (sx i).toInt = i.toInt := BitVec.toInt_signExtend_of_le h

/-! ## Values: counts of bits -/

/-- What `clzWord` has counted after looking at the bits below `k`, from the lowest up. -/
def clzBelow (a : Word) (k : Nat) : Nat := (List.range k).foldl (fun n i => if a.getLsbD i then 63 - i else n) 64

theorem clzWord_eq (a : Word) : clzWord a = BitVec.ofNat 64 (clzBelow a 64) := rfl

theorem clzBelow_succ (a : Word) (k : Nat) : clzBelow a (k + 1) = if a.getLsbD k then 63 - k else clzBelow a k := by
  simp [clzBelow, List.range_succ]

/-- The count names the highest one bit below `k`, or is 64 where there is none. -/
theorem clzBelow_spec (a : Word) (k : Nat) (hk : k ≤ 64) :
    clzBelow a k ≤ 64 ∧ (∀ i < k, 64 - clzBelow a k ≤ i → a.getLsbD i = false) ∧ (clzBelow a k < 64 → a.getLsbD (63 - clzBelow a k) = true) := by
  induction k with
  | zero => simp [clzBelow]
  | succ k ih =>
    obtain ⟨hle, hzero, hone⟩ := ih (by omega)
    rw [clzBelow_succ]
    by_cases hb : a.getLsbD k = true
    · rw [if_pos hb]
      refine ⟨by omega, fun i hi h => by omega, fun _ => ?_⟩
      rwa [show 63 - (63 - k) = k by omega]
    · rw [if_neg hb]
      refine ⟨hle, fun i hi h => ?_, hone⟩
      rcases Nat.lt_succ_iff_lt_or_eq.mp hi with hi | rfl
      · exact hzero i hi h
      · exact eq_false_of_ne_true hb

/-- Counting up by a fold counts. -/
theorem foldl_count {α : Type} (p : α → Bool) (l : List α) (n : Nat) : l.foldl (fun n i => if p i then n + 1 else n) n = n + l.countP p := by
  induction l generalizing n with
  | nil => rfl
  | cons x l ih =>
    rw [List.foldl_cons, ih, List.countP_cons]
    split <;> omega

theorem popcWord_eq (a : Word) : popcWord a = BitVec.ofNat 64 ((List.range 64).countP fun i => a.getLsbD i) := by
  rw [popcWord, foldl_count, Nat.zero_add]

/-! ## Values: bit fields (R130, R131) -/

theorem lui_value_eq (i : BitVec 19) : (i ++ 0#13).signExtend 64 = BitVec.ofInt 64 (i.toInt * 2 ^ 13) := by
  have h : (i ++ 0#13).toInt = i.toInt * 2 ^ 13 := by
    rw [BitVec.toInt_append, if_neg (by decide), BitVec.toNat_ofNat, Nat.zero_mod, Int.natCast_zero, Int.add_zero, Int.mul_comm]
  rw [BitVec.signExtend, h]

/-- The field of width `w + 1` at `p` moved to the top of the word. -/
theorem toNat_field_at_top (v : Word) (p : Nat) {w : Nat} (hw : w < 64) :
    ((v >>> p) <<< (63 - w)).toNat = v.toNat / 2 ^ p % 2 ^ (w + 1) * 2 ^ (63 - w) := by
  have whole : 2 ^ 64 = 2 ^ (w + 1) * 2 ^ (63 - w) := by rw [← Nat.pow_add, show w + 1 + (63 - w) = 64 by omega]
  rw [BitVec.toNat_shiftLeft, BitVec.toNat_ushiftRight, Nat.shiftRight_eq_div_pow, Nat.shiftLeft_eq, whole, Nat.mul_mod_mul_right]

/-- The number of a word whose top `w + 1` bits hold `f` and whose other bits are zero. -/
theorem toInt_of_field_at_top {x : Word} {f w : Nat} (hw : w < 64) (hx : x.toNat = f * 2 ^ (63 - w)) :
    x.toInt = (if 2 ^ w ≤ f then (f : Int) - 2 ^ (w + 1) else f) * 2 ^ (63 - w) := by
  have half : 2 ^ 63 = 2 ^ w * 2 ^ (63 - w) := by rw [← Nat.pow_add, show w + (63 - w) = 63 by omega]
  have pos : 0 < 2 ^ (63 - w) := Nat.two_pow_pos _
  have whole : (2 : Int) ^ 64 = 2 ^ (w + 1) * 2 ^ (63 - w) := by rw [← Int.pow_add, show w + 1 + (63 - w) = 64 by omega]
  have sign : 2 * x.toNat < 2 ^ 64 ↔ f < 2 ^ w := by
    rw [hx, show 2 ^ 64 = 2 * 2 ^ 63 from rfl, half, Nat.mul_lt_mul_left (by decide), Nat.mul_lt_mul_right pos]
  have cast : (x.toNat : Int) = f * 2 ^ (63 - w) := by rw [hx, Int.natCast_mul, Int.natCast_pow]; rfl
  rw [BitVec.toInt_eq_toNat_cond, cast]
  by_cases h : 2 ^ w ≤ f
  · rw [if_neg (by rw [sign]; omega), if_pos h, Int.sub_mul, ← whole]
    rfl
  · rw [if_pos (by rw [sign]; omega), if_neg h]

/-- The field as an unsigned or a signed number (R131). -/
theorem bfxWord_eq (v : Word) (p : Nat) {w : Nat} (hw : w < 64) (x : Bool) :
    let f := v.toNat / 2 ^ p % 2 ^ (w + 1)
    bfxWord v p w x = BitVec.ofInt 64 (if x ∧ 2 ^ w ≤ f then (f : Int) - 2 ^ (w + 1) else f) := by
  intro f
  have top : ((v >>> p) <<< (63 - w)).toNat = f * 2 ^ (63 - w) := toNat_field_at_top v p hw
  cases x with
  | false =>
    simp only [bfxWord, Bool.false_eq_true, if_false, false_and]
    rw [ushiftRight_eq_ofNat, top, Nat.mul_div_cancel _ (Nat.two_pow_pos _)]
    rfl
  | true =>
    simp only [bfxWord, if_true, true_and]
    rw [sshiftRight_eq_ofInt, toInt_of_field_at_top hw top, Int.mul_ediv_cancel _ (Int.pow_ne_zero (by decide))]

/-- Insertion replaces the field's bits and no other (R131). -/
theorem getLsbD_bfiWord (old v : Word) {p w j : Nat} (hw : w < 64) (hj : j < 64) :
    (bfiWord old v p w).getLsbD j = if p ≤ j ∧ j < p + (w + 1) then v.getLsbD (j - p) else old.getLsbD j := by
  have mask : ((ones >>> (63 - w)) <<< p).getLsbD j = decide (p ≤ j ∧ j < p + (w + 1)) := by
    simp only [BitVec.getLsbD_shiftLeft, BitVec.getLsbD_ushiftRight, ones, BitVec.getLsbD_allOnes, hj, decide_true, Bool.true_and, ← decide_not, ← Bool.decide_and]
    congr 1; apply propext; omega
  simp only [bfiWord, BitVec.getLsbD_or, BitVec.getLsbD_and, BitVec.getLsbD_not, mask, BitVec.getLsbD_shiftLeft, hj, decide_true, Bool.true_and]
  by_cases h : p ≤ j ∧ j < p + (w + 1) <;> simp [h]

/-! ## Words of the integer majors -/

section
variable (m : BitVec 6) (q : Bool) (x : BitVec 25) (d a b : BitVec 6) (f : BitVec 7) (i : BitVec 13)

@[simp] theorem majorOf_pack : majorOf (pack m q x) = m :=
  (BitVec.extractLsb'_append_eq_of_le (by decide)).trans BitVec.extractLsb'_append_eq_left
@[simp] theorem squashOf_pack : squashOf (pack m q x) = q := by
  rw [squashOf, pack, BitVec.getLsbD_append, if_neg (by decide), BitVec.getLsbD_append, if_pos (by decide)]
  cases q <;> rfl
@[simp] theorem lowOf_pack : lowOf (pack m q x) = x := BitVec.extractLsb'_append_eq_right
@[simp] theorem bOf_fmtA : bOf (fmtA d a b f) = b :=
  (BitVec.extractLsb'_append_eq_of_le (by decide)).trans BitVec.extractLsb'_append_eq_right
@[simp] theorem funcOf_fmtA : funcOf (fmtA d a b f) = f := BitVec.extractLsb'_append_eq_right

theorem extract_fmtA {start len : Nat} (h : start + len ≤ 7) : (fmtA d a b f).extractLsb' start len = f.extractLsb' start len :=
  BitVec.extractLsb'_append_eq_of_add_le h
theorem extract_fmtI {start len : Nat} (h : start + len ≤ 13) : (fmtI d a i).extractLsb' start len = i.extractLsb' start len :=
  BitVec.extractLsb'_append_eq_of_add_le h
@[simp] theorem getLsbD_zero_fmtA : (fmtA d a b f).getLsbD 0 = f.getLsbD 0 := by
  rw [fmtA, BitVec.getLsbD_append, if_pos (by decide)]

theorem decodeWord_major_01 : decodeWord (pack 0x01 q x) = decInt q x := by
  rw [decodeWord, majorOf_pack, squashOf_pack, lowOf_pack]; rfl
theorem decodeWord_major_07 : decodeWord (pack 0x07 q x) = decShiftImm q x := by
  rw [decodeWord, majorOf_pack, squashOf_pack, lowOf_pack]; rfl
theorem decodeWord_major_0A : decodeWord (pack 0x0A q x) =
    ranged (decide ((bOf x).toNat + (x.extractLsb' 1 6).toNat + 1 ≤ 64)) (.bfx q (dOf x) (aOf x) (bOf x) (x.extractLsb' 1 6) (x.getLsbD 0)) := by
  rw [decodeWord, majorOf_pack, squashOf_pack, lowOf_pack]; rfl
theorem decodeWord_major_0B : decodeWord (pack 0x0B q x) =
    if x.getLsbD 0 then .error .field
    else ranged (decide ((bOf x).toNat + (x.extractLsb' 1 6).toNat + 1 ≤ 64)) (.bfi q (dOf x) (aOf x) (bOf x) (x.extractLsb' 1 6)) := by
  rw [decodeWord, majorOf_pack, squashOf_pack, lowOf_pack]; rfl

end

/-- R127: the b field of `CLZ` and `POPC` is zero. -/
theorem decInt_clz_error (q : Bool) (d a : BitVec 6) {b : BitVec 6} (hb : b ≠ 0) : decInt q (fmtA d a b 0x0E) = .error .field := by
  rw [decInt, funcOf_fmtA, bOf_fmtA]
  exact if_neg (by simpa using hb)
theorem decInt_popc_error (q : Bool) (d a : BitVec 6) {b : BitVec 6} (hb : b ≠ 0) : decInt q (fmtA d a b 0x0F) = .error .field := by
  rw [decInt, funcOf_fmtA, bOf_fmtA]
  exact if_neg (by simpa using hb)

/-- R129: shift kind 3 is no shift. -/
theorem decShiftImm_kind_error (q : Bool) {x : BitVec 25} (h : x.extractLsb' 11 2 = 3) : decShiftImm q x = .error .code := by
  rw [decShiftImm, h]; rfl

/-- R129: bits 10..6 of a shift by an immediate are zero. -/
theorem decShiftImm_field_error (q : Bool) {x : BitVec 25} (h : x.extractLsb' 6 5 ≠ 0) : ∃ e, decShiftImm q x = .error e := by
  have z : (x.extractLsb' 6 5 == 0) = false := by simpa using h
  rw [decShiftImm, z]
  split <;> exact ⟨_, rfl⟩

/-- A count, amount or field outside its range is refused (R64). -/
theorem ranged_error {ok : Prop} [Decidable ok] (h : ¬ ok) (i : Instr) : ranged (decide ok) i = .error .range := by
  rw [ranged, decide_eq_false h]; rfl

/-- The width field of a bit-field word, bits 6..1. -/
theorem toNat_width_fmtA (d a p : BitVec 6) (w : BitVec 7) : ((fmtA d a p w).extractLsb' 1 6).toNat = w.toNat / 2 := by
  rw [extract_fmtA _ _ _ _ (by decide), BitVec.extractLsb'_toNat, Nat.shiftRight_eq_div_pow]
  omega

/-- R131: a field that runs past bit 63 is out of range. -/
theorem decodeWord_bfx_error (q : Bool) (d a p : BitVec 6) {w : BitVec 7} (h : 64 < p.toNat + w.toNat / 2 + 1) :
    decodeWord (pack 0x0A q (fmtA d a p w)) = .error .range := by
  rw [decodeWord_major_0A]
  exact ranged_error (by rw [bOf_fmtA, toNat_width_fmtA]; omega) _

/-- R131: so for `BFI`, whose bit 0 is zero. -/
theorem decodeWord_bfi_error (q : Bool) (d a p : BitVec 6) {w : BitVec 7} (h : 64 < p.toNat + w.toNat / 2 + 1 ∨ w.getLsbD 0 = true) :
    ∃ e, decodeWord (pack 0x0B q (fmtA d a p w)) = .error e := by
  rw [decodeWord_major_0B]
  by_cases low : (fmtA d a p w).getLsbD 0 = true
  · exact ⟨_, if_pos low⟩
  · have range := h.resolve_right (by rwa [getLsbD_zero_fmtA] at low)
    rw [if_neg low]
    exact ⟨_, ranged_error (by rw [bOf_fmtA, toNat_width_fmtA]; omega) _⟩

/-! ## The statements -/

/-- `CLZ` gives the number of zero bits above the highest one bit (R127). -/
theorem exec_clz {s : State} {q : Bool} (hl : Live s q) (d a : BitVec 6) :
    ∃ n : Nat, exec (.clz q d a) s = .next (issued s q 1 4 (toS s.regs d (BitVec.ofNat 64 n)))
      ∧ n ≤ 64 ∧ (∀ i, 64 - n ≤ i → (s.s a).getLsbD i = false) ∧ (n < 64 → (s.s a).getLsbD (63 - n) = true) := by
  obtain ⟨hle, hzero, hone⟩ := clzBelow_spec (s.s a) 64 (Nat.le_refl 64)
  refine ⟨clzBelow (s.s a) 64, exec_of_intOp hl rfl (clzWord_eq _), hle, fun i hi => ?_, hone⟩
  by_cases h : i < 64
  · exact hzero i h hi
  · exact BitVec.getLsbD_of_ge _ _ (by omega)

/-- Settles O1: each form is one scalar result, whose value a lemma gives as the table has it. -/
theorem integerRegisterForms : Obligations.IntegerRegisterForms := by
  refine ⟨?_, rfl, rfl, fun q d a b hb => ⟨?_, ?_⟩⟩
  · intro s q d a b hl x y sh
    have hsh : y.toNat % 64 = sh := shiftAmount_eq y
    exact ⟨exec_of_intOp hl rfl rfl, exec_of_intOp hl rfl rfl, exec_of_intOp hl rfl rfl, exec_of_intOp hl rfl (mulhWord_eq _ _),
      fun hy => exec_of_divOp_of_ne_zero hl rfl hy (divWord_of_ne_zero hy _), fun hy => exec_of_divOp_of_ne_zero hl rfl hy (remWord_of_ne_zero hy _),
      exec_of_intOp hl rfl rfl, exec_of_intOp hl rfl rfl, exec_of_intOp hl rfl rfl,
      exec_of_intOp hl rfl (hsh ▸ shiftLeft_eq_ofNat _ _), exec_of_intOp hl rfl (hsh ▸ ushiftRight_eq_ofNat _ _),
      exec_of_intOp hl rfl (hsh ▸ sshiftRight_eq_ofInt _ _), exec_of_intOp hl rfl (minWord_eq _ _), exec_of_intOp hl rfl (maxWord_eq _ _),
      exec_clz hl d a, exec_of_intOp hl rfl (popcWord_eq _)⟩
  · exact ⟨_, (decodeWord_major_01 _ _).trans (decInt_clz_error q d a hb)⟩
  · exact ⟨_, (decodeWord_major_01 _ _).trans (decInt_popc_error q d a hb)⟩

/-- Settles O2: by the divisor, zero with its condition enabled or not, or nonzero. -/
theorem divisionBorders : Obligations.DivisionBorders := by
  intro s q d a b hl
  refine ⟨fun hb he => ⟨?_, ?_⟩, fun hb he => ⟨?_, ?_⟩, fun ha hb => ?_, fun hb => ?_⟩
  · exact exec_of_divOp_zero hl rfl hb he (if_pos hb)
  · exact exec_of_divOp_zero hl rfl hb he (if_pos hb)
  · exact exec_of_divOp_zero_enabled hl rfl hb he
  · exact exec_of_divOp_zero_enabled hl rfl hb he
  · have hne : s.s b ≠ 0 := by rw [hb]; decide
    exact ⟨exec_of_divOp_of_ne_zero hl rfl hne (by rw [ha, hb]; decide), exec_of_divOp_of_ne_zero hl rfl hne (by rw [ha, hb]; decide)⟩
  · exact ⟨divWord (s.s a) (s.s b), remWord (s.s a) (s.s b), exec_of_divOp_of_ne_zero hl rfl hb rfl, exec_of_divOp_of_ne_zero hl rfl hb rfl,
      divWord_mul_add_remWord hb _, natAbs_remWord_lt hb _⟩

/-- Settles O3: each form computes with its sign-extended immediate or its shift amount. -/
theorem integerImmediateForms : Obligations.IntegerImmediateForms := by
  refine ⟨?_, rfl, rfl, fun q d a i h => ?_⟩
  · intro s q d a n i j hl x k
    have hk : sx i = k := sx_eq_ofInt i
    have hj : (sx j).toInt = j.toInt := toInt_sx (by decide) j
    exact ⟨exec_of_intOp hl rfl (hk ▸ rfl), exec_of_intOp hl rfl (hk ▸ rfl), exec_of_intOp hl rfl (hk ▸ rfl), exec_of_intOp hl rfl (hk ▸ rfl),
      exec_of_intOp hl rfl (hk ▸ rfl), exec_of_intOp hl rfl (shiftLeft_eq_ofNat _ _), exec_of_intOp hl rfl (ushiftRight_eq_ofNat _ _),
      exec_of_intOp hl rfl (sshiftRight_eq_ofInt _ _), exec_of_intOp hl rfl (hj ▸ minWord_eq_ofInt_min _ _), exec_of_intOp hl rfl (hj ▸ maxWord_eq_ofInt_max _ _)⟩
  · rw [decodeWord_major_07]
    rcases h with kind | field
    · exact ⟨_, decShiftImm_kind_error q (by rwa [extract_fmtI _ _ _ (by decide)])⟩
    · exact decShiftImm_field_error q (by rwa [extract_fmtI _ _ _ (by decide)])

/-- `SEL` outside frames chooses by bit 0 of its predicate (R132). -/
theorem exec_sel {s : State} {q : Bool} (hl : Live s q) (o : OwnStream s) (d a b : BitVec 6) (k : BitVec 4) :
    exec (.sel q d a b k) s
      = .next (issued s q 1 4 (toS s.regs d (if ownP s k = 0 ∨ (tget 0 s.regs.p (ownP s k)).getLsbD 0 then s.s a else s.s b))) := by
  have arm : exec (.sel q d a b k) s = intOp s q 1 d (if (ownMask s k).getLsbD 0 then s.s a else s.s b) := by
    show execSel q d a b k s = _
    rw [execSel, psrc_own o]
  exact exec_of_intOp hl arm (by simp only [ownMask_bit_zero])

/-- Settles O4: the values of `LUI`, `BFX` and `BFI`, and the choice of `SEL`. -/
theorem fieldsAndSelection : Obligations.FieldsAndSelection := by
  refine ⟨?_, rfl, rfl, rfl, rfl, by decide, fun q d a p w => ⟨fun h => ⟨_, decodeWord_bfx_error q d a p h⟩, decodeWord_bfi_error q d a p⟩⟩
  intro s q d a b p w i x hl
  refine ⟨exec_of_intOp hl rfl (lui_value_eq i), fun _ => ?_, fun k m o hm => ?_⟩
  · have hw : w.toNat < 64 := w.isLt
    exact ⟨exec_of_intOp hl rfl (bfxWord_eq _ _ hw x), _, exec_of_intOp hl rfl rfl, fun j hj => getLsbD_bfiWord _ _ hw hj⟩
  · subst hm
    exact exec_sel hl o d a b k

end Sys2Proof.Machine
end
